-- ==== Sys2Proof/Word.lean ====
section
/-! DEFINITION. The byte of the serial line, and the fixed-size tables used for the block's like things.

Everything else the manual counts (deci-degrees, joules, millilitres, seconds) is a whole number and is held as
`Int` or `Nat` (00_scope.md, 5.3); bit vectors appear only where the manual has bits: bytes on the line, the
check register, and the 16-bit and 32-bit counters that wrap. -/

namespace Sys2Proof

/-- One byte of a frame (R186). -/
abbrev Byte := BitVec 8

/-- A whole table written from a function of the index. It is built on `List.ofFn` because the kernel can
evaluate that (it cannot evaluate `Vector.map`). -/
def tabulate {α : Type} {n : Nat} (f : Fin n → α) : Vector α n := ⟨⟨List.ofFn f⟩, by simp⟩

@[simp] theorem tabulate_get {α : Type} {n : Nat} (f : Fin n → α) (i : Fin n) : (tabulate f)[i] = f i := by
  simp [tabulate]

theorem Vector_set_get {α : Type} {n : Nat} (v : Vector α n) (i j : Fin n) (x : α) :
    (v.set i x)[j] = if i = j then x else v[j] := by
  simp [Vector.getElem_set, Fin.ext_iff]

end Sys2Proof
end

