-- ==== Sys2Proof/Syntax.lean ====
section
/-! DEFINITION. The commands of the block: one constructor of `Instr` per row of spec/opcode_table.json, in the
table's order.

The table gives the rows no operand bits. A command carries what the manual's event carries: a received byte and
its framing error, the payload of a request frame, the channel and raw reading of a conversion, the slot, zone,
line, meter or input whose timer or level the event concerns. Messages between blocks carry nothing: they are
taken from the queues of `State` that hold them. -/

namespace Sys2Proof

/-- The two pulse meters (chapter 3). -/
inductive Meter where
  | draw | loop
  deriving DecidableEq, Repr

/-- The three zones (chapter 4). -/
inductive Zone where
  | top | mid | low
  deriving DecidableEq, Repr

/-- The four further source slots, 1 to 4 (R80). Slot 0 is the solar loop and has no place here. -/
inductive SlotId where
  | s1 | s2 | s3 | s4
  deriving DecidableEq, Repr

/-- The commands. -/
inductive Instr where
  /- Resets and the serial line (chapter 11). -/
  | powerOn
  | resetPin
  | receiveByte (byte : Byte) (framingError : Bool)
  | gapTimerExpiry
  | replySent
  | linkLapse
  /- Requests: each carries the payload of its frame. -/
  | unknownKindRequest (kind : Byte) (payload : List Byte)
  | setCylinder (payload : List Byte)
  | setZoneBounds (payload : List Byte)
  | setZone (payload : List Byte)
  | setSource (payload : List Byte)
  | setSolar (payload : List Byte)
  | setHold (payload : List Byte)
  | setProbeMap (payload : List Byte)
  | setProbeTrim (payload : List Byte)
  | setMeter (payload : List Byte)
  | setOutput (payload : List Byte)
  | setFaultPolicy (payload : List Byte)
  | setLink (payload : List Byte)
  | sourceEnable (payload : List Byte)
  | sourceDisable (payload : List Byte)
  | sourceReset (payload : List Byte)
  | boost (payload : List Byte)
  | boostCancel (payload : List Byte)
  | surplus (payload : List Byte)
  | forceOutput (payload : List Byte)
  | releaseOutput (payload : List Byte)
  | holdNow (payload : List Byte)
  | clearFaults (payload : List Byte)
  | lockLimits (payload : List Byte)
  | restart (payload : List Byte)
  | ident (payload : List Byte)
  | status (payload : List Byte)
  | layers (payload : List Byte)
  | zones (payload : List Byte)
  | source (payload : List Byte)
  | solar (payload : List Byte)
  | hold (payload : List Byte)
  | meters (payload : List Byte)
  | energy (payload : List Byte)
  | faults (payload : List Byte)
  | probes (payload : List Byte)
  | outputs (payload : List Byte)
  | config (payload : List Byte)
  /- Events of the measuring side (chapters 1 to 3). -/
  | conversion (channel : Fin 12) (raw : Int)
  | pulse (meter : Meter)
  | drawGateExpiry
  | loopGateExpiry
  | modelPeriodExpiry
  /- Events of the deciding side (chapters 5 to 8). -/
  | surplusTimerExpiry
  | furtherEvaluation
  | holdoffTimerExpiry (zone : Zone)
  | holdRequest
  | stepEnd
  | holdTaken
  | holdNone
  | holdLost
  | confirmInputChange (input : Fin 4) (active : Bool)
  | dwellEnd (slot : SlotId)
  | confirmWindowExpiry (slot : SlotId)
  | minimumRunCompletion (slot : SlotId)
  | overrunExpiry (slot : SlotId)
  | holdExpiry (slot : SlotId)
  | warmExpiry (slot : SlotId)
  | minuteEvent
  | hourCountWrap
  | stepTimeout
  | intervalExpiry
  /- Events of the outward side (chapters 9 and 10). -/
  | recoveryEnd (line : Fin 8)
  | uptimeIncrement
  deriving DecidableEq, Repr

end Sys2Proof
end

