-- ==== Sys2Proof/Decode.lean ====
section
/-! DEFINITION. The command a table word spells. No row of spec/opcode_table.json carries bits ("fields": [] and
no fixed bits in every row), so no word spells a command. -/

namespace Sys2Proof

/-- The command spelled by the table's bits: none, since no row of the table gives bits. -/
def decodeTableWord (_nbits _w : Nat) : Option Instr := none

end Sys2Proof
end

