-- ==== Sys2Proof/Config.lean ====
section
/-! DEFINITION. The figures the manual fixes for the part, and the values it leaves open.

The free values are opaque constants without a body: nothing can evaluate them, so no statement can rest on what
they are. Each is applied to the model's own counter `State.freeCount`, so that two uses need not agree
(assumption log, entries 5 to 7). -/

namespace Sys2Proof.Config

/-- Heat constant: joules that raise one litre by one deci-degree (00_scope.md, 5.2). -/
def heatConstant : Nat := 418

/-- Layers of the cylinder (chapter 1). -/
def layerCount : Nat := 16

/-- Model period in seconds (R20). -/
def modelPeriod : Nat := 10

/-- Minute timer in seconds (R149). -/
def minuteSeconds : Nat := 60

/-- Gap timer of the receive assembler in milliseconds (R187). -/
def gapMilliseconds : Nat := 50

/-- Largest payload of a frame (R186). -/
def largestPayload : Nat := 64

/-- Places of the request queue (R189). -/
def queuePlaces : Nat := 2

/-- Largest number of slices one DRAW gate forms (R54). -/
def sliceCap : Nat := 128

/-- Largest pulse count of a gate (R50). -/
def pulseCap : Nat := 255

/-- Seconds added to the remaining minimum run in the short-cycle penalty (R99). -/
def penaltySeconds : Nat := 240

/-- FREE VALUE (DESIGN CHOICE, log entry 5). The byte at place `k` of a reply whose field is absent and for
which 11.4.1 gives no absent code; the first argument is the model's counter. -/
opaque freeByte : Nat → Nat → Byte

/-- FREE VALUE (DESIGN CHOICE, log entry 6). The off time due of a slot that SOURCE_DISABLE puts in OVERRUN:
the field is present (section 5.2) and R87 states no figure for it. -/
opaque freeOffTime : Nat → BitVec 16

/-- FREE VALUE (DESIGN CHOICE, log entry 7). The low layer a hold scan reads while no step is running (R122
reads "the low layer of the current step"; R158 and R159 have removed it). -/
opaque freeLowLayer : Nat → Fin 16


end Sys2Proof.Config
end

