-- ==== Sys2Proof/Machine/State.lean ====
section
/-! DEFINITION. The state of the CH520, block by block, as the chapters give it, the reasons a step can stop, and the state
right after power-on.

Every field is plain data. A field the manual calls absent is an `Option`, or an argument of the one state
constructor under which it is present. Times are the whole numbers of seconds (minutes, milliseconds) the
manual gives. -/

namespace Sys2Proof.Machine

/-! ### Tables by zone and by slot -/

/-- One value per zone. -/
structure PerZone (α : Type) where
  top : α
  mid : α
  low : α
  deriving DecidableEq, Repr

/-- One value per slot 1 to 4. -/
structure PerSlot (α : Type) where
  s1 : α
  s2 : α
  s3 : α
  s4 : α
  deriving DecidableEq, Repr

/-! ### Cylinder Layer Model (chapter 1) -/

/-- Model state (section 1.3). -/
inductive ModelState where
  | unseeded | tracking | freeRunning
  deriving DecidableEq, Repr

/-- One layer record (section 1.2). -/
structure Layer where
  /-- model temperature, dd -/
  temp : Int
  /-- joules held towards the next deci-degree (R4) -/
  residue : Int
  /-- the anchor role A1..A6 mapped here (R5), as its index 0..5 -/
  anchor : Option (Fin 6)
  /-- minutes continuously hot (R150) -/
  hotDwell : Nat
  /-- hours since the last completed dwell (R150) -/
  holdAge : Nat
  deriving DecidableEq, Repr

/-- One energy counter: a wrapping kilojoule count and its joule remainder (R31). -/
structure EnergyCounter where
  kilojoules : BitVec 32
  remainder : Nat
  deriving DecidableEq, Repr

/-- The CLM's state. -/
structure Clm where
  /-- cylinder volume V, litres (R1) -/
  volume : Nat
  /-- loss coefficient in tenths of a W/K (R2) -/
  uaTenths : Nat
  mainsDefault : Int
  ambientDefault : Int
  usableThreshold : Int
  /-- anchor weight w (R2) -/
  anchorWeight : Nat
  /-- the layer table, bottom to top -/
  layers : Vector Layer 16
  model : ModelState
  /-- channels converted since the entry to UNSEEDED (R10) -/
  scanned : Vector Bool 12
  /-- zone minima of the last completed update (R30) -/
  zoneMin : PerZone (Option Int)
  /-- usable volume, litres (R30) -/
  usable : Nat
  /-- stored energy above mains, kJ (R30) -/
  storedKj : Nat
  solarYield : EnergyCounter
  injected : PerSlot EnergyCounter
  delivered : EnergyCounter
  loss : EnergyCounter
  clipped : EnergyCounter
  /-- seconds left of the model period (R20) -/
  period : Nat
  deriving DecidableEq, Repr

/-! ### Probe Front End (chapter 2) -/

/-- The two kinds of probe fault (R34). -/
inductive ProbeFault where
  | openCircuit | shortCircuit
  deriving DecidableEq, Repr

/-- Status of a channel with the counts and value that go with it (R35): while OK the bad count 0..2 and the
value, if any; while FAULTED the kind and the good count 0..2 (the bad count is then 3 and there is no value). -/
inductive ChannelStatus where
  | ok (bad : Nat) (value : Option Int)
  | faulted (kind : ProbeFault) (good : Nat)
  deriving DecidableEq, Repr

/-- One channel record (R35). -/
structure Channel where
  status : ChannelStatus
  /-- trim, dd (R33) -/
  trim : Int
  deriving DecidableEq, Repr

/-- The twelve roles (R40): the anchors A1..A6 by index 0..5, then the six others. -/
inductive Role where
  | anchor (a : Fin 6)
  | collector | loopFlow | loopReturn | mains | ambient | topLimit
  deriving DecidableEq, Repr

/-- The probe map (R40): the channel of each role, in role order, and the layer index of each anchor role. -/
structure ProbeMap where
  channel : Vector (Option (Fin 12)) 12
  layer : Vector (Fin 16) 6
  deriving DecidableEq, Repr

/-- The PFE's state. -/
structure Pfe where
  channels : Vector Channel 12
  map : ProbeMap
  /-- the channel the scan converts next (R32) -/
  scanNext : Fin 12
  deriving DecidableEq, Repr

/-! ### Flow Meter Unit (chapter 3) -/

/-- What both meter records hold (section 3.1). -/
structure MeterRec where
  mlPerPulse : Nat
  /-- gate interval, s -/
  gate : Nat
  /-- pulses of the current gate -/
  count : Nat
  saturated : Bool
  /-- total volume, litres, wrapping -/
  total : BitVec 32
  /-- millilitres towards the next litre -/
  remainder : Nat
  /-- length in seconds of the gate in progress, fixed when it started (R51) -/
  gateLength : Nat
  /-- seconds left of the gate in progress (R51) -/
  gateLeft : Nat
  deriving DecidableEq, Repr

/-- The FMU's state. -/
structure Fmu where
  draw : MeterRec
  loop : MeterRec
  /-- DRAW pending volume, mL (R54) -/
  pendingVolume : Nat
  /-- LOOP zero-gate count (R60) -/
  zeroGates : Nat
  /-- nominal loop flow, mL/min -/
  nominalFlow : Nat
  /-- solar heat rate, W, signed (R59) -/
  heatRate : Int
  deriving DecidableEq, Repr

/-! ### Zone Demand Unit (chapter 4) -/

/-- One zone record (section 4.2). -/
structure ZoneRec where
  target : Int
  hysteresis : Int
  urgentMargin : Int
  ranking : List SlotId
  demand : Bool
  urgent : Bool
  /-- the boost target while a boost is present -/
  boost : Option Int
  deriving DecidableEq, Repr

/-- The ZDU's state. -/
structure Zdu where
  b1 : Fin 16
  b2 : Fin 16
  zones : PerZone ZoneRec
  deriving DecidableEq, Repr

/-! ### Source Control Unit (chapter 5) -/

/-- Classes of slots 1 to 4 (R80). -/
inductive SlotClass where
  | noSource | heatPump | boiler | immersion | diverter
  deriving DecidableEq, Repr

/-- Settings of slots 1 to 4 (R81). -/
structure SlotSettings where
  coilLow : Fin 16
  coilHigh : Fin 16
  rate : Nat
  ceiling : Int
  minRun : Nat
  minOff : Nat
  startDwell : Nat
  coldExtra : Nat
  /-- minutes -/
  warmTime : Nat
  overrun : Nat
  confirm : Option (Fin 4)
  confirmWindow : Nat
  deriving DecidableEq, Repr

/-- What a slot works for (section 5.2). -/
inductive Holder where
  | zone (z : Zone)
  | holdStep
  deriving DecidableEq, Repr

/-- The state a start left (section 5.2). -/
inductive StartOrigin where
  | cold | warm
  deriving DecidableEq, Repr

/-- The two phases of STARTING (section 5.2). -/
inductive StartPhase where
  | dwell | confirm
  deriving DecidableEq, Repr

/-- The state of a slot, with the fields present in it (sections 5.2 and 5.3). `running` with no holder is run-on,
and with remaining 0 it is run complete. -/
inductive SlotState where
  | disabled
  | cold
  | warm (remaining : Nat)
  | starting (origin : StartOrigin) (phase : StartPhase) (remaining : Nat) (holder : Holder)
  | running (remaining : Nat) (holder : Option Holder)
  | overrun (remaining : Nat) (offTimeDue : Nat) (disablePending : Bool)
  | hold (remaining : Nat)
  | tripped
  | idle
  | diverting
  deriving DecidableEq, Repr

/-- One slot record, slots 1 to 4. -/
structure Slot where
  cls : SlotClass
  settings : SlotSettings
  state : SlotState
  /-- consecutive failures (R101) -/
  failures : Nat
  /-- ceiling rearm flag of a diverter (R102) -/
  rearm : Bool
  deriving DecidableEq, Repr

/-- The cylinder limit latch and its cause (section 5.4). -/
inductive Latch where
  | clear | overtemp | probeLost
  deriving DecidableEq, Repr

/-- Causes of a left-service notice (R85). -/
inductive LeaveCause where
  | startFailure | tripped | confirmLost | disable | latch | ceiling
  deriving DecidableEq, Repr

/-- The SCU's notices to the arbiter (R85). -/
inductive ScuNotice where
  | available (slot : SlotId)
  | leftService (slot : SlotId) (holder : Holder) (cause : LeaveCause)
  deriving DecidableEq, Repr

/-- The SCU's state. -/
structure Scu where
  /-- slot 0's coil range (R80) -/
  coil0Low : Fin 16
  coil0High : Fin 16
  slots : PerSlot Slot
  latch : Latch
  /-- hard maximum, dd (R83) -/
  hardMax : Int
  /-- surplus timeout, s (R83) -/
  surplusTimeout : Nat
  /-- surplus figure, W (R104) -/
  surplus : Nat
  /-- surplus timer, s; none while stopped (R104) -/
  surplusTimer : Option Nat
  /-- the level of each confirm input as the SCU keeps it (R89) -/
  confirmLevel : Vector Bool 4
  deriving DecidableEq, Repr

/-! ### Service Arbiter (chapter 6) -/

/-- One zone service record (section 6.1). -/
inductive Service where
  | idle
  | holdoff (remaining : Nat)
  | waiting
  | serving (slot : SlotId)
  | suspended (slot : SlotId)
  deriving DecidableEq, Repr

/-- The hold claim (section 6.4). -/
inductive Claim where
  | none
  | seeking
  | holding (slot : SlotId) (suspended : Option Zone)
  deriving DecidableEq, Repr

/-- The arbiter's answers to the stepper (section 8.5). -/
inductive HoldAnswer where
  | taken (slot : SlotId)
  | noneEligible
  | lost
  deriving DecidableEq, Repr

/-- The stepper's messages to the arbiter (section 8.5). -/
inductive StepperMessage where
  | holdRequest
  | stepEnd
  deriving DecidableEq, Repr

/-- The SAR's state. -/
structure Sar where
  services : PerZone Service
  claim : Claim
  /-- solar holdoff time, min (R112) -/
  holdoffTime : Nat
  /-- priority threshold, W (R112) -/
  threshold : Nat
  /-- SCU notices caused during an evaluation, each awaiting a further evaluation (R113), oldest first -/
  further : List ScuNotice
  /-- answers sent to the stepper and not yet arrived (R155), oldest first -/
  answers : List HoldAnswer
  deriving DecidableEq, Repr

/-! ### Solar Loop Controller (chapter 7) -/

/-- The eight solar states (section 7.1). -/
inductive SolarState where
  | disabled | off | run | limit | stagnant | frost | cooldown | fault
  deriving DecidableEq, Repr

/-- The nine settings of R130. -/
structure SolarSettings where
  onDiff : Int
  offDiff : Int
  minSpeed : Int
  gain : Int
  solarMax : Int
  collectorMax : Int
  frost : Int
  cooldownEnable : Bool
  cooldownDiff : Int
  deriving DecidableEq, Repr

/-- The SLC's state: the solar record (R129) and the settings. -/
structure Slc where
  state : SolarState
  speed : Int
  collector : Option Int
  reference : Option Int
  top : Option Int
  bottom : Option Int
  settings : SolarSettings
  deriving DecidableEq, Repr

/-! ### Thermal Hold Stepper (chapter 8) -/

/-- Step widths (R147). -/
inductive HoldWidth where
  | one | two | four
  deriving DecidableEq, Repr

/-- The settings of R147. -/
structure HoldSettings where
  enable : Bool
  /-- hold temperature, dd -/
  temp : Int
  /-- dwell, min -/
  dwell : Nat
  /-- period, h -/
  period : Nat
  width : HoldWidth
  base : Fin 16
  /-- step timeout, min -/
  timeout : Nat
  ranking : List SlotId
  deriving DecidableEq, Repr

/-- What a running step holds (section 8.4), but for its state and slot. -/
structure StepRec where
  top : Fin 16
  low : Fin 16
  width : HoldWidth
  creditAge : Nat
  /-- done layers, rising, no duplicates -/
  done : List (Fin 16)
  elapsed : Nat
  deriving DecidableEq, Repr

/-- The step's state between events (section 8.4). CHECK is entered and left within one event (R154), so no state
between events is CHECK. -/
inductive HoldStep where
  | idle
  | seeking (r : StepRec)
  | heating (r : StepRec) (slot : SlotId)
  deriving DecidableEq, Repr

/-- The THS's state. -/
structure Ths where
  settings : HoldSettings
  /-- minute events since hold ages last advanced, 0..59 (R149) -/
  hourCount : Nat
  /-- minutes left of the interval; none while stopped (R151) -/
  interval : Option Nat
  pointer : Fin 16
  step : HoldStep
  pendingFlag : Bool
  fullPass : Bool
  overdue : Bool
  /-- passes completed, wrapping -/
  passes : BitVec 16
  /-- timed-out steps, saturating -/
  failedSteps : Nat
  /-- seconds left of the minute timer (R149) -/
  minuteLeft : Nat
  /-- messages sent to the arbiter and not yet arrived (R155), oldest first -/
  messages : List StepperMessage
  deriving DecidableEq, Repr

/-! ### Output Line Unit (chapter 9) -/

/-- Line functions (R165). -/
inductive LineFunction where
  | noFunction
  | sourceCall (n : SlotId)
  | sourcePump (n : SlotId)
  | diverterDrive (n : SlotId)
  | solarPump
  | alertRelay
  deriving DecidableEq, Repr

/-- Line modes (R165). -/
inductive LineMode where
  | auto | forcedOn | forcedOff
  deriving DecidableEq, Repr

/-- One line record (R165). Requests and outputs are held in percent on every line: on and closed are 100, off and
open are 0. The target is formed from the mode and the auto request (`Line.target`). -/
structure Line where
  function : LineFunction
  mode : LineMode
  auto : Nat
  output : Nat
  recoveryTime : Nat
  recovery : Option Nat
  deferred : Bool
  deriving DecidableEq, Repr

/-! ### Fault Monitor (chapter 10) -/

/-- The sixteen fault kinds (section 10.1), in the order of their codes 1..16. -/
inductive FaultKind where
  | probeOpen | probeShort | topProbeLost | cylinderOvertemp
  | collectorOverheat | loopNoFlow | meterSaturated | drawOverrun
  | startFailure | sourceTripped | confirmLost | holdIncomplete
  | holdOverdue | anchorsLost | modelClipped | linkLapse
  deriving DecidableEq, Repr

/-- Subjects of reports (section 10.1). -/
inductive Subject where
  | none
  | channel (c : Fin 12)
  | meter (m : Meter)
  | slot (n : SlotId)
  | layer (l : Fin 16)
  deriving DecidableEq, Repr

/-- One kind record (R177). -/
structure KindRec where
  status : Bool
  masked : Bool
  trip : Bool
  count : Nat
  lastSubject : Subject
  deriving DecidableEq, Repr

/-- The first-fault record (R179). -/
structure FirstFault where
  kind : FaultKind
  subject : Subject
  uptime : BitVec 32
  deriving DecidableEq, Repr

/-- The FLT's state; `kinds` is by code less 1. -/
structure Flt where
  kinds : Vector KindRec 16
  first : Option FirstFault
  /-- uptime in seconds, wrapping (R184) -/
  uptime : BitVec 32
  deriving DecidableEq, Repr

/-! ### Message Port (chapter 11) -/

/-- The receive assembler with the frame collected so far (R187). -/
inductive Assembler where
  | hunt
  | length
  | kind (len : Nat)
  | payload (len : Nat) (kind : Byte) (collected : List Byte)
  | check (len : Nat) (kind : Byte) (payload : List Byte) (first : Option Byte)
  deriving DecidableEq, Repr

/-- A valid request frame. -/
structure Frame where
  kind : Byte
  payload : List Byte
  deriving DecidableEq, Repr

/-- The restart kinds of RESTART (R195). -/
inductive RestartKind where
  | warm | cold
  deriving DecidableEq, Repr

/-- Result codes (R191). -/
inductive ResultCode where
  | ok | clamped | unknownKind | badLength | badValue | busy | locked | refused
  deriving DecidableEq, Repr

/-- The MPT's state. -/
structure Mpt where
  assembler : Assembler
  /-- gap timer, ms; none while it does not run (R187) -/
  gapTimer : Option Nat
  /-- the request queue, oldest first (R189) -/
  queue : List Frame
  /-- the reply being sent to the oldest request, whole; none while no request is being answered (R189) -/
  reply : Option (List Byte)
  /-- the restart that follows the reply being sent (R195) -/
  restartDue : Option RestartKind
  /-- discard counter, saturating (R188) -/
  discards : Nat
  /-- supervision interval, s (R194) -/
  interval : Nat
  /-- supervision timer, s; none while stopped (R194) -/
  supervision : Option Nat
  /-- the limit lock (R193) -/
  lock : Bool
  deriving DecidableEq, Repr

/-- Pins whose level is not a field of a block (section 11.9): the confirm inputs as they stand outside, and the
ALERT output, low or released. The line outputs are the line records' own output states, and TXD carries `Mpt.reply`. -/
structure Pins where
  confirm : Vector Bool 4
  alertLow : Bool
  deriving DecidableEq, Repr

/-- The machine. `pending` is the model's queue of waiting commands and `freeCount` the model's own counter for
free values (both the model's, not the manual's). -/
structure State where
  pending : List Instr
  clm : Clm
  pfe : Pfe
  fmu : Fmu
  zdu : Zdu
  scu : Scu
  sar : Sar
  slc : Slc
  ths : Ths
  olu : Vector Line 8
  flt : Flt
  mpt : Mpt
  pins : Pins
  freeCount : Nat
  deriving DecidableEq, Repr

/-- The machine faults on no command: every row of the table has an effect in every state, so the type has no
constructor. (Safe: nothing is stopped.) -/
inductive Fault where
  deriving DecidableEq, Repr

/-- Why a command is refused. -/
inductive Refusal where
  /-- Raised only by an arm of `exec` whose row has no meaning yet. Safe: nothing is claimed of that row. -/
  | notModelled (mnemonic : String)
  deriving DecidableEq, Repr

/-! ### Power-on values -/

/-- An energy counter at 0 (R31). -/
def EnergyCounter.zero : EnergyCounter := ⟨0, 0⟩

/-- The default map (R40). -/
def ProbeMap.default : ProbeMap where
  channel := ⟨#[some 3, some 4, some 5, some 6, some 7, some 8, some 0, some 1, some 10, some 9, some 11, some 2], rfl⟩
  layer := ⟨#[15, 12, 9, 6, 3, 0], rfl⟩

/-- A layer at power-on (R4, R6, R15) with the anchor field of the default map (R5). -/
def Layer.powerOn (anchor : Option (Fin 6)) : Layer := ⟨0, 0, anchor, 0, 65535⟩

/-- The anchor fields of the default map (R5, R40). -/
def defaultAnchors : Vector (Option (Fin 6)) 16 :=
  ⟨#[some 5, none, none, some 4, none, none, some 3, none, none, some 2, none, none, some 1, none, none, some 0], rfl⟩

/-- Settings of class NONE (R81). -/
def SlotSettings.noSource : SlotSettings := ⟨12, 13, 3000, 700, 0, 0, 0, 0, 0, 0, none, 60⟩

/-- A slot at power-on (R109). -/
def Slot.powerOn : Slot := ⟨.noSource, .noSource, .disabled, 0, false⟩

/-- Defaults of R130. -/
def SolarSettings.default : SolarSettings := ⟨70, 30, 30, 5, 800, 1200, 30, false, 150⟩

/-- Defaults of R147. -/
def HoldSettings.default : HoldSettings := ⟨false, 600, 20, 168, .two, 0, 240, []⟩

/-- Zone defaults (section 4.2): the target differs by zone. -/
def ZoneRec.default (target : Int) : ZoneRec := ⟨target, 50, 50, [], false, false, none⟩

/-- A meter record at power-on (section 3.1) with its default gate interval. -/
def MeterRec.powerOn (gate : Nat) : MeterRec := ⟨0, gate, 0, false, 0, 0, gate, gate⟩

/-- A line at power-on (R175): relay lines rest 5 s, L6 and L7 have no recovery. -/
def Line.powerOn (relay : Bool) : Line := ⟨.noFunction, .auto, 0, 0, 5, if relay then some 5 else none, false⟩

/-- Default severity (section 10.1): TRIP for kinds 3, 4 and 10. -/
def defaultTrip (code : Nat) : Bool := code == 3 || code == 4 || code == 10

/-- The machine right after power-on: every value is the one the manual states for power-on (the rules are cited
in INVENTORY.md), but for the confirm levels (log entry 4) and the model's own two fields. -/
def State.reset : State where
  pending := []
  clm :=
    { volume := 192, uaTenths := 16, mainsDefault := 100, ambientDefault := 150, usableThreshold := 400
      anchorWeight := 2
      layers := tabulate fun i => Layer.powerOn defaultAnchors[i]
      model := .unseeded
      scanned := Vector.replicate 12 false
      zoneMin := ⟨none, none, none⟩, usable := 0, storedKj := 0
      solarYield := .zero, injected := ⟨.zero, .zero, .zero, .zero⟩, delivered := .zero, loss := .zero, clipped := .zero
      period := 10 }
  pfe := { channels := Vector.replicate 12 ⟨.ok 0 none, 0⟩, map := .default, scanNext := 0 }
  fmu :=
    { draw := .powerOn 2, loop := .powerOn 10, pendingVolume := 0, zeroGates := 0, nominalFlow := 6000, heatRate := 0 }
  zdu := { b1 := 6, b2 := 12, zones := ⟨.default 500, .default 450, .default 0⟩ }
  scu :=
    { coil0Low := 0, coil0High := 2, slots := ⟨.powerOn, .powerOn, .powerOn, .powerOn⟩, latch := .clear, hardMax := 900
      surplusTimeout := 30, surplus := 0, surplusTimer := none, confirmLevel := Vector.replicate 4 false }
  sar := { services := ⟨.idle, .idle, .idle⟩, claim := .none, holdoffTime := 20, threshold := 300, further := [], answers := [] }
  slc :=
    { state := .off, speed := 0, collector := none, reference := none, top := none, bottom := none, settings := .default }
  ths :=
    { settings := .default, hourCount := 0, interval := none, pointer := 15, step := .idle, pendingFlag := false
      fullPass := false, overdue := false, passes := 0, failedSteps := 0, minuteLeft := 60, messages := [] }
  olu := tabulate fun i => Line.powerOn (decide (i.val < 6))
  flt := { kinds := tabulate fun i => ⟨false, false, defaultTrip (i.val + 1), 0, .none⟩, first := none, uptime := 0 }
  mpt :=
    { assembler := .hunt, gapTimer := none, queue := [], reply := none, restartDue := none, discards := 0, interval := 0
      supervision := none, lock := false }
  pins := { confirm := Vector.replicate 4 false, alertLow := false }
  freeCount := 0

end Sys2Proof.Machine
end

