-- ==== Sys2Proof/Machine/Operands.lean ====
section
/-! DEFINITION. Operand forms: the big-endian fields of request payloads and reply data (R186), the codes of
11.4.1, and the treatment of a value outside its range (00_scope.md, 5.4). -/

namespace Sys2Proof.Machine

/-! ### Reading a payload -/

/-- The byte at place `i`, unsigned. -/
def byteAt (p : List Byte) (i : Nat) : Nat := (p.getD i 0).toNat

/-- The byte at place `i`, signed. -/
def signedByteAt (p : List Byte) (i : Nat) : Int := (p.getD i 0).toInt

/-- The 2-byte field at place `i`, unsigned, big-endian (R186). -/
def wordAt (p : List Byte) (i : Nat) : Nat := 256 * byteAt p i + byteAt p (i + 1)

/-- The 2-byte field at place `i`, signed, big-endian (R186). -/
def signedWordAt (p : List Byte) (i : Nat) : Int :=
  if wordAt p i < 32768 then (wordAt p i : Int) else (wordAt p i : Int) - 65536

/-! ### Writing a payload -/

/-- One byte, unsigned or signed. -/
def byteOf (x : Int) : List Byte := [BitVec.ofInt 8 x]

/-- A 2-byte field, big-endian, unsigned or in two's complement. -/
def wordOf (x : Int) : List Byte := [BitVec.ofInt 8 (x / 256), BitVec.ofInt 8 x]

/-- A 4-byte field, big-endian. -/
def longOf (x : Int) : List Byte := wordOf (x / 65536) ++ wordOf x

/-- A flag (11.4.1). -/
def flagOf (b : Bool) : List Byte := byteOf (if b then 1 else 0)

/-- A temperature, 0x8000 when absent (11.4.1). -/
def tempOf : Option Int → List Byte
  | some t => wordOf t
  | none => wordOf 0x8000

/-- A remaining time, 0xFFFF when absent or stopped (11.4.1). -/
def timerOf : Option Nat → List Byte
  | some t => wordOf t
  | none => wordOf 0xFFFF

/-! ### Clamping -/

/-- The nearest end of the range for a value outside it (00_scope.md, 5.4). -/
def clamp (lo hi x : Int) : Int := max lo (min hi x)

/-- The same for unsigned values. -/
def clampNat (lo hi x : Nat) : Nat := max lo (min hi x)

/-- OK, or CLAMPED when some value was clamped (R191). -/
def takenCode (clamped : Bool) : ResultCode := if clamped then .clamped else .ok

/-! ### Codes of 11.4.1 -/

def ResultCode.code : ResultCode → Nat
  | .ok => 0 | .clamped => 1 | .unknownKind => 2 | .badLength => 3
  | .badValue => 4 | .busy => 5 | .locked => 6 | .refused => 7

def zoneCode : Zone → Nat
  | .top => 0 | .mid => 1 | .low => 2

def zoneOfCode : Nat → Option Zone
  | 0 => some .top | 1 => some .mid | 2 => some .low | _ => none

/-- A slot's number 1..4. -/
def slotNumber : SlotId → Nat
  | .s1 => 1 | .s2 => 2 | .s3 => 3 | .s4 => 4

/-- The slot 1..4 a number names. -/
def slotOfNumber : Nat → Option SlotId
  | 1 => some .s1 | 2 => some .s2 | 3 => some .s3 | 4 => some .s4 | _ => none

/-- A slot number, 0xFF when absent. -/
def slotOf : Option SlotId → List Byte
  | some n => byteOf (slotNumber n)
  | none => byteOf 0xFF

/-- The layer a byte names, if it is 0..15. -/
def layerOfNumber (n : Nat) : Option (Fin 16) := if h : n < 16 then some ⟨n, h⟩ else none

/-- The channel a byte names, if it is 0..11. -/
def channelOfNumber (n : Nat) : Option (Fin 12) := if h : n < 12 then some ⟨n, h⟩ else none

/-- The line a byte names, if it is 0..7. -/
def lineOfNumber (n : Nat) : Option (Fin 8) := if h : n < 8 then some ⟨n, h⟩ else none

def meterCode : Meter → Nat
  | .draw => 0 | .loop => 1

def ModelState.code : ModelState → Nat
  | .unseeded => 0 | .tracking => 1 | .freeRunning => 2

def SlotClass.code : SlotClass → Nat
  | .noSource => 0 | .heatPump => 1 | .boiler => 2 | .immersion => 3 | .diverter => 4

/-- The class codes a SET_SOURCE for slots 1 to 4 may carry (R80, R82): SOLAR, code 5, is slot 0's alone. -/
def classOfCode : Nat → Option SlotClass
  | 0 => some .noSource | 1 => some .heatPump | 2 => some .boiler | 3 => some .immersion | 4 => some .diverter
  | _ => none

def SlotState.code : SlotState → Nat
  | .disabled => 0 | .cold => 1 | .warm _ => 2 | .starting _ _ _ _ => 3 | .running _ _ => 4
  | .overrun _ _ _ => 5 | .hold _ => 6 | .tripped => 7 | .idle => 8 | .diverting => 9

def Holder.code : Holder → Nat
  | .zone z => zoneCode z
  | .holdStep => 3

def StartOrigin.code : StartOrigin → Nat
  | .cold => 1 | .warm => 2

def StartPhase.code : StartPhase → Nat
  | .dwell => 0 | .confirm => 1

def SolarState.code : SolarState → Nat
  | .disabled => 0 | .off => 1 | .run => 2 | .limit => 3 | .stagnant => 4 | .frost => 5 | .cooldown => 6 | .fault => 7

def Latch.code : Latch → Nat
  | .clear => 0 | .overtemp => 1 | .probeLost => 2

def Service.code : Service → Nat
  | .idle => 0 | .holdoff _ => 1 | .waiting => 2 | .serving _ => 3 | .suspended _ => 4

def HoldStep.code : HoldStep → Nat
  | .idle => 0 | .seeking _ => 2 | .heating _ _ => 3

def Claim.code : Claim → Nat
  | .none => 0 | .seeking => 1 | .holding _ _ => 2

/-- The place of a role in role order. -/
def Role.index : Role → Fin 12
  | .anchor a => ⟨a.val, by omega⟩
  | .collector => 6 | .loopFlow => 7 | .loopReturn => 8 | .mains => 9 | .ambient => 10 | .topLimit => 11

/-- The twelve roles in role order. -/
def allRoles : List Role :=
  [.anchor 0, .anchor 1, .anchor 2, .anchor 3, .anchor 4, .anchor 5, .collector, .loopFlow, .loopReturn, .mains,
    .ambient, .topLimit]

def LineFunction.code : LineFunction → Nat
  | .noFunction => 0x00
  | .sourceCall n => 0x10 + slotNumber n
  | .sourcePump n => 0x20 + slotNumber n
  | .diverterDrive n => 0x30 + slotNumber n
  | .solarPump => 0x40
  | .alertRelay => 0x50

/-- The function a code names; a slot number outside 1..4 or an unknown code names none (R170). -/
def functionOfCode (c : Nat) : Option LineFunction :=
  if c = 0x00 then some .noFunction
  else if c = 0x40 then some .solarPump
  else if c = 0x50 then some .alertRelay
  else match c / 16, slotOfNumber (c % 16) with
    | 1, some n => some (.sourceCall n)
    | 2, some n => some (.sourcePump n)
    | 3, some n => some (.diverterDrive n)
    | _, _ => none

def LineMode.code : LineMode → Nat
  | .auto => 0 | .forcedOn => 1 | .forcedOff => 2

/-- The sixteen fault kinds in the order of their codes. -/
def allKinds : List FaultKind :=
  [.probeOpen, .probeShort, .topProbeLost, .cylinderOvertemp, .collectorOverheat, .loopNoFlow, .meterSaturated,
    .drawOverrun, .startFailure, .sourceTripped, .confirmLost, .holdIncomplete, .holdOverdue, .anchorsLost,
    .modelClipped, .linkLapse]

/-- A kind's place in the FLT's records: its code less 1. -/
def FaultKind.index : FaultKind → Fin 16
  | .probeOpen => 0 | .probeShort => 1 | .topProbeLost => 2 | .cylinderOvertemp => 3
  | .collectorOverheat => 4 | .loopNoFlow => 5 | .meterSaturated => 6 | .drawOverrun => 7
  | .startFailure => 8 | .sourceTripped => 9 | .confirmLost => 10 | .holdIncomplete => 11
  | .holdOverdue => 12 | .anchorsLost => 13 | .modelClipped => 14 | .linkLapse => 15

/-- A kind's code 1..16 (section 10.1). -/
def FaultKind.code (k : FaultKind) : Nat := k.index.val + 1

/-- A subject as the FAULTS reply carries it; none is 0xFF (11.4.3). -/
def Subject.code : Subject → Nat
  | .none => 0xFF
  | .channel c => c.val
  | .meter m => meterCode m
  | .slot n => slotNumber n
  | .layer l => l.val

/-- A ranking: its count and its slots (11.4.1). -/
def rankingOf (r : List SlotId) : List Byte :=
  byteOf r.length ++ r.flatMap fun n => byteOf (slotNumber n)

/-- The entries of the ranking whose count stands at place `i`, when every entry names a slot 1..4. -/
def rankingAt (p : List Byte) (i : Nat) : Option (List SlotId) :=
  ((p.drop (i + 1)).take (byteAt p i)).mapM fun b => slotOfNumber b.toNat

end Sys2Proof.Machine
end

