-- ==== Sys2Proof/Machine/Ops.lean ====
section
/-! DEFINITION. The named operations on the parts of the state: tables by zone, slot and index, the cylinder's
geometry (section 1.1), an energy counter's addition (R31), and the update of one part of `State`. -/

namespace Sys2Proof.Machine

/-! ### Tables -/

def PerZone.get {α : Type} (t : PerZone α) : Zone → α
  | .top => t.top
  | .mid => t.mid
  | .low => t.low

def PerZone.set {α : Type} (t : PerZone α) (z : Zone) (x : α) : PerZone α :=
  match z with
  | .top => { t with top := x }
  | .mid => { t with mid := x }
  | .low => { t with low := x }

def PerSlot.get {α : Type} (t : PerSlot α) : SlotId → α
  | .s1 => t.s1
  | .s2 => t.s2
  | .s3 => t.s3
  | .s4 => t.s4

def PerSlot.set {α : Type} (t : PerSlot α) (n : SlotId) (x : α) : PerSlot α :=
  match n with
  | .s1 => { t with s1 := x }
  | .s2 => { t with s2 := x }
  | .s3 => { t with s3 := x }
  | .s4 => { t with s4 := x }

/-- Zones in the order TOP, MID, LOW. -/
def allZones : List Zone := [.top, .mid, .low]

/-- Slots 1 to 4 in order. -/
def allSlots : List SlotId := [.s1, .s2, .s3, .s4]

/-! ### One part of the state -/

def State.slot (s : State) (n : SlotId) : Slot := s.scu.slots.get n

def State.setSlot (s : State) (n : SlotId) (x : Slot) : State :=
  { s with scu := { s.scu with slots := s.scu.slots.set n x } }

def State.setSlotState (s : State) (n : SlotId) (x : SlotState) : State :=
  s.setSlot n { s.slot n with state := x }

def State.service (s : State) (z : Zone) : Service := s.sar.services.get z

def State.setService (s : State) (z : Zone) (x : Service) : State :=
  { s with sar := { s.sar with services := s.sar.services.set z x } }

def State.setClaim (s : State) (c : Claim) : State := { s with sar := { s.sar with claim := c } }

/-- The arbiter answers the stepper (R155): the answer joins those on their way. -/
def State.answer (s : State) (a : HoldAnswer) : State :=
  { s with sar := { s.sar with answers := s.sar.answers ++ [a] } }

/-- A notice caused during an evaluation waits for a further evaluation (R113). -/
def State.deferNotices (s : State) (ns : List ScuNotice) : State :=
  { s with sar := { s.sar with further := s.sar.further ++ ns } }

/-- The stepper sends the arbiter a message (R155). -/
def State.tellArbiter (s : State) (m : StepperMessage) : State :=
  { s with ths := { s.ths with messages := s.ths.messages ++ [m] } }

def State.zone (s : State) (z : Zone) : ZoneRec := s.zdu.zones.get z

def State.setZone (s : State) (z : Zone) (x : ZoneRec) : State :=
  { s with zdu := { s.zdu with zones := s.zdu.zones.set z x } }

def State.setLine (s : State) (i : Fin 8) (l : Line) : State := { s with olu := s.olu.set i l }

def State.setLayers (s : State) (l : Vector Layer 16) : State := { s with clm := { s.clm with layers := l } }

/-- Temperature of layer `i` in the model. -/
def State.temp (s : State) (i : Fin 16) : Int := s.clm.layers[i].temp

/-- Uses up one count of the model's free values. -/
def State.useFree (s : State) : State := { s with freeCount := s.freeCount + 1 }

/-- The solar states in which the loop circulates (R26, R59, R60). -/
def SolarState.circulates : SolarState → Bool
  | .run | .frost | .cooldown => true
  | _ => false

/-- The model is seeded: TRACKING or FREE_RUNNING (section 1.3). -/
def ModelState.seeded : ModelState → Bool
  | .unseeded => false
  | _ => true

/-- The classes of heating slots (R80). -/
def SlotClass.heating : SlotClass → Bool
  | .heatPump | .boiler | .immersion => true
  | _ => false

/-! ### Geometry (section 1.1) -/

/-- Layer volume Vl, litres. -/
def Clm.layerVolume (c : Clm) : Nat := c.volume / 16

/-- Layer unit energy U, joules per deci-degree. -/
def Clm.unitEnergy (c : Clm) : Int := ((Config.heatConstant * c.layerVolume : Nat) : Int)

/-- Slice volume, mL. -/
def Clm.sliceVolume (c : Clm) : Nat := c.layerVolume * 125

/-! ### Energy counters (R31) -/

/-- Adds whole joules: each full 1000 J of the remainder is carried into the wrapping kilojoule count. A figure
that is 0 or negative adds nothing. -/
def EnergyCounter.add (c : EnergyCounter) (joules : Int) : EnergyCounter :=
  let sum := c.remainder + joules.toNat
  { kilojoules := c.kilojoules + BitVec.ofNat 32 (sum / 1000), remainder := sum % 1000 }

/-! ### Hold arithmetic (section 8.3) -/

def HoldWidth.layers : HoldWidth → Nat
  | .one => 1 | .two => 2 | .four => 4

def widthOfNumber : Nat → Option HoldWidth
  | 1 => some .one | 2 => some .two | 4 => some .four | _ => none

/-- Steps per pass: ceil((16 − B) / W). -/
def HoldSettings.steps (h : HoldSettings) : Nat := (16 - h.base.val + h.width.layers - 1) / h.width.layers

/-- Interval: floor(period × 60 / steps) minutes. -/
def HoldSettings.interval (h : HoldSettings) : Nat := h.period * 60 / h.steps

/-- Credit age: ceil(interval / 60) hours. -/
def HoldSettings.creditAge (h : HoldSettings) : Nat := (h.interval + 59) / 60

end Sys2Proof.Machine
end

