-- ==== Sys2Proof/Machine/Flags.lean ====
section
/-! DEFINITION. The conditions computed from the state: the two alert conditions (R180), a line's target (R165), a
role's value (R43), a zone's effective target (section 4.2) and whether a slot may be granted or lent. -/

namespace Sys2Proof.Machine

/-! ### Alert conditions (R180) -/

/-- Some unmasked kind has its status set. -/
def Flt.pinCondition (f : Flt) : Bool :=
  f.kinds.toList.any fun k => k.status && !k.masked

/-- Some unmasked kind whose severity is TRIP has its status set. -/
def Flt.relayCondition (f : Flt) : Bool :=
  f.kinds.toList.any fun k => k.status && !k.masked && k.trip

/-! ### Lines (R165) -/

/-- L0 to L5 drive relays. -/
def isRelay (i : Fin 8) : Bool := decide (i.val < 6)

/-- On as a request in percent. -/
def onOff (b : Bool) : Nat := if b then 100 else 0

/-- The target follows from the mode (R165). -/
def Line.target (l : Line) : Nat :=
  match l.mode with
  | .forcedOn => 100
  | .forcedOff => 0
  | .auto => l.auto

/-- The line that carries a function, as the map stands (R165, R166). -/
def State.carrier (s : State) (f : LineFunction) : Option (Fin 8) :=
  (List.finRange 8).find? fun i => decide (s.olu[i].function = f)

/-- A slot has a pump line when the map holds one at that moment (R81). -/
def State.hasPumpLine (s : State) (n : SlotId) : Bool := (s.carrier (.sourcePump n)).isSome

/-! ### Role values (R43) -/

/-- The value of a channel record: present while OK, from its first good reading. -/
def Channel.value (c : Channel) : Option Int :=
  match c.status with
  | .ok _ v => v
  | .faulted _ _ => none

/-- FAULTED. -/
def Channel.isFaulted (c : Channel) : Bool :=
  match c.status with
  | .ok _ _ => false
  | .faulted _ _ => true

/-- The channel the map names for a role. -/
def ProbeMap.channelOf (m : ProbeMap) (r : Role) : Option (Fin 12) := m.channel[r.index]

/-- The role a channel stands in. -/
def ProbeMap.roleOf (m : ProbeMap) (c : Fin 12) : Option Role :=
  allRoles.find? fun r => decide (m.channelOf r = some c)

/-- The value of a role as the map and the channel record stand. -/
def Pfe.roleValue (p : Pfe) (r : Role) : Option Int :=
  match p.map.channelOf r with
  | none => none
  | some c => p.channels[c].value

/-- Tmains (R3). -/
def State.tMains (s : State) : Int :=
  match s.pfe.roleValue .mains with
  | some v => clamp 0 1000 v
  | none => s.clm.mainsDefault

/-- Tamb (R3). -/
def State.tAmb (s : State) : Int :=
  match s.pfe.roleValue .ambient with
  | some v => v
  | none => s.clm.ambientDefault

/-- Some anchor role has a value (R13). -/
def Pfe.anyAnchorValue (p : Pfe) : Bool :=
  (List.finRange 6).any fun a => (p.roleValue (.anchor a)).isSome

/-- The anchor field of layer `k` under a map: the anchor role that has both a channel and this layer (R5). -/
def ProbeMap.anchorAt (m : ProbeMap) (k : Fin 16) : Option (Fin 6) :=
  (List.finRange 6).find? fun a => (m.channelOf (.anchor a)).isSome && decide (m.layer[a] = k)

/-! ### Zones -/

/-- Lowest layer of a zone, whose temperature is the zone minimum (R30). -/
def Zdu.lowestLayer (z : Zdu) : Zone → Fin 16
  | .top => z.b2
  | .mid => z.b1
  | .low => 0

/-- Top layer of a zone (section 4.1). -/
def Zdu.topLayer (z : Zdu) : Zone → Nat
  | .top => 15
  | .mid => z.b2.val - 1
  | .low => z.b1.val - 1

/-- The boost target while a boost is present, the target otherwise (section 4.2). -/
def ZoneRec.effectiveTarget (z : ZoneRec) : Int := z.boost.getD z.target

/-! ### Slots -/

/-- WARM, COLD, or RUNNING in run-on (R116). -/
def SlotState.free : SlotState → Bool
  | .warm _ | .cold | .running _ none => true
  | _ => false

/-- WARM, COLD, STARTING or RUNNING, with or without a holder (R122). -/
def SlotState.lendable : SlotState → Bool
  | .warm _ | .cold | .starting _ _ _ _ | .running _ _ => true
  | _ => false

/-- The model's and the latch's condition on grants and hold takes (R90, R116, R122). -/
def State.grantsOpen (s : State) : Bool := decide (s.scu.latch = .clear) && s.clm.model.seeded

/-- Level of the confirm input a slot names (R91). -/
def State.confirmActive (s : State) (n : SlotId) : Option Bool :=
  (s.slot n).settings.confirm.map fun c => s.scu.confirmLevel[c]

end Sys2Proof.Machine
end

