-- ==== Sys2Proof/Machine/Lines.lean ====
section
/-! DEFINITION. The Output Line Unit (chapter 9): requests from the owning blocks, contact recovery, forcing, and
the lines at a restart. -/

namespace Sys2Proof.Machine

/-- A contact that opens rests for its recovery time, if that is above 0 (R168). -/
def Line.startRecovery (l : Line) : Line :=
  { l with recovery := if l.recoveryTime = 0 then none else some l.recoveryTime }

/-- The output follows a target that has changed from `old`: L6 and L7 at once (R167), a relay contact by the table
of R168. -/
def Line.follow (relay : Bool) (old : Nat) (l : Line) : Line :=
  if l.target = old then l
  else if !relay then { l with output := l.target }
  else if l.target = 0 then
    if l.output = 0 then { l with deferred := false }
    else { l with output := 0, deferred := false }.startRecovery
  else if l.output = 0 then
    match l.recovery with
    | none => { l with output := 100 }
    | some _ => { l with deferred := true }
  else l

/-- Changes a line's mode and auto request; the target is formed afresh and the output follows (R165). -/
def Line.drive (relay : Bool) (mode : LineMode) (auto : Nat) (l : Line) : Line :=
  { l with mode := mode, auto := auto }.follow relay l.target

/-- A request from an owning block (R166): it becomes the auto request of the line that carries the function, and is
dropped when no line does. -/
def askLine (f : LineFunction) (v : Nat) (s : State) : State :=
  match s.carrier f with
  | none => s
  | some i => s.setLine i (s.olu[i].drive (isRelay i) s.olu[i].mode v)

/-- The call line of a slot (R84). -/
def askCall (n : SlotId) (on : Bool) (s : State) : State := askLine (.sourceCall n) (onOff on) s

/-- The pump line of a slot (R84). -/
def askPump (n : SlotId) (on : Bool) (s : State) : State := askLine (.sourcePump n) (onOff on) s

/-- Both lines of a slot off. -/
def linesOff (n : SlotId) (s : State) : State := askPump n false (askCall n false s)

/-- The end of a relay line's recovery (R169). -/
def Line.endRecovery (l : Line) : Line :=
  match l.recovery with
  | none => l
  | some _ =>
    if l.deferred then { l with recovery := none, deferred := false, output := 100 }
    else { l with recovery := none }

/-- RECOVERY_END (R169). L6 and L7 hold no recovery (R167): nothing ends there. -/
def execRecoveryEnd (line : Fin 8) (s : State) : Host.Outcome State Fault Refusal :=
  .next (if isRelay line then s.setLine line s.olu[line].endRecovery else s)

/-- Every line off, in AUTO, asked off, and each relay line resting from its recovery time (R175). -/
def Line.atRestart (relay : Bool) (l : Line) : Line :=
  let l := { l with mode := .auto, auto := 0, output := 0, deferred := false }
  if relay then l.startRecovery else { l with recovery := none }

/-- The lines at a warm restart: functions and recovery times kept, and the alert relay line takes the alert
condition as its auto request once the lines are off (R175). -/
def oluWarmRestart (s : State) : State :=
  askLine .alertRelay (onOff s.flt.relayCondition)
    { s with olu := tabulate fun i => s.olu[i].atRestart (isRelay i) }

/-- The lines at power-on and at a cold restart: every function NONE and every recovery time 5 s (R175). -/
def oluColdRestart (s : State) : State := { s with olu := tabulate fun i => Line.powerOn (isRelay i) }

/-- Every forced line returns to AUTO (R173). -/
def releaseAllLines (s : State) : State :=
  { s with olu := tabulate fun i => s.olu[i].drive (isRelay i) .auto s.olu[i].auto }

end Sys2Proof.Machine
end

