-- ==== Sys2Proof/Machine/FaultMonitor.lean ====
section
/-! DEFINITION. The Fault Monitor (chapter 10): reports, the first-fault record, the ALERT pin and the alert relay,
clearing, and the uptime. -/

namespace Sys2Proof.Machine

def Flt.kindRec (f : Flt) (k : FaultKind) : KindRec := f.kinds[k.index]

def Flt.setRec (f : Flt) (k : FaultKind) (r : KindRec) : Flt := { f with kinds := f.kinds.set k.index r }

/-- Re-judges both conditions after the FLT's records became `f`: the ALERT pin follows (R180), and a change of the
alert relay condition asks for the line (R181). -/
def rejudge (f : Flt) (s : State) : State :=
  let t := { s with flt := f, pins := { s.pins with alertLow := f.pinCondition } }
  if f.relayCondition = s.flt.relayCondition then t else askLine .alertRelay (onOff f.relayCondition) t

/-- A kind record after a report (R178, steps 1 to 3). -/
def KindRec.report (r : KindRec) (subject : Subject) : KindRec :=
  { r with status := true, count := min 255 (r.count + 1), lastSubject := subject }

/-- The first-fault record after a report of an unmasked kind (R179). -/
def Flt.fillFirst (f : Flt) (k : FaultKind) (subject : Subject) : Flt :=
  match f.first with
  | some _ => f
  | none => { f with first := some ⟨k, subject, f.uptime⟩ }

/-- A report reaches the FLT (R178). A masked kind changes neither the first-fault record nor the two signals. -/
def report (k : FaultKind) (subject : Subject) (s : State) : State :=
  let f := s.flt.setRec k ((s.flt.kindRec k).report subject)
  if (s.flt.kindRec k).masked then { s with flt := f } else rejudge (f.fillFirst k subject) s

/-- A kind record after CLEAR_FAULTS: status and count cleared, the rest kept (R183). -/
def KindRec.clear (r : KindRec) : KindRec := { r with status := false, count := 0 }

/-- The FLT after the listed kinds are cleared (R183). -/
def Flt.clearKinds (f : Flt) (listed : FaultKind → Bool) : Flt :=
  { f with
    kinds := tabulate fun i => if listed (allKinds.getD i.val .probeOpen) then f.kinds[i].clear else f.kinds[i]
    first := match f.first with
      | some r => if listed r.kind then none else some r
      | none => none }

/-- Masks and severities at a cold restart (R177). -/
def Flt.defaultPolicy (f : Flt) : Flt :=
  { f with kinds := tabulate fun i => { f.kinds[i] with masked := false, trip := defaultTrip (i.val + 1) } }

/-- UPTIME_INCREMENT (R184): wrapping. -/
def execUptimeIncrement (s : State) : Host.Outcome State Fault Refusal :=
  .next { s with flt := { s.flt with uptime := s.flt.uptime + 1 } }

end Sys2Proof.Machine
end

