-- ==== Sys2Proof/Machine/Probes.lean ====
section
/-! DEFINITION. The Probe Front End (chapter 2): classification, the debounce of a channel record, and the taking of
a probe map. What a conversion hands on to the other blocks is in Conversions.lean. -/

namespace Sys2Proof.Machine

/-- Channels 0 and 1 are high range (section 2.1). -/
def highRange (c : Fin 12) : Bool := decide (c.val < 2)

/-- The class of a trimmed reading (R34): none is good. -/
def classify (c : Fin 12) (reading : Int) : Option ProbeFault :=
  if reading < -400 then some (if highRange c then .shortCircuit else .openCircuit)
  else if reading > (if highRange c then 2500 else 1500) then
    some (if highRange c then .openCircuit else .shortCircuit)
  else none

/-- The status after a reading of the given class (R36 to R39), and the fault kind to report, if any. -/
def ChannelStatus.debounce (reading : Int) (fault : Option ProbeFault) :
    ChannelStatus → ChannelStatus × Option ProbeFault
  | .ok bad value =>
    match fault with
    | none => (.ok 0 (some reading), none)
    | some kind => if bad + 1 < 3 then (.ok (bad + 1) value, none) else (.faulted kind 0, some kind)
  | .faulted kind good =>
    match fault with
    | none => if good + 1 < 3 then (.faulted kind (good + 1), none) else (.ok 0 (some reading), none)
    | some new => (.faulted new 0, if new = kind then none else some new)

/-- The kind of report a probe fault gives (R37, R38). -/
def ProbeFault.report : ProbeFault → FaultKind
  | .openCircuit => .probeOpen
  | .shortCircuit => .probeShort

def Pfe.setChannel (p : Pfe) (c : Fin 12) (x : Channel) : Pfe := { p with channels := p.channels.set c x }

/-- A conversion is taken by the PFE: the reading is trimmed, classified and debounced, a fault is reported with
the channel as subject, and the scan moves on (R32, R34 to R39). -/
def pfeConvert (c : Fin 12) (raw : Int) (s : State) : State :=
  let ch := s.pfe.channels[c]
  let reading := raw + ch.trim
  let (status, fault) := ch.status.debounce reading (classify c reading)
  let t := { s with pfe := { s.pfe.setChannel c { ch with status := status } with scanNext := c + 1 } }
  match fault with
  | none => t
  | some k => report k.report (.channel c) t

/-- The anchor fields of the layer table rewritten from the map (R5). -/
def rewriteAnchors (s : State) : State :=
  s.setLayers (tabulate fun k => { s.clm.layers[k] with anchor := s.pfe.map.anchorAt k })

/-- A map calls for the top-probe-lost indication when TOP_LIMIT names no channel or a FAULTED one (R47). -/
def Pfe.topProbeLost (p : Pfe) : Bool :=
  match p.map.channelOf .topLimit with
  | none => true
  | some c => p.channels[c].isFaulted

end Sys2Proof.Machine
end

