-- ==== Sys2Proof/Machine/Sources.lean ====
section
/-! DEFINITION. The Source Control Unit (chapter 5): starting, running and stopping a heating slot, the diverters,
the cylinder limit latch and the restarts. An operation answers the state it leaves and the notices it sends the
arbiter (R85), in order; the arbiter's answer to them is in Arbiter.lean. -/

namespace Sys2Proof.Machine

/-- A state and the notices sent to the arbiter on the way to it. -/
abbrev Sent := State × List ScuNotice

/-- The left-service notice of a slot that had a holder (R85). -/
def leave (n : SlotId) (holder : Option Holder) (cause : LeaveCause) : List ScuNotice :=
  match holder with
  | some h => [.leftService n h cause]
  | none => []

/-- Sends the notices of one operation after those of another. -/
def Sent.andThen (x : Sent) (f : State → Sent) : Sent :=
  let y := f x.1
  (y.1, x.2 ++ y.2)

/-! ### Stops -/

/-- A stop of a RUNNING slot with the off time it brings (R98). -/
def stopSlot (n : SlotId) (offTime : Nat) (s : State) : State :=
  let s := askCall n false s
  let overrun := (s.slot n).settings.overrun
  if s.hasPumpLine n && decide (overrun > 0) then s.setSlotState n (.overrun overrun offTime false)
  else (askPump n false s).setSlotState n (.hold offTime)

/-- The off time of a stop that carries the short-cycle penalty when the run is not complete (R99). -/
def offTimeWithPenalty (remaining minOff : Nat) : Nat :=
  if remaining = 0 then minOff else remaining + Config.penaltySeconds

/-- The ceiling test of a slot that is run complete and has a holder (R97). -/
def ceilingTest (n : SlotId) (s : State) : Sent :=
  let x := s.slot n
  match x.state with
  | .running 0 (some h) =>
    if x.cls.heating && decide (s.temp x.settings.coilHigh ≥ x.settings.ceiling) then
      (stopSlot n x.settings.minOff s, leave n (some h) .ceiling)
    else (s, [])
  | _ => (s, [])

/-- Completion of the minimum run of a RUNNING slot (R95). -/
def completeRun (n : SlotId) (s : State) : Sent :=
  let x := s.slot n
  match x.state with
  | .running _ none => (stopSlot n x.settings.minOff (s.setSlot n { x with failures := 0 }), [])
  | .running _ (some h) => ceilingTest n (s.setSlot n { x with failures := 0, state := .running 0 (some h) })
  | _ => (s, [])

/-! ### Starts -/

/-- Entry to RUNNING (R91): a minimum run of 0 completes in the same event. -/
def enterRunning (n : SlotId) (h : Holder) (s : State) : Sent :=
  let minRun := (s.slot n).settings.minRun
  let t := s.setSlotState n (.running minRun (some h))
  if minRun = 0 then completeRun n t else (t, [])

/-- The end of the dwell of a STARTING slot (R91). -/
def endDwell (n : SlotId) (s : State) : Sent :=
  match (s.slot n).state with
  | .starting origin .dwell _ h =>
    if s.confirmActive n = some false then
      (s.setSlotState n (.starting origin .confirm (s.slot n).settings.confirmWindow h), [])
    else enterRunning n h s
  | _ => (s, [])

/-- A start from WARM or COLD (R90): a dwell of 0 ends in the same event. -/
def startSlot (n : SlotId) (origin : StartOrigin) (h : Holder) (s : State) : Sent :=
  let x := (s.slot n).settings
  let dwell := x.startDwell + (if origin = .cold then x.coldExtra else 0)
  let t := askPump n true (askCall n true (s.setSlotState n (.starting origin .dwell dwell h)))
  if dwell = 0 then endDwell n t else (t, [])

/-- A grant for a zone (R90); none is declined, which changes nothing. -/
def grantSlot (n : SlotId) (z : Zone) (s : State) : Option Sent :=
  if s.grantsOpen && (s.slot n).cls.heating then
    match (s.slot n).state with
    | .warm _ => some (startSlot n .warm (.zone z) s)
    | .cold => some (startSlot n .cold (.zone z) s)
    | .running r none => some (s.setSlotState n (.running r (some (.zone z))), [])
    | _ => none
  else none

/-- A hold take (R90, R94); none is declined. -/
def takeForHold (n : SlotId) (s : State) : Option Sent :=
  if s.grantsOpen && (s.slot n).cls.heating then
    match (s.slot n).state with
    | .warm _ => some (startSlot n .warm .holdStep s)
    | .cold => some (startSlot n .cold .holdStep s)
    | .starting o p r _ => some (s.setSlotState n (.starting o p r .holdStep), [])
    | .running r _ => some (s.setSlotState n (.running r (some .holdStep)), [])
    | _ => none
  else none

/-- A hold return naming a zone: a transfer (R94), declined when the slot is neither STARTING nor RUNNING (R120). -/
def returnToZone (n : SlotId) (z : Zone) (s : State) : Option Sent :=
  match (s.slot n).state with
  | .starting o p r _ => some (s.setSlotState n (.starting o p r (.zone z)), [])
  | .running r _ => some (s.setSlotState n (.running r (some (.zone z))), [])
  | _ => none

/-- A release (R93, R96), which a hold return with no zone is too. -/
def releaseSlot (n : SlotId) (s : State) : Sent :=
  match (s.slot n).state with
  | .starting _ _ _ _ => ((linesOff n s).setSlotState n (.hold (s.slot n).settings.minOff), [])
  | .running 0 (some _) => (stopSlot n (s.slot n).settings.minOff s, [])
  | .running (r + 1) (some _) => (s.setSlotState n (.running (r + 1) none), [.available n])
  | _ => (s, [])

/-! ### Timers of a resting slot -/

/-- HOLD expiry (R88). -/
def expireHold (n : SlotId) (s : State) : Sent :=
  match (s.slot n).state with
  | .hold _ =>
    let w := (s.slot n).settings.warmTime * 60
    (s.setSlotState n (if w = 0 then .cold else .warm w), [.available n])
  | _ => (s, [])

/-- Warm expiry (R88). -/
def expireWarm (n : SlotId) (s : State) : Sent :=
  match (s.slot n).state with
  | .warm _ => (s.setSlotState n .cold, [.available n])
  | _ => (s, [])

/-- Overrun expiry (R98). -/
def expireOverrun (n : SlotId) (s : State) : State :=
  match (s.slot n).state with
  | .overrun _ off pending =>
    (askPump n false s).setSlotState n (if pending then .disabled else .hold off)
  | _ => s

/-- Activity reload of a resting slot (R89). -/
def reloadActivity (n : SlotId) (s : State) : Sent :=
  let w := (s.slot n).settings.warmTime * 60
  match (s.slot n).state with
  | .warm _ => if w = 0 then (s.setSlotState n .cold, [.available n]) else (s.setSlotState n (.warm w), [])
  | .cold => if w = 0 then (s, []) else (s.setSlotState n (.warm w), [.available n])
  | _ => (s, [])

/-! ### Failures (R92, R100, R101) -/

/-- A start failure (R92), in its order. -/
def startFailure (n : SlotId) (s : State) : Sent :=
  match (s.slot n).state with
  | .starting _ .confirm _ h =>
    let s := linesOff n s
    let count := (s.slot n).failures + 1
    let s := s.setSlot n { s.slot n with failures := count }
    let s := report .startFailure (.slot n) s
    if count ≥ 3 then
      (report .sourceTripped (.slot n) (s.setSlotState n .tripped), leave n (some h) .tripped)
    else (s.setSlotState n (.hold (s.slot n).settings.minOff), leave n (some h) .startFailure)
  | _ => (s, [])

/-- A confirm lost (R100), in its order. -/
def loseConfirm (n : SlotId) (s : State) : Sent :=
  match (s.slot n).state with
  | .running r h =>
    let s := report .confirmLost (.slot n) s
    let count := (s.slot n).failures + 1
    let s := s.setSlot n { s.slot n with failures := count }
    if count ≥ 3 then
      (report .sourceTripped (.slot n) ((linesOff n s).setSlotState n .tripped), leave n h .tripped)
    else (stopSlot n (offTimeWithPenalty r (s.slot n).settings.minOff) s, leave n h .confirmLost)
  | _ => (s, [])

/-- The effect of a confirm input's change on a slot that names it (R89). -/
def confirmChanged (n : SlotId) (active : Bool) (s : State) : Sent :=
  match (s.slot n).state with
  | .warm _ | .cold => reloadActivity n s
  | .starting _ .confirm _ h => if active then enterRunning n h s else (s, [])
  | .running _ _ => if active then (s, []) else loseConfirm n s
  | _ => (s, [])

/-! ### Diverters (section 5.3) -/

/-- Duty of a diverting slot (R103). -/
def diverterDuty (surplus rate : Nat) : Nat := min 100 (surplus * 100 / rate)

/-- The ceiling rearm flag after an evaluation's first part (R102). -/
def Slot.rearmAfter (x : Slot) (temp : Int) : Bool :=
  let set := x.rearm || (decide (x.state = .diverting) && decide (temp ≥ x.settings.ceiling))
  set && !decide (temp < x.settings.ceiling - 20)

/-- Evaluation of one diverter (R102); any other slot, and a DISABLED diverter, is not evaluated. -/
def evaluateDiverter (n : SlotId) (s : State) : State :=
  let x := s.slot n
  if x.cls = .diverter ∧ x.state ≠ .disabled then
    let temp := s.temp x.settings.coilHigh
    let rearm := x.rearmAfter temp
    let diverts := s.grantsOpen && decide (s.scu.surplus > 0) && !rearm && decide (temp < x.settings.ceiling) &&
      (s.carrier (.diverterDrive n)).isSome
    askLine (.diverterDrive n) (if diverts then diverterDuty s.scu.surplus x.settings.rate else 0)
      (s.setSlot n { x with rearm := rearm, state := if diverts then .diverting else .idle })
  else s

/-- Every diverter, slot 1 to slot 4. -/
def evaluateDiverters (s : State) : State := allSlots.foldl (fun s n => evaluateDiverter n s) s

/-- The surplus figure and its timer change, and every diverter is evaluated (R104). -/
def setSurplus (watts : Nat) (timer : Option Nat) (s : State) : State :=
  evaluateDiverters { s with scu := { s.scu with surplus := watts, surplusTimer := timer } }

/-! ### The SCU's part of a completed update (R97, R102) -/

/-- Ceiling tests of slots 1 to 4 in order, then the diverters. -/
def scuUpdateCompleted (s : State) : Sent :=
  let x := allSlots.foldl (fun (x : Sent) n => x.andThen (ceilingTest n)) (s, [])
  (evaluateDiverters x.1, x.2)

/-! ### The cylinder limit latch (section 5.4) -/

/-- What the setting of the latch stops in one slot (R106). -/
def latchStop (n : SlotId) (s : State) : Sent :=
  let x := s.slot n
  match x.state with
  | .starting _ _ _ h => ((linesOff n s).setSlotState n (.hold x.settings.minOff), leave n (some h) .latch)
  | .running r h => (stopSlot n (offTimeWithPenalty r x.settings.minOff) s, leave n h .latch)
  | _ => (s, [])

/-- The setting of the latch from clear (R105, R106): the report, the stops, the diverters. The left-service notices of
the slots stopped reach the arbiter after that, in the order of the slots, 1 to 4 (DESIGN CHOICE, log entry 36: R106 and
R119 give them no order). -/
def setLatch (cause : Latch) (kind : FaultKind) (subject : Subject) (s : State) : Sent :=
  let s := report kind subject { s with scu := { s.scu with latch := cause } }
  let x := allSlots.foldl (fun (x : Sent) n => x.andThen (latchStop n)) (s, [])
  (evaluateDiverters x.1, x.2)

/-- The slots named by available notices when the latch clears (R85, R107). -/
def availableSlots (s : State) : List ScuNotice :=
  (allSlots.filter fun n => (s.slot n).cls.heating && (s.slot n).state.free).map .available

/-- The clearing of the latch (R107). -/
def clearLatch (s : State) : Sent :=
  let s := { s with scu := { s.scu with latch := .clear } }
  (evaluateDiverters s, availableSlots s)

/-- The subject of TOP_PROBE_LOST: the channel of TOP_LIMIT, or none (R105). -/
def Pfe.topSubject (p : Pfe) : Subject :=
  match p.map.channelOf .topLimit with
  | some c => .channel c
  | none => .none

/-- A top-probe-lost indication, or a TOP_LIMIT conversion with status FAULTED (R105). -/
def topProbeIsLost (s : State) : Sent :=
  match s.scu.latch with
  | .clear => setLatch .probeLost .topProbeLost s.pfe.topSubject s
  | .overtemp =>
    (report .topProbeLost s.pfe.topSubject { s with scu := { s.scu with latch := .probeLost } }, [])
  | .probeLost => (s, [])

/-- A TOP_LIMIT conversion that carries a value (R105, R107). -/
def topLimitValue (v : Int) (s : State) : Sent :=
  let h := s.scu.hardMax
  match s.scu.latch with
  | .clear => if v ≥ h then setLatch .overtemp .cylinderOvertemp .none s else (s, [])
  | .overtemp => if v < h - 50 then clearLatch s else (s, [])
  | .probeLost =>
    if v < h - 50 then clearLatch s
    else
      let t := { s with scu := { s.scu with latch := .overtemp } }
      (if v < h then t else report .cylinderOvertemp .none t, [])

/-! ### Disabling and restarts -/

/-- SOURCE_DISABLE of one of slots 1 to 4 (R87, R102). The off time due of the OVERRUN a disable brings is a free
value (log entry 6). -/
def disableSlot (n : SlotId) (s : State) : Sent :=
  let x := s.slot n
  let stop (h : Option Holder) : Sent :=
    let s := askCall n false s
    if s.hasPumpLine n && decide (x.settings.overrun > 0) then
      ((s.setSlotState n (.overrun x.settings.overrun (Config.freeOffTime s.freeCount).toNat true)).useFree,
        leave n h .disable)
    else ((askPump n false s).setSlotState n .disabled, leave n h .disable)
  match x.state with
  | .starting _ _ _ h => stop (some h)
  | .running _ h => stop h
  | .overrun r off _ => (s.setSlotState n (.overrun r off true), [])
  | .hold _ | .warm _ | .cold => ((askPump n false s).setSlotState n .disabled, [])
  | .tripped => ((askPump n false s).setSlot n { x with state := .disabled, failures := 0 }, [])
  | .idle | .diverting =>
    (askLine (.diverterDrive n) 0 (s.setSlot n { x with state := .disabled, rearm := false }), [])
  | .disabled => (s, [])

/-- A slot's state after a warm restart (R108). -/
def Slot.warmRestart (x : Slot) : Slot :=
  { x with
    state := match x.state with
      | .starting _ _ _ _ | .running _ _ => .hold x.settings.minOff
      | .overrun _ _ pending => if pending then .disabled else .hold x.settings.minOff
      | .diverting => .idle
      | st => st }

/-- The SCU at a warm restart (R104, R108); the lines are the OLU's matter at the same restart (R175). -/
def Scu.warmRestart (c : Scu) : Scu :=
  { c with
    slots := ⟨c.slots.s1.warmRestart, c.slots.s2.warmRestart, c.slots.s3.warmRestart, c.slots.s4.warmRestart⟩
    surplus := 0
    surplusTimer := none }

/-- The SCU at a cold restart (R83, R109): the hard maximum is kept while the limit lock is set, and the confirm
levels are read afresh from the inputs. -/
def scuColdRestart (lock : Bool) (pins : Vector Bool 4) (c : Scu) : Scu :=
  { State.reset.scu with
    hardMax := if lock then c.hardMax else State.reset.scu.hardMax
    confirmLevel := pins }

end Sys2Proof.Machine
end

