-- ==== Sys2Proof/Machine/Arbiter.lean ====
section
/-! DEFINITION. The Service Arbiter (chapter 6): one evaluation is the event applied to the records, the hold scan
while the claim is SEEKING, and grant selection for the WAITING zones in the order TOP, MID, LOW (R113). -/

namespace Sys2Proof.Machine

/-- What a ZDU notice lists for one zone (R75). -/
structure ZoneChange where
  raised : Bool
  cleared : Bool
  urgencyGained : Bool
  urgencyLost : Bool
  boostSet : Bool
  boostEnded : Bool
  deriving DecidableEq, Repr

/-- The arbiter's events (R113). -/
inductive SarEvent where
  | zoneNotice (changes : PerZone ZoneChange)
  | scuNotice (n : ScuNotice)
  | holdoffExpired (z : Zone)
  | solarChange (before after : SolarState)
  | holdRequest
  | stepEnd
  | zoneSet
  deriving DecidableEq, Repr

/-- A service that loses its slot or its holdoff waits while the zone's demand is raised (R119, R125). -/
def State.waitingOrIdle (s : State) (z : Zone) : Service := if (s.zone z).demand then .waiting else .idle

/-- Solar priority holds a rising demand off (R114). -/
def State.solarPriority (s : State) (z : Zone) : Bool :=
  decide (s.slc.state = .run) && decide (s.fmu.heatRate ≥ (s.sar.threshold : Int)) && !(s.zone z).urgent &&
    (s.zone z).boost.isNone && decide (s.sar.holdoffTime > 0)

/-- The solar priority decision of a zone whose demand is raised (R114). -/
def raiseDemand (z : Zone) (s : State) : State :=
  s.setService z (if s.solarPriority z then .holdoff (s.sar.holdoffTime * 60) else .waiting)

/-- An SCU operation made inside an evaluation: its notices wait for further evaluations (R113). -/
def Sent.deferred (x : Sent) : State := x.1.deferNotices x.2

/-- A zone's part of a ZDU notice (R114, R115, R118, R124). -/
def applyZoneChange (z : Zone) (c : ZoneChange) (s : State) : State :=
  match s.service z with
  | .idle => if c.raised then raiseDemand z s else s
  | .holdoff _ =>
    if c.cleared then s.setService z .idle
    else if c.urgencyGained || c.boostSet then s.setService z .waiting
    else s
  | .waiting => if c.cleared then s.setService z .idle else s
  | .serving n => if c.cleared then (releaseSlot n (s.setService z .idle)).deferred else s
  | .suspended _ => s

/-- A left-service notice (R119, R120, R125). -/
def applyLeftService (n : SlotId) (h : Holder) (s : State) : State :=
  match h with
  | .zone z => if s.service z = .serving n then s.setService z (s.waitingOrIdle z) else s
  | .holdStep =>
    match s.sar.claim with
    | .holding m suspended =>
      if m = n then
        let s := match suspended with
          | some z => s.setService z (s.waitingOrIdle z)
          | none => s
        (s.setClaim .seeking).answer .lost
      else s
    | _ => s

/-- A change of the solar state ends every HOLDOFF when it leaves RUN (R115). -/
def endHoldoff (z : Zone) (s : State) : State :=
  match s.service z with
  | .holdoff _ => s.setService z .waiting
  | _ => s

/-- A step end (R126). -/
def applyStepEnd (s : State) : State :=
  match s.sar.claim with
  | .none => s
  | .seeking => s.setClaim .none
  | .holding n none => (releaseSlot n (s.setClaim .none)).deferred
  | .holding n (some z) =>
    let s := s.setClaim .none
    if (s.zone z).demand then
      match returnToZone n z s with
      | some x => (x.1.setService z (.serving n)).deferNotices x.2
      | none => s.setService z .waiting
    else (releaseSlot n (s.setService z .idle)).deferred

/-- A hold request (R121); while SEEKING it only leads to the scan of step 2. -/
def applyHoldRequest (s : State) : State :=
  match s.sar.claim with
  | .none => s.setClaim .seeking
  | .seeking => s
  | .holding n _ => s.answer (.taken n)

/-- Step 1 of an evaluation: the event is applied to the records it concerns (R113). -/
def applyEvent (e : SarEvent) (s : State) : State :=
  match e with
  | .zoneNotice c => applyZoneChange .low c.low (applyZoneChange .mid c.mid (applyZoneChange .top c.top s))
  | .scuNotice (.available _) => s
  | .scuNotice (.leftService n h _) => applyLeftService n h s
  | .holdoffExpired z => endHoldoff z s
  | .solarChange before after =>
    if before = .run ∧ after ≠ .run then endHoldoff .low (endHoldoff .mid (endHoldoff .top s)) else s
  | .holdRequest => applyHoldRequest s
  | .stepEnd => applyStepEnd s
  | .zoneSet => s

/-! ### The hold scan (R122, R123) -/

/-- A slot is eligible for a hold step whose low layer is `low` (R122). -/
def State.eligible (s : State) (low : Fin 16) (n : SlotId) : Bool :=
  let x := s.slot n
  x.cls.heating && decide (x.settings.coilLow ≤ low) &&
    decide (x.settings.ceiling ≥ s.ths.settings.temp + 50) && x.state.lendable

/-- The zone a slot starts or runs for. -/
def SlotState.zoneHolder : SlotState → Option Zone
  | .starting _ _ _ (.zone z) => some z
  | .running _ (some (.zone z)) => some z
  | _ => none

/-- The claim and the zone services after an accepted hold take of slot `n`, which stood at `before` (R123). -/
def recordTake (n : SlotId) (before : SlotState) (s : State) : State :=
  let s := s.setClaim (.holding n before.zoneHolder)
  let s := match before.zoneHolder with
    | some z => s.setService z (.suspended n)
    | none => s
  s.answer (.taken n)

/-- The ranking entries of a scan, in order (R122). -/
def scanEntries (low : Fin 16) : List SlotId → State → State
  | [], s => s.answer .noneEligible
  | n :: rest, s =>
    if s.eligible low n then
      match takeForHold n s with
      | some x => (recordTake n (s.slot n).state x.1).deferNotices x.2
      | none => scanEntries low rest s
    else scanEntries low rest s

/-- The hold scan (R122). While no step is running the manual gives the scan no low layer: a free value is read
(log entry 7). -/
def holdScan (s : State) : State :=
  if s.grantsOpen then
    match s.ths.step with
    | .seeking r => scanEntries r.low s.ths.settings.ranking s
    | .heating r _ => scanEntries r.low s.ths.settings.ranking s
    | .idle => scanEntries (Config.freeLowLayer s.freeCount) s.ths.settings.ranking s.useFree
  else s.answer .noneEligible

/-! ### Grant selection (R116, R117) -/

/-- A service record names a slot. -/
def Service.names (x : Service) (n : SlotId) : Bool :=
  match x with
  | .serving m | .suspended m => decide (m = n)
  | _ => false

/-- The hold claim holds a slot. -/
def Claim.holds (c : Claim) (n : SlotId) : Bool :=
  match c with
  | .holding m _ => decide (m = n)
  | _ => false

/-- A ranking entry is a candidate (R116). -/
def State.candidate (s : State) (n : SlotId) : Bool :=
  (s.slot n).state.free && !(allZones.any fun z => (s.service z).names n) && !s.sar.claim.holds n

/-- The ranking entries of a WAITING zone, in order (R116). -/
def grantEntries (z : Zone) : List SlotId → State → State
  | [], s => s
  | n :: rest, s =>
    if s.candidate n then
      match grantSlot n z s with
      | some x => (x.1.setService z (.serving n)).deferNotices x.2
      | none => grantEntries z rest s
    else grantEntries z rest s

/-- Grant selection for one zone (R116). -/
def selectGrant (z : Zone) (s : State) : State :=
  if s.service z = .waiting ∧ s.grantsOpen then grantEntries z (s.zone z).ranking s else s

/-! ### Evaluations -/

/-- One evaluation of the arbiter, in its three steps (R113). -/
def evaluateOne (e : SarEvent) (s : State) : State :=
  let s := applyEvent e s
  let s := if s.sar.claim = .seeking then holdScan s else s
  selectGrant .low (selectGrant .mid (selectGrant .top s))

/-- The oldest notice caused during an evaluation is taken as a further evaluation (R113). -/
def takeFurther (s : State) : State :=
  match s.sar.further with
  | [] => s
  | n :: rest => evaluateOne (.scuNotice n) { s with sar := { s.sar with further := rest } }

/-- Waiting further evaluations taken one after another, at most as many as the first argument. -/
def settle : Nat → State → State
  | 0, s => s
  | k + 1, s => settle k (takeFurther s)

/-- All waiting further evaluations: each may cause one more only by stopping a slot that was WARM or COLD, of which
there are four at most. -/
def State.settled (s : State) : State := settle (s.sar.further.length + 4) s

/-- An event reaches the arbiter. Further evaluations begin when the evaluation that caused them has ended, so those
still waiting come first (R113, log entry 16). -/
def evaluate (e : SarEvent) (s : State) : State := evaluateOne e s.settled

/-- The arbiter takes the notices of an SCU event one by one, each as an evaluation of its own. -/
def Sent.notify (x : Sent) : State := x.2.foldl (fun s n => evaluate (.scuNotice n) s) x.1

/-- FURTHER_EVALUATION (R113). -/
def execFurtherEvaluation (s : State) : Host.Outcome State Fault Refusal := .next (takeFurther s)

/-- HOLDOFF_TIMER_EXPIRY (R115): a holdoff timer runs only in HOLDOFF. -/
def execHoldoffTimerExpiry (z : Zone) (s : State) : Host.Outcome State Fault Refusal :=
  .next <| match s.service z with
    | .holdoff _ => evaluate (.holdoffExpired z) s
    | _ => s

/-- HOLD_REQUEST (R121): the stepper's hold request reaches the arbiter, when it is the next message (R155). -/
def execHoldRequest (s : State) : Host.Outcome State Fault Refusal :=
  .next <| match s.ths.messages with
    | .holdRequest :: rest => evaluate .holdRequest { s with ths := { s.ths with messages := rest } }
    | _ => s

/-- STEP_END (R126): the stepper's step end reaches the arbiter, when it is the next message (R155). -/
def execStepEnd (s : State) : Host.Outcome State Fault Refusal :=
  .next <| match s.ths.messages with
    | .stepEnd :: rest => evaluate .stepEnd { s with ths := { s.ths with messages := rest } }
    | _ => s

/-- The arbiter at a warm restart (R127). Notices and answers still on their way are dropped (log entry 11). -/
def Sar.warmRestart (a : Sar) : Sar :=
  { a with services := ⟨.idle, .idle, .idle⟩, claim := .none, further := [], answers := [] }

end Sys2Proof.Machine
end

