-- ==== Sys2Proof/Machine/Zones.lean ====
section
/-! DEFINITION. The Zone Demand Unit (chapter 4): the evaluation of zones and the notice to the arbiter, the pruning
of rankings, and boosts. -/

namespace Sys2Proof.Machine

/-- The evaluation of one zone with its zone minimum, absent while UNSEEDED (R72, R73, R74). -/
def ZoneRec.judge (minimum : Option Int) (z : ZoneRec) : ZoneRec :=
  match minimum with
  | none => { z with demand := false, urgent := false }
  | some m =>
    let boost := if z.boost.any fun b => decide (m ≥ b) then none else z.boost
    let eff := boost.getD z.target
    { z with
      boost := boost
      demand :=
        if eff = 0 then false
        else if m < eff - z.hysteresis then true
        else if m ≥ eff then false
        else z.demand
      urgent := decide (eff > 0) && decide (m < eff - z.hysteresis - z.urgentMargin) }

/-- What the notice lists for a zone: every change against the record `a` as it stood before. A boost that the very
evaluation of its BOOST request removes is neither set nor ended (R75). -/
def zoneChange (boosted : Bool) (a b : ZoneRec) : ZoneChange where
  raised := !a.demand && b.demand
  cleared := a.demand && !b.demand
  urgencyGained := !a.urgent && b.urgent
  urgencyLost := a.urgent && !b.urgent
  boostSet := boosted && b.boost.isSome
  boostEnded := !boosted && a.boost.isSome && b.boost.isNone

/-- Nothing changed. -/
def ZoneChange.isEmpty (c : ZoneChange) : Bool :=
  !c.raised && !c.cleared && !c.urgencyGained && !c.urgencyLost && !c.boostSet && !c.boostEnded

/-- The zone minimum of the last completed update, absent while UNSEEDED (R30, R71). -/
def State.zoneMinimum (s : State) (z : Zone) : Option Int :=
  if s.clm.model.seeded then s.clm.zoneMin.get z else none

/-- The evaluation of the listed zones and its notice (R71 to R75): `before` is each record before the evaluation's
event, `boosted` the zone a BOOST request names. The arbiter takes the notice at once. -/
def evaluateZones (before : PerZone ZoneRec) (zs : List Zone) (boosted : Option Zone) (s : State) : State :=
  let t := zs.foldl (fun t z => t.setZone z ((t.zone z).judge (s.zoneMinimum z))) s
  let change (z : Zone) : ZoneChange := zoneChange (boosted == some z) (before.get z) (t.zone z)
  let listed (z : Zone) : ZoneChange := if zs.contains z then change z else ⟨false, false, false, false, false, false⟩
  if zs.all fun z => (change z).isEmpty then t
  else evaluate (.zoneNotice ⟨listed .top, listed .mid, listed .low⟩) t

/-- The evaluation of all three zones after an update (R71). -/
def evaluateAllZones (s : State) : State := evaluateZones s.zdu.zones allZones none s

/-- Boosts cancelled together: each zone of the list that has one loses it and is evaluated (R77). -/
def cancelBoosts (zs : List Zone) (s : State) : State :=
  match zs.filter fun z => (s.zone z).boost.isSome with
  | [] => s
  | boosted =>
    evaluateZones s.zdu.zones boosted none
      (boosted.foldl (fun t z => t.setZone z { t.zone z with boost := none }) s)

/-- A slot of the given class and coil low layer may stand in a zone's ranking (R68). -/
def rankable (cls : SlotClass) (coilLow : Fin 16) (topLayer : Nat) : Bool :=
  cls.heating && decide (coilLow.val ≤ topLayer)

/-- A ranking's entries pass the check of R68 against the slot records. -/
def State.rankingValid (s : State) (z : Zone) (r : List SlotId) : Bool :=
  decide r.Nodup && r.all fun n => rankable (s.slot n).cls (s.slot n).settings.coilLow (s.zdu.topLayer z)

/-- A zone's ranking without the entries that fail R68 under the boundaries in force (R66, R70). -/
def State.prunedRanking (s : State) (z : Zone) : List SlotId :=
  (s.zone z).ranking.filter fun n => rankable (s.slot n).cls (s.slot n).settings.coilLow (s.zdu.topLayer z)

/-- The rankings of MID and LOW pruned after a change of the boundaries (R66). -/
def pruneAfterBounds (s : State) : State :=
  let s := s.setZone .mid { s.zone .mid with ranking := s.prunedRanking .mid }
  s.setZone .low { s.zone .low with ranking := s.prunedRanking .low }

/-- One slot removed from each ranking where it fails R68 (R70). -/
def pruneSlot (n : SlotId) (s : State) : State :=
  allZones.foldl
    (fun s z =>
      if rankable (s.slot n).cls (s.slot n).settings.coilLow (s.zdu.topLayer z) then s
      else s.setZone z { s.zone z with ranking := (s.zone z).ranking.filter fun m => decide (m ≠ n) })
    s

/-- The ZDU at a warm restart (R78): flags and boosts cleared, then all three zones evaluated. -/
def zduWarmRestart (s : State) : State :=
  let reset (z : ZoneRec) : ZoneRec := { z with demand := false, urgent := false, boost := none }
  let zones := s.zdu.zones
  evaluateAllZones { s with zdu := { s.zdu with zones := ⟨reset zones.top, reset zones.mid, reset zones.low⟩ } }

end Sys2Proof.Machine
end

