-- ==== Sys2Proof/Machine/Layers.lean ====
section
/-! DEFINITION. The Cylinder Layer Model (chapter 1): energy in a layer, the model period, draw-off slices, the solar
gate injection, seeding, anchoring, inversion mixing and the derived values. -/

namespace Sys2Proof.Machine

/-! ### Energy in a layer (section 1.4) -/

/-- A layer after energy, and the joules it could not hold (R16, R17, R18). -/
def Layer.applyEnergy (u energy : Int) (l : Layer) : Layer × Int :=
  let sum := l.residue + energy
  let q := sum / u
  let r := sum - q * u
  let t := l.temp + q
  if t > 1000 then ({ l with temp := 1000, residue := 0 }, (t - 1000) * u + r)
  else if t < 0 then ({ l with temp := 0, residue := 0 }, 0)
  else ({ l with temp := t, residue := r }, 0)

/-- The layer table part-way through an update, with the energy clipped so far and the first layer that clipped
(R17). -/
structure Heating where
  layers : Vector Layer 16
  clipped : Int
  first : Option (Fin 16)

/-- Energy applied to layer `i` (R16, R17). A layer clipped when its sum passed 1000 dd, by however many joules. -/
def Heating.apply (u : Int) (h : Heating) (i : Fin 16) (energy : Int) : Heating :=
  let x := h.layers[i].applyEnergy u energy
  let clips := decide (h.layers[i].temp + (h.layers[i].residue + energy) / u > 1000)
  { layers := h.layers.set i x.1
    clipped := h.clipped + x.2
    first := if clips && h.first.isNone then some i else h.first }

/-- The layers of a coil range, from low to high. -/
def coilLayers (lo hi : Fin 16) : List (Fin 16) := (List.finRange 16).filter fun i => decide (lo ≤ i ∧ i ≤ hi)

/-- Energy split over a coil range: an equal share rounded down to each layer, the remainder to the highest (R19). -/
def Heating.split (u : Int) (h : Heating) (lo hi : Fin 16) (energy : Int) : Heating :=
  let n : Int := (hi.val : Int) - lo.val + 1
  let share := energy / n
  (coilLayers lo hi).foldl (fun h i => h.apply u i (share + (if i = hi then energy - n * share else 0))) h

/-! ### Inversion mixing (section 1.9) -/

/-- The blending pass over the layers above a layer of temperature `t` (R28): each inverted pair takes the floor and
the rest of its sum, and the pass goes on from the upper layer as it now stands. -/
def blendFrom (t : Int) : List Int → List Int
  | [] => [t]
  | next :: rest =>
    if t > next then (t + next) / 2 :: blendFrom (t + next - (t + next) / 2) rest
    else t :: blendFrom next rest

/-- The blending pass (R28). -/
def blend : List Int → List Int
  | [] => []
  | t :: rest => blendFrom t rest

/-- The ordering stage (R29). -/
def order (ts : List Int) : List Int := ts.insertionSort (· ≤ ·)

/-- The temperatures of a table, bottom to top. -/
def temperatures (l : Vector Layer 16) : List Int := l.toList.map (·.temp)

/-- A table with new temperatures; every other field stays at its layer (R29). -/
def withTemperatures (l : Vector Layer 16) (ts : List Int) : Vector Layer 16 :=
  tabulate fun i => { l[i] with temp := ts.getD i.val 0 }

/-! ### Derived values (R30) -/

/-- The three derived values recomputed from the table. -/
def deriveValues (s : State) : State :=
  let ts := temperatures s.clm.layers
  let above := (ts.filter fun t => decide (t ≥ s.clm.usableThreshold)).length
  let stored := (ts.map fun t => max 0 (t - s.tMains) * s.clm.unitEnergy).sum
  { s with
    clm :=
      { s.clm with
        zoneMin := ⟨some (s.temp (s.zdu.lowestLayer .top)), some (s.temp (s.zdu.lowestLayer .mid)),
          some (s.temp (s.zdu.lowestLayer .low))⟩
        usable := s.clm.layerVolume * above
        storedKj := (stored / 1000).toNat } }

/-! ### Completion of an update (R7) -/

/-- Steps 3 and 4 of a completed update, and what the SCU does at it (R7, R71, R97, R102; the order is log entry 12). -/
def finishUpdate (s : State) : State := (scuUpdateCompleted (evaluateAllZones (deriveValues s))).notify

/-- Steps 2 to 4 of a completed update (R7). -/
def completeUpdate (s : State) : State :=
  finishUpdate (s.setLayers (withTemperatures s.clm.layers (order (blend (temperatures s.clm.layers)))))

/-! ### Model period (section 1.5) -/

/-- Loss of a layer at temperature `t` (R21), truncated toward zero. -/
def layerLoss (ua : Nat) (tAmb t : Int) : Int := ((ua : Int) * (t - tAmb)).tdiv 160

/-- Loss applied to every layer, layer 0 to layer 15 (R21). -/
def Heating.lose (u : Int) (ua : Nat) (tAmb : Int) (h : Heating) : Heating :=
  (List.finRange 16).foldl (fun g i => g.apply u i (-(layerLoss ua tAmb h.layers[i].temp))) h

/-- The figure a period adds to the loss counter: the positive losses (R21). -/
def countedLoss (ua : Nat) (tAmb : Int) (l : Vector Layer 16) : Int :=
  ((temperatures l).map fun t => max 0 (layerLoss ua tAmb t)).sum

/-- Energy a slot gives in one model period (R22). -/
def State.periodEnergy (s : State) (n : SlotId) : Int :=
  match (s.slot n).state with
  | .running _ _ => (((s.slot n).settings.rate * 10 : Nat) : Int)
  | .diverting => ((min s.scu.surplus (s.slot n).settings.rate * 10 : Nat) : Int)
  | _ => 0

/-- The slot is heating in the sense of R22. -/
def SlotState.heats : SlotState → Bool
  | .running _ _ | .diverting => true
  | _ => false

/-- The injection of slots 1 to 4 in order (R22). -/
def State.inject (s : State) (h : Heating) : Heating :=
  allSlots.foldl
    (fun h n =>
      if (s.slot n).state.heats then
        h.split s.clm.unitEnergy (s.slot n).settings.coilLow (s.slot n).settings.coilHigh (s.periodEnergy n)
      else h)
    h

/-- The table and the clipped energy of an update taken into the state, with its one report (R17). -/
def takeHeating (h : Heating) (s : State) : State :=
  let t := { s with clm := { s.clm with layers := h.layers, clipped := s.clm.clipped.add h.clipped } }
  match h.first with
  | some i => report .modelClipped (.layer i) t
  | none => t

/-- The energy counters of loss and injection after a model period (R21, R22, R31). -/
def Clm.countPeriod (c : Clm) (loss : Int) (injected : SlotId → Int) : Clm :=
  { c with
    loss := c.loss.add loss
    injected := ⟨c.injected.s1.add (injected .s1), c.injected.s2.add (injected .s2), c.injected.s3.add (injected .s3),
      c.injected.s4.add (injected .s4)⟩ }

/-- MODEL_PERIOD_EXPIRY (R20, R21, R22): dropped while UNSEEDED (R9), but the timer restarts. -/
def execModelPeriodExpiry (s : State) : Host.Outcome State Fault Refusal :=
  .next <|
    let s := { s with clm := { s.clm with period := Config.modelPeriod } }
    if s.clm.model.seeded then
      let h := s.inject (Heating.lose s.clm.unitEnergy s.clm.uaTenths s.tAmb ⟨s.clm.layers, 0, none⟩)
      let counted := s.clm.countPeriod (countedLoss s.clm.uaTenths s.tAmb s.clm.layers) s.periodEnergy
      completeUpdate (takeHeating h { s with clm := counted })
    else s

/-! ### Draw-off slices (section 1.6) -/

/-- One slice over the layers above water of temperature `below` (R23). -/
def sliceFrom (below : Int) : List Int → List Int
  | [] => []
  | t :: rest => (7 * t + below + 4) / 8 :: sliceFrom t rest

/-- Slices one after another, with the delivered energy they add (R23, R24). -/
def drawSlices (u tMains : Int) : Nat → List Int × Int → List Int × Int
  | 0, x => x
  | k + 1, (ts, delivered) =>
    drawSlices u tMains k (sliceFrom tMains ts, delivered + max 0 (u * (ts.getLastD 0 - tMains) / 8))

/-- A draw request (R23, R24); dropped while UNSEEDED (R9). -/
def drawRequest (slices : Nat) (s : State) : State :=
  if s.clm.model.seeded then
    let x := drawSlices s.clm.unitEnergy s.tMains slices (temperatures s.clm.layers, 0)
    completeUpdate
      { s with
        clm := { s.clm with layers := withTemperatures s.clm.layers x.1, delivered := s.clm.delivered.add x.2 } }
  else s

/-! ### Solar gate injection (section 1.7) -/

/-- The gate's energy applied to slot 0's coil range, when the model and the solar state allow it (R9, R26). -/
def solarInjection (energy : Int) (s : State) : State :=
  if s.clm.model.seeded && s.slc.state.circulates then
    let h := Heating.split s.clm.unitEnergy ⟨s.clm.layers, 0, none⟩ s.scu.coil0Low s.scu.coil0High energy
    completeUpdate (takeHeating h { s with clm := { s.clm with solarYield := s.clm.solarYield.add energy } })
  else s

/-! ### Seeding (section 1.3) -/

/-- The value of the anchor of layer `k`, clamped (R11, step 1). -/
def State.anchorValue (s : State) (k : Fin 16) : Option Int :=
  match s.pfe.map.anchorAt k with
  | none => none
  | some a => (s.pfe.roleValue (.anchor a)).map (clamp 0 1000)

/-- The nearest anchored layer at or below layer `k`, with its temperature. -/
def State.anchorBelow (s : State) (k : Fin 16) : Option (Fin 16 × Int) :=
  ((List.finRange 16).filter fun j => decide (j ≤ k)).reverse.findSome? fun j => (s.anchorValue j).map fun v => (j, v)

/-- The nearest anchored layer at or above layer `k`, with its temperature. -/
def State.anchorAbove (s : State) (k : Fin 16) : Option (Fin 16 × Int) :=
  ((List.finRange 16).filter fun j => decide (k ≤ j)).findSome? fun j => (s.anchorValue j).map fun v => (j, v)

/-- The seeded temperature of layer `j` (R11): its anchor's value, the interpolation between the anchors around it,
truncated toward zero, or the nearest anchor's value; Tmains when no anchor has a value. -/
def State.seedTemp (s : State) (j : Fin 16) : Int :=
  match s.anchorBelow j, s.anchorAbove j with
  | some (a, ta), some (b, tb) =>
    if a = b then ta else ta + ((tb - ta) * ((j.val : Int) - a.val)).tdiv ((b.val : Int) - a.val)
  | some (_, ta), none => ta
  | none, some (_, tb) => tb
  | none, none => s.tMains

/-- Seeding (R11, R12): the ordering stage runs, the blending pass does not. -/
def seed (s : State) : State :=
  let seeded := (List.finRange 16).any fun k => (s.anchorValue k).isSome
  let ts := order ((List.finRange 16).map s.seedTemp)
  let layers := tabulate fun i : Fin 16 =>
    { s.clm.layers[i] with temp := ts.getD i.val 0, residue := 0, hotDwell := 0, holdAge := 65535 }
  let t := { s with clm := { s.clm with layers := layers, model := if seeded then .tracking else .freeRunning } }
  finishUpdate (if seeded then t else report .anchorsLost .none t)

/-- Entry to UNSEEDED (R8): the residues, the scan record and the derived values; the zones are evaluated as if an
update had completed, and the diverters (R102). -/
def unseed (c : Clm) : Clm :=
  { c with
    model := .unseeded
    layers := tabulate fun i => { c.layers[i] with residue := 0 }
    scanned := Vector.replicate 12 false
    zoneMin := ⟨none, none, none⟩
    usable := 0
    storedKj := 0 }

/-- The entry to UNSEEDED at a volume change (R1, R8). -/
def enterUnseeded (s : State) : State :=
  evaluateDiverters (evaluateAllZones { s with clm := unseed s.clm })

/-! ### Anchoring (section 1.8) -/

/-- Division rounded to nearest, halves away from zero (R27). -/
def roundDiv (x : Int) (d : Nat) : Int := (2 * x + (if x < 0 then -(d : Int) else d)).tdiv (2 * d)

/-- An anchoring update of layer `k` with the value `v` (R27). -/
def anchorUpdate (k : Fin 16) (v : Int) (s : State) : State :=
  let t := s.temp k
  let correction := roundDiv (v - t) (2 ^ s.clm.anchorWeight)
  completeUpdate (s.setLayers (s.clm.layers.set k { s.clm.layers[k] with temp := clamp 0 1000 (t + correction) }))

/-- The CLM's examination of the anchor roles at a conversion while seeded (R13, R14): `delivers` says that the
conversion is of an anchor channel and delivers a value to its role. -/
def examineAnchors (delivers : Bool) (s : State) : State :=
  match s.clm.model with
  | .tracking =>
    if s.pfe.anyAnchorValue then s
    else report .anchorsLost .none { s with clm := { s.clm with model := .freeRunning } }
  | .freeRunning => if delivers then { s with clm := { s.clm with model := .tracking } } else s
  | .unseeded => s

/-! ### Restarts (R1, R2, R15, R20, R31) -/

/-- The CLM at a cold restart: settings at their defaults, counters 0, UNSEEDED with the temperatures and the hold
bookkeeping kept. -/
def Clm.coldRestart (c : Clm) : Clm :=
  { State.reset.clm with layers := (unseed c).layers }

/-- The CLM at a warm restart: all kept, the period from a full 10 s. -/
def Clm.warmRestart (c : Clm) : Clm := { c with period := Config.modelPeriod }

end Sys2Proof.Machine
end

