-- ==== Sys2Proof/Machine/Meters.lean ====
section
/-! DEFINITION. The Flow Meter Unit (chapter 3): pulses, the two gates, the solar heat rate and the no-flow
supervision. -/

namespace Sys2Proof.Machine

def State.meter (s : State) : Meter → MeterRec
  | .draw => s.fmu.draw
  | .loop => s.fmu.loop

def State.setMeter (s : State) (m : Meter) (r : MeterRec) : State :=
  match m with
  | .draw => { s with fmu := { s.fmu with draw := r } }
  | .loop => { s with fmu := { s.fmu with loop := r } }

/-- A pulse (R50): the count stops at 255 and sets the saturated flag. -/
def MeterRec.pulse (r : MeterRec) : MeterRec :=
  { r with count := min Config.pulseCap (r.count + 1)
           saturated := r.saturated || decide (r.count + 1 ≥ Config.pulseCap) }

/-- PULSE (R50). -/
def execPulse (m : Meter) (s : State) : Host.Outcome State Fault Refusal :=
  .next (s.setMeter m (s.meter m).pulse)

/-- A meter is present when its volume per pulse is above 0 (R53). -/
def MeterRec.present (r : MeterRec) : Bool := decide (r.mlPerPulse > 0)

/-- The volume of the expiring gate, mL: 0 for an absent meter, whose pulses are discarded (R53). -/
def MeterRec.gateVolume (r : MeterRec) : Nat := r.count * r.mlPerPulse

/-- The record after a gate expiry: the count taken and cleared, the volume in the totals, the next gate started
with the interval as it stands (R51, R53). -/
def MeterRec.endGate (r : MeterRec) : MeterRec :=
  let sum := r.remainder + r.gateVolume
  { r with
    count := 0
    saturated := false
    total := r.total + BitVec.ofNat 32 (sum / 1000)
    remainder := sum % 1000
    gateLength := r.gate
    gateLeft := r.gate }

/-- The part of a gate expiry common to both meters (R53), with the report of a saturated gate. -/
def endGate (m : Meter) (s : State) : State :=
  let r := s.meter m
  let t := s.setMeter m r.endGate
  if r.present && r.saturated then report .meterSaturated (.meter m) t else t

/-! ### DRAW (section 3.3) -/

/-- DRAW_GATE_EXPIRY (R53 to R56). -/
def execDrawGateExpiry (s : State) : Host.Outcome State Fault Refusal :=
  .next <|
    let r := s.fmu.draw
    let s := endGate .draw s
    if r.present then
      let slice := s.clm.sliceVolume
      let pending := s.fmu.pendingVolume + r.gateVolume
      let slices := min Config.sliceCap (pending / slice)
      let overrun := decide (pending - slices * slice ≥ slice)
      let s := { s with fmu := { s.fmu with pendingVolume := (pending - slices * slice) % slice } }
      let s := if overrun then report .drawOverrun .none s else s
      if slices > 0 then drawRequest slices s else s
    else s

/-! ### LOOP (sections 3.4 and 3.5) -/

/-- The pump speed a nominal loop volume uses (R57): the output duty on L6 or L7, the auto request on a relay. -/
def State.pumpSpeed (s : State) : Nat :=
  match s.carrier .solarPump with
  | none => 0
  | some i => if isRelay i then (if s.olu[i].auto > 0 then 100 else 0) else s.olu[i].output

/-- The gate's loop volume, mL (R57). -/
def State.loopVolume (s : State) : Nat :=
  if s.fmu.loop.present then s.fmu.loop.gateVolume
  else s.fmu.nominalFlow * s.pumpSpeed * s.fmu.loop.gateLength / 6000

/-- The gate's solar energy (R25, R58). -/
def State.gateEnergy (s : State) : Int :=
  let tReturn := (s.pfe.roleValue .loopReturn).getD (s.temp s.scu.coil0Low)
  match (s.pfe.roleValue .loopFlow).or (s.pfe.roleValue .collector) with
  | none => 0
  | some tFlow => (s.loopVolume : Int) * (tFlow - tReturn) * 418 / 1000

/-- The zero-gate count after a LOOP gate (R60). -/
def State.zeroGatesAfter (s : State) : Nat :=
  if s.fmu.loop.present && s.slc.state.circulates then
    if s.fmu.loop.count > 0 then 0 else min 3 (s.fmu.zeroGates + 1)
  else s.fmu.zeroGates

/-- LOOP_GATE_EXPIRY (R53, R57 to R60): the FMU forms its own figures from the state at the expiry, then hands the
energy to the CLM (log entry 13). -/
def execLoopGateExpiry (s : State) : Host.Outcome State Fault Refusal :=
  .next <|
    let energy := s.gateEnergy
    let rate := if s.slc.state.circulates then energy / (s.fmu.loop.gateLength : Int) else 0
    let zeros := s.zeroGatesAfter
    let noFlow := decide (zeros = 3) && decide (s.fmu.zeroGates < 3)
    let s := endGate .loop s
    let s := { s with fmu := { s.fmu with heatRate := rate, zeroGates := zeros } }
    let s := if noFlow then report .loopNoFlow .none s else s
    solarInjection energy s

/-- A change of the solar state told to the FMU (R61). -/
def fmuSolarChange (state : SolarState) (s : State) : State :=
  if state.circulates then s else { s with fmu := { s.fmu with zeroGates := 0 } }

/-! ### Restarts (R64) -/

/-- A meter record whose gate in progress is abandoned and whose gate timer starts full. -/
def MeterRec.restartGate (r : MeterRec) : MeterRec :=
  { r with count := 0, saturated := false, gateLength := r.gate, gateLeft := r.gate }

/-- The FMU at a warm restart; a cold restart gives `State.reset`'s. -/
def Fmu.warmRestart (f : Fmu) : Fmu :=
  { f with draw := f.draw.restartGate, loop := f.loop.restartGate, zeroGates := 0, heatRate := 0 }

end Sys2Proof.Machine
end

