-- ==== Sys2Proof/Machine/Solar.lean ====
section
/-! DEFINITION. The Solar Loop Controller (chapter 7): the five steps of an evaluation, the pump line, the notices of
a changed state, enabling and disabling. -/

namespace Sys2Proof.Machine

/-- The inputs of one evaluation (R134), but for the collector. -/
structure SolarInputs where
  reference : Int
  top : Int
  bottom : Int
  latched : Bool

/-- The inputs read at the start of an evaluation (R134). -/
def State.solarInputs (s : State) : SolarInputs where
  reference :=
    if s.clm.model.seeded then s.temp s.scu.coil0Low
    else match s.pfe.roleValue (.anchor 5) with
      | some v => clamp 0 1000 v
      | none => s.clm.mainsDefault
  top := s.temp 15
  bottom := s.temp 0
  latched := decide (s.scu.latch ≠ .clear)

/-- Speed in RUN (R141). -/
def runSpeed (x : SolarSettings) (delta : Int) : Int :=
  min 100 (max x.minSpeed (x.minSpeed + ((delta - x.onDiff) * x.gain).tdiv 10))

/-- Step 5, the differential test, from OFF or RUN (R140). -/
def differentialStep (x : SolarSettings) (i : SolarInputs) (c : Int) (w : SolarState) : SolarState × Int :=
  let delta := c - i.reference
  if (if w = .run then delta > x.offDiff else delta ≥ x.onDiff) then (.run, runSpeed x delta) else (.off, 0)

/-- Step 4, frost (R139), and what follows it. -/
def frostStep (x : SolarSettings) (i : SolarInputs) (c : Int) (w : SolarState) : SolarState × Int :=
  if w = .frost then
    if c < x.frost + 30 ∧ i.bottom ≥ 150 then (.frost, x.minSpeed) else differentialStep x i c .off
  else if c ≤ x.frost ∧ i.bottom ≥ 150 then (.frost, x.minSpeed)
  else differentialStep x i c w

/-- The limit band's test for a working state that is LIMIT, which is left as OFF (R137). -/
def limitTest (x : SolarSettings) (i : SolarInputs) (c : Int) : SolarState × Int :=
  if i.latched ∨ i.top ≥ x.solarMax - 30 then
    if x.cooldownEnable ∧ i.top > x.solarMax - 100 ∧ c ≤ i.top - x.cooldownDiff then
      (.cooldown, x.minSpeed)
    else (.limit, 0)
  else frostStep x i c .off

/-- Step 3, the limit band and the cooldown (R137, R138), and what follows it. -/
def limitStep (x : SolarSettings) (i : SolarInputs) (c : Int) (w : SolarState) : SolarState × Int :=
  match w with
  | .cooldown =>
    if x.cooldownEnable ∧ i.top > x.solarMax - 100 ∧ c ≤ i.top - x.cooldownDiff + 30 then (.cooldown, x.minSpeed)
    else limitTest x i c
  | .limit => limitTest x i c
  | _ => if i.latched ∨ i.top ≥ x.solarMax then (.limit, 0) else frostStep x i c w

/-- Steps 1 to 5 (R135 to R140): the new state and speed. -/
def solarSteps (x : SolarSettings) (i : SolarInputs) (c : Option Int) (w : SolarState) : SolarState × Int :=
  match c with
  | none => (.fault, 0)
  | some c =>
    let w := if w = .fault then .off else w
    if w = .stagnant then
      if c ≥ x.collectorMax - 100 then (.stagnant, 0) else limitStep x i c .off
    else if c ≥ x.collectorMax then (.stagnant, 0)
    else limitStep x i c w

/-- The request for the pump line (R142): a duty on L6 or L7, on or off on a relay line. -/
def askSolarPump (speed : Int) (s : State) : State :=
  match s.carrier .solarPump with
  | none => s
  | some i => askLine .solarPump (if isRelay i then onOff (decide (speed > 0)) else speed.toNat) s

/-- The pump line asked when state or speed has changed (R142), and the two blocks told of a changed state (R143). -/
def tellSolarChange (before : Slc) (s : State) : State :=
  let t := if s.slc.state = before.state ∧ s.slc.speed = before.speed then s else askSolarPump s.slc.speed s
  if s.slc.state = before.state then t
  else evaluate (.solarChange before.state s.slc.state) (fmuSolarChange s.slc.state t)

/-- One evaluation (R133 to R143) with the collector value of a conversion, or its absence. -/
def solarEvaluate (collector : Option Int) (s : State) : State :=
  if s.slc.state = .disabled then s
  else
    let i := s.solarInputs
    let r := solarSteps s.slc.settings i collector s.slc.state
    let slc :=
      { s.slc with
        state := r.1, speed := r.2, collector := collector, reference := some i.reference, top := some i.top
        bottom := some i.bottom }
    let t := { s with slc := slc }
    let t := if r.1 = .stagnant ∧ s.slc.state ≠ .stagnant then report .collectorOverheat .none t else t
    tellSolarChange s.slc t

/-- A change of state by SOURCE_ENABLE or SOURCE_DISABLE for slot 0 (R144). -/
def solarSwitch (state : SolarState) (s : State) : State :=
  tellSolarChange s.slc { s with slc := { s.slc with state := state, speed := 0 } }

/-- The SLC at a cold restart (R130, R145). -/
def slcColdRestart (lock : Bool) (c : Slc) : Slc :=
  let d := State.reset.slc
  if lock then
    { d with
      settings :=
        { d.settings with solarMax := c.settings.solarMax, collectorMax := c.settings.collectorMax } }
  else d

/-- The SLC at a warm restart (R145). -/
def Slc.warmRestart (c : Slc) : Slc :=
  { c with state := if c.state = .disabled then .disabled else .off, speed := 0 }

end Sys2Proof.Machine
end

