-- ==== Sys2Proof/Machine/Conversions.lean ====
section
/-! DEFINITION. A conversion handed on (section 2.4): the CLM first, with seeding or the examination of the anchor
roles, then the consumer of the channel's role. -/

namespace Sys2Proof.Machine

/-- The CLM receives a conversion of channel `c` (R10, R13, R14, R44): while UNSEEDED the channel joins the scan
record, and the conversion that completes the record seeds the table. -/
def clmReceive (c : Fin 12) (delivers : Bool) (s : State) : State :=
  if s.clm.model.seeded then examineAnchors delivers s
  else
    let t := { s with clm := { s.clm with scanned := s.clm.scanned.set c true } }
    if t.clm.scanned.toList.all id then seed t else t

/-- The latch's part of a TOP_LIMIT conversion (R47, R105): the lost indication when the channel became FAULTED at
this conversion, then the conversion itself. -/
def deliverTopLimit (c : Fin 12) (becameFaulted : Bool) (s : State) : State :=
  let s := if becameFaulted then (topProbeIsLost s).notify else s
  if s.pfe.channels[c].isFaulted then (topProbeIsLost s).notify
  else match s.pfe.channels[c].value with
    | some v => (topLimitValue v s).notify
    | none => s

/-- The anchoring update of a conversion of role `a` (R27, R45): none without a value or while UNSEEDED. -/
def deliverAnchor (a : Fin 6) (value : Option Int) (s : State) : State :=
  match value with
  | some v => if s.clm.model.seeded then anchorUpdate s.pfe.map.layer[a] v s else s
  | none => s

/-- The consumer of a role receives a conversion of channel `c` (R45 to R48). `seededBefore` says that the model was
seeded before this conversion: the one that seeds is no anchoring update (R10). -/
def deliverRole (c : Fin 12) (seededBefore becameFaulted : Bool) (s : State) : State :=
  match s.pfe.map.roleOf c with
  | some (.anchor a) => if seededBefore then deliverAnchor a s.pfe.channels[c].value s else s
  | some .collector => solarEvaluate s.pfe.channels[c].value s
  | some .topLimit => deliverTopLimit c becameFaulted s
  | _ => s

/-- With no COLLECTOR channel, channel 11 brings the solar evaluation, with no value (R46, R133), after its own role's
consumer (DESIGN CHOICE, log entry 35). -/
def deliverNoCollector (c : Fin 12) (s : State) : State :=
  if s.pfe.map.channelOf .collector = none ∧ c = 11 then solarEvaluate none s else s

/-- The channel stands in an anchor role and the conversion delivers a value to it (R14, R43). -/
def State.deliversAnchor (s : State) (c : Fin 12) : Bool :=
  match s.pfe.map.roleOf c with
  | some (.anchor _) => (s.pfe.channels[c].value).isSome
  | _ => false

/-- A conversion of channel `c` (R34 to R39, R44 to R48). With no COLLECTOR channel and channel 11 in a role of its own,
the manual gives no order between that role's consumer and the solar evaluation with no value: the role's consumer comes
first (DESIGN CHOICE, log entry 35). R178 lets reports of different blocks be taken in either order: the report of the PFE
(PROBE_OPEN, PROBE_SHORT) comes before ANCHORS_LOST and TOP_PROBE_LOST of the same conversion, and so fills an absent
first-fault record (DESIGN CHOICE, log entry 38). -/
def convertChannel (c : Fin 12) (raw : Int) (s : State) : State :=
  let t := pfeConvert c raw s
  let becameFaulted := t.pfe.channels[c].isFaulted && !s.pfe.channels[c].isFaulted
  let u := clmReceive c (t.deliversAnchor c) t
  deliverNoCollector c (deliverRole c s.clm.model.seeded becameFaulted u)

/-- CONVERSION (R32): the scan converts the channels in their order, channel 0 to channel 11 and then channel 0 again, so
a conversion completes for the channel whose turn it is; for another channel none completes, and nothing changes (log
entry 18). -/
def execConversion (c : Fin 12) (raw : Int) (s : State) : Host.Outcome State Fault Refusal :=
  .next (if c = s.pfe.scanNext then convertChannel c raw s else s)

end Sys2Proof.Machine
end

