-- ==== Sys2Proof/Machine/SlotEvents.lean ====
section
/-! DEFINITION. The events of the source slots (chapter 5): the slot timers, the confirm inputs and the surplus
timer. Each sends its notices to the arbiter at once. An expiry of a timer that does not run changes nothing (log
entry 8). -/

namespace Sys2Proof.Machine

/-- SURPLUS_TIMER_EXPIRY (R104). -/
def execSurplusTimerExpiry (s : State) : Host.Outcome State Fault Refusal :=
  .next <| match s.scu.surplusTimer with
    | some _ => setSurplus 0 none s
    | none => s

/-- The slot that names a confirm input; no two slots name one input (R82). -/
def State.slotNaming (s : State) (input : Fin 4) : Option SlotId :=
  allSlots.find? fun n => decide ((s.slot n).settings.confirm = some input)

/-- CONFIRM_INPUT_CHANGE (R89): the level is kept, and acts on the slot that names the input. The same level again
is no change. -/
def execConfirmInputChange (input : Fin 4) (active : Bool) (s : State) : Host.Outcome State Fault Refusal :=
  .next <|
    let t :=
      { s with
        scu := { s.scu with confirmLevel := s.scu.confirmLevel.set input active }
        pins := { s.pins with confirm := s.pins.confirm.set input active } }
    if s.scu.confirmLevel[input] = active then t
    else match t.slotNaming input with
      | some n => (confirmChanged n active t).notify
      | none => t

/-- DWELL_END (R91): a slot in the DWELL phase. -/
def execDwellEnd (n : SlotId) (s : State) : Host.Outcome State Fault Refusal := .next (endDwell n s).notify

/-- CONFIRM_WINDOW_EXPIRY (R92): a slot in the CONFIRM phase. -/
def execConfirmWindowExpiry (n : SlotId) (s : State) : Host.Outcome State Fault Refusal :=
  .next (startFailure n s).notify

/-- MINIMUM_RUN_COMPLETION (R95): a RUNNING slot whose minimum run remains above 0. -/
def execMinimumRunCompletion (n : SlotId) (s : State) : Host.Outcome State Fault Refusal :=
  .next <| match (s.slot n).state with
    | .running (_ + 1) _ => (completeRun n s).notify
    | _ => s

/-- OVERRUN_EXPIRY (R98): a slot in OVERRUN. It sends no notice. -/
def execOverrunExpiry (n : SlotId) (s : State) : Host.Outcome State Fault Refusal := .next (expireOverrun n s)

/-- HOLD_EXPIRY (R88): a slot in HOLD. -/
def execHoldExpiry (n : SlotId) (s : State) : Host.Outcome State Fault Refusal := .next (expireHold n s).notify

/-- WARM_EXPIRY (R88): a slot in WARM. -/
def execWarmExpiry (n : SlotId) (s : State) : Host.Outcome State Fault Refusal := .next (expireWarm n s).notify

end Sys2Proof.Machine
end

