-- ==== Sys2Proof/Machine/Hold.lean ====
section
/-! DEFINITION. The Thermal Hold Stepper (chapter 8): the layer bookkeeping of the minute event, the steps of a pass,
the arbiter's answers, and HOLD_NOW. -/

namespace Sys2Proof.Machine

def State.setThs (s : State) (t : Ths) : State := { s with ths := t }

/-! ### Layer bookkeeping (R150) -/

/-- A layer's new hold age after step 1 of R150. -/
def Layer.ageAfter (hour : Bool) (l : Layer) : Nat := if hour then min 65535 (l.holdAge + 1) else l.holdAge

/-- A layer's new hot dwell (R150, step 2). -/
def Layer.dwellAfter (h : HoldSettings) (l : Layer) : Nat :=
  if l.temp ≥ h.temp then min (l.hotDwell + 1) h.dwell else 0

/-- The layer completes a dwell at this minute (R150, step 3). -/
def Layer.completesDwell (h : HoldSettings) (l : Layer) : Bool :=
  decide (l.dwellAfter h = h.dwell) && decide (l.hotDwell ≠ h.dwell)

/-- A layer after the bookkeeping (R150). -/
def Layer.book (h : HoldSettings) (hour : Bool) (l : Layer) : Layer :=
  { l with
    hotDwell := l.dwellAfter h
    holdAge := if l.completesDwell h then 0 else l.ageAfter hour }

/-- The layers that complete a dwell at this minute; none while UNSEEDED (R150). -/
def State.dwellsCompleted (s : State) : List (Fin 16) :=
  if s.clm.model.seeded then
    (List.finRange 16).filter fun i => (s.clm.layers[i]).completesDwell s.ths.settings
  else []

/-- The hour count wraps at the next minute event (R150, step 1). -/
def Ths.hourWraps (t : Ths) : Bool := decide (t.hourCount + 1 ≥ 60)

/-- Part 1 of a minute event (R6, R149, R150): while UNSEEDED only the hour count moves. -/
def bookkeeping (s : State) : State :=
  let wraps := s.ths.hourWraps
  let t := s.setThs { s.ths with hourCount := if wraps then 0 else s.ths.hourCount + 1 }
  if s.clm.model.seeded then
    completeUpdate (t.setLayers (tabulate fun i => (s.clm.layers[i]).book s.ths.settings wraps))
  else t

/-! ### Steps (R153, R154, R158) -/

/-- The layers of a step's section, rising. -/
def StepRec.section (r : StepRec) : List (Fin 16) := coilLayers r.low r.top

/-- The done layers hold every layer of the section. -/
def StepRec.filled (r : StepRec) : Bool := r.section.all fun i => r.done.contains i

/-- The record of a step that starts at the pointer (R154, steps 1 to 3). -/
def Ths.newStep (t : Ths) : StepRec where
  top := t.pointer
  low := ⟨max t.settings.base.val (t.pointer.val + 1 - t.settings.width.layers), by
    have := t.settings.base.isLt
    have := t.pointer.isLt
    have : 1 ≤ t.settings.width.layers := by cases t.settings.width <;> decide
    omega⟩
  width := t.settings.width
  creditAge := t.settings.creditAge
  done := []
  elapsed := 0

/-- Every layer of the section has a hold age below the credit age (R154). -/
def State.credited (s : State) (r : StepRec) : Bool :=
  r.section.all fun i => decide ((s.clm.layers[i]).holdAge < r.creditAge)

/-- The layers of the section that already stand held (R154). -/
def State.heldLayers (s : State) (r : StepRec) : List (Fin 16) :=
  r.section.filter fun i => decide ((s.clm.layers[i]).hotDwell = s.ths.settings.dwell)

/-- The pointer after step 2 of R158, which may lie below the base. -/
def Ths.pointerAfter (t : Ths) (r : StepRec) : Int :=
  if t.pointer = r.top then (r.top.val : Int) - r.width.layers else t.pointer.val

/-- Steps 1 to 4 of a completion (R158). -/
def finishStep (r : StepRec) (s : State) : State :=
  let s := s.tellArbiter .stepEnd
  let p := s.ths.pointerAfter r
  if p < s.ths.settings.base.val then
    s.setThs { s.ths with pointer := 15, passes := s.ths.passes + 1, fullPass := false, overdue := false, step := .idle }
  else s.setThs { s.ths with pointer := Fin.ofNat 16 p.toNat, step := .idle }

/-- Step 5 of a completion (R158), with `start` starting a step. -/
def nextStep (start : State → State) (s : State) : State :=
  if s.ths.settings.enable then
    if s.ths.pendingFlag || s.ths.fullPass then start (s.setThs { s.ths with pendingFlag := false }) else s
  else s.setThs { s.ths with pendingFlag := false, fullPass := false }

/-- A step starts (R154). A step credited or held at once completes in the same event and may start the next; the
first argument bounds that chain. -/
def startStep : Nat → State → State
  | 0, s => s
  | k + 1, s =>
    let r := { s.ths.newStep with done := s.heldLayers s.ths.newStep }
    if s.credited r || r.filled then nextStep (startStep k) (finishStep r s)
    else (s.setThs { s.ths with step := .seeking r }).tellArbiter .holdRequest

/-- No chain of steps within one event is longer: a pass has at most sixteen steps, and the pending flag starts one
more. -/
def chainBound : Nat := 20

/-- A step completes (R158). -/
def completeStep (r : StepRec) (s : State) : State := nextStep (startStep chainBound) (finishStep r s)

/-- The running step's record. -/
def HoldStep.record? : HoldStep → Option StepRec
  | .idle => none
  | .seeking r => some r
  | .heating r _ => some r

/-- The running step with another record. -/
def HoldStep.withRecord (r : StepRec) : HoldStep → HoldStep
  | .idle => .idle
  | .seeking _ => .seeking r
  | .heating _ n => .heating r n

/-- Part 2 of a minute event (R156). -/
def stepProgress (completed : List (Fin 16)) (s : State) : State :=
  match s.ths.step.record? with
  | none => s
  | some r =>
    let r := { r with done := r.section.filter fun i => r.done.contains i || completed.contains i }
    let t := s.setThs { s.ths with step := s.ths.step.withRecord r }
    if r.filled then completeStep r t else t

/-- A running step has timed out (R159). -/
def timeOut (r : StepRec) (s : State) : State :=
  let s := report .holdIncomplete (.layer r.top) s
  let s := (s.setThs { s.ths with failedSteps := min 65535 (s.ths.failedSteps + 1) }).tellArbiter .stepEnd
  let s := s.setThs { s.ths with fullPass := false, step := .idle }
  if s.ths.settings.enable && s.ths.pendingFlag then
    startStep chainBound (s.setThs { s.ths with pendingFlag := false })
  else s.setThs { s.ths with pendingFlag := false }

/-- Part 3 of a minute event (R159). -/
def countElapsed (s : State) : State :=
  match s.ths.step.record? with
  | none => s
  | some r =>
    let r := { r with elapsed := r.elapsed + 1 }
    let t := s.setThs { s.ths with step := s.ths.step.withRecord r }
    if r.elapsed ≥ s.ths.settings.timeout then timeOut r t else t

/-! ### Interval and overdue -/

/-- The interval timer expires: it is loaded again (R151) and R153 follows. -/
def expireInterval (s : State) : State :=
  let s := s.setThs { s.ths with interval := some s.ths.settings.interval }
  match s.ths.step with
  | .idle => startStep chainBound s
  | _ => s.setThs { s.ths with pendingFlag := true }

/-- Part 4 of a minute event (R149, R151). -/
def countInterval (s : State) : State :=
  match s.ths.settings.enable, s.ths.interval with
  | true, some m => if m ≤ 1 then expireInterval s else s.setThs { s.ths with interval := some (m - 1) }
  | _, _ => s

/-- The highest layer from the base up whose hold age has reached the period and 24 hours (R162). -/
def State.overdueLayer (s : State) : Option (Fin 16) :=
  (coilLayers s.ths.settings.base 15).reverse.find? fun i =>
    decide ((s.clm.layers[i]).holdAge ≥ s.ths.settings.period + 24)

/-- The overdue test (R162). -/
def overdueTest (s : State) : State :=
  if s.ths.settings.enable && !s.ths.overdue then
    match s.overdueLayer with
    | some i => report .holdOverdue (.layer i) (s.setThs { s.ths with overdue := true })
    | none => s
  else s

/-! ### The minute event (R149) -/

/-- The five parts of a minute event. Hold ages advance when the hour count wraps and the model is seeded. -/
def minuteEvent (s : State) : State :=
  let advanced := s.ths.hourWraps && s.clm.model.seeded
  let completed := s.dwellsCompleted
  let s := s.setThs { s.ths with minuteLeft := Config.minuteSeconds }
  let s := countInterval (countElapsed (stepProgress completed (bookkeeping s)))
  if advanced then overdueTest s else s

/-- MINUTE_EVENT (R149). -/
def execMinuteEvent (s : State) : Host.Outcome State Fault Refusal := .next (minuteEvent s)

/-- HOUR_COUNT_WRAP (R150, R162): the minute event at which the hour count reaches 60 (log entry 9). -/
def execHourCountWrap (s : State) : Host.Outcome State Fault Refusal :=
  .next (minuteEvent (s.setThs { s.ths with hourCount := 59 }))

/-- STEP_TIMEOUT (R159): a step that is SEEKING or HEATING times out. -/
def execStepTimeout (s : State) : Host.Outcome State Fault Refusal :=
  .next <| match s.ths.step.record? with
    | none => s
    | some r => timeOut r s

/-- INTERVAL_EXPIRY (R153): the interval timer runs while the stepper is enabled. -/
def execIntervalExpiry (s : State) : Host.Outcome State Fault Refusal :=
  .next <| match s.ths.interval with
    | some _ => expireInterval s
    | none => s

/-! ### The arbiter's answers (R155) -/

/-- The step after an answer. -/
def HoldStep.answered (a : HoldAnswer) : HoldStep → HoldStep
  | .idle => .idle
  | .seeking r =>
    match a with
    | .taken n => .heating r n
    | _ => .seeking r
  | .heating r _ =>
    match a with
    | .taken n => .heating r n
    | _ => .seeking r

/-- The oldest answer on its way reaches the stepper, when it is of the kind that `arrives` names. -/
def takeAnswer (arrives : HoldAnswer → Bool) (s : State) : State :=
  match s.sar.answers with
  | [] => s
  | a :: rest =>
    if arrives a then
      { s with
        sar := { s.sar with answers := rest }
        ths := { s.ths with step := s.ths.step.answered a } }
    else s

/-- HOLD_TAKEN (R155). -/
def execHoldTaken (s : State) : Host.Outcome State Fault Refusal :=
  .next (takeAnswer (fun a => match a with | .taken _ => true | _ => false) s)

/-- HOLD_NONE (R155). -/
def execHoldNone (s : State) : Host.Outcome State Fault Refusal :=
  .next (takeAnswer (fun a => decide (a = .noneEligible)) s)

/-- HOLD_LOST (R155). -/
def execHoldLost (s : State) : Host.Outcome State Fault Refusal :=
  .next (takeAnswer (fun a => decide (a = .lost)) s)

/-! ### HOLD_NOW, setting changes and restarts -/

/-- HOLD_NOW while the stepper is enabled (R160). -/
def holdNow (s : State) : State :=
  match s.ths.step with
  | .idle => startStep chainBound (s.setThs { s.ths with pointer := 15, fullPass := true })
  | _ => s.setThs { s.ths with fullPass := true }

/-- What a taken SET_HOLD does (R148, R161). -/
def Ths.takeSettings (t : Ths) (h : HoldSettings) : Ths :=
  let changed := h.period ≠ t.settings.period ∨ h.width ≠ t.settings.width ∨ h.base ≠ t.settings.base
  { t with
    settings := h
    interval :=
      if !h.enable then none
      else if !t.settings.enable || decide changed then some h.interval
      else t.interval
    pointer := if h.base ≠ t.settings.base ∧ t.pointer < h.base then 15 else t.pointer }

/-- The stepper at a warm restart (R149, R163). Messages still on their way are dropped (log entry 11). -/
def Ths.warmRestart (t : Ths) : Ths :=
  { t with
    step := .idle
    pendingFlag := false
    fullPass := false
    interval := if t.settings.enable then some t.settings.interval else none
    minuteLeft := Config.minuteSeconds
    messages := [] }

/-- The stepper at a cold restart (R147, R149, R163): the locked hold temperature and dwell are kept. -/
def thsColdRestart (lock : Bool) (t : Ths) : Ths :=
  let d := State.reset.ths
  if lock then { d with settings := { d.settings with temp := t.settings.temp, dwell := t.settings.dwell } } else d

end Sys2Proof.Machine
end

