-- ==== Sys2Proof/WellFormed.lean ====
section
/-! DEFINITION. Which commands can reach the block at all: a request frame carries at most 64 payload bytes
(R186, R187), an unknown-kind request does not carry a kind of section 11.4 (R190), and contact recovery exists on
the relay lines L0 to L5 only (R165, R168). The other operands are kept in range by their types. -/

namespace Sys2Proof

/-- The request kinds of section 11.4. -/
def knownKind (kind : Byte) : Bool :=
  (0x01 ≤ kind.toNat && kind.toNat ≤ 0x0D) || (0x10 ≤ kind.toNat && kind.toNat ≤ 0x1B) ||
    (0x20 ≤ kind.toNat && kind.toNat ≤ 0x2B)

/-- The payload of a request command (none for the other commands). -/
def Instr.payload? : Instr → Option (List Byte)
  | .unknownKindRequest _ p => some p
  | .setCylinder p => some p
  | .setZoneBounds p => some p
  | .setZone p => some p
  | .setSource p => some p
  | .setSolar p => some p
  | .setHold p => some p
  | .setProbeMap p => some p
  | .setProbeTrim p => some p
  | .setMeter p => some p
  | .setOutput p => some p
  | .setFaultPolicy p => some p
  | .setLink p => some p
  | .sourceEnable p => some p
  | .sourceDisable p => some p
  | .sourceReset p => some p
  | .boost p => some p
  | .boostCancel p => some p
  | .surplus p => some p
  | .forceOutput p => some p
  | .releaseOutput p => some p
  | .holdNow p => some p
  | .clearFaults p => some p
  | .lockLimits p => some p
  | .restart p => some p
  | .ident p => some p
  | .status p => some p
  | .layers p => some p
  | .zones p => some p
  | .source p => some p
  | .solar p => some p
  | .hold p => some p
  | .meters p => some p
  | .energy p => some p
  | .faults p => some p
  | .probes p => some p
  | .outputs p => some p
  | .config p => some p
  | .powerOn | .resetPin | .receiveByte _ _ | .gapTimerExpiry | .replySent | .linkLapse => none
  | .conversion _ _ | .pulse _ | .drawGateExpiry | .loopGateExpiry | .modelPeriodExpiry => none
  | .surplusTimerExpiry | .furtherEvaluation | .holdoffTimerExpiry _ | .holdRequest | .stepEnd => none
  | .holdTaken | .holdNone | .holdLost | .confirmInputChange _ _ | .dwellEnd _ => none
  | .confirmWindowExpiry _ | .minimumRunCompletion _ | .overrunExpiry _ | .holdExpiry _ => none
  | .warmExpiry _ | .minuteEvent | .hourCountWrap | .stepTimeout | .intervalExpiry => none
  | .recoveryEnd _ | .uptimeIncrement => none

/-- The commands that can reach the block. -/
def Instr.wellFormed (i : Instr) : Bool :=
  (match i.payload? with
    | some p => decide (p.length ≤ Config.largestPayload)
    | none => true) &&
  (match i with
    | .unknownKindRequest kind _ => !knownKind kind
    | .recoveryEnd line => decide (line.val < 6)
    | _ => true)

end Sys2Proof
end

