-- ==== Sys2Proof/Machine/Port.lean ====
section
/-! DEFINITION. The Message Port (chapter 11): the check, frames, the receive assembler, the request queue, the taking
of a request, and link supervision. -/

namespace Sys2Proof.Machine

/-! ### The check (R186) -/

/-- One place shifted left, with the polynomial when the bit shifted out was 1. -/
def crcShift (r : BitVec 16) : BitVec 16 := if r.msb then (r <<< 1) ^^^ 0x1021#16 else r <<< 1

/-- The check register after one byte. -/
def crcByte (r : BitVec 16) (b : Byte) : BitVec 16 :=
  (List.replicate 8 ()).foldl (fun r _ => crcShift r) (r ^^^ (b.zeroExtend 16 <<< 8))

/-- The check over a run of bytes. -/
def crc (bytes : List Byte) : BitVec 16 := bytes.foldl crcByte 0xFFFF#16

/-- The bytes the check covers: LEN, KIND and the payload. -/
def checkedBytes (kind : Byte) (payload : List Byte) : List Byte := byteOf payload.length ++ kind :: payload

/-- The check of a frame. -/
def frameCheck (kind : Byte) (payload : List Byte) : BitVec 16 := crc (checkedBytes kind payload)

/-- A whole frame on the line (R186). -/
def frameBytes (kind : Byte) (payload : List Byte) : List Byte :=
  0xC5#8 :: checkedBytes kind payload ++ wordOf (frameCheck kind payload).toNat

/-! ### The queue (R188, R189) and link supervision (R194) -/

def State.setMpt (s : State) (m : Mpt) : State := { s with mpt := m }

/-- A discard is counted (R188). -/
def Mpt.countDiscard (m : Mpt) : Mpt := { m with discards := min 65535 (m.discards + 1) }

/-- The supervision timer is loaded with the interval, or stopped when the interval is 0 (R194). -/
def Mpt.loadSupervision (m : Mpt) : Mpt := { m with supervision := if m.interval = 0 then none else some m.interval }

/-- A valid frame: it loads the supervision timer while the interval is above 0, and joins the queue or is counted
as discarded (R187, R189, R194). -/
def Mpt.arrive (m : Mpt) (f : Frame) : Mpt :=
  let m := m.loadSupervision
  if m.queue.length < Config.queuePlaces then { m with queue := m.queue ++ [f] } else m.countDiscard

/-! ### The receive assembler (R187) -/

/-- A byte taken in a state with a frame begun: what the assembler becomes, and the outcome for the frame, none while
it goes on, `some none` when it is discarded, `some (some f)` when it is valid. -/
def Assembler.take (b : Byte) : Assembler → Assembler × Option (Option Frame)
  | .hunt => (if b = 0xC5#8 then .length else .hunt, none)
  | .length => if b.toNat ≤ Config.largestPayload then (.kind b.toNat, none) else (.hunt, some none)
  | .kind len => (if len = 0 then .check len b [] none else .payload len b [], none)
  | .payload len code held =>
    let body := held ++ [b]
    (if body.length ≥ len then .check len code body none else .payload len code body, none)
  | .check len code body none => (.check len code body (some b), none)
  | .check _ code body (some first) =>
    (.hunt, some (if first ++ b = frameCheck code body then some ⟨code, body⟩ else none))

/-- A received byte with its framing error. -/
def Assembler.receive (b : Byte) (framingError : Bool) (a : Assembler) : Assembler × Option (Option Frame) :=
  if framingError then (.hunt, if a = .hunt then none else some none) else a.take b

/-- The port after a received byte (R187, R188). -/
def Mpt.receive (b : Byte) (framingError : Bool) (m : Mpt) : Mpt :=
  let (a, outcome) := m.assembler.receive b framingError
  let m := { m with assembler := a, gapTimer := if a = .hunt then none else some Config.gapMilliseconds }
  match outcome with
  | none => m
  | some none => m.countDiscard
  | some (some f) => m.arrive f

/-- RECEIVE_BYTE (R187). -/
def execReceiveByte (b : Byte) (framingError : Bool) (s : State) : Host.Outcome State Fault Refusal :=
  .next (s.setMpt (s.mpt.receive b framingError))

/-- GAP_TIMER_EXPIRY (R187): it runs in every state but HUNT. -/
def execGapTimerExpiry (s : State) : Host.Outcome State Fault Refusal :=
  .next <| if s.mpt.assembler = .hunt then s
    else s.setMpt { s.mpt with assembler := .hunt, gapTimer := none }.countDiscard

/-- LINK_LAPSE (R194): while the supervision timer runs. The report comes first, then the lines (R173), the boosts (R77)
and the surplus figure (R104): R194 lists the four and gives them no order (DESIGN CHOICE, log entry 37). -/
def execLinkLapse (s : State) : Host.Outcome State Fault Refusal :=
  .next <| match s.mpt.supervision with
    | none => s
    | some _ =>
      setSurplus 0 none <| cancelBoosts allZones <| releaseAllLines <|
        report .linkLapse .none (s.setMpt { s.mpt with supervision := none })

/-! ### Taking a request (R189 to R191) -/

/-- What an owner answers: the result, the data of an OK or CLAMPED reply, and the state after. -/
structure Answer where
  code : ResultCode
  data : List Byte
  state : State

/-- A refusal: no data, nothing changed (R190, R191). -/
def refuse (code : ResultCode) (s : State) : Answer := ⟨code, [], s⟩

/-- Taken as sent. -/
def accept (data : List Byte) (s : State) : Answer := ⟨.ok, data, s⟩

/-- The length test of R190, step 2, then the owner. -/
def withLength (ok : Bool) (owner : State → Answer) (s : State) : Answer :=
  if ok then owner s else refuse .badLength s

/-- The reply to a request (R186, R191): its KIND has the top bit set. -/
def replyFrame (kind : Byte) (code : ResultCode) (data : List Byte) : List Byte :=
  frameBytes (kind ||| 0x80#8) (byteOf code.code ++ data)

/-- The taken request is judged and its reply begins (R190, R191); each reply uses one count of the free values. -/
def answerRequest (kind : Byte) (owner : State → Answer) (s : State) : State :=
  let a := owner s
  let t := a.state.useFree
  t.setMpt { t.mpt with reply := some (replyFrame kind a.code a.data) }

/-- A request command (R189, log entry 10). While a request is being answered, or when another request is the oldest
in the queue, the command is the arrival of its frame. Otherwise the request is taken and answered: it is the oldest
entry of the queue, or its frame arrives in an empty queue and is taken at once. -/
def requestStep (kind : Byte) (payload : List Byte) (owner : State → Answer) (s : State) : State :=
  let arrived := s.setMpt (s.mpt.arrive ⟨kind, payload⟩)
  match s.mpt.reply, s.mpt.queue with
  | none, [] => answerRequest kind owner arrived
  | none, f :: _ => if f = ⟨kind, payload⟩ then answerRequest kind owner s else arrived
  | some _, _ => arrived

/-- UNKNOWN_KIND_REQUEST (R190, step 1); a kind of section 11.4 is no such request. -/
def execUnknownKindRequest (kind : Byte) (payload : List Byte) (s : State) : Host.Outcome State Fault Refusal :=
  .next (if knownKind kind then s else requestStep kind payload (refuse .unknownKind) s)

end Sys2Proof.Machine
end

