-- ==== Sys2Proof/Machine/Reads.lean ====
section
/-! DEFINITION. The read requests (section 11.4.3) and the layouts the settings share with CONFIG (R192). A reply byte
whose field is absent and for which 11.4.1 gives no absent code is a free value (log entry 5). -/

namespace Sys2Proof.Machine

/-- The free byte at place `k` of the reply being formed (log entry 5). -/
def State.freeReply (s : State) (k : Nat) : List Byte := [Config.freeByte s.freeCount k]

/-! ### Setting payloads as held -/

def cylinderBytes (c : Clm) : List Byte :=
  wordOf c.volume ++ byteOf c.uaTenths ++ wordOf c.mainsDefault ++ wordOf c.ambientDefault ++
    wordOf c.usableThreshold ++ byteOf c.anchorWeight

def zoneBytes (z : Zone) (r : ZoneRec) : List Byte :=
  byteOf (zoneCode z) ++ wordOf r.target ++ wordOf r.hysteresis ++ wordOf r.urgentMargin ++ rankingOf r.ranking

/-- Slot 0's SET_SOURCE payload. -/
def slot0Bytes (c : Scu) : List Byte :=
  byteOf 0 ++ byteOf c.coil0Low.val ++ byteOf c.coil0High.val ++ wordOf c.hardMax ++ byteOf c.surplusTimeout

/-- A confirm input; none is 0xFE (R82). -/
def confirmOf : Option (Fin 4) → List Byte
  | some i => byteOf i.val
  | none => byteOf 0xFE

/-- The SET_SOURCE payload of one of slots 1 to 4. -/
def slotBytes (n : SlotId) (x : Slot) : List Byte :=
  let t := x.settings
  byteOf (slotNumber n) ++ byteOf x.cls.code ++ byteOf t.coilLow.val ++ byteOf t.coilHigh.val ++ wordOf t.rate ++
    wordOf t.ceiling ++ wordOf t.minRun ++ wordOf t.minOff ++ wordOf t.startDwell ++ wordOf t.coldExtra ++
    byteOf t.warmTime ++ wordOf t.overrun ++ confirmOf t.confirm ++ wordOf t.confirmWindow

def solarBytes (c : Slc) (a : Sar) : List Byte :=
  let x := c.settings
  wordOf x.onDiff ++ wordOf x.offDiff ++ byteOf x.minSpeed ++ byteOf x.gain ++ wordOf x.solarMax ++
    wordOf x.collectorMax ++ wordOf x.frost ++ flagOf x.cooldownEnable ++ wordOf x.cooldownDiff ++
    byteOf a.holdoffTime ++ wordOf a.threshold

def holdBytes (h : HoldSettings) : List Byte :=
  flagOf h.enable ++ wordOf h.temp ++ byteOf h.dwell ++ wordOf h.period ++ byteOf h.width.layers ++
    byteOf h.base.val ++ wordOf h.timeout ++ rankingOf h.ranking

/-- A channel of the map; none is 0xFF. -/
def channelByteOf : Option (Fin 12) → List Byte
  | some c => byteOf c.val
  | none => byteOf 0xFF

def mapBytes (m : ProbeMap) : List Byte :=
  m.channel.toList.flatMap channelByteOf ++ m.layer.toList.flatMap fun k => byteOf k.val

/-- A fault policy code: bit 0 masked, bit 1 TRIP. -/
def policyOf (r : KindRec) : List Byte := byteOf ((if r.masked then 1 else 0) + (if r.trip then 2 else 0) : Nat)

def policyBytes (f : Flt) : List Byte := f.kinds.toList.flatMap policyOf

def linkBytes (m : Mpt) : List Byte := wordOf m.interval

/-- Pulse volume and gate interval of a meter. -/
def meterSettings (r : MeterRec) : List Byte := wordOf r.mlPerPulse ++ byteOf r.gate

/-! ### IDENT, STATUS, LAYERS -/

def identData (_ : State) : List Byte := wordOf 520 ++ byteOf 1 ++ byteOf 64

/-- The first-fault kind, or 0. -/
def firstKindOf (f : Flt) : List Byte :=
  match f.first with
  | some r => byteOf r.kind.code
  | none => byteOf 0

def statusData (s : State) : List Byte :=
  byteOf s.clm.model.code ++ wordOf s.clm.volume ++ wordOf s.clm.usable ++ longOf s.clm.storedKj ++
    tempOf (s.zoneMinimum .top) ++ tempOf (s.zoneMinimum .mid) ++ tempOf (s.zoneMinimum .low) ++
    byteOf s.slc.state.code ++ byteOf s.scu.latch.code ++ longOf s.flt.uptime.toNat ++ flagOf s.flt.pinCondition ++
    firstKindOf s.flt ++ wordOf s.mpt.discards ++ flagOf s.mpt.lock ++ wordOf s.mpt.interval ++
    timerOf s.mpt.supervision

def layerData (l : Layer) : List Byte :=
  wordOf l.temp ++ wordOf l.residue ++ byteOf ((l.anchor.map fun a => a.val + 1).getD 0 : Nat) ++ byteOf l.hotDwell ++
    wordOf l.holdAge

def layersData (group : Nat) (s : State) : List Byte :=
  byteOf group ++ byteOf s.clm.model.code ++
    ((s.clm.layers.toList.drop (4 * group)).take 4).flatMap layerData

/-! ### ZONES, SOURCE -/

/-- The slot of a service, present in SERVING and SUSPENDED (R111). -/
def Service.slot? : Service → Option SlotId
  | .serving n | .suspended n => some n
  | _ => none

/-- The holdoff remaining, present in HOLDOFF (R111). -/
def Service.holdoff? : Service → Option Nat
  | .holdoff r => some r
  | _ => none

def zonesData (z : Zone) (s : State) : List Byte :=
  let r := s.zone z
  byteOf s.zdu.b1.val ++ byteOf s.zdu.b2.val ++ byteOf (zoneCode z) ++ byteOf (s.zdu.lowestLayer z).val ++
    byteOf (s.zdu.topLayer z) ++ wordOf r.target ++ wordOf r.hysteresis ++ wordOf r.urgentMargin ++
    flagOf r.demand ++ flagOf r.urgent ++ flagOf r.boost.isSome ++ tempOf r.boost ++ wordOf r.effectiveTarget ++
    tempOf (s.zoneMinimum z) ++ byteOf (s.service z).code ++ slotOf (s.service z).slot? ++
    timerOf (s.service z).holdoff? ++ rankingOf r.ranking

def SlotState.holder? : SlotState → Option Holder
  | .starting _ _ _ h => some h
  | .running _ h => h
  | _ => none

def holderOf : Option Holder → List Byte
  | some h => byteOf h.code
  | none => byteOf 0xFF

/-- Start origin and phase, 0xFF each when absent. -/
def startOf : SlotState → List Byte
  | .starting o p _ _ => byteOf o.code ++ byteOf p.code
  | _ => byteOf 0xFF ++ byteOf 0xFF

/-- The timer that runs in a state (section 5.2). -/
def SlotState.timer? : SlotState → Option Nat
  | .warm r | .starting _ _ r _ | .running r _ | .overrun r _ _ | .hold r => some r
  | _ => none

/-- Off time due, present in OVERRUN. -/
def SlotState.offTimeDue? : SlotState → Option Nat
  | .overrun _ d _ => some d
  | _ => none

/-- Disable pending is present in OVERRUN only; 11.4.1 gives no code for its absence. -/
def disablePendingOf (s : State) : SlotState → List Byte
  | .overrun _ _ p => flagOf p
  | _ => s.freeReply 0

/-- The level of the slot's confirm input; without one, 11.4.1 gives no code. -/
def confirmLevelOf (s : State) (n : SlotId) : List Byte :=
  match s.confirmActive n with
  | some b => flagOf b
  | none => s.freeReply 1

/-- The surplus timer, 0xFF when stopped. -/
def surplusTimerOf : Option Nat → List Byte
  | some t => byteOf t
  | none => byteOf 0xFF

/-- What every reply of SOURCE ends with. -/
def scuData (c : Scu) : List Byte :=
  byteOf c.latch.code ++ wordOf c.hardMax ++ wordOf c.surplus ++ surplusTimerOf c.surplusTimer

def sourceData (slot : Option SlotId) (s : State) : List Byte :=
  match slot with
  | none =>
    byteOf 0 ++ byteOf s.scu.coil0Low.val ++ byteOf s.scu.coil0High.val ++ byteOf s.slc.state.code ++ scuData s.scu
  | some n =>
    let x := s.slot n
    slotBytes n x ++ byteOf x.state.code ++ holderOf x.state.holder? ++ startOf x.state ++ timerOf x.state.timer? ++
      timerOf x.state.offTimeDue? ++ disablePendingOf s x.state ++ byteOf x.failures ++ confirmLevelOf s n ++
      flagOf x.rearm ++ scuData s.scu

/-! ### SOLAR, HOLD, METERS, ENERGY -/

def solarData (s : State) : List Byte :=
  byteOf s.slc.state.code ++ byteOf s.slc.speed ++ tempOf s.slc.collector ++ tempOf s.slc.reference ++
    tempOf s.slc.top ++ tempOf s.slc.bottom ++ byteOf s.scu.latch.code ++ longOf s.fmu.heatRate ++
    byteOf s.sar.holdoffTime ++ wordOf s.sar.threshold

/-- Step state, top, low layer, width, done layers, slot and elapsed minutes. While no step runs the width and the
elapsed minutes have no absent code. -/
def stepData (s : State) : List Byte :=
  byteOf s.ths.step.code ++
    match s.ths.step.record? with
    | none =>
      byteOf 0xFF ++ byteOf 0xFF ++ s.freeReply 2 ++ byteOf 0 ++ slotOf none ++ s.freeReply 3 ++ s.freeReply 4
    | some r =>
      byteOf r.top.val ++ byteOf r.low.val ++ byteOf r.width.layers ++ byteOf r.done.length ++
        (r.done.flatMap fun i => byteOf i.val) ++
        slotOf (match s.ths.step with | .heating _ n => some n | _ => none) ++ wordOf r.elapsed

/-- Claim state, slot and suspended zone; an absent zone has no code. -/
def claimData (s : State) : List Byte :=
  byteOf s.sar.claim.code ++
    match s.sar.claim with
    | .holding n (some z) => slotOf (some n) ++ byteOf (zoneCode z)
    | .holding n none => slotOf (some n) ++ s.freeReply 5
    | _ => slotOf none ++ s.freeReply 5

def holdData (s : State) : List Byte :=
  let t := s.ths
  holdBytes t.settings ++ byteOf t.settings.steps ++ wordOf t.settings.interval ++ wordOf t.settings.creditAge ++
    timerOf t.interval ++ byteOf t.pointer.val ++ wordOf t.passes.toNat ++ wordOf t.failedSteps ++ stepData s ++
    flagOf t.pendingFlag ++ flagOf t.fullPass ++ flagOf t.overdue ++ claimData s

def meterData (r : MeterRec) : List Byte :=
  meterSettings r ++ byteOf r.count ++ flagOf r.saturated ++ longOf r.total.toNat ++ wordOf r.remainder

def metersData (s : State) : List Byte :=
  meterData s.fmu.draw ++ meterData s.fmu.loop ++ wordOf s.fmu.pendingVolume ++ byteOf s.fmu.zeroGates ++
    wordOf s.fmu.nominalFlow ++ longOf s.fmu.heatRate

def counterOf (c : EnergyCounter) : List Byte := longOf c.kilojoules.toNat

def energyData (s : State) : List Byte :=
  let c := s.clm
  counterOf c.solarYield ++ counterOf c.injected.s1 ++ counterOf c.injected.s2 ++ counterOf c.injected.s3 ++
    counterOf c.injected.s4 ++ counterOf c.delivered ++ counterOf c.loss ++ counterOf c.clipped

/-! ### FAULTS, PROBES, OUTPUTS -/

def kindData (r : KindRec) : List Byte :=
  byteOf ((if r.status then 1 else 0) + (if r.masked then 2 else 0) + (if r.trip then 4 else 0) : Nat) ++
    byteOf r.count ++ byteOf r.lastSubject.code

/-- Kind, subject and uptime of the first fault; the uptime of an absent record has no code. -/
def firstFaultData (s : State) : List Byte :=
  match s.flt.first with
  | some r => byteOf r.kind.code ++ byteOf r.subject.code ++ longOf r.uptime.toNat
  | none => byteOf 0 ++ byteOf 0xFF ++ s.freeReply 6 ++ s.freeReply 7 ++ s.freeReply 8 ++ s.freeReply 9

def faultsData (s : State) : List Byte :=
  s.flt.kinds.toList.flatMap kindData ++ firstFaultData s ++ flagOf s.flt.pinCondition ++
    flagOf s.flt.relayCondition ++ longOf s.flt.uptime.toNat

def roleByteOf : Option Role → List Byte
  | some r => byteOf r.index.val
  | none => byteOf 0xFF

/-- Status, bad count, good count, value and trim of a channel (R35). -/
def channelData (x : Channel) : List Byte :=
  (match x.status with
    | .ok bad v => byteOf 0 ++ byteOf bad ++ byteOf 0 ++ tempOf v
    | .faulted .openCircuit good => byteOf 1 ++ byteOf 3 ++ byteOf good ++ tempOf none
    | .faulted .shortCircuit good => byteOf 2 ++ byteOf 3 ++ byteOf good ++ tempOf none) ++
    byteOf x.trim

def probesData (half : Nat) (s : State) : List Byte :=
  byteOf half ++
    (((List.finRange 12).drop (6 * half)).take 6).flatMap fun c =>
      channelData s.pfe.channels[c] ++ roleByteOf (s.pfe.map.roleOf c)

/-- A request or output state: 0 or 1 on a relay line, the duty on L6 and L7. -/
def levelOf (relay : Bool) (v : Nat) : List Byte := if relay then flagOf (decide (v > 0)) else byteOf v

def lineData (relay : Bool) (l : Line) : List Byte :=
  byteOf l.function.code ++ byteOf l.mode.code ++ levelOf relay l.auto ++ levelOf relay l.output ++
    byteOf l.recoveryTime ++ (match l.recovery with | some r => byteOf r | none => byteOf 0xFF) ++ flagOf l.deferred

def outputsData (s : State) : List Byte := (List.finRange 8).flatMap fun i => lineData (isRelay i) s.olu[i]

/-! ### CONFIG -/

/-- A source the SOURCE request and CONFIG name: slot 0 is `some none`. -/
def sourceOfCode (n : Nat) : Option (Option SlotId) := if n = 0 then some none else (slotOfNumber n).map some

/-- The data of a CONFIG part; none when the section or the index is out of range (R192). -/
def configData (sec index : Nat) (s : State) : Option (List Byte) :=
  match sec, index with
  | 0, 0 => some (cylinderBytes s.clm)
  | 1, z => (zoneOfCode z).map fun z => byteOf s.zdu.b1.val ++ byteOf s.zdu.b2.val ++ zoneBytes z (s.zone z)
  | 2, n =>
    (sourceOfCode n).map fun
      | none => slot0Bytes s.scu
      | some n => slotBytes n (s.slot n)
  | 3, 0 => some (solarBytes s.slc s.sar)
  | 4, 0 => some (holdBytes s.ths.settings)
  | 5, 0 => some (mapBytes s.pfe.map ++ s.pfe.channels.toList.flatMap fun x => byteOf x.trim)
  | 6, 0 => some (meterSettings s.fmu.draw ++ meterSettings s.fmu.loop ++ wordOf s.fmu.nominalFlow)
  | 7, 0 => some (s.olu.toList.flatMap fun l => byteOf l.function.code ++ byteOf l.recoveryTime)
  | 8, 0 => some (policyBytes s.flt)
  | 9, 0 => some (linkBytes s.mpt ++ flagOf s.mpt.lock)
  | _, _ => none

/-! ### The requests -/

/-- A read with no payload. -/
def plainRead (data : State → List Byte) (p : List Byte) : State → Answer :=
  withLength (p.length == 0) fun s => accept (data s) s

/-- A read with an index: refused with BAD_VALUE when it is out of range (R192). -/
def indexedRead (length : Nat) (data : State → Option (List Byte)) (p : List Byte) : State → Answer :=
  withLength (p.length == length) fun s =>
    match data s with
    | some d => accept d s
    | none => refuse .badValue s

/-- IDENT. -/
def execIdent (p : List Byte) (s : State) : Host.Outcome State Fault Refusal :=
  .next (requestStep 0x01 p (plainRead identData p) s)

/-- STATUS. -/
def execStatus (p : List Byte) (s : State) : Host.Outcome State Fault Refusal :=
  .next (requestStep 0x02 p (plainRead statusData p) s)

/-- LAYERS. -/
def execLayers (p : List Byte) (s : State) : Host.Outcome State Fault Refusal :=
  .next <| requestStep 0x03 p
    (indexedRead 1 (fun s => if byteAt p 0 ≤ 3 then some (layersData (byteAt p 0) s) else none) p) s

/-- ZONES. -/
def execZones (p : List Byte) (s : State) : Host.Outcome State Fault Refusal :=
  .next (requestStep 0x04 p (indexedRead 1 (fun s => (zoneOfCode (byteAt p 0)).map fun z => zonesData z s) p) s)

/-- SOURCE. -/
def execSource (p : List Byte) (s : State) : Host.Outcome State Fault Refusal :=
  .next (requestStep 0x05 p (indexedRead 1 (fun s => (sourceOfCode (byteAt p 0)).map fun n => sourceData n s) p) s)

/-- SOLAR. -/
def execSolar (p : List Byte) (s : State) : Host.Outcome State Fault Refusal :=
  .next (requestStep 0x06 p (plainRead solarData p) s)

/-- HOLD. -/
def execHold (p : List Byte) (s : State) : Host.Outcome State Fault Refusal :=
  .next (requestStep 0x07 p (plainRead holdData p) s)

/-- METERS. -/
def execMeters (p : List Byte) (s : State) : Host.Outcome State Fault Refusal :=
  .next (requestStep 0x08 p (plainRead metersData p) s)

/-- ENERGY. -/
def execEnergy (p : List Byte) (s : State) : Host.Outcome State Fault Refusal :=
  .next (requestStep 0x09 p (plainRead energyData p) s)

/-- FAULTS. -/
def execFaults (p : List Byte) (s : State) : Host.Outcome State Fault Refusal :=
  .next (requestStep 0x0A p (plainRead faultsData p) s)

/-- PROBES. -/
def execProbes (p : List Byte) (s : State) : Host.Outcome State Fault Refusal :=
  .next <| requestStep 0x0B p
    (indexedRead 1 (fun s => if byteAt p 0 ≤ 1 then some (probesData (byteAt p 0) s) else none) p) s

/-- OUTPUTS. -/
def execOutputs (p : List Byte) (s : State) : Host.Outcome State Fault Refusal :=
  .next (requestStep 0x0C p (plainRead outputsData p) s)

/-- CONFIG. -/
def execConfig (p : List Byte) (s : State) : Host.Outcome State Fault Refusal :=
  .next (requestStep 0x0D p (indexedRead 2 (configData (byteAt p 0) (byteAt p 1)) p) s)

end Sys2Proof.Machine
end

