-- ==== Sys2Proof/Machine/Settings.lean ====
section
/-! DEFINITION. The setting requests (section 11.4.2, codes 0x10 to 0x1B): the owner's judgement of each, in the
order of its rule. -/

namespace Sys2Proof.Machine

/-- Taken, with CLAMPED when some value was clamped (R191). -/
def taken (clamped : Bool) (data : List Byte) (s : State) : Answer := ⟨takenCode clamped, data, s⟩

/-! ### SET_CYLINDER (R1, R2) -/

/-- A volume rounded down to a multiple of 16 L and clamped (R1). -/
def takenVolume (v : Nat) : Nat := clampNat 64 512 (v / 16 * 16)

/-- A slot in DISABLED, COLD, WARM or HOLD does not block a volume change (R1). -/
def SlotState.atRest : SlotState → Bool
  | .disabled | .cold | .warm _ | .hold _ => true
  | _ => false

/-- The volume cannot change now (R1). -/
def State.volumeBlocked (s : State) : Bool :=
  (allSlots.any fun n => !(s.slot n).state.atRest) || s.slc.state.circulates

/-- The settings of a SET_CYLINDER payload, each taken into its range, in the CLM's record (R1, R2). -/
def Clm.withCylinder (c : Clm) (p : List Byte) : Clm :=
  { c with
    volume := takenVolume (wordAt p 0)
    uaTenths := clampNat 5 50 (byteAt p 2)
    mainsDefault := clamp 0 300 (signedWordAt p 3)
    ambientDefault := clamp (-100) 400 (signedWordAt p 5)
    usableThreshold := clamp 300 600 (signedWordAt p 7)
    anchorWeight := clampNat 0 3 (byteAt p 9) }

/-- Some value of the payload lies outside its range, or the volume is no multiple of 16 L. -/
def cylinderClamped (c : Clm) (p : List Byte) : Bool :=
  !(c.volume == wordAt p 0 && c.uaTenths == byteAt p 2 && c.mainsDefault == signedWordAt p 3 &&
    c.ambientDefault == signedWordAt p 5 && c.usableThreshold == signedWordAt p 7 && c.anchorWeight == byteAt p 9)

/-- SET_CYLINDER at its owner (R1, R2, R8). -/
def ownSetCylinder (p : List Byte) (s : State) : Answer :=
  let c := s.clm.withCylinder p
  if c.volume ≠ s.clm.volume ∧ s.volumeBlocked then refuse .busy s
  else
    let t := { s with clm := c }
    taken (cylinderClamped c p) (cylinderBytes c) (if c.volume ≠ s.clm.volume then enterUnseeded t else t)

/-- SET_CYLINDER. -/
def execSetCylinder (p : List Byte) (s : State) : Host.Outcome State Fault Refusal :=
  .next (requestStep 0x10 p (withLength (p.length == 10) (ownSetCylinder p)) s)

/-! ### SET_ZONE_BOUNDS (R66) -/

/-- A service in progress blocks a change of the boundaries (R66). -/
def Service.inProgress : Service → Bool
  | .serving _ | .suspended _ => true
  | _ => false

/-- SET_ZONE_BOUNDS at its owner (R66). -/
def ownSetZoneBounds (p : List Byte) (s : State) : Answer :=
  match layerOfNumber (byteAt p 0), layerOfNumber (byteAt p 1) with
  | some b1, some b2 =>
    if b1.val < 1 ∨ ¬ b1 < b2 then refuse .badValue s
    else if allZones.any fun z => (s.service z).inProgress then refuse .busy s
    else
      let t := pruneAfterBounds { s with zdu := { s.zdu with b1 := b1, b2 := b2 } }
      accept
        (byteOf b1.val ++ byteOf b2.val ++ rankingOf (t.zone .top).ranking ++ rankingOf (t.zone .mid).ranking ++
          rankingOf (t.zone .low).ranking)
        t
  | _, _ => refuse .badValue s

/-- SET_ZONE_BOUNDS. -/
def execSetZoneBounds (p : List Byte) (s : State) : Host.Outcome State Fault Refusal :=
  .next (requestStep 0x11 p (withLength (p.length == 2) (ownSetZoneBounds p)) s)

/-! ### SET_ZONE (R67 to R69) -/

/-- A requested target as taken (R67). -/
def takenTarget (t : Int) : Int := if t ≤ 0 then 0 else clamp 300 750 t

/-- A payload whose ranking's count stands at place `i` has the right length (R190, step 2). -/
def rankingLength (p : List Byte) (i : Nat) : Bool :=
  decide (i < p.length) && decide (byteAt p i ≤ 4) && p.length == i + 1 + byteAt p i

/-- SET_ZONE at its owner (R67 to R69): the named zone is evaluated, and the arbiter evaluates at the acceptance
(R113; the order is log entry 14). -/
def ownSetZone (p : List Byte) (s : State) : Answer :=
  match zoneOfCode (byteAt p 0), rankingAt p 7 with
  | some z, some ranking =>
    if s.rankingValid z ranking then
      let r :=
        { s.zone z with
          target := takenTarget (signedWordAt p 1)
          hysteresis := clamp 10 150 (signedWordAt p 3)
          urgentMargin := clamp 0 200 (signedWordAt p 5)
          ranking := ranking }
      let clamped :=
        !(r.target == signedWordAt p 1 && r.hysteresis == signedWordAt p 3 && r.urgentMargin == signedWordAt p 5)
      let t := s.setZone z r
      taken clamped (zoneBytes z r) (evaluate .zoneSet (evaluateZones t.zdu.zones [z] none t))
    else refuse .badValue s
  | _, _ => refuse .badValue s

/-- SET_ZONE. -/
def execSetZone (p : List Byte) (s : State) : Host.Outcome State Fault Refusal :=
  .next (requestStep 0x12 p (withLength (rankingLength p 7) (ownSetZone p)) s)

/-! ### SET_SOURCE (R82, R83) -/

/-- Slot 0's part of SET_SOURCE (R83, R132). -/
def ownSetSolarSlot (p : List Byte) (s : State) : Answer :=
  match layerOfNumber (byteAt p 1), layerOfNumber (byteAt p 2) with
  | some lo, some hi =>
    let hard := clamp 750 950 (signedWordAt p 3)
    let timeout := clampNat 5 120 (byteAt p 5)
    if lo > hi then refuse .badValue s
    else if s.mpt.lock ∧ hard ≠ s.scu.hardMax then refuse .locked s
    else if (lo ≠ s.scu.coil0Low ∨ hi ≠ s.scu.coil0High) ∧ s.slc.state.circulates then refuse .busy s
    else
      let lowered := decide (s.slc.settings.solarMax > hard - 50)
      let scu := { s.scu with coil0Low := lo, coil0High := hi, hardMax := hard, surplusTimeout := timeout }
      let solar := { s.slc.settings with solarMax := if lowered then hard - 50 else s.slc.settings.solarMax }
      taken (lowered || hard != signedWordAt p 3 || timeout != byteAt p 5) (slot0Bytes scu)
        { s with scu := scu, slc := { s.slc with settings := solar } }
  | _, _ => refuse .badValue s

/-- Class defaults (R81). -/
def SlotClass.defaults : SlotClass → SlotSettings
  | .noSource => .noSource
  | .heatPump => ⟨12, 13, 3000, 550, 900, 600, 120, 180, 30, 60, none, 60⟩
  | .boiler => ⟨12, 13, 3000, 700, 300, 120, 30, 60, 20, 120, none, 60⟩
  | .immersion => ⟨12, 13, 3000, 750, 60, 30, 0, 0, 0, 0, none, 60⟩
  | .diverter => ⟨12, 13, 3000, 700, 0, 0, 0, 0, 0, 0, none, 60⟩

/-- The 2-byte field at place `i`, with 0xFFFF standing for the class default (R82). -/
def wordOrDefault (p : List Byte) (i default : Nat) : Nat := if wordAt p i = 0xFFFF then default else wordAt p i

/-- The ceiling asked for. -/
def ceilingAsked (cls : SlotClass) (p : List Byte) : Int :=
  if wordAt p 6 = 0xFFFF then cls.defaults.ceiling else signedWordAt p 6

/-- The warm time asked for, with 0xFF standing for the class default. -/
def warmAsked (cls : SlotClass) (p : List Byte) : Nat :=
  if byteAt p 16 = 0xFF then cls.defaults.warmTime else byteAt p 16

/-- The confirm input asked for: 0..3, 0xFE for none, 0xFF for the class default; any other code names nothing
(R82). -/
def confirmAsked (cls : SlotClass) (b : Nat) : Option (Option (Fin 4)) :=
  if h : b < 4 then some (some ⟨b, h⟩)
  else if b = 0xFE then some none
  else if b = 0xFF then some cls.defaults.confirm
  else none

/-- The settings a SET_SOURCE payload asks for, class defaults resolved and each value in its range (R81, R82). -/
def settingsAsked (cls : SlotClass) (lo hi : Fin 16) (confirm : Option (Fin 4)) (p : List Byte) : SlotSettings :=
  let d := cls.defaults
  { coilLow := lo
    coilHigh := hi
    rate := clampNat 100 20000 (wordAt p 4)
    ceiling := clamp 400 850 (ceilingAsked cls p)
    minRun := clampNat 0 3600 (wordOrDefault p 8 d.minRun)
    minOff := clampNat 0 3600 (wordOrDefault p 10 d.minOff)
    startDwell := clampNat 0 600 (wordOrDefault p 12 d.startDwell)
    coldExtra := clampNat 0 600 (wordOrDefault p 14 d.coldExtra)
    warmTime := clampNat 0 240 (warmAsked cls p)
    overrun := clampNat 0 600 (wordOrDefault p 17 d.overrun)
    confirm := confirm
    confirmWindow := clampNat 5 300 (wordOrDefault p 20 d.confirmWindow) }

/-- Some value was clamped. -/
def settingsClamped (cls : SlotClass) (p : List Byte) (x : SlotSettings) : Bool :=
  let d := cls.defaults
  !(x.rate == wordAt p 4 && x.ceiling == ceilingAsked cls p && x.minRun == wordOrDefault p 8 d.minRun &&
    x.minOff == wordOrDefault p 10 d.minOff && x.startDwell == wordOrDefault p 12 d.startDwell &&
    x.coldExtra == wordOrDefault p 14 d.coldExtra && x.warmTime == warmAsked cls p &&
    x.overrun == wordOrDefault p 17 d.overrun && x.confirmWindow == wordOrDefault p 20 d.confirmWindow)

/-- The class may name a confirm input (R81). -/
def SlotClass.takesConfirm : SlotClass → Bool
  | .heatPump | .boiler => true
  | _ => false

/-- Another of slots 1 to 4 names the confirm input (R82, step 1). -/
def State.confirmTaken (s : State) (n : SlotId) (c : Fin 4) : Bool :=
  allSlots.any fun m => decide (m ≠ n) && decide ((s.slot m).settings.confirm = some c)

/-- The confirm input is allowed (R82, step 1). -/
def State.confirmAllowed (s : State) (n : SlotId) (cls : SlotClass) : Option (Fin 4) → Bool
  | none => true
  | some c => cls.takesConfirm && !s.confirmTaken n c

/-- The output map allows the class (R82, step 2). -/
def State.linesAllow (s : State) (n : SlotId) (cls : SlotClass) : Bool :=
  !((s.carrier (.sourceCall n)).isSome && !cls.heating) &&
    !((s.carrier (.diverterDrive n)).isSome && decide (cls ≠ .diverter))

/-- A slot's part of SET_SOURCE once its structure is read (R82, steps 1 to 4). -/
def takeSource (n : SlotId) (cls : SlotClass) (lo hi : Fin 16) (confirm : Option (Fin 4)) (p : List Byte) (s : State) :
    Answer :=
  let old := s.slot n
  let x := settingsAsked cls lo hi confirm p
  if lo > hi ∨ !s.confirmAllowed n cls confirm then refuse .badValue s
  else if !s.linesAllow n cls then refuse .badValue s
  else if old.state ≠ .disabled ∧ ¬(cls = old.cls ∧ { x with ceiling := old.settings.ceiling } = old.settings) then
    refuse .busy s
  else
    let new : Slot :=
      if cls = old.cls then { old with settings := x }
      else { old with cls := cls, settings := x, state := .disabled, rearm := false }
    let t := s.setSlot n new
    let t := if cls ≠ old.cls ∨ lo ≠ old.settings.coilLow ∨ hi ≠ old.settings.coilHigh then pruneSlot n t else t
    taken (settingsClamped cls p x) (slotBytes n new) (evaluateDiverter n t)

/-- SET_SOURCE for one of slots 1 to 4 (R82). -/
def ownSetSlot (n : SlotId) (p : List Byte) (s : State) : Answer :=
  match classOfCode (byteAt p 1), layerOfNumber (byteAt p 2), layerOfNumber (byteAt p 3) with
  | some cls, some lo, some hi =>
    match confirmAsked cls (byteAt p 19) with
    | some confirm => takeSource n cls lo hi confirm p s
    | none => refuse .badValue s
  | _, _, _ => refuse .badValue s

/-- SET_SOURCE: its length depends on the slot (R190); a slot number outside 0..4 is refused with BAD_VALUE
(R80, log entry 15). -/
def ownSetSource (p : List Byte) : State → Answer :=
  if p.isEmpty then refuse .badLength
  else match sourceOfCode (byteAt p 0) with
    | some none => withLength (p.length == 6) (ownSetSolarSlot p)
    | some (some n) => withLength (p.length == 22) (ownSetSlot n p)
    | none => refuse .badValue

/-- SET_SOURCE. -/
def execSetSource (p : List Byte) (s : State) : Host.Outcome State Fault Refusal :=
  .next (requestStep 0x13 p (ownSetSource p) s)

/-! ### SET_SOLAR (R112, R131) -/

/-- An on/off code (11.4.1). -/
def onOffCode : Nat → Option Bool
  | 0 => some false
  | 1 => some true
  | _ => none

/-- SET_SOLAR's nine settings, clamped in order (R130, R131). -/
def solarAsked (hardMax : Int) (cooldown : Bool) (p : List Byte) : SolarSettings :=
  let on := clamp 20 200 (signedWordAt p 0)
  { onDiff := on
    offDiff := clamp 10 (on - 10) (signedWordAt p 2)
    minSpeed := clamp 10 100 (byteAt p 4)
    gain := clamp 0 20 (byteAt p 5)
    solarMax := clamp 600 (hardMax - 50) (signedWordAt p 6)
    collectorMax := clamp 1000 1400 (signedWordAt p 8)
    frost := clamp (-100) 100 (signedWordAt p 10)
    cooldownEnable := cooldown
    cooldownDiff := clamp 50 300 (signedWordAt p 13) }

/-- Some value was clamped. -/
def solarClamped (p : List Byte) (x : SolarSettings) (holdoff threshold : Nat) : Bool :=
  !(x.onDiff == signedWordAt p 0 && x.offDiff == signedWordAt p 2 && x.minSpeed == (byteAt p 4 : Int) &&
    x.gain == (byteAt p 5 : Int) && x.solarMax == signedWordAt p 6 && x.collectorMax == signedWordAt p 8 &&
    x.frost == signedWordAt p 10 && x.cooldownDiff == signedWordAt p 13 && holdoff == byteAt p 15 &&
    threshold == wordAt p 16)

/-- SET_SOLAR at its owner (R112, R131). -/
def ownSetSolar (p : List Byte) (s : State) : Answer :=
  match onOffCode (byteAt p 12) with
  | none => refuse .badValue s
  | some cooldown =>
    let x := solarAsked s.scu.hardMax cooldown p
    let holdoff := clampNat 0 120 (byteAt p 15)
    let threshold := clampNat 0 5000 (wordAt p 16)
    if s.mpt.lock ∧ (x.solarMax ≠ s.slc.settings.solarMax ∨ x.collectorMax ≠ s.slc.settings.collectorMax) then
      refuse .locked s
    else
      let slc := { s.slc with settings := x }
      let sar := { s.sar with holdoffTime := holdoff, threshold := threshold }
      taken (solarClamped p x holdoff threshold) (solarBytes slc sar) { s with slc := slc, sar := sar }

/-- SET_SOLAR. -/
def execSetSolar (p : List Byte) (s : State) : Host.Outcome State Fault Refusal :=
  .next (requestStep 0x14 p (withLength (p.length == 18) (ownSetSolar p)) s)

/-! ### SET_HOLD (R148) -/

/-- The base layer asked for, clamped to 0..15. -/
def baseAsked (b : Nat) : Fin 16 := ⟨min 15 b, by omega⟩

/-- SET_HOLD's settings, clamped (R147, R148). -/
def holdAsked (enable : Bool) (width : HoldWidth) (ranking : List SlotId) (p : List Byte) : HoldSettings where
  enable := enable
  temp := clamp 550 700 (signedWordAt p 1)
  dwell := clampNat 2 60 (byteAt p 3)
  period := clampNat 24 336 (wordAt p 4)
  width := width
  base := baseAsked (byteAt p 7)
  timeout := clampNat 30 480 (wordAt p 8)
  ranking := ranking

/-- Some value was clamped. -/
def holdClamped (p : List Byte) (h : HoldSettings) : Bool :=
  !(h.temp == signedWordAt p 1 && h.dwell == byteAt p 3 && h.period == wordAt p 4 && h.base.val == byteAt p 7 &&
    h.timeout == wordAt p 8)

/-- SET_HOLD at its owner (R148, R161). -/
def ownSetHold (p : List Byte) (s : State) : Answer :=
  match onOffCode (byteAt p 0), widthOfNumber (byteAt p 6), rankingAt p 10 with
  | some enable, some width, some ranking =>
    let h := holdAsked enable width ranking p
    let held := s.ths.settings
    if ¬ ranking.Nodup then refuse .badValue s
    else if s.mpt.lock ∧ (h.temp ≠ held.temp ∨ h.dwell ≠ held.dwell) then refuse .locked s
    else taken (holdClamped p h) (holdBytes h) (s.setThs (s.ths.takeSettings h))
  | _, _, _ => refuse .badValue s

/-- SET_HOLD. -/
def execSetHold (p : List Byte) (s : State) : Host.Outcome State Fault Refusal :=
  .next (requestStep 0x15 p (withLength (rankingLength p 10) (ownSetHold p)) s)

/-! ### SET_PROBE_MAP (R41, R42) and SET_PROBE_TRIM (R33) -/

/-- A map entry's channel code: 0xFF is no channel, another code outside 0..11 names nothing. -/
def channelAsked (b : Nat) : Option (Option (Fin 12)) := if b = 0xFF then some none else (channelOfNumber b).map some

/-- The map a payload carries, when every code is in range. -/
def mapAsked (p : List Byte) : Option ProbeMap :=
  let channel := (List.range 12).mapM fun i => channelAsked (byteAt p i)
  let layer := (List.range 6).mapM fun i => layerOfNumber (byteAt p (12 + i))
  match channel, layer with
  | some c, some l => some ⟨tabulate fun i => c.getD i.val none, tabulate fun i => l.getD i.val 0⟩
  | _, _ => none

/-- The conditions of R41 on a map whose codes are in range. -/
def ProbeMap.valid (m : ProbeMap) : Bool :=
  let named : List (Fin 12) := (allRoles.map m.channelOf).filterMap id
  let anchored : List (Fin 16) := ((List.finRange 6).filter fun a => (m.channelOf (.anchor a)).isSome).map fun a => m.layer[a]
  decide named.Nodup && decide anchored.Nodup &&
    [Role.collector, Role.loopFlow].all fun r => (m.channelOf r).all highRange

/-- SET_PROBE_MAP at its owner (R41, R42, R47). -/
def ownSetProbeMap (p : List Byte) (s : State) : Answer :=
  match mapAsked p with
  | none => refuse .badValue s
  | some m =>
    if m.valid then
      let t := rewriteAnchors { s with pfe := { s.pfe with map := m } }
      accept (mapBytes m) (if t.pfe.topProbeLost then (topProbeIsLost t).notify else t)
    else refuse .badValue s

/-- SET_PROBE_MAP. -/
def execSetProbeMap (p : List Byte) (s : State) : Host.Outcome State Fault Refusal :=
  .next (requestStep 0x16 p (withLength (p.length == 18) (ownSetProbeMap p)) s)

/-- SET_PROBE_TRIM at its owner (R33). -/
def ownSetProbeTrim (p : List Byte) (s : State) : Answer :=
  match channelOfNumber (byteAt p 0) with
  | none => refuse .badValue s
  | some c =>
    let trim := clamp (-20) 20 (signedByteAt p 1)
    taken (trim != signedByteAt p 1) (byteOf c.val ++ byteOf trim)
      { s with pfe := s.pfe.setChannel c { s.pfe.channels[c] with trim := trim } }

/-- SET_PROBE_TRIM. -/
def execSetProbeTrim (p : List Byte) (s : State) : Host.Outcome State Fault Refusal :=
  .next (requestStep 0x17 p (withLength (p.length == 2) (ownSetProbeTrim p)) s)

/-! ### SET_METER (R52) -/

/-- A meter's record with the pulse volume and gate interval of a payload. -/
def MeterRec.withSettings (r : MeterRec) (p : List Byte) : MeterRec :=
  { r with mlPerPulse := clampNat 0 1000 (wordAt p 1), gate := clampNat 1 60 (byteAt p 3) }

/-- Some value common to both meters was clamped. -/
def meterClamped (r : MeterRec) (p : List Byte) : Bool := !(r.mlPerPulse == wordAt p 1 && r.gate == byteAt p 3)

/-- SET_METER for DRAW (R52). -/
def ownSetDraw (p : List Byte) (s : State) : Answer :=
  let r := s.fmu.draw.withSettings p
  let absent := decide (r.mlPerPulse = 0) && decide (s.fmu.draw.mlPerPulse ≠ 0)
  taken (meterClamped r p) (byteOf 0 ++ meterSettings r)
    { s with fmu := { s.fmu with draw := r, pendingVolume := if absent then 0 else s.fmu.pendingVolume } }

/-- SET_METER for LOOP (R52). -/
def ownSetLoop (p : List Byte) (s : State) : Answer :=
  let r := s.fmu.loop.withSettings p
  let nominal := clampNat 0 20000 (wordAt p 4)
  taken (meterClamped r p || nominal != wordAt p 4) (byteOf 1 ++ meterSettings r ++ wordOf nominal)
    { s with
      fmu :=
        { s.fmu with
          loop := r, nominalFlow := nominal, zeroGates := if r.mlPerPulse = 0 then 0 else s.fmu.zeroGates } }

/-- SET_METER: its length depends on the meter (R52, R190); another meter code is refused with BAD_VALUE (log entry
15). -/
def ownSetMeter (p : List Byte) : State → Answer :=
  if p.isEmpty then refuse .badLength
  else match byteAt p 0 with
    | 0 => withLength (p.length == 4) (ownSetDraw p)
    | 1 => withLength (p.length == 6) (ownSetLoop p)
    | _ => refuse .badValue

/-- SET_METER. -/
def execSetMeter (p : List Byte) (s : State) : Host.Outcome State Fault Refusal :=
  .next (requestStep 0x18 p (ownSetMeter p) s)

/-! ### SET_OUTPUT (R170, R171) -/

/-- Another line carries the function (R170, step 2); NONE stands on any number of lines. -/
def State.carriedElsewhere (s : State) (i : Fin 8) (f : LineFunction) : Bool :=
  decide (f ≠ .noFunction) && (List.finRange 8).any fun j => decide (j ≠ i) && decide (s.olu[j].function = f)

/-- The map check of R170, step 2. -/
def State.mapAllows (s : State) (i : Fin 8) (f : LineFunction) : Bool :=
  !s.carriedElsewhere i f &&
    match f with
    | .sourceCall n => (s.slot n).cls.heating
    | .diverterDrive n => !isRelay i && decide ((s.slot n).cls = .diverter)
    | _ => true

/-- A function names a slot that is not DISABLED (R170, step 3). -/
def State.functionBusy (s : State) : LineFunction → Bool
  | .sourceCall n | .sourcePump n | .diverterDrive n => decide ((s.slot n).state ≠ .disabled)
  | .solarPump => decide (s.slc.state ≠ .disabled)
  | .noFunction | .alertRelay => false

/-- A line takes a new function (R171). -/
def Line.takeFunction (relay : Bool) (f : LineFunction) (alert : Bool) (l : Line) : Line :=
  { l with function := f }.drive relay .auto (if f = LineFunction.alertRelay then onOff alert else 0)

/-- SET_OUTPUT at its owner (R170, R171). -/
def ownSetOutput (p : List Byte) (s : State) : Answer :=
  match lineOfNumber (byteAt p 0), functionOfCode (byteAt p 1) with
  | some i, some f =>
    let l := s.olu[i]
    let time := clampNat 0 30 (byteAt p 2)
    if !s.mapAllows i f then refuse .badValue s
    else if f ≠ l.function ∧ (s.functionBusy f || s.functionBusy l.function) then refuse .busy s
    else
      let l := { l with recoveryTime := time }
      let l := if f = l.function then l else l.takeFunction (isRelay i) f s.flt.relayCondition
      taken (time != byteAt p 2) (byteOf i.val ++ byteOf f.code ++ byteOf time) (s.setLine i l)
  | _, _ => refuse .badValue s

/-- SET_OUTPUT. -/
def execSetOutput (p : List Byte) (s : State) : Host.Outcome State Fault Refusal :=
  .next (requestStep 0x19 p (withLength (p.length == 3) (ownSetOutput p)) s)

/-! ### SET_FAULT_POLICY (R182) and SET_LINK (R194) -/

/-- The policy codes are 0..3, with TRIP for kinds 3 and 4 (R182, steps 1 and 2). -/
def policyValid (p : List Byte) : Bool :=
  (List.range 16).all (fun i => decide (byteAt p i ≤ 3)) && decide (2 ≤ byteAt p 2) && decide (2 ≤ byteAt p 3)

/-- The records under the policy of a payload (R182, step 3). -/
def Flt.withPolicy (f : Flt) (p : List Byte) : Flt :=
  { f with
    kinds := tabulate fun i =>
      { f.kinds[i] with masked := decide (byteAt p i.val % 2 = 1), trip := decide (2 ≤ byteAt p i.val) } }

/-- SET_FAULT_POLICY at its owner (R182). -/
def ownSetFaultPolicy (p : List Byte) (s : State) : Answer :=
  if policyValid p then
    let f := s.flt.withPolicy p
    accept (policyBytes f) (rejudge f s)
  else refuse .badValue s

/-- SET_FAULT_POLICY. -/
def execSetFaultPolicy (p : List Byte) (s : State) : Host.Outcome State Fault Refusal :=
  .next (requestStep 0x1A p (withLength (p.length == 16) (ownSetFaultPolicy p)) s)

/-- A supervision interval as taken: 0, or 10..600 (R194). -/
def takenInterval (v : Nat) : Nat := if v = 0 then 0 else clampNat 10 600 v

/-- SET_LINK at its owner (R194). -/
def ownSetLink (p : List Byte) (s : State) : Answer :=
  let v := takenInterval (wordAt p 0)
  taken (v != wordAt p 0) (wordOf v) (s.setMpt { s.mpt with interval := v }.loadSupervision)

/-- SET_LINK. -/
def execSetLink (p : List Byte) (s : State) : Host.Outcome State Fault Refusal :=
  .next (requestStep 0x1B p (withLength (p.length == 2) (ownSetLink p)) s)

end Sys2Proof.Machine
end

