-- ==== Sys2Proof/Machine/Actions.lean ====
section
/-! DEFINITION. The action requests (section 11.4.2, codes 0x20 to 0x2B). -/

namespace Sys2Proof.Machine

/-! ### SOURCE_ENABLE, SOURCE_DISABLE, SOURCE_RESET -/

/-- SOURCE_ENABLE for one of slots 1 to 4 (R86, R102): a minimum off of 0 lets the HOLD expire at the enable. -/
def enableSlot (n : SlotId) (s : State) : Answer :=
  let x := s.slot n
  if x.cls = .noSource ∨ x.state ≠ .disabled then refuse .refused s
  else if x.cls = .diverter then accept [] (evaluateDiverter n (s.setSlotState n .idle))
  else
    let t := s.setSlotState n (.hold x.settings.minOff)
    accept [] (if x.settings.minOff = 0 then (expireHold n t).notify else t)

/-- SOURCE_ENABLE for slot 0 (R144). -/
def enableSolar (s : State) : Answer :=
  if s.slc.state = .disabled then accept [] (solarSwitch .off s) else refuse .refused s

/-- SOURCE_DISABLE for slot 0 (R144). -/
def disableSolar (s : State) : Answer :=
  accept [] (if s.slc.state = .disabled then s else solarSwitch .disabled s)

/-- SOURCE_RESET for one of slots 1 to 4 (R101). -/
def resetSlot (n : SlotId) (s : State) : Answer :=
  let x := s.slot n
  if x.state = .tripped then accept [] (s.setSlot n { x with failures := 0, state := .hold x.settings.minOff })
  else refuse .refused s

/-- A request that names a slot 0..4; another number is refused with BAD_VALUE (R80). -/
def onSlot (solar : State → Answer) (slot : SlotId → State → Answer) (p : List Byte) : State → Answer :=
  withLength (p.length == 1) <| match sourceOfCode (byteAt p 0) with
    | none => refuse .badValue
    | some none => solar
    | some (some n) => slot n

/-- SOURCE_ENABLE (R86, R144). -/
def execSourceEnable (p : List Byte) (s : State) : Host.Outcome State Fault Refusal :=
  .next (requestStep 0x20 p (onSlot enableSolar enableSlot p) s)

/-- SOURCE_DISABLE (R87, R102, R144). -/
def execSourceDisable (p : List Byte) (s : State) : Host.Outcome State Fault Refusal :=
  .next (requestStep 0x21 p (onSlot disableSolar (fun n s => accept [] (disableSlot n s).notify) p) s)

/-- SOURCE_RESET (R80, R101). -/
def execSourceReset (p : List Byte) (s : State) : Host.Outcome State Fault Refusal :=
  .next (requestStep 0x22 p (onSlot (refuse .refused) resetSlot p) s)

/-! ### BOOST, BOOST_CANCEL, SURPLUS -/

/-- BOOST at its owner (R76). -/
def ownBoost (p : List Byte) (s : State) : Answer :=
  match zoneOfCode (byteAt p 0) with
  | none => refuse .badValue s
  | some z =>
    let b := clamp 400 750 (signedWordAt p 1)
    let t := evaluateZones s.zdu.zones [z] (some z) (s.setZone z { s.zone z with boost := some b })
    let r := t.zone z
    taken (b != signedWordAt p 1) (flagOf r.boost.isSome ++ tempOf r.boost ++ flagOf r.demand ++ flagOf r.urgent) t

/-- BOOST (R76). -/
def execBoost (p : List Byte) (s : State) : Host.Outcome State Fault Refusal :=
  .next (requestStep 0x23 p (withLength (p.length == 3) (ownBoost p)) s)

/-- BOOST_CANCEL at its owner (R77). -/
def ownBoostCancel (p : List Byte) (s : State) : Answer :=
  match zoneOfCode (byteAt p 0) with
  | none => refuse .badValue s
  | some z => accept [] (cancelBoosts [z] s)

/-- BOOST_CANCEL (R77). -/
def execBoostCancel (p : List Byte) (s : State) : Host.Outcome State Fault Refusal :=
  .next (requestStep 0x24 p (withLength (p.length == 1) (ownBoostCancel p)) s)

/-- SURPLUS at its owner (R104). -/
def ownSurplus (p : List Byte) (s : State) : Answer :=
  let w := clampNat 0 30000 (wordAt p 0)
  taken (w != wordAt p 0) (wordOf w) (setSurplus w (some s.scu.surplusTimeout) s)

/-- SURPLUS (R104). -/
def execSurplus (p : List Byte) (s : State) : Host.Outcome State Fault Refusal :=
  .next (requestStep 0x25 p (withLength (p.length == 2) (ownSurplus p)) s)

/-! ### FORCE_OUTPUT, RELEASE_OUTPUT -/

/-- Functions that admit forcing (R172). -/
def LineFunction.forcible : LineFunction → Bool
  | .noFunction | .sourcePump _ | .alertRelay => true
  | _ => false

/-- FORCE_OUTPUT at its owner (R172). -/
def ownForceOutput (p : List Byte) (s : State) : Answer :=
  match lineOfNumber (byteAt p 0), onOffCode (byteAt p 1) with
  | some i, some on =>
    let l := s.olu[i]
    if l.function.forcible then
      accept [] (s.setLine i (l.drive (isRelay i) (if on then .forcedOn else .forcedOff) l.auto))
    else refuse .refused s
  | _, _ => refuse .badValue s

/-- FORCE_OUTPUT (R172). -/
def execForceOutput (p : List Byte) (s : State) : Host.Outcome State Fault Refusal :=
  .next (requestStep 0x26 p (withLength (p.length == 2) (ownForceOutput p)) s)

/-- RELEASE_OUTPUT at its owner (R173). -/
def ownReleaseOutput (p : List Byte) (s : State) : Answer :=
  match lineOfNumber (byteAt p 0) with
  | some i => accept [] (s.setLine i (s.olu[i].drive (isRelay i) .auto s.olu[i].auto))
  | none => refuse .badValue s

/-- RELEASE_OUTPUT (R173). -/
def execReleaseOutput (p : List Byte) (s : State) : Host.Outcome State Fault Refusal :=
  .next (requestStep 0x27 p (withLength (p.length == 1) (ownReleaseOutput p)) s)

/-! ### HOLD_NOW, CLEAR_FAULTS -/

/-- HOLD_NOW at its owner (R160). -/
def ownHoldNow (s : State) : Answer :=
  if s.ths.settings.enable then accept [] (holdNow s) else refuse .refused s

/-- HOLD_NOW (R160). -/
def execHoldNow (p : List Byte) (s : State) : Host.Outcome State Fault Refusal :=
  .next (requestStep 0x28 p (withLength (p.length == 0) ownHoldNow) s)

/-- CLEAR_FAULTS at its owner (R183). -/
def ownClearFaults (p : List Byte) (s : State) : Answer :=
  if p.all fun b => decide (1 ≤ b.toNat ∧ b.toNat ≤ 16) then
    let t := rejudge (s.flt.clearKinds fun k => p.any fun b => decide (b.toNat = k.code)) s
    accept (faultsData t) t
  else refuse .badValue s

/-- CLEAR_FAULTS (R183). -/
def execClearFaults (p : List Byte) (s : State) : Host.Outcome State Fault Refusal :=
  .next (requestStep 0x29 p (withLength (decide (p.length ≤ 16)) (ownClearFaults p)) s)

/-! ### LOCK_LIMITS, RESTART -/

/-- The five locked values (R193). While the lock is set the owners keep them, so they are the values locked. -/
def lockedBytes (s : State) : List Byte :=
  wordOf s.scu.hardMax ++ wordOf s.slc.settings.solarMax ++ wordOf s.slc.settings.collectorMax ++
    wordOf s.ths.settings.temp ++ byteOf s.ths.settings.dwell

/-- LOCK_LIMITS (R193). -/
def execLockLimits (p : List Byte) (s : State) : Host.Outcome State Fault Refusal :=
  .next <| requestStep 0x2A p
    (withLength (p.length == 0) fun s => accept (lockedBytes s) (s.setMpt { s.mpt with lock := true })) s

/-- A restart code (R195). -/
def restartOfCode : Nat → Option RestartKind
  | 0 => some .warm
  | 1 => some .cold
  | _ => none

/-- RESTART at the port (R195): the restart follows its reply. -/
def ownRestart (p : List Byte) (s : State) : Answer :=
  match restartOfCode (byteAt p 0) with
  | some k => accept [] (s.setMpt { s.mpt with restartDue := some k })
  | none => refuse .badValue s

/-- RESTART (R195). -/
def execRestart (p : List Byte) (s : State) : Host.Outcome State Fault Refusal :=
  .next (requestStep 0x2B p (withLength (p.length == 1) (ownRestart p)) s)

end Sys2Proof.Machine
end

