-- ==== Sys2Proof/Machine/Restart.lean ====
section
/-! DEFINITION. The end of a reply (R189), the restarts that follow a RESTART reply (R195, R196 and each chapter's own
rule), power-on and the RESET pin. -/

namespace Sys2Proof.Machine

/-- The port once a RESTART reply has been sent (R195, steps 1 and 2). -/
def Mpt.dropAll (m : Mpt) : Mpt :=
  { m with assembler := .hunt, gapTimer := none, queue := [], reply := none, restartDue := none }

/-- The warm restart of every block. The lines are put off and take the alert condition before the zones are
evaluated, so that a grant made by that evaluation finds its lines resting (R78, R108, R127, R175). -/
def warmRestart (s : State) : State :=
  let t :=
    { s with
      clm := s.clm.warmRestart
      fmu := s.fmu.warmRestart
      scu := s.scu.warmRestart
      sar := s.sar.warmRestart
      slc := s.slc.warmRestart
      ths := s.ths.warmRestart
      mpt := s.mpt.dropAll.loadSupervision }
  zduWarmRestart (oluWarmRestart t)

/-- The probe front end at a cold restart (R33, R35): trims 0, the records and the scan kept; the default map is
taken as R42 states for any map. -/
def Pfe.coldRestart (p : Pfe) : Pfe :=
  { p with channels := tabulate fun c => { p.channels[c] with trim := 0 }, map := .default }

/-- The cold restart of every block. The uptime, the fault history, the discard counter, the limit lock and the
locked limits are kept; the masks and severities are reset and judged afresh (R177, R180), and the default map gives
its lost indication (R42, R47, R109). -/
def coldRestart (s : State) : State :=
  let d := State.reset
  let t :=
    { s with
      clm := s.clm.coldRestart
      pfe := s.pfe.coldRestart
      fmu := d.fmu
      zdu := d.zdu
      scu := scuColdRestart s.mpt.lock s.pins.confirm s.scu
      sar := d.sar
      slc := slcColdRestart s.mpt.lock s.slc
      ths := thsColdRestart s.mpt.lock s.ths
      mpt := { s.mpt.dropAll with interval := 0, supervision := none } }
  let t := rewriteAnchors (oluColdRestart t)
  let t := rejudge t.flt.defaultPolicy t
  if t.pfe.topProbeLost then (topProbeIsLost t).notify else t

/-- REPLY_SENT (R189, R195): the answered entry leaves the queue, and the next one is then the oldest with no reply under
way, which is the one taken: its request command judges it (log entry 10). Or the restart follows. -/
def execReplySent (s : State) : Host.Outcome State Fault Refusal :=
  .next <| match s.mpt.reply, s.mpt.restartDue with
    | none, _ => s
    | some _, none => s.setMpt { s.mpt with reply := none, queue := s.mpt.queue.tail }
    | some _, some .warm => warmRestart s
    | some _, some .cold => coldRestart s

/-- The state right after power-on, with the confirm inputs as they stand outside and the model's own fields kept
(R109). -/
def powerOn (s : State) : State :=
  let d := State.reset
  { d with
    pending := s.pending
    freeCount := s.freeCount
    scu := { d.scu with confirmLevel := s.pins.confirm }
    pins := { d.pins with confirm := s.pins.confirm } }

/-- POWER_ON. -/
def execPowerOn (s : State) : Host.Outcome State Fault Refusal := .next (powerOn s)

/-- RESET_PIN: as power-on (00_scope.md, 5.6); a reply in transmission ends (R196). -/
def execResetPin (s : State) : Host.Outcome State Fault Refusal := .next (powerOn s)

end Sys2Proof.Machine
end

