-- ==== Sys2Proof/Machine/Clock.lean ====
section
/-! DEFINITION. One second of time (DESIGN CHOICE, log entry 2): what the block does when no command waits. Every
running timer of seconds counts down. The last count of a timer is left to the command that stands for its expiry,
so a timer never passes its expiry unnoticed. -/

namespace Sys2Proof.Machine

/-- A timer of seconds after one second. -/
def countDown (r : Nat) : Nat := if r ≤ 1 then r else r - 1

/-- The timer a slot's state holds, after one second (sections 5.2). -/
def SlotState.tick : SlotState → SlotState
  | .warm r => .warm (countDown r)
  | .starting o p r h => .starting o p (countDown r) h
  | .running r h => .running (countDown r) h
  | .overrun r d p => .overrun (countDown r) d p
  | .hold r => .hold (countDown r)
  | x => x

def Slot.tick (x : Slot) : Slot := { x with state := x.state.tick }

/-- A holdoff timer after one second (R115). -/
def Service.tick : Service → Service
  | .holdoff r => .holdoff (countDown r)
  | x => x

/-- A relay line's recovery after one second (R168). -/
def Line.tick (l : Line) : Line := { l with recovery := l.recovery.map countDown }

/-- A gate timer after one second (R51). -/
def MeterRec.tick (r : MeterRec) : MeterRec := { r with gateLeft := countDown r.gateLeft }

/-- One second passes. -/
def tick (s : State) : State :=
  { s with
    clm := { s.clm with period := countDown s.clm.period }
    fmu := { s.fmu with draw := s.fmu.draw.tick, loop := s.fmu.loop.tick }
    scu :=
      { s.scu with
        slots := ⟨s.scu.slots.s1.tick, s.scu.slots.s2.tick, s.scu.slots.s3.tick, s.scu.slots.s4.tick⟩
        surplusTimer := s.scu.surplusTimer.map countDown }
    sar :=
      { s.sar with
        services := ⟨s.sar.services.top.tick, s.sar.services.mid.tick, s.sar.services.low.tick⟩ }
    ths := { s.ths with minuteLeft := countDown s.ths.minuteLeft }
    olu := tabulate fun i => s.olu[i].tick
    mpt :=
      { s.mpt with
        gapTimer := s.mpt.gapTimer.map fun _ => 1
        supervision := s.mpt.supervision.map countDown } }

end Sys2Proof.Machine
end

