-- ==== Sys2Proof/Machine/Dispatch.lean ====
section
/-! DEFINITION. One arm per command, each one direct call of its meaning. -/

namespace Sys2Proof.Machine

/-- The effect of a command on everything but the queue of waiting commands. -/
def exec (i : Instr) (s : State) : Host.Outcome State Fault Refusal :=
  match i with
  | .powerOn => Sys2Proof.Machine.execPowerOn s
  | .resetPin => Sys2Proof.Machine.execResetPin s
  | .receiveByte b e => Sys2Proof.Machine.execReceiveByte b e s
  | .gapTimerExpiry => Sys2Proof.Machine.execGapTimerExpiry s
  | .replySent => Sys2Proof.Machine.execReplySent s
  | .linkLapse => Sys2Proof.Machine.execLinkLapse s
  | .unknownKindRequest k p => Sys2Proof.Machine.execUnknownKindRequest k p s
  | .setCylinder p => Sys2Proof.Machine.execSetCylinder p s
  | .setZoneBounds p => Sys2Proof.Machine.execSetZoneBounds p s
  | .setZone p => Sys2Proof.Machine.execSetZone p s
  | .setSource p => Sys2Proof.Machine.execSetSource p s
  | .setSolar p => Sys2Proof.Machine.execSetSolar p s
  | .setHold p => Sys2Proof.Machine.execSetHold p s
  | .setProbeMap p => Sys2Proof.Machine.execSetProbeMap p s
  | .setProbeTrim p => Sys2Proof.Machine.execSetProbeTrim p s
  | .setMeter p => Sys2Proof.Machine.execSetMeter p s
  | .setOutput p => Sys2Proof.Machine.execSetOutput p s
  | .setFaultPolicy p => Sys2Proof.Machine.execSetFaultPolicy p s
  | .setLink p => Sys2Proof.Machine.execSetLink p s
  | .sourceEnable p => Sys2Proof.Machine.execSourceEnable p s
  | .sourceDisable p => Sys2Proof.Machine.execSourceDisable p s
  | .sourceReset p => Sys2Proof.Machine.execSourceReset p s
  | .boost p => Sys2Proof.Machine.execBoost p s
  | .boostCancel p => Sys2Proof.Machine.execBoostCancel p s
  | .surplus p => Sys2Proof.Machine.execSurplus p s
  | .forceOutput p => Sys2Proof.Machine.execForceOutput p s
  | .releaseOutput p => Sys2Proof.Machine.execReleaseOutput p s
  | .holdNow p => Sys2Proof.Machine.execHoldNow p s
  | .clearFaults p => Sys2Proof.Machine.execClearFaults p s
  | .lockLimits p => Sys2Proof.Machine.execLockLimits p s
  | .restart p => Sys2Proof.Machine.execRestart p s
  | .ident p => Sys2Proof.Machine.execIdent p s
  | .status p => Sys2Proof.Machine.execStatus p s
  | .layers p => Sys2Proof.Machine.execLayers p s
  | .zones p => Sys2Proof.Machine.execZones p s
  | .source p => Sys2Proof.Machine.execSource p s
  | .solar p => Sys2Proof.Machine.execSolar p s
  | .hold p => Sys2Proof.Machine.execHold p s
  | .meters p => Sys2Proof.Machine.execMeters p s
  | .energy p => Sys2Proof.Machine.execEnergy p s
  | .faults p => Sys2Proof.Machine.execFaults p s
  | .probes p => Sys2Proof.Machine.execProbes p s
  | .outputs p => Sys2Proof.Machine.execOutputs p s
  | .config p => Sys2Proof.Machine.execConfig p s
  | .conversion c r => Sys2Proof.Machine.execConversion c r s
  | .pulse m => Sys2Proof.Machine.execPulse m s
  | .drawGateExpiry => Sys2Proof.Machine.execDrawGateExpiry s
  | .loopGateExpiry => Sys2Proof.Machine.execLoopGateExpiry s
  | .modelPeriodExpiry => Sys2Proof.Machine.execModelPeriodExpiry s
  | .surplusTimerExpiry => Sys2Proof.Machine.execSurplusTimerExpiry s
  | .furtherEvaluation => Sys2Proof.Machine.execFurtherEvaluation s
  | .holdoffTimerExpiry z => Sys2Proof.Machine.execHoldoffTimerExpiry z s
  | .holdRequest => Sys2Proof.Machine.execHoldRequest s
  | .stepEnd => Sys2Proof.Machine.execStepEnd s
  | .holdTaken => Sys2Proof.Machine.execHoldTaken s
  | .holdNone => Sys2Proof.Machine.execHoldNone s
  | .holdLost => Sys2Proof.Machine.execHoldLost s
  | .confirmInputChange input a => Sys2Proof.Machine.execConfirmInputChange input a s
  | .dwellEnd n => Sys2Proof.Machine.execDwellEnd n s
  | .confirmWindowExpiry n => Sys2Proof.Machine.execConfirmWindowExpiry n s
  | .minimumRunCompletion n => Sys2Proof.Machine.execMinimumRunCompletion n s
  | .overrunExpiry n => Sys2Proof.Machine.execOverrunExpiry n s
  | .holdExpiry n => Sys2Proof.Machine.execHoldExpiry n s
  | .warmExpiry n => Sys2Proof.Machine.execWarmExpiry n s
  | .minuteEvent => Sys2Proof.Machine.execMinuteEvent s
  | .hourCountWrap => Sys2Proof.Machine.execHourCountWrap s
  | .stepTimeout => Sys2Proof.Machine.execStepTimeout s
  | .intervalExpiry => Sys2Proof.Machine.execIntervalExpiry s
  | .recoveryEnd l => Sys2Proof.Machine.execRecoveryEnd l s
  | .uptimeIncrement => Sys2Proof.Machine.execUptimeIncrement s

end Sys2Proof.Machine
end

