-- ==== Sys2Proof/Safety.lean ====
section
/-! DEFINITION. What the manual promises of every state between two events, in the terms the statements use: one
predicate per block, each with the rules it collects, and the forms in which a statement speaks of a request and its
reply. -/

namespace Sys2Proof.Machine

/-! ### Requests and replies -/

/-- The request of the given kind and payload is taken at its command (R189): no request is being answered, and it is
the oldest in the queue or its frame arrives in an empty queue. -/
def State.Takes (s : State) (kind : Byte) (payload : List Byte) : Prop :=
  s.mpt.reply = none ∧ (s.mpt.queue = [] ∨ s.mpt.queue.head? = some ⟨kind, payload⟩)

/-- The state in which a taken request is judged: its frame stands in the queue (R189). A frame that arrives loads the
supervision timer (R194). -/
def State.taking (s : State) (kind : Byte) (payload : List Byte) : State :=
  if s.mpt.queue = [] then
    { s with
      mpt :=
        { s.mpt with
          queue := [⟨kind, payload⟩]
          supervision := if s.mpt.interval = 0 then none else some s.mpt.interval } }
  else s

/-- The state with a reply under way (R191); the model's free-value counter has moved on by one. -/
def State.replying (s : State) (kind : Byte) (code : ResultCode) (data : List Byte) : State :=
  { s with freeCount := s.freeCount + 1, mpt := { s.mpt with reply := some (replyFrame kind code data) } }

/-- The KIND of a request command (sections 11.4.2 and 11.4.3). -/
def kindOf : Instr → Option Byte
  | .unknownKindRequest k _ => some k
  | .setCylinder _ => some 0x10 | .setZoneBounds _ => some 0x11 | .setZone _ => some 0x12 | .setSource _ => some 0x13
  | .setSolar _ => some 0x14 | .setHold _ => some 0x15 | .setProbeMap _ => some 0x16 | .setProbeTrim _ => some 0x17
  | .setMeter _ => some 0x18 | .setOutput _ => some 0x19 | .setFaultPolicy _ => some 0x1A | .setLink _ => some 0x1B
  | .sourceEnable _ => some 0x20 | .sourceDisable _ => some 0x21 | .sourceReset _ => some 0x22 | .boost _ => some 0x23
  | .boostCancel _ => some 0x24 | .surplus _ => some 0x25 | .forceOutput _ => some 0x26 | .releaseOutput _ => some 0x27
  | .holdNow _ => some 0x28 | .clearFaults _ => some 0x29 | .lockLimits _ => some 0x2A | .restart _ => some 0x2B
  | .ident _ => some 0x01 | .status _ => some 0x02 | .layers _ => some 0x03 | .zones _ => some 0x04
  | .source _ => some 0x05 | .solar _ => some 0x06 | .hold _ => some 0x07 | .meters _ => some 0x08
  | .energy _ => some 0x09 | .faults _ => some 0x0A | .probes _ => some 0x0B | .outputs _ => some 0x0C
  | .config _ => some 0x0D
  | .powerOn | .resetPin | .receiveByte _ _ | .gapTimerExpiry | .replySent | .linkLapse | .conversion _ _ | .pulse _
  | .drawGateExpiry | .loopGateExpiry | .modelPeriodExpiry | .surplusTimerExpiry | .furtherEvaluation
  | .holdoffTimerExpiry _ | .holdRequest | .stepEnd | .holdTaken | .holdNone | .holdLost | .confirmInputChange _ _
  | .dwellEnd _ | .confirmWindowExpiry _ | .minimumRunCompletion _ | .overrunExpiry _ | .holdExpiry _ | .warmExpiry _
  | .minuteEvent | .hourCountWrap | .stepTimeout | .intervalExpiry | .recoveryEnd _ | .uptimeIncrement => none

/-- The payload length of the requests whose length section 11.4 gives as one number. -/
def fixedLength : Instr → Option Nat
  | .setCylinder _ => some 10 | .setZoneBounds _ => some 2 | .setSolar _ => some 18 | .setProbeMap _ => some 18
  | .setProbeTrim _ => some 2 | .setOutput _ => some 3 | .setFaultPolicy _ => some 16 | .setLink _ => some 2
  | .sourceEnable _ => some 1 | .sourceDisable _ => some 1 | .sourceReset _ => some 1 | .boost _ => some 3
  | .boostCancel _ => some 1 | .surplus _ => some 2 | .forceOutput _ => some 2 | .releaseOutput _ => some 1
  | .holdNow _ => some 0 | .lockLimits _ => some 0 | .restart _ => some 1
  | .ident _ => some 0 | .status _ => some 0 | .layers _ => some 1 | .zones _ => some 1 | .source _ => some 1
  | .solar _ => some 0 | .hold _ => some 0 | .meters _ => some 0 | .energy _ => some 0 | .faults _ => some 0
  | .probes _ => some 1 | .outputs _ => some 0 | .config _ => some 2
  | .unknownKindRequest _ _ | .setZone _ | .setSource _ | .setHold _ | .setMeter _ | .clearFaults _ => none
  | .powerOn | .resetPin | .receiveByte _ _ | .gapTimerExpiry | .replySent | .linkLapse | .conversion _ _ | .pulse _
  | .drawGateExpiry | .loopGateExpiry | .modelPeriodExpiry | .surplusTimerExpiry | .furtherEvaluation
  | .holdoffTimerExpiry _ | .holdRequest | .stepEnd | .holdTaken | .holdNone | .holdLost | .confirmInputChange _ _
  | .dwellEnd _ | .confirmWindowExpiry _ | .minimumRunCompletion _ | .overrunExpiry _ | .holdExpiry _ | .warmExpiry _
  | .minuteEvent | .hourCountWrap | .stepTimeout | .intervalExpiry | .recoveryEnd _ | .uptimeIncrement => none

/-- The commands that may change a setting: the requests 0x10 to 0x1B, power-on and the RESET pin; a sent reply only
as the start of a cold restart. -/
def writesSettings (s : State) : Instr → Bool
  | .powerOn | .resetPin | .setCylinder _ | .setZoneBounds _ | .setZone _ | .setSource _ | .setSolar _ | .setHold _
  | .setProbeMap _ | .setProbeTrim _ | .setMeter _ | .setOutput _ | .setFaultPolicy _ | .setLink _ => true
  | .replySent => decide (s.mpt.restartDue = some .cold)
  | _ => false

/-! ### The Fault Monitor -/

/-- The ALERT pin is low exactly while the alert pin condition holds (R180), no count exceeds 255 (R177), the
first-fault record names a kind whose status is set (R179), and TOP_PROBE_LOST and CYLINDER_OVERTEMP are TRIP
(R181). -/
def State.faultsOk (s : State) : Prop :=
  s.pins.alertLow = s.flt.pinCondition ∧ (∀ i : Fin 16, s.flt.kinds[i].count ≤ 255) ∧
    (∀ r, s.flt.first = some r → (s.flt.kindRec r.kind).status = true) ∧
    (s.flt.kindRec .topProbeLost).trip = true ∧ (s.flt.kindRec .cylinderOvertemp).trip = true

/-! ### The lines -/

/-- A relay line (R165, R168, R169): a closed contact is not resting and its target is on; an open contact with an on
target waits for its recovery to end, and a deferred close is set under an on target only. -/
def Line.relayOk (l : Line) : Prop :=
  (l.output = 100 ∧ l.target ≠ 0 ∧ l.recovery = none ∧ l.deferred = false) ∨
    (l.output = 0 ∧ (l.deferred = true ↔ l.target ≠ 0) ∧ (l.deferred = true → l.recovery ≠ none))

/-- L6 and L7 (R165, R167): the output is the target, with no recovery and no deferred close. -/
def Line.pwmOk (l : Line) : Prop := l.output = l.target ∧ l.recovery = none ∧ l.deferred = false

/-- Every line as its driver requires, and no function on two lines (R165). -/
def State.linesOk (s : State) : Prop :=
  (∀ i : Fin 8, if isRelay i then s.olu[i].relayOk else s.olu[i].pwmOk) ∧
    ∀ i j : Fin 8, s.olu[i].function = s.olu[j].function → s.olu[i].function ≠ .noFunction → i = j

/-! ### The slots -/

/-- STARTING, RUNNING or DIVERTING: the slot works. -/
def SlotState.works : SlotState → Bool
  | .starting _ _ _ _ | .running _ _ | .diverting => true
  | _ => false

/-- A state a class admits (R80, sections 5.2 and 5.3). -/
def SlotClass.admits : SlotClass → SlotState → Bool
  | .noSource, x => decide (x = .disabled)
  | .diverter, x => decide (x = .disabled ∨ x = .idle ∨ x = .diverting)
  | _, x => decide (x ≠ .idle ∧ x ≠ .diverting)

/-- One slot: its state is one its class admits (R80), it counts 3 failures exactly while TRIPPED (R101), and it does
not work while the cylinder limit latch is set (R106). -/
def Slot.ok (latch : Latch) (x : Slot) : Prop :=
  x.cls.admits x.state = true ∧ x.failures ≤ 3 ∧ (x.failures = 3 ↔ x.state = .tripped) ∧
    (latch ≠ .clear → x.state.works = false)

def State.slotsOk (s : State) : Prop := ∀ n, (s.slot n).ok s.scu.latch

/-! ### The lines and the states of their owners -/

/-- A heating slot STARTING or RUNNING: its call line may be asked on (R84). -/
def Slot.calls (x : Slot) : Bool :=
  x.cls.heating && match x.state with
    | .starting _ _ _ _ | .running _ _ => true
    | _ => false

/-- A heating slot STARTING, RUNNING or in OVERRUN: its pump line may be asked on (R84). -/
def Slot.pumps (x : Slot) : Bool :=
  x.cls.heating && match x.state with
    | .starting _ _ _ _ | .running _ _ | .overrun _ _ _ => true
    | _ => false

/-- A diverter DIVERTING: its drive line may carry a duty (R102, R103). -/
def Slot.diverts (x : Slot) : Bool := decide (x.cls = .diverter) && decide (x.state = .diverting)

/-- The owner of a function stands in a state in which its line may be asked on: a call line while its slot is STARTING or
RUNNING, a pump line in OVERRUN too (R84), a drive line while the diverter is DIVERTING (R102, R103), the solar pump line
while the loop circulates (R142). -/
def State.warrants (s : State) : LineFunction → Bool
  | .sourceCall n => (s.slot n).calls
  | .sourcePump n => (s.slot n).pumps
  | .diverterDrive n => (s.slot n).diverts
  | .solarPump => s.slc.state.circulates
  | .noFunction | .alertRelay => true

/-- A line is asked on only where its owner's state warrants it, and a function that acts on heat is never forced
(R84, R103, R142, R172). -/
def State.agreeOk (s : State) : Prop :=
  ∀ i : Fin 8, (s.olu[i].function.forcible = false → s.olu[i].mode = .auto) ∧
    (s.olu[i].auto ≠ 0 → s.warrants s.olu[i].function = true)

/-! ### The services and the slots they name -/

/-- The slots and holders that a list of notices reports as having left service. -/
def leavers (l : List ScuNotice) : List (SlotId × Holder) :=
  l.filterMap fun
    | .leftService n h _ => some (n, h)
    | .available _ => none

/-- The service records, the hold claim and the slots' holders agree, where `l` lists the slots and holders whose
left-service notice has not reached the arbiter yet (R94, R111, R116, R119, R121, R123, R125, R126). -/
structure State.Serves (l : List (SlotId × Holder)) (s : State) : Prop where
  /-- A SERVING record names a slot whose holder is that zone. -/
  serving : ∀ z n, s.service z = .serving n → (s.slot n).state.holder? = some (.zone z) ∨ (n, .zone z) ∈ l
  /-- A SUSPENDED record names the slot of the hold claim, which notes the zone. -/
  suspended : ∀ z n, s.service z = .suspended n → s.sar.claim = .holding n (some z)
  /-- No slot is named by two records. -/
  once : ∀ y z n, (s.service y).names n = true → (s.service z).names n = true → y = z
  /-- The hold claim names a slot whose holder is the hold step. -/
  claimed : ∀ n, s.sar.claim.holds n = true → (s.slot n).state.holder? = some .holdStep ∨ (n, .holdStep) ∈ l
  /-- The zone a hold claim notes is suspended with the claim's slot. -/
  noted : ∀ n z, s.sar.claim = .holding n (some z) → s.service z = .suspended n
  /-- A slot's holder is a zone whose record is SERVING with it, or the hold step whose claim names it. -/
  held : ∀ n z, (s.slot n).state.holder? = some (.zone z) → s.service z = .serving n
  lent : ∀ n, (s.slot n).state.holder? = some .holdStep → s.sar.claim.holds n = true
  /-- A slot reported as having left a holder has it no more, and its record still names it. -/
  left : ∀ n h, (n, h) ∈ l → (s.slot n).state.holder? ≠ some h
  leftZone : ∀ n z, (n, .zone z) ∈ l → s.service z = .serving n
  leftStep : ∀ n, (n, .holdStep) ∈ l → s.sar.claim.holds n = true
  distinct : (l.map Prod.snd).Nodup
  /-- Only a slot of a heating class has a holder. -/
  heating : ∀ n, (s.slot n).state.holder? ≠ none → (s.slot n).cls.heating = true

/-- The agreement, with the notices that wait for a further evaluation (log entry 16). -/
def State.servicesOk (s : State) : Prop := s.Serves (leavers s.sar.further)

/-! ### The layer table -/

/-- The sixteen temperatures lie in 0..1000 and rise from bottom to top (R7), every residue lies in 0..U − 1 (R4), and
the volume and the mains default are in their ranges (R1, R2). -/
def State.layersOk (s : State) : Prop :=
  (∀ i : Fin 16, 0 ≤ s.temp i ∧ s.temp i ≤ 1000) ∧ (∀ i j : Fin 16, i ≤ j → s.temp i ≤ s.temp j) ∧
    (∀ i : Fin 16, 0 ≤ s.clm.layers[i].residue ∧ s.clm.layers[i].residue < s.clm.unitEnergy) ∧
    64 ≤ s.clm.volume ∧ s.clm.volume ≤ 512 ∧ 0 ≤ s.clm.mainsDefault ∧ s.clm.mainsDefault ≤ 300

/-! ### The meters -/

/-- While the DRAW meter is absent the pending volume is 0 (R56). -/
def State.dryOk (s : State) : Prop := s.fmu.draw.mlPerPulse = 0 → s.fmu.pendingVolume = 0

/-! ### The solar loop -/

/-- The speed lies in 0..100 and is 0 in every state but RUN, FROST and COOLDOWN (R129), the minimum speed is in its
range (R130), and the solar maximum stays at least 50 dd below the hard maximum (R83, R132). -/
def State.solarOk (s : State) : Prop :=
  0 ≤ s.slc.speed ∧ s.slc.speed ≤ 100 ∧ (s.slc.state.circulates = false → s.slc.speed = 0) ∧
    10 ≤ s.slc.settings.minSpeed ∧ s.slc.settings.minSpeed ≤ 100 ∧ 750 ≤ s.scu.hardMax ∧
    s.slc.settings.solarMax ≤ s.scu.hardMax - 50

/-! ### The probes -/

/-- One channel record (R33, R35): counts 0..2, a value in the channel's band, a trim in −20..20. -/
def Channel.ok (c : Fin 12) (x : Channel) : Prop :=
  (match x.status with
    | .ok bad v => bad ≤ 2 ∧ ∀ t, v = some t → classify c t = none
    | .faulted _ good => good ≤ 2) ∧
    -20 ≤ x.trim ∧ x.trim ≤ 20

/-- A map that R41 would take: no channel stands in two roles, no two anchors that name a channel carry one layer, and
COLLECTOR and LOOP_FLOW name no other channel than 0 and 1. -/
def ProbeMap.ok (m : ProbeMap) : Prop :=
  (∀ q r c, m.channelOf q = some c → m.channelOf r = some c → q = r) ∧
    (∀ a b : Fin 6, m.channelOf (.anchor a) ≠ none → m.channelOf (.anchor b) ≠ none → m.layer[a] = m.layer[b] → a = b) ∧
    ∀ c, m.channelOf .collector = some c ∨ m.channelOf .loopFlow = some c → c.val < 2

/-- Every channel record and the map. -/
def State.probesOk (s : State) : Prop := (∀ c : Fin 12, s.pfe.channels[c].ok c) ∧ s.pfe.map.ok

/-! ### The hold pointer and the port -/

/-- The hold pointer lies between the base and 15 (R152). -/
def State.holdOk (s : State) : Prop := s.ths.settings.base ≤ s.ths.pointer

/-- The queue holds at most two requests (R189), the counter at most 65 535 (R188); a reply answers the oldest entry
(R189), a restart waits for its reply only (R195), and the gap timer runs in every state but HUNT (R187). -/
def State.portOk (s : State) : Prop :=
  s.mpt.queue.length ≤ 2 ∧ s.mpt.discards ≤ 65535 ∧ (s.mpt.reply ≠ none → s.mpt.queue ≠ []) ∧
    (s.mpt.restartDue ≠ none → s.mpt.reply ≠ none) ∧ (s.mpt.gapTimer = none ↔ s.mpt.assembler = .hunt)

/-! ### The settings -/

def Clm.figures (c : Clm) : Nat × Nat × Int × Int × Int × Nat :=
  (c.volume, c.uaTenths, c.mainsDefault, c.ambientDefault, c.usableThreshold, c.anchorWeight)

def Fmu.figures (f : Fmu) : Nat × Nat × Nat × Nat × Nat :=
  (f.draw.mlPerPulse, f.draw.gate, f.loop.mlPerPulse, f.loop.gate, f.nominalFlow)

def ZoneRec.figures (z : ZoneRec) : Int × Int × Int := (z.target, z.hysteresis, z.urgentMargin)

def Zdu.figures (z : Zdu) : Fin 16 × Fin 16 × (Int × Int × Int) × (Int × Int × Int) × Int × Int × Int :=
  (z.b1, z.b2, z.zones.top.figures, z.zones.mid.figures, z.zones.low.figures)

def Slot.figures (x : Slot) : SlotClass × SlotSettings := (x.cls, x.settings)

def Scu.figures (c : Scu) : Fin 16 × Fin 16 × Int × Nat × (SlotId → SlotClass × SlotSettings) :=
  (c.coil0Low, c.coil0High, c.hardMax, c.surplusTimeout, fun n => (c.slots.get n).figures)

def lineFigures (l : Vector Line 8) (i : Fin 8) : LineFunction × Nat := (l[i].function, l[i].recoveryTime)

/-- The fault policy: the mask and the severity of each kind (R177). -/
def Flt.policy (f : Flt) (i : Fin 16) : Bool × Bool := (f.kinds[i].masked, f.kinds[i].trip)

/-- The ranking of each zone (R68). -/
def Zdu.rankings (z : Zdu) (y : Zone) : List SlotId := (z.zones.get y).ranking

/-- The trim of each channel (R33). -/
def Pfe.trims (p : Pfe) (c : Fin 12) : Int := p.channels[c].trim

/-- Every setting: what the requests 0x10 to 0x1B write. -/
def State.settings (s : State) :=
  (s.clm.figures, s.fmu.figures, s.zdu.figures, s.scu.figures, (s.sar.holdoffTime, s.sar.threshold), s.slc.settings,
    s.ths.settings, lineFigures s.olu, s.zdu.rankings, s.flt.policy, s.mpt.interval, s.pfe.map, s.pfe.trims)

/-- The five values LOCK_LIMITS locks (R193). -/
def State.limits (s : State) : Int × Int × Int × Int × Nat :=
  (s.scu.hardMax, s.slc.settings.solarMax, s.slc.settings.collectorMax, s.ths.settings.temp, s.ths.settings.dwell)

/-- A slot's settings in their ranges (R81). -/
def SlotSettings.ok (x : SlotSettings) : Prop :=
  x.coilLow ≤ x.coilHigh ∧ 100 ≤ x.rate ∧ x.rate ≤ 20000 ∧ 400 ≤ x.ceiling ∧ x.ceiling ≤ 850 ∧ x.minRun ≤ 3600 ∧
    x.minOff ≤ 3600 ∧ x.startDwell ≤ 600 ∧ x.coldExtra ≤ 600 ∧ x.warmTime ≤ 240 ∧ x.overrun ≤ 600 ∧
    5 ≤ x.confirmWindow ∧ x.confirmWindow ≤ 300

/-- The CLM's settings in their ranges (R1, R2). -/
def Clm.figuresOk (c : Clm) : Prop :=
  (64 ≤ c.volume ∧ c.volume ≤ 512 ∧ c.volume % 16 = 0) ∧ (5 ≤ c.uaTenths ∧ c.uaTenths ≤ 50) ∧
    (0 ≤ c.mainsDefault ∧ c.mainsDefault ≤ 300) ∧ (-100 ≤ c.ambientDefault ∧ c.ambientDefault ≤ 400) ∧
    (300 ≤ c.usableThreshold ∧ c.usableThreshold ≤ 600) ∧ c.anchorWeight ≤ 3

/-- The meters' settings in their ranges (section 3.1). -/
def Fmu.figuresOk (f : Fmu) : Prop :=
  f.draw.mlPerPulse ≤ 1000 ∧ (1 ≤ f.draw.gate ∧ f.draw.gate ≤ 60) ∧ f.loop.mlPerPulse ≤ 1000 ∧
    (1 ≤ f.loop.gate ∧ f.loop.gate ≤ 60) ∧ f.nominalFlow ≤ 20000

/-- A zone's settings in their ranges (section 4.2). -/
def ZoneRec.figuresOk (z : ZoneRec) : Prop :=
  (z.target = 0 ∨ 300 ≤ z.target ∧ z.target ≤ 750) ∧ (10 ≤ z.hysteresis ∧ z.hysteresis ≤ 150) ∧
    (0 ≤ z.urgentMargin ∧ z.urgentMargin ≤ 200)

/-- The solar settings in their ranges (R130, R132), under the hard maximum in force. -/
def SolarSettings.ok (hardMax : Int) (x : SolarSettings) : Prop :=
  (20 ≤ x.onDiff ∧ x.onDiff ≤ 200) ∧ (10 ≤ x.offDiff ∧ x.offDiff ≤ x.onDiff - 10) ∧
    (10 ≤ x.minSpeed ∧ x.minSpeed ≤ 100) ∧ (0 ≤ x.gain ∧ x.gain ≤ 20) ∧
    (600 ≤ x.solarMax ∧ x.solarMax ≤ hardMax - 50) ∧ (1000 ≤ x.collectorMax ∧ x.collectorMax ≤ 1400) ∧
    (-100 ≤ x.frost ∧ x.frost ≤ 100) ∧ (50 ≤ x.cooldownDiff ∧ x.cooldownDiff ≤ 300)

/-- The stepper's settings in their ranges (R147). -/
def HoldSettings.ok (h : HoldSettings) : Prop :=
  (550 ≤ h.temp ∧ h.temp ≤ 700) ∧ (2 ≤ h.dwell ∧ h.dwell ≤ 60) ∧ (24 ≤ h.period ∧ h.period ≤ 336) ∧
    (30 ≤ h.timeout ∧ h.timeout ≤ 480) ∧ h.ranking.Nodup

/-- Every ranking names no slot twice, and only heating slots whose coil does not lie above the zone (R68, R70). -/
def State.rankingsOk (s : State) : Prop :=
  ∀ z, (s.zone z).ranking.Nodup ∧
    ∀ n ∈ (s.zone z).ranking, (s.slot n).cls.heating = true ∧ (s.slot n).settings.coilLow.val ≤ s.zdu.topLayer z

/-- The supervision interval is 0 or lies in 10..600 (R194). -/
def State.linkOk (s : State) : Prop := s.mpt.interval = 0 ∨ 10 ≤ s.mpt.interval ∧ s.mpt.interval ≤ 600

/-- Every trim lies in −20..20 (R33). -/
def State.trimsOk (s : State) : Prop := ∀ c : Fin 12, -20 ≤ s.pfe.channels[c].trim ∧ s.pfe.channels[c].trim ≤ 20

/-- The settings of the CLM, the FMU, the zones, the slots, the arbiter, the solar loop, the stepper and the lines in their
ranges (R1, R2, R52, R65, R67, R81, R83, R112, R130, R147, R165). -/
def State.rangesOk (s : State) : Prop :=
  s.clm.figuresOk ∧ s.fmu.figuresOk ∧ (1 ≤ s.zdu.b1 ∧ s.zdu.b1 < s.zdu.b2) ∧ (∀ z, (s.zone z).figuresOk) ∧
    (s.scu.coil0Low ≤ s.scu.coil0High ∧ 750 ≤ s.scu.hardMax ∧ s.scu.hardMax ≤ 950 ∧ 5 ≤ s.scu.surplusTimeout ∧
      s.scu.surplusTimeout ≤ 120) ∧
    (∀ n, (s.slot n).settings.ok) ∧ (s.sar.holdoffTime ≤ 120 ∧ s.sar.threshold ≤ 5000) ∧
    s.slc.settings.ok s.scu.hardMax ∧ s.ths.settings.ok ∧ ∀ i : Fin 8, s.olu[i].recoveryTime ≤ 30

/-- Every setting lies in its range: the ranges, the rankings, the supervision interval and the trims. -/
def State.settingsOk (s : State) : Prop := s.rangesOk ∧ s.rankingsOk ∧ s.linkOk ∧ s.trimsOk

/-- The waiting commands, the probe front end, the port, the confirm inputs and every setting stand. -/
def Untouched (s t : State) : Prop :=
  t.pending = s.pending ∧ t.pfe = s.pfe ∧ t.mpt = s.mpt ∧ t.pins.confirm = s.pins.confirm ∧ t.settings = s.settings

/-- What a slot becomes when it is granted to a zone (R90), if it is free: a COLD slot starts with its start dwell and cold
extra, a WARM one with its start dwell, and one in run-on goes on with the zone as its holder. -/
def Slot.granted (x : Slot) (z : Zone) : Option SlotState :=
  match x.state with
  | .cold => some (.starting .cold .dwell (x.settings.startDwell + x.settings.coldExtra) (.zone z))
  | .warm _ => some (.starting .warm .dwell x.settings.startDwell (.zone z))
  | .running r none => some (.running r (some (.zone z)))
  | _ => none

/-- The slot is free and its start, if it needs one, has a dwell that does not end in the same event (R90). -/
def Slot.startsLater (x : Slot) : Prop :=
  match x.state with
  | .cold => 0 < x.settings.startDwell + x.settings.coldExtra
  | .warm _ => 0 < x.settings.startDwell
  | .running _ none => True
  | _ => False

/-- The slot is RUNNING: a grant finds its lines on already (R90). -/
def SlotState.isRunning : SlotState → Bool
  | .running _ _ => true
  | _ => false

/-- Zone `z` has been granted the free slot `n` (R90, R116): the service is SERVING with it, the slot works for the zone, and
at a start its call and pump lines are asked on; all else stands. -/
def Granted (s t : State) (z : Zone) (n : SlotId) : Prop :=
  t.service z = .serving n ∧ (∀ y, y ≠ z → t.service y = s.service y) ∧
    (∃ st, (s.slot n).granted z = some st ∧ t.slot n = { s.slot n with state := st }) ∧
    (∀ m, m ≠ n → t.slot m = s.slot m) ∧
    t.olu = (if (s.slot n).state.isRunning then s.olu else (askPump n true (askCall n true s)).olu) ∧
    t.sar = { s.sar with services := t.sar.services } ∧ t.scu = { s.scu with slots := t.scu.slots } ∧
    t = { s with scu := t.scu, sar := t.sar, olu := t.olu }

/-- What a slot becomes that stops from RUNNING with the given off time (R98): it runs its pump on when it has a pump line
and an overrun, and rests otherwise. -/
def State.stopped (s : State) (n : SlotId) (off : Nat) : SlotState :=
  if s.hasPumpLine n = true ∧ 0 < (s.slot n).settings.overrun then .overrun (s.slot n).settings.overrun off false
  else .hold off

/-- The arbiter has no notice waiting and can grant nothing at its next evaluation: no grant is open, or nothing waits or
seeks (R113, R116, R122). -/
def State.noGrant (s : State) : Prop :=
  s.sar.further = [] ∧ (s.grantsOpen = false ∨ s.sar.claim ≠ .seeking ∧ ∀ z, s.service z ≠ .waiting)

/-- A kind's record after one report with the given subject (R178). -/
def State.reported (s : State) (k : FaultKind) (x : Subject) : KindRec :=
  { s.flt.kindRec k with status := true, count := min 255 ((s.flt.kindRec k).count + 1), lastSubject := x }

end Sys2Proof.Machine
end

