-- ==== Sys2Proof/Certificates/Slice0/Obligations.lean ====
section
/-! DEFINITION. The statements for the provers, in the order of the manual's blocks. Where a request is the subject,
`s.taking kind p` is the state in which the port judges it and `u.replying kind code data` the state `u` with its reply
under way (Safety.lean), so an equation with such a right side says what changed and that nothing else did. -/

open Sys2Proof Sys2Proof.Machine

/-! ### The machine -/

/-- A step takes the oldest waiting command and executes it with the rest of the queue.

The queue is the model's own (log entry 1): the manual has events taken one at a time (00_scope.md, 5.6). -/
def Obligations.StepRunsTheOldestCommand : Prop :=
  ∀ (c : Instr) (rest : List Instr) (s : State),
    step { s with pending := c :: rest } = exec c { s with pending := rest }

/-- No command faults, none is refused, and none touches the commands that wait.

The queue is the model's own (log entry 1). -/
def Obligations.EveryCommandCompletes : Prop :=
  ∀ (c : Instr) (s : State), ∃ t, exec c s = .next t ∧ t.pending = s.pending

/-- POWER_ON and RESET_PIN leave the power-on state, but for the commands that wait, the free-value counter and the levels
at the confirm inputs, which the SCU reads afresh; and what the power-on state holds, block by block.

That the waiting commands, the free-value counter and the outside levels are kept is the model's choice (log entries
3 and 4). Rests on R1, R2, R4, R6, R10, R15, R31 to R33, R35, R40, R51, R52, R64, R65, R67, R81, R83, R109, R112,
R127, R129, R130, R145, R147, R149, R152, R163, R165, R175, R177, R179, R184, R187, R196. -/
def Obligations.PowerOnLeavesTheStatedValues : Prop :=
  (∀ s : State,
    exec .powerOn s = .next
      { State.reset with
        pending := s.pending
        freeCount := s.freeCount
        scu := { State.reset.scu with confirmLevel := s.pins.confirm }
        pins := { State.reset.pins with confirm := s.pins.confirm } } ∧
    exec .resetPin s = exec .powerOn s) ∧
  (State.reset.clm.figures = (192, 16, 100, 150, 400, 2) ∧ State.reset.clm.model = .unseeded ∧
    (∀ i : Fin 16, State.reset.temp i = 0 ∧ State.reset.clm.layers[i].residue = 0 ∧
      State.reset.clm.layers[i].hotDwell = 0 ∧ State.reset.clm.layers[i].holdAge = 65535) ∧
    (∀ c : Fin 12, State.reset.clm.scanned[c] = false) ∧
    (State.reset.clm.solarYield = ⟨0, 0⟩ ∧ (∀ n, State.reset.clm.injected.get n = ⟨0, 0⟩) ∧
      State.reset.clm.delivered = ⟨0, 0⟩ ∧ State.reset.clm.loss = ⟨0, 0⟩ ∧ State.reset.clm.clipped = ⟨0, 0⟩) ∧
    State.reset.clm.period = 10) ∧
  ((∀ c : Fin 12, State.reset.pfe.channels[c] = ⟨.ok 0 none, 0⟩) ∧ State.reset.pfe.scanNext = 0 ∧
    State.reset.pfe.map.channel.toList =
      [some 3, some 4, some 5, some 6, some 7, some 8, some 0, some 1, some 10, some 9, some 11, some 2] ∧
    State.reset.pfe.map.layer.toList = [15, 12, 9, 6, 3, 0]) ∧
  (State.reset.fmu.figures = (0, 2, 0, 10, 6000) ∧
    (State.reset.fmu.draw.count = 0 ∧ State.reset.fmu.draw.saturated = false ∧ State.reset.fmu.draw.total = 0 ∧
      State.reset.fmu.draw.remainder = 0 ∧ State.reset.fmu.draw.gateLength = 2 ∧ State.reset.fmu.draw.gateLeft = 2) ∧
    (State.reset.fmu.loop.count = 0 ∧ State.reset.fmu.loop.saturated = false ∧ State.reset.fmu.loop.total = 0 ∧
      State.reset.fmu.loop.remainder = 0 ∧ State.reset.fmu.loop.gateLength = 10 ∧ State.reset.fmu.loop.gateLeft = 10) ∧
    State.reset.fmu.pendingVolume = 0 ∧ State.reset.fmu.zeroGates = 0 ∧ State.reset.fmu.heatRate = 0) ∧
  (State.reset.zdu.figures = (6, 12, (500, 50, 50), (450, 50, 50), 0, 50, 50) ∧
    ∀ z, (State.reset.zone z).demand = false ∧ (State.reset.zone z).urgent = false ∧ (State.reset.zone z).boost = none ∧
      (State.reset.zone z).ranking = []) ∧
  (State.reset.scu.coil0Low = 0 ∧ State.reset.scu.coil0High = 2 ∧ State.reset.scu.hardMax = 900 ∧
    State.reset.scu.surplusTimeout = 30 ∧ State.reset.scu.surplus = 0 ∧ State.reset.scu.surplusTimer = none ∧
    State.reset.scu.latch = .clear ∧
    ∀ n, (State.reset.slot n).cls = .noSource ∧ (State.reset.slot n).state = .disabled ∧ (State.reset.slot n).failures = 0) ∧
  ((∀ z, State.reset.service z = .idle) ∧ State.reset.sar.claim = .none ∧ State.reset.sar.holdoffTime = 20 ∧
    State.reset.sar.threshold = 300) ∧
  (State.reset.slc.state = .off ∧ State.reset.slc.speed = 0 ∧
    State.reset.slc.settings = ⟨70, 30, 30, 5, 800, 1200, 30, false, 150⟩) ∧
  (State.reset.ths.settings = ⟨false, 600, 20, 168, .two, 0, 240, []⟩ ∧ State.reset.ths.pointer = 15 ∧
    State.reset.ths.hourCount = 0 ∧ State.reset.ths.step = .idle ∧ State.reset.ths.passes = 0) ∧
  (∀ i : Fin 8, State.reset.olu[i].function = .noFunction ∧ State.reset.olu[i].output = 0 ∧
    State.reset.olu[i].recoveryTime = 5) ∧
  (State.reset.flt.first = none ∧ State.reset.flt.uptime = 0 ∧
    ∀ i : Fin 16, State.reset.flt.kinds[i] = ⟨false, false, i.val == 2 || i.val == 3 || i.val == 9, 0, .none⟩) ∧
  (State.reset.mpt.assembler = .hunt ∧ State.reset.mpt.queue = [] ∧ State.reset.mpt.reply = none ∧
    State.reset.mpt.discards = 0 ∧ State.reset.mpt.interval = 0 ∧ State.reset.mpt.lock = false)

/-- Every promise of Safety.lean holds of the state after power-on. -/
def Obligations.PromisesHoldAtReset : Prop :=
  State.reset.faultsOk ∧ State.reset.linesOk ∧ State.reset.slotsOk ∧ State.reset.layersOk ∧ State.reset.solarOk ∧
    State.reset.probesOk ∧ State.reset.holdOk ∧ State.reset.portOk ∧ State.reset.settingsOk ∧ State.reset.agreeOk ∧
    State.reset.servicesOk ∧ State.reset.dryOk

/-! ### Promises that every step keeps -/

/-- The ALERT pin follows its condition, counts stay within 255, the first-fault record names a set status, and the two
cylinder kinds stay TRIP.

Rests on R177 to R181. -/
def Obligations.FaultMonitorPromiseIsKept : Prop := ∀ s t : State, s.faultsOk → step s = .next t → t.faultsOk

/-- A closed contact is never resting, a deferred close waits for a recovery, L6 and L7 follow their target, and no
function is on two lines. With that kept, a line's owner stands in the state the line's request needs: a call line is asked
on only while its slot is STARTING or RUNNING, a pump line in OVERRUN too, a drive line while the diverter is DIVERTING, the
solar pump line while the loop circulates, and none of them but a pump line is forced.

Rests on R84, R102, R103, R142, R165 to R170, R172. -/
def Obligations.LinePromiseIsKept : Prop :=
  (∀ s t : State, s.linesOk → step s = .next t → t.linesOk) ∧
    ∀ s t : State, s.linesOk → s.agreeOk → step s = .next t → t.agreeOk

/-- Every slot is in a state of its class, is TRIPPED exactly at three failures, and no slot works while the cylinder
limit latch is set. The service records agree with the slots: a SERVING record names a slot whose holder is that zone (or
that is reported as having left it), a SUSPENDED record names the slot of the hold claim, and no slot is named by two
records.

That a slot may have left its service while the notice of it still waits is the model's choice (log entry 16). Rests
on R90, R94, R101, R105, R106, R111, R116, R119, R121, R123, R125, R126. -/
def Obligations.SlotPromiseIsKept : Prop :=
  (∀ s t : State, s.slotsOk → step s = .next t → t.slotsOk) ∧
    ∀ s t : State, s.servicesOk → step s = .next t → t.servicesOk

/-- The sixteen temperatures stay within 0 and 1000 dd and rise from bottom to top, and every residue stays below the
unit energy. The pending volume stays 0 while the DRAW meter is absent, and below one slice in every step that does not make
the slice smaller.

Rests on R4, R16 to R18, R28, R29, R52, R54 to R56. -/
def Obligations.LayerPromiseIsKept : Prop :=
  (∀ s t : State, s.layersOk → step s = .next t → t.layersOk) ∧
    (∀ s t : State, s.dryOk → step s = .next t → t.dryOk) ∧
    ∀ s t : State, s.fmu.pendingVolume < s.clm.sliceVolume → s.clm.sliceVolume ≤ t.clm.sliceVolume → step s = .next t →
      t.fmu.pendingVolume < t.clm.sliceVolume

/-- The pump speed stays within 0 and 100, is 0 outside RUN, FROST and COOLDOWN, and the solar maximum stays 50 dd
below the hard maximum.

Rests on R83, R129 to R131. -/
def Obligations.SolarPromiseIsKept : Prop := ∀ s t : State, s.solarOk → step s = .next t → t.solarOk

/-- Every channel record stays in its bounds, and the probe map keeps no channel in two roles, no two anchors that name a
channel on one layer, and COLLECTOR and LOOP_FLOW on no other channel than 0 and 1.

Rests on R35, R41. -/
def Obligations.ProbePromiseIsKept : Prop := ∀ s t : State, s.probesOk → step s = .next t → t.probesOk

/-- The hold pointer never lies below the hold base layer.

Rests on R152. -/
def Obligations.HoldPointerPromiseIsKept : Prop := ∀ s t : State, s.holdOk → step s = .next t → t.holdOk

/-- The request queue never holds more than two entries, a reply answers an entry, a restart waits for a reply, and the
gap timer runs exactly outside HUNT.

Rests on R187, R189, R195. -/
def Obligations.PortPromiseIsKept : Prop := ∀ s t : State, s.portOk → step s = .next t → t.portOk

/-- Every setting stays in its range: the figures of each block, the trims, the supervision interval, and the rankings,
which name no slot twice and only heating slots whose coil does not lie above the zone.

Rests on R1, R2, R33, R52, R65, R67, R68, R70, R81, R83, R112, R130, R147, R165, R194. -/
def Obligations.SettingRangesAreKept : Prop := ∀ s t : State, s.settingsOk → step s = .next t → t.settingsOk

/-- While the limit lock is set, only power-on and the RESET pin clear it or change one of the five locked values.

Rests on R193. -/
def Obligations.LockedLimitsStand : Prop :=
  ∀ (c : Instr) (s t : State), c ≠ .powerOn → c ≠ .resetPin → s.solarOk → s.mpt.lock = true → exec c s = .next t →
    t.mpt.lock = true ∧ t.limits = s.limits

/-- Every setting, the map, the trims, the rankings, the fault policy and the supervision interval among them, is moved by
setting requests, power-on, the RESET pin and a cold restart, and by nothing else; nor does an idle second move one.

That a second passes on an empty queue is the model's choice (log entry 2). Rests on R33, R40, R68, R182, R194. -/
def Obligations.OnlySettingRequestsMoveSettings : Prop :=
  (∀ (c : Instr) (s t : State), writesSettings s c = false → exec c s = .next t → t.settings = s.settings) ∧
    ∀ s t : State, (∀ c, s.pending.head? = some c → writesSettings s c = false) → step s = .next t →
      t.settings = s.settings

/-! ### The Message Port -/

/-- Every frame that can be sent is received, and a damaged one is discarded: the bytes of a frame of at most 64 payload
bytes, taken one by one from HUNT, leave the assembler in HUNT, with the frame arrived at the port when its two check bytes
are its check, and counted as discarded otherwise.

It is stated of Mpt.receive, which is what RECEIVE_BYTE does to the port. Rests on R186 to R188. -/
def Obligations.EveryFrameIsJudgedByItsCheck : Prop :=
  ∀ (m : Mpt) (kind x y : Byte) (p : List Byte), m.assembler = .hunt → m.gapTimer = none → p.length ≤ 64 →
    (frameBytes kind p).foldl (fun m b => m.receive b false) m = m.arrive ⟨kind, p⟩ ∧
    (0xC5#8 :: checkedBytes kind p ++ [x, y]).foldl (fun m b => m.receive b false) m =
      if x ++ y = frameCheck kind p then m.arrive ⟨kind, p⟩ else { m with discards := min 65535 (m.discards + 1) }

/-- RECEIVE_BYTE and GAP_TIMER_EXPIRY: a byte other than 0xC5 in HUNT is ignored, 0xC5 begins a frame, a LEN above 64 and
a framing error outside HUNT discard it, and so does the expiry of the gap timer.

That an expiry is taken whatever count its timer shows is a reading of the manual (DEDUCED, log entry 8). Rests on
R187, R188. -/
def Obligations.ReceiverBeginsAndDiscardsFrames : Prop :=
  ∀ (s : State) (b : Byte),
    (s.mpt.assembler = .hunt → s.mpt.gapTimer = none →
      (b ≠ 0xC5 → exec (.receiveByte b false) s = .next s) ∧
      exec (.receiveByte b true) s = .next s ∧
      exec (.receiveByte 0xC5 false) s = .next { s with mpt := { s.mpt with assembler := .length, gapTimer := some 50 } }) ∧
    (s.mpt.assembler = .length → 64 < b.toNat →
      exec (.receiveByte b false) s = .next
        { s with mpt := { s.mpt with assembler := .hunt, gapTimer := none, discards := min 65535 (s.mpt.discards + 1) } }) ∧
    (s.mpt.assembler ≠ .hunt →
      exec (.receiveByte b true) s = .next
        { s with mpt := { s.mpt with assembler := .hunt, gapTimer := none, discards := min 65535 (s.mpt.discards + 1) } } ∧
      exec .gapTimerExpiry s = .next
        { s with mpt := { s.mpt with assembler := .hunt, gapTimer := none, discards := min 65535 (s.mpt.discards + 1) } })

/-- While a request is being answered, or another is the oldest, a request command is the arrival of its frame: it loads
the supervision timer and joins the queue, or is counted as discarded when two entries are held.

That a request command stands for the arrival of its frame here is the model's choice (log entry 10). Rests on R189,
R194. -/
def Obligations.RequestWaitsInTheQueue : Prop :=
  ∀ (c : Instr) (k : Byte) (p : List Byte) (s : State), kindOf c = some k → c.payload? = some p → c.wellFormed = true →
    (s.mpt.reply ≠ none ∨ ∃ f l, s.mpt.queue = f :: l ∧ f ≠ ⟨k, p⟩) →
    exec c s = .next
      { s with
        mpt :=
          { s.mpt with
            queue := if s.mpt.queue.length < 2 then s.mpt.queue ++ [⟨k, p⟩] else s.mpt.queue
            discards := if s.mpt.queue.length < 2 then s.mpt.discards else min 65535 (s.mpt.discards + 1)
            supervision := if s.mpt.interval = 0 then none else some s.mpt.interval } }

/-- An unknown kind, and a payload of another length than section 11.4 gives, are refused and change nothing else. Where the
length depends on the payload: SET_ZONE and SET_HOLD carry a ranking of at most four entries after its count, SET_SOURCE has
6 bytes for slot 0 and 22 for slots 1 to 4, and CLEAR_FAULTS has at most 16.

That an empty payload of SET_SOURCE is BAD_LENGTH is a reading of the manual (DEDUCED, log entry 15). Rests on R67,
R82, R83, R148, R183, R190, R191. -/
def Obligations.MalformedRequestIsRefused : Prop :=
  (∀ (k : Byte) (p : List Byte) (s : State), knownKind k = false → s.Takes k p →
    exec (.unknownKindRequest k p) s = .next ((s.taking k p).replying k .unknownKind [])) ∧
  (∀ (c : Instr) (k : Byte) (p : List Byte) (n : Nat) (s : State), kindOf c = some k → c.payload? = some p →
    fixedLength c = some n → p.length ≠ n → s.Takes k p →
    exec c s = .next ((s.taking k p).replying k .badLength [])) ∧
  ∀ (p : List Byte) (s : State),
    (¬ (7 < p.length ∧ byteAt p 7 ≤ 4 ∧ p.length = 8 + byteAt p 7) → s.Takes 0x12 p →
      exec (.setZone p) s = .next ((s.taking 0x12 p).replying 0x12 .badLength [])) ∧
    (¬ (10 < p.length ∧ byteAt p 10 ≤ 4 ∧ p.length = 11 + byteAt p 10) → s.Takes 0x15 p →
      exec (.setHold p) s = .next ((s.taking 0x15 p).replying 0x15 .badLength [])) ∧
    (p = [] ∨ byteAt p 0 = 0 ∧ p.length ≠ 6 ∨ 1 ≤ byteAt p 0 ∧ byteAt p 0 ≤ 4 ∧ p.length ≠ 22 → s.Takes 0x13 p →
      exec (.setSource p) s = .next ((s.taking 0x13 p).replying 0x13 .badLength [])) ∧
    (16 < p.length → s.Takes 0x29 p →
      exec (.clearFaults p) s = .next ((s.taking 0x29 p).replying 0x29 .badLength []))

/-- The eight reads without a payload are answered OK; IDENT answers 520, 1, 64. The five reads with an index answer OK with
the indexed part and refuse an index out of range with BAD_VALUE. No read changes anything but the reply.

Rests on R190, R192. -/
def Obligations.ReadsAnswerAndChangeNothing : Prop :=
  ∀ (s : State) (b x y : Byte),
    (s.Takes 0x01 [] → exec (.ident []) s = .next ((s.taking 0x01 []).replying 0x01 .ok [0x02, 0x08, 0x01, 0x40])) ∧
    (s.Takes 0x02 [] → exec (.status []) s =
      .next ((s.taking 0x02 []).replying 0x02 .ok (statusData (s.taking 0x02 [])))) ∧
    (s.Takes 0x06 [] → exec (.solar []) s =
      .next ((s.taking 0x06 []).replying 0x06 .ok (solarData (s.taking 0x06 [])))) ∧
    (s.Takes 0x07 [] → exec (.hold []) s =
      .next ((s.taking 0x07 []).replying 0x07 .ok (holdData (s.taking 0x07 [])))) ∧
    (s.Takes 0x08 [] → exec (.meters []) s =
      .next ((s.taking 0x08 []).replying 0x08 .ok (metersData (s.taking 0x08 [])))) ∧
    (s.Takes 0x09 [] → exec (.energy []) s =
      .next ((s.taking 0x09 []).replying 0x09 .ok (energyData (s.taking 0x09 [])))) ∧
    (s.Takes 0x0A [] → exec (.faults []) s =
      .next ((s.taking 0x0A []).replying 0x0A .ok (faultsData (s.taking 0x0A [])))) ∧
    (s.Takes 0x0C [] → exec (.outputs []) s =
      .next ((s.taking 0x0C []).replying 0x0C .ok (outputsData (s.taking 0x0C [])))) ∧
    (s.Takes 0x03 [b] → exec (.layers [b]) s = .next
      (if b.toNat ≤ 3 then (s.taking 0x03 [b]).replying 0x03 .ok (layersData b.toNat (s.taking 0x03 [b]))
        else (s.taking 0x03 [b]).replying 0x03 .badValue [])) ∧
    (s.Takes 0x04 [b] → exec (.zones [b]) s = .next
      (if b = 0 then (s.taking 0x04 [b]).replying 0x04 .ok (zonesData .top (s.taking 0x04 [b]))
        else if b = 1 then (s.taking 0x04 [b]).replying 0x04 .ok (zonesData .mid (s.taking 0x04 [b]))
        else if b = 2 then (s.taking 0x04 [b]).replying 0x04 .ok (zonesData .low (s.taking 0x04 [b]))
        else (s.taking 0x04 [b]).replying 0x04 .badValue [])) ∧
    (s.Takes 0x05 [b] → exec (.source [b]) s = .next
      (if b = 0 then (s.taking 0x05 [b]).replying 0x05 .ok (sourceData none (s.taking 0x05 [b]))
        else if b = 1 then (s.taking 0x05 [b]).replying 0x05 .ok (sourceData (some .s1) (s.taking 0x05 [b]))
        else if b = 2 then (s.taking 0x05 [b]).replying 0x05 .ok (sourceData (some .s2) (s.taking 0x05 [b]))
        else if b = 3 then (s.taking 0x05 [b]).replying 0x05 .ok (sourceData (some .s3) (s.taking 0x05 [b]))
        else if b = 4 then (s.taking 0x05 [b]).replying 0x05 .ok (sourceData (some .s4) (s.taking 0x05 [b]))
        else (s.taking 0x05 [b]).replying 0x05 .badValue [])) ∧
    (s.Takes 0x0B [b] → exec (.probes [b]) s = .next
      (if b.toNat ≤ 1 then (s.taking 0x0B [b]).replying 0x0B .ok (probesData b.toNat (s.taking 0x0B [b]))
        else (s.taking 0x0B [b]).replying 0x0B .badValue [])) ∧
    (s.Takes 0x0D [x, y] → exec (.config [x, y]) s = .next
      (match configData x.toNat y.toNat (s.taking 0x0D [x, y]) with
        | some d => (s.taking 0x0D [x, y]).replying 0x0D .ok d
        | none => (s.taking 0x0D [x, y]).replying 0x0D .badValue []) ∧
      ((configData x.toNat y.toNat (s.taking 0x0D [x, y])).isNone ↔
        9 < x.toNat ∨ (x ≠ 1 ∧ x ≠ 2 ∧ y ≠ 0) ∨ (x = 1 ∧ 2 < y.toNat) ∨ (x = 2 ∧ 4 < y.toNat)))

/-- The cylinder, solar loop, hold stepper and link settings as CONFIG reads them, sent back unchanged, are taken OK and
change no setting.

Rests on R2, R131, R148, R192, R194. -/
def Obligations.SettingsReadBackAreTakenAsSent : Prop :=
  ∀ s : State, s.settingsOk →
    (∀ p, configData 0 0 s = some p → s.Takes 0x10 p → ∃ t, exec (.setCylinder p) s = .next t ∧
      t.mpt.reply = some (replyFrame 0x10 .ok p) ∧ t.settings = s.settings) ∧
    (∀ p, configData 3 0 s = some p → s.Takes 0x14 p → ∃ t, exec (.setSolar p) s = .next t ∧
      t.mpt.reply = some (replyFrame 0x14 .ok p) ∧ t.settings = s.settings) ∧
    (∀ p, configData 4 0 s = some p → s.Takes 0x15 p → ∃ t, exec (.setHold p) s = .next t ∧
      t.mpt.reply = some (replyFrame 0x15 .ok p) ∧ t.settings = s.settings) ∧
    (∀ d, configData 9 0 s = some d → s.Takes 0x1B (d.take 2) → ∃ t, exec (.setLink (d.take 2)) s = .next t ∧
      t.mpt.reply = some (replyFrame 0x1B .ok (d.take 2)) ∧ t.settings = s.settings)

/-- SET_LINK: 0 stops the timer, 1..9 becomes 10 and more than 600 becomes 600 with CLAMPED, and the timer is loaded with
the value taken. LOCK_LIMITS is taken in every state: the lock is set, and the reply carries the five values.

Rests on R193, R194. -/
def Obligations.LinkAndLockRequestsAreTaken : Prop :=
  (∀ (s : State) (p : List Byte), p.length = 2 → s.Takes 0x1B p →
    let u := s.taking 0x1B p
    let w := wordAt p 0
    let v := if w = 0 then 0 else if w < 10 then 10 else if 600 < w then 600 else w
    exec (.setLink p) s = .next
      (({ u with mpt := { u.mpt with interval := v, supervision := if v = 0 then none else some v } } : State).replying
        0x1B (if v = w then .ok else .clamped) (wordOf v))) ∧
  ∀ s : State, s.Takes 0x2A [] →
    let u := s.taking 0x2A []
    exec (.lockLimits []) s = .next
      (({ u with mpt := { u.mpt with lock := true } } : State).replying 0x2A .ok
        (wordOf s.scu.hardMax ++ wordOf s.slc.settings.solarMax ++ wordOf s.slc.settings.collectorMax ++
          wordOf s.ths.settings.temp ++ byteOf s.ths.settings.dwell))

/-- LINK_LAPSE: the timer stops, LINK_LAPSE is reported, every line returns to AUTO, every boost is cancelled and the
surplus figure becomes 0.

That the expiry is taken whatever count its timer shows is a reading of the manual (DEDUCED, log entry 8), and the
order of its parts is the model's choice (log entry 37). Rests on R173, R77, R104, R194. -/
def Obligations.LinkLapseReturnsTheBlockToItself : Prop :=
  ∀ (s : State) (r : Nat), s.mpt.supervision = some r →
    ∃ t, exec .linkLapse s = .next t ∧ t.mpt = { s.mpt with supervision := none } ∧
      (t.flt.kindRec .linkLapse).status = true ∧ (∀ i : Fin 8, t.olu[i].mode = .auto) ∧ (∀ z, (t.zone z).boost = none) ∧
      t.scu.surplus = 0 ∧ t.scu.surplusTimer = none ∧ t.pfe = s.pfe ∧ t.pins.confirm = s.pins.confirm ∧
      t.settings = s.settings

/-- RESTART is answered OK before the restart takes effect, and another code than 0 and 1 is refused. REPLY_SENT with no
restart due: the answered entry leaves the queue, and nothing else changes.

That the end of a reply leaves a second entry in the queue until its request command comes is the model's choice
(log entry 10). Rests on R189, R195. -/
def Obligations.RepliesEndAndRestartsFollow : Prop :=
  ∀ (s : State) (b : Byte) (r : List Byte),
    (s.Takes 0x2B [b] →
      let u := s.taking 0x2B [b]
      exec (.restart [b]) s = .next
        (if b = 0 then ({ u with mpt := { u.mpt with restartDue := some .warm } } : State).replying 0x2B .ok []
          else if b = 1 then ({ u with mpt := { u.mpt with restartDue := some .cold } } : State).replying 0x2B .ok []
          else u.replying 0x2B .badValue [])) ∧
    (s.mpt.reply = some r → s.mpt.restartDue = none →
      exec .replySent s = .next { s with mpt := { s.mpt with reply := none, queue := s.mpt.queue.drop 1 } })

/-- A warm restart. The port is emptied, its discard counter, interval and lock kept. Services and hold claim are released:
a zone whose demand is not raised afresh has an IDLE service. A slot that no service has taken afresh stands in the state of
R108, with class, settings and failure count kept. The lines keep their functions and rest in AUTO, and the alert relay
takes up the alert condition. The loop is off, the step abandoned. Settings, layer table, probes, totals, the stepper's
books and the fault history are kept.

Messages on their way are dropped, and the order of the blocks is the model's choice (log entries 11 and 30). Rests
on R15, R64, R78, R108, R127, R145, R163, R175, R177, R184, R196. -/
def Obligations.WarmRestartKeepsWhatItMust : Prop :=
  ∀ (s : State) (r : List Byte), s.mpt.reply = some r → s.mpt.restartDue = some .warm →
    ∃ t, exec .replySent s = .next t ∧ t.settings = s.settings ∧ t.pending = s.pending ∧
      t.mpt =
        { s.mpt with
          assembler := .hunt, gapTimer := none, queue := [], reply := none, restartDue := none
          supervision := if s.mpt.interval = 0 then none else some s.mpt.interval } ∧
      t.clm = { s.clm with period := 10 } ∧ t.pfe = s.pfe ∧
      t.fmu =
        { s.fmu with
          draw :=
            { s.fmu.draw with
              count := 0, saturated := false, gateLength := s.fmu.draw.gate, gateLeft := s.fmu.draw.gate }
          loop :=
            { s.fmu.loop with
              count := 0, saturated := false, gateLength := s.fmu.loop.gate, gateLeft := s.fmu.loop.gate }
          zeroGates := 0, heatRate := 0 } ∧
      (∀ z, t.zone z =
        { s.zone z with
          boost := none
          demand :=
            (s.zoneMinimum z).any fun m =>
              decide ((s.zone z).target ≠ 0 ∧ m < (s.zone z).target - (s.zone z).hysteresis)
          urgent :=
            (s.zoneMinimum z).any fun m =>
              decide (0 < (s.zone z).target ∧
                m < (s.zone z).target - (s.zone z).hysteresis - (s.zone z).urgentMargin) }) ∧
      (∀ z, if (t.zone z).demand = true then
          t.service z = .waiting ∨ ∃ n, t.service z = .serving n ∧ (s.slot n).cls.heating = true ∧
            ((s.slot n).state = .cold ∨ ∃ w, (s.slot n).state = .warm w)
        else t.service z = .idle) ∧
      (t.sar.claim = .none ∧ t.sar.answers = []) ∧
      (∀ n, (∀ z, t.service z ≠ .serving n) → t.slot n =
        { s.slot n with
          state :=
            match (s.slot n).state with
            | .starting _ _ _ _ | .running _ _ | .overrun _ _ false => .hold (s.slot n).settings.minOff
            | .overrun _ _ true => .disabled
            | .diverting => .idle
            | x => x }) ∧
      t.scu = { s.scu with surplus := 0, surplusTimer := none, slots := t.scu.slots } ∧
      t.slc = { s.slc with speed := 0, state := if s.slc.state = .disabled then .disabled else .off } ∧
      t.ths =
        { s.ths with
          step := .idle, pendingFlag := false, fullPass := false, minuteLeft := 60, messages := []
          interval := if s.ths.settings.enable = true then some s.ths.settings.interval else none } ∧
      t.flt = s.flt ∧ t.pins = s.pins ∧
      ∀ i : Fin 8,
        let rests := decide (i.val < 6) && decide (s.olu[i].recoveryTime ≠ 0)
        let off : Line :=
          { s.olu[i] with
            mode := .auto, auto := 0, output := 0, deferred := false
            recovery := if rests then some s.olu[i].recoveryTime else none }
        (t.olu[i].function = s.olu[i].function ∧ t.olu[i].recoveryTime = s.olu[i].recoveryTime ∧ t.olu[i].mode = .auto) ∧
          match s.olu[i].function with
          | .sourceCall n | .sourcePump n => (∀ z, t.service z ≠ .serving n) → t.olu[i] = off
          | .alertRelay =>
            (s.flt.relayCondition = false → t.olu[i] = off) ∧
              (s.flt.relayCondition = true → s.carrier .alertRelay = some i →
                t.olu[i] = { off with auto := 100, output := if rests then 0 else 100, deferred := rests })
          | .noFunction | .diverterDrive _ | .solarPump => t.olu[i] = off

/-- A cold restart: every setting takes its default, but for the locked ones; the model is UNSEEDED with its temperatures and
hold fields kept and its counters at 0; the channel records are kept but for their trims, under the default map; meters,
zones, slots, services, stepper and lines stand as at power-on; uptime, fault statuses, counts and subjects, discard counter
and lock are kept, with masks and severities at their defaults. A FAULTED channel of the default TOP_LIMIT gives its lost
indication.

Messages on their way are dropped by the model's choice (log entry 11), and the indication of the default map is a
reading of the manual (DEDUCED, log entry 31). Rests on R15, R33, R35, R40, R64, R65, R67, R83, R109, R112, R121,
R130, R145, R147, R152, R165, R175, R177, R179, R180, R184, R193, R196. -/
def Obligations.ColdRestartKeepsWhatItMust : Prop :=
  ∀ (s : State) (r : List Byte), s.mpt.reply = some r → s.mpt.restartDue = some .cold →
    let lost := s.pfe.channels[2].isFaulted
    ∃ t, exec .replySent s = .next t ∧ t.pending = s.pending ∧
      t.mpt =
        { s.mpt with
          assembler := .hunt, gapTimer := none, queue := [], reply := none, restartDue := none, interval := 0
          supervision := none } ∧
      t.clm = { State.reset.clm with layers := t.clm.layers } ∧
      (∀ i : Fin 16, t.clm.layers[i] =
        { s.clm.layers[i] with residue := 0, anchor := State.reset.clm.layers[i].anchor }) ∧
      (t.pfe.map = ProbeMap.default ∧ t.pfe.scanNext = s.pfe.scanNext ∧
        ∀ c : Fin 12, t.pfe.channels[c] = { s.pfe.channels[c] with trim := 0 }) ∧
      t.fmu = State.reset.fmu ∧ t.zdu = State.reset.zdu ∧ t.sar = State.reset.sar ∧
      t.scu =
        { State.reset.scu with
          hardMax := if s.mpt.lock then s.scu.hardMax else 900
          latch := if lost then .probeLost else .clear
          confirmLevel := s.pins.confirm } ∧
      t.slc =
        { State.reset.slc with
          settings :=
            { State.reset.slc.settings with
              solarMax := if s.mpt.lock then s.slc.settings.solarMax else 800
              collectorMax := if s.mpt.lock then s.slc.settings.collectorMax else 1200 } } ∧
      t.ths =
        { State.reset.ths with
          settings :=
            { State.reset.ths.settings with
              temp := if s.mpt.lock then s.ths.settings.temp else 600
              dwell := if s.mpt.lock then s.ths.settings.dwell else 20 } } ∧
      (∀ i : Fin 8, t.olu[i] = ⟨.noFunction, .auto, 0, 0, 5, if i.val < 6 then some 5 else none, false⟩) ∧
      (∀ k, t.flt.kindRec k =
        { s.flt.kindRec k with
          masked := false
          trip := decide (k = .topProbeLost ∨ k = .cylinderOvertemp ∨ k = .sourceTripped)
          status := (s.flt.kindRec k).status || (lost && decide (k = .topProbeLost))
          count :=
            if lost = true ∧ k = .topProbeLost then min 255 ((s.flt.kindRec k).count + 1) else (s.flt.kindRec k).count
          lastSubject := if lost = true ∧ k = .topProbeLost then .channel 2 else (s.flt.kindRec k).lastSubject }) ∧
      t.flt.first =
        (if lost = true ∧ s.flt.first = none then some ⟨.topProbeLost, .channel 2, s.flt.uptime⟩ else s.flt.first) ∧
      t.flt.uptime = s.flt.uptime ∧ t.pins.alertLow = t.flt.pinCondition ∧ t.pins.confirm = s.pins.confirm

/-! ### Setting requests -/

/-- SET_CYLINDER: with the volume unchanged the other settings are taken; a volume change is refused whole with BUSY while
a slot or the loop is in use, and otherwise it is taken and the model is UNSEEDED with its temperatures kept (what blocks it is the first part).

Rests on R1, R2, R8. -/
def Obligations.SetCylinderIsJudgedByTheVolume : Prop :=
  (∀ s : State, s.volumeBlocked = true ↔ (∃ n, (s.slot n).state.atRest = false) ∨ s.slc.state.circulates = true) ∧
  ∀ (s : State) (p : List Byte), p.length = 10 → s.Takes 0x10 p →
    let u := s.taking 0x10 p
    let v := max 64 (min 512 (wordAt p 0 / 16 * 16))
    let c : Clm :=
      { u.clm with
        volume := v
        uaTenths := max 5 (min 50 (byteAt p 2))
        mainsDefault := max 0 (min 300 (signedWordAt p 3))
        ambientDefault := max (-100) (min 400 (signedWordAt p 5))
        usableThreshold := max 300 (min 600 (signedWordAt p 7))
        anchorWeight := max 0 (min 3 (byteAt p 9)) }
    let code : ResultCode :=
      if c.figures = (wordAt p 0, byteAt p 2, signedWordAt p 3, signedWordAt p 5, signedWordAt p 7, byteAt p 9) then .ok
      else .clamped
    if v = s.clm.volume then exec (.setCylinder p) s = .next (({ u with clm := c } : State).replying 0x10 code (cylinderBytes c))
    else if s.volumeBlocked = true then
      exec (.setCylinder p) s = .next (u.replying 0x10 .busy [])
    else
      ∃ t, exec (.setCylinder p) s = .next t ∧ t.mpt.reply = some (replyFrame 0x10 code (cylinderBytes c)) ∧
        t.clm.figures = c.figures ∧ t.clm.model = .unseeded ∧ t.clm.usable = 0 ∧ t.clm.storedKj = 0 ∧
        (∀ i : Fin 16, t.temp i = s.temp i ∧ t.clm.layers[i].residue = 0) ∧
        (∀ k : Fin 12, t.clm.scanned[k] = false) ∧ (∀ z, (t.zone z).demand = false) ∧ t.pfe = s.pfe ∧ t.flt = s.flt

/-- SET_ZONE_BOUNDS: boundaries out of order are refused, then a service in progress is BUSY, and otherwise they are taken
and the rankings of MID and LOW lose the slots whose coil lies above the zone.

Rests on R66, R68. -/
def Obligations.SetZoneBoundsIsJudgedInOrder : Prop :=
  ∀ (s : State) (x y : Byte), s.Takes 0x11 [x, y] →
    let u := s.taking 0x11 [x, y]
    if x.toNat < 1 ∨ 15 < y.toNat ∨ ¬ x.toNat < y.toNat then
      exec (.setZoneBounds [x, y]) s = .next (u.replying 0x11 .badValue [])
    else if (s.service .top).inProgress || (s.service .mid).inProgress || (s.service .low).inProgress then
      exec (.setZoneBounds [x, y]) s = .next (u.replying 0x11 .busy [])
    else
      ∃ t data, exec (.setZoneBounds [x, y]) s = .next ((({ u with zdu := t } : State)).replying 0x11 .ok data) ∧
        t.b1.val = x.toNat ∧ t.b2.val = y.toNat ∧ t.zones.top = s.zdu.zones.top ∧
        t.zones.mid =
          { s.zdu.zones.mid with
            ranking := s.zdu.zones.mid.ranking.filter fun n =>
              (s.slot n).cls.heating && decide ((s.slot n).settings.coilLow.val ≤ y.toNat - 1) } ∧
        t.zones.low =
          { s.zdu.zones.low with
            ranking := s.zdu.zones.low.ranking.filter fun n =>
              (s.slot n).cls.heating && decide ((s.slot n).settings.coilLow.val ≤ x.toNat - 1) } ∧
        data = byteOf x.toNat ++ byteOf y.toNat ++ rankingOf t.zones.top.ranking ++ rankingOf t.zones.mid.ranking ++
          rankingOf t.zones.low.ranking

/-- SET_ZONE: an unknown zone, or a ranking that fails R68, is refused whole; otherwise the settings are taken, clamped,
with the ranking, the zone is judged against its minimum, and the other zones stand.

Rests on R67 to R69, R71 to R74. -/
def Obligations.SetZoneIsTakenWholeOrNotAtAll : Prop :=
  ∀ (s : State) (p : List Byte), rankingLength p 7 = true → s.Takes 0x12 p →
    let u := s.taking 0x12 p
    match zoneOfCode (byteAt p 0), rankingAt p 7 with
    | some z, some r =>
      if r.Nodup ∧ ∀ n ∈ r, (s.slot n).cls.heating = true ∧ (s.slot n).settings.coilLow.val ≤ s.zdu.topLayer z then
        ∃ t code, exec (.setZone p) s = .next t ∧
          (t.zone z).target =
            (if signedWordAt p 1 ≤ 0 then 0 else max 300 (min 750 (signedWordAt p 1))) ∧
          (t.zone z).hysteresis = max 10 (min 150 (signedWordAt p 3)) ∧
          (t.zone z).urgentMargin = max 0 (min 200 (signedWordAt p 5)) ∧ (t.zone z).ranking = r ∧
          (code = ResultCode.ok ↔ (t.zone z).figures = (signedWordAt p 1, signedWordAt p 3, signedWordAt p 5)) ∧
          (code = .ok ∨ code = .clamped) ∧ t.mpt.reply = some (replyFrame 0x12 code (zoneBytes z (t.zone z))) ∧
          (s.zoneMinimum z = none → (t.zone z).demand = false ∧ (t.zone z).urgent = false) ∧
          (∀ m, s.zoneMinimum z = some m → (s.zone z).boost = none →
            let target := (t.zone z).target
            let low := target - (t.zone z).hysteresis
            (t.zone z).demand =
              (if target = 0 then false else if m < low then true else if target ≤ m then false else (s.zone z).demand) ∧
            ((t.zone z).urgent = true ↔ 0 < target ∧ m < low - (t.zone z).urgentMargin)) ∧
          (∀ y, y ≠ z → (t.zone y) = s.zone y) ∧ t.clm = s.clm ∧ t.pfe = s.pfe
      else exec (.setZone p) s = .next (u.replying 0x12 .badValue [])
    | _, _ => exec (.setZone p) s = .next (u.replying 0x12 .badValue [])

/-- SET_SOURCE for slots 1 to 4. BAD_VALUE: a slot number above 4, an unknown class, a coil layer above 15 or out of order,
an unknown confirm code, a confirm input on a class that takes none or one that another slot names, and a class that the
lines do not allow. Of a record that passes, BUSY unless the slot is DISABLED or only the ceiling differs. A DISABLED slot
takes class and settings, class defaults resolved and values clamped, stays DISABLED with its failure count, and leaves the
rankings it may no longer stand in; a slot in another state takes the ceiling, a diverter with an evaluation of its own. The
reply is OK exactly when no value was clamped; all else is kept.

That a slot number above 4 is BAD_VALUE whatever the length, and class code 5 in slots 1 to 4, are readings of the
manual (DEDUCED, log entries 15 and 24). Rests on R70, R80 to R83, R85, R102. -/
def Obligations.SetSourceConfiguresADisabledSlot : Prop :=
  (∀ (s : State) (p : List Byte), 4 < byteAt p 0 → s.Takes 0x13 p →
    exec (.setSource p) s = .next ((s.taking 0x13 p).replying 0x13 .badValue [])) ∧
  (∀ (s : State) (p : List Byte) (n : SlotId), p.length = 22 → byteAt p 0 = slotNumber n → s.Takes 0x13 p →
    4 < byteAt p 1 ∨ 15 < byteAt p 2 ∨ 15 < byteAt p 3 ∨ byteAt p 3 < byteAt p 2 ∨
      3 < byteAt p 19 ∧ byteAt p 19 < 0xFE ∨ byteAt p 19 ≤ 3 ∧ byteAt p 1 ≠ 1 ∧ byteAt p 1 ≠ 2 ∨
      (∃ m i, m ≠ n ∧ (s.slot m).settings.confirm = some i ∧ byteAt p 19 = i.val) ∨
      s.carrier (.sourceCall n) ≠ none ∧ (byteAt p 1 = 0 ∨ byteAt p 1 = 4) ∨
      s.carrier (.diverterDrive n) ≠ none ∧ byteAt p 1 ≠ 4 →
    exec (.setSource p) s = .next ((s.taking 0x13 p).replying 0x13 .badValue [])) ∧
  ∀ (s : State) (p : List Byte) (n : SlotId) (cls : SlotClass) (lo hi : Fin 16) (c : Option (Fin 4)), p.length = 22 →
    byteAt p 0 = slotNumber n → classOfCode (byteAt p 1) = some cls → byteAt p 2 = lo.val → byteAt p 3 = hi.val →
    lo ≤ hi → confirmAsked cls (byteAt p 19) = some c →
    (∀ i, c = some i → (cls = .heatPump ∨ cls = .boiler) ∧ ∀ m, m ≠ n → (s.slot m).settings.confirm ≠ some i) →
    (cls.heating = false → s.carrier (.sourceCall n) = none) →
    (cls ≠ .diverter → s.carrier (.diverterDrive n) = none) → s.Takes 0x13 p →
    let u := s.taking 0x13 p
    let old := s.slot n
    let x := settingsAsked cls lo hi c p
    let d := cls.defaults
    let code : ResultCode :=
      if x.rate = wordAt p 4 ∧ x.ceiling = ceilingAsked cls p ∧ x.minRun = wordOrDefault p 8 d.minRun ∧
          x.minOff = wordOrDefault p 10 d.minOff ∧ x.startDwell = wordOrDefault p 12 d.startDwell ∧
          x.coldExtra = wordOrDefault p 14 d.coldExtra ∧ x.warmTime = warmAsked cls p ∧
          x.overrun = wordOrDefault p 17 d.overrun ∧ x.confirmWindow = wordOrDefault p 20 d.confirmWindow then .ok
      else .clamped
    let same := cls = old.cls ∧ { x with ceiling := old.settings.ceiling } = old.settings
    let new : Slot := { old with cls := cls, settings := x, rearm := decide (cls = old.cls) && old.rearm }
    (old.state ≠ .disabled → ¬ same → exec (.setSource p) s = .next (u.replying 0x13 .busy [])) ∧
    (old.state = .disabled →
      ∃ zdu : Zdu, exec (.setSource p) s =
          .next (({ u.setSlot n new with zdu := zdu } : State).replying 0x13 code (slotBytes n new)) ∧
        zdu.b1 = s.zdu.b1 ∧ zdu.b2 = s.zdu.b2 ∧
        ∀ z, zdu.zones.get z =
          { s.zone z with
            ranking :=
              if (cls ≠ old.cls ∨ lo ≠ old.settings.coilLow ∨ hi ≠ old.settings.coilHigh) ∧
                  ¬ (cls.heating = true ∧ lo.val ≤ s.zdu.topLayer z) then
                (s.zone z).ranking.filter fun m => decide (m ≠ n)
              else (s.zone z).ranking }) ∧
    (old.state ≠ .disabled → same → cls ≠ .diverter →
      exec (.setSource p) s = .next ((u.setSlot n new).replying 0x13 code (slotBytes n new))) ∧
    (old.state ≠ .disabled → same → cls = .diverter →
      ∃ t : State, exec (.setSource p) s = .next (t.replying 0x13 code (slotBytes n new)) ∧ (t.slot n).settings = x ∧
        (t.slot n).cls = .diverter ∧ (∀ m, m ≠ n → t.slot m = s.slot m) ∧
        (∀ i : Fin 8, s.olu[i].function ≠ .diverterDrive n → t.olu[i] = s.olu[i]) ∧
        t = { u with scu := { u.scu with slots := t.scu.slots }, olu := t.olu })

/-- SET_SOURCE for slot 0: a coil layer above 15 or out of order is BAD_VALUE, a locked hard maximum LOCKED, a coil change
while the loop circulates BUSY; otherwise the values are taken, clamped, and the solar maximum is lowered to 50 dd below the
hard maximum.

Rests on R83. -/
def Obligations.SetSourceOfSlotZeroIsJudgedInOrder : Prop :=
  (∀ (s : State) (p : List Byte), p.length = 6 → byteAt p 0 = 0 → 15 < byteAt p 1 ∨ 15 < byteAt p 2 → s.Takes 0x13 p →
    exec (.setSource p) s = .next ((s.taking 0x13 p).replying 0x13 .badValue [])) ∧
  ∀ (s : State) (p : List Byte) (lo hi : Fin 16), p.length = 6 → byteAt p 0 = 0 → byteAt p 1 = lo.val →
    byteAt p 2 = hi.val → s.Takes 0x13 p →
    let u := s.taking 0x13 p
    let h := max 750 (min 950 (signedWordAt p 3))
    let time := max 5 (min 120 (byteAt p 5))
    if hi < lo then exec (.setSource p) s = .next (u.replying 0x13 .badValue [])
    else if s.mpt.lock = true ∧ h ≠ s.scu.hardMax then exec (.setSource p) s = .next (u.replying 0x13 .locked [])
    else if (lo ≠ s.scu.coil0Low ∨ hi ≠ s.scu.coil0High) ∧ s.slc.state.circulates = true then
      exec (.setSource p) s = .next (u.replying 0x13 .busy [])
    else
      exec (.setSource p) s = .next
        (({ u with
            scu := { u.scu with coil0Low := lo, coil0High := hi, hardMax := h, surplusTimeout := time }
            slc :=
              { u.slc with
                settings := { u.slc.settings with solarMax := min u.slc.settings.solarMax (h - 50) } } } : State).replying 0x13
          (if h = signedWordAt p 3 ∧ time = byteAt p 5 ∧ s.slc.settings.solarMax ≤ h - 50 then .ok else .clamped)
          (byteOf 0 ++ byteOf lo.val ++ byteOf hi.val ++ wordOf h ++ byteOf time))

/-- SET_SOLAR: a code other than off and on is BAD_VALUE, a changed locked maximum LOCKED; otherwise the eleven values are
taken, each clamped in order, and nothing else changes.

Rests on R131. -/
def Obligations.SetSolarIsJudgedInOrder : Prop :=
  ∀ (s : State) (p : List Byte), p.length = 18 → s.Takes 0x14 p →
    let u := s.taking 0x14 p
    let on := max 20 (min 200 (signedWordAt p 0))
    let x (cooldown : Bool) : SolarSettings :=
      { onDiff := on
        offDiff := max 10 (min (on - 10) (signedWordAt p 2))
        minSpeed := max 10 (min 100 (byteAt p 4))
        gain := max 0 (min 20 (byteAt p 5))
        solarMax := max 600 (min (s.scu.hardMax - 50) (signedWordAt p 6))
        collectorMax := max 1000 (min 1400 (signedWordAt p 8))
        frost := max (-100) (min 100 (signedWordAt p 10))
        cooldownEnable := cooldown
        cooldownDiff := max 50 (min 300 (signedWordAt p 13)) }
    let holdoff := max 0 (min 120 (byteAt p 15))
    let threshold := max 0 (min 5000 (wordAt p 16))
    if 1 < byteAt p 12 then exec (.setSolar p) s = .next (u.replying 0x14 .badValue [])
    else if s.mpt.lock = true ∧
        ((x true).solarMax ≠ s.slc.settings.solarMax ∨ (x true).collectorMax ≠ s.slc.settings.collectorMax) then
      exec (.setSolar p) s = .next (u.replying 0x14 .locked [])
    else
      exec (.setSolar p) s = .next
        (({ u with
            slc := { u.slc with settings := x (decide (byteAt p 12 = 1)) }
            sar := { u.sar with holdoffTime := holdoff, threshold := threshold } } : State).replying 0x14
          (if x true =
                ⟨signedWordAt p 0, signedWordAt p 2, byteAt p 4, byteAt p 5, signedWordAt p 6, signedWordAt p 8,
                  signedWordAt p 10, true, signedWordAt p 13⟩ ∧ holdoff = byteAt p 15 ∧ threshold = wordAt p 16 then .ok
            else .clamped)
          (solarBytes { u.slc with settings := x (decide (byteAt p 12 = 1)) }
            { u.sar with holdoffTime := holdoff, threshold := threshold }))

/-- SET_HOLD: a structure out of bounds is BAD_VALUE, a changed locked value LOCKED; otherwise the eight settings are
taken, clamped; a pointer below a new base becomes 15, and a change of enable, period, width or base reloads the
interval timer.

Rests on R148, R151, R152, R161. -/
def Obligations.SetHoldIsJudgedInOrder : Prop :=
  ∀ (s : State) (p : List Byte), rankingLength p 10 = true → s.Takes 0x15 p →
    let u := s.taking 0x15 p
    match widthOfNumber (byteAt p 6), rankingAt p 10 with
    | some w, some r =>
      let h : HoldSettings :=
        { enable := decide (byteAt p 0 = 1)
          temp := max 550 (min 700 (signedWordAt p 1))
          dwell := max 2 (min 60 (byteAt p 3))
          period := max 24 (min 336 (wordAt p 4))
          width := w
          base := Fin.ofNat 16 (min 15 (byteAt p 7))
          timeout := max 30 (min 480 (wordAt p 8))
          ranking := r }
      if 1 < byteAt p 0 ∨ ¬ r.Nodup then exec (.setHold p) s = .next (u.replying 0x15 .badValue [])
      else if s.mpt.lock = true ∧ (h.temp ≠ s.ths.settings.temp ∨ h.dwell ≠ s.ths.settings.dwell) then
        exec (.setHold p) s = .next (u.replying 0x15 .locked [])
      else
        ∃ t code, exec (.setHold p) s = .next (({ u with ths := t } : State).replying 0x15 code (holdBytes h)) ∧
          (code = ResultCode.ok ∨ code = .clamped) ∧ t.settings = h ∧
          t.pointer = (if h.base ≠ s.ths.settings.base ∧ s.ths.pointer < h.base then 15 else s.ths.pointer) ∧
          t.interval =
            (if h.enable = false then none
              else if s.ths.settings.enable = false ∨ h.period ≠ s.ths.settings.period ∨ h.width ≠ s.ths.settings.width ∨
                h.base ≠ s.ths.settings.base then some h.interval
              else s.ths.interval) ∧
          t.step = s.ths.step ∧ t.hourCount = s.ths.hourCount ∧ t.passes = s.ths.passes
    | _, _ => exec (.setHold p) s = .next (u.replying 0x15 .badValue [])

/-- SET_PROBE_MAP. BAD_VALUE: a channel above 11 that is not the code of none, a layer above 15, a channel in two roles, a
layer under two anchors that name a channel, COLLECTOR or LOOP_FLOW on another channel than 0 and 1. Any other map replaces
the old one whole and is echoed, and the anchor fields of the layers are rewritten from it. A map whose TOP_LIMIT names no
channel or a FAULTED one sets the latch to PROBE_LOST, with a report of TOP_PROBE_LOST unless it stood there; nothing else
changes under any other map.

Rests on R5, R40 to R42, R47, R105. -/
def Obligations.SetProbeMapReplacesTheMapWhole : Prop :=
  ∀ (s : State) (p : List Byte), p.length = 18 → s.Takes 0x16 p →
    let u := s.taking 0x16 p
    let code (r : Role) : Nat :=
      byteAt p
        (match r with
          | .anchor a => a.val
          | .collector => 6
          | .loopFlow => 7
          | .loopReturn => 8
          | .mains => 9
          | .ambient => 10
          | .topLimit => 11)
    let layer (a : Fin 6) : Nat := byteAt p (12 + a.val)
    let named (r : Role) : Prop := code r ≠ 0xFF
    let bad : Prop :=
      (∃ r, named r ∧ 11 < code r) ∨ (∃ a, 15 < layer a) ∨ (∃ q r, q ≠ r ∧ named q ∧ code q = code r) ∨
        (∃ a b, a ≠ b ∧ named (.anchor a) ∧ named (.anchor b) ∧ layer a = layer b) ∨
        (named .collector ∧ 1 < code .collector) ∨ (named .loopFlow ∧ 1 < code .loopFlow)
    (bad → exec (.setProbeMap p) s = .next (u.replying 0x16 .badValue [])) ∧
    (¬ bad →
      ∃ (m : ProbeMap) (l : Vector Layer 16),
        (∀ r, (m.channelOf r).map Fin.val = if code r = 0xFF then none else some (code r)) ∧
        (∀ a : Fin 6, m.layer[a].val = layer a) ∧
        (∀ k : Fin 16, l[k] = { s.clm.layers[k] with anchor := l[k].anchor } ∧
          ∀ a, l[k].anchor = some a ↔ named (.anchor a) ∧ layer a = k.val) ∧
        let mapped : State := { u with pfe := { u.pfe with map := m }, clm := { u.clm with layers := l } }
        let lost : Prop := ∀ c, m.channelOf .topLimit = some c → s.pfe.channels[c].isFaulted = true
        (¬ lost → exec (.setProbeMap p) s = .next (mapped.replying 0x16 .ok p)) ∧
        (lost →
          ∃ t : State, exec (.setProbeMap p) s = .next (t.replying 0x16 .ok p) ∧ t.pfe = mapped.pfe ∧
            t.clm = mapped.clm ∧ t.mpt = u.mpt ∧ t.scu.latch = .probeLost ∧
            (s.scu.latch = .probeLost → t = mapped) ∧
            (s.scu.latch ≠ .probeLost → t.flt.kindRec .topProbeLost =
              s.reported .topProbeLost
                (match m.channelOf .topLimit with
                  | some c => .channel c
                  | none => .none))))

/-- SET_PROBE_TRIM: the trim of one channel is taken, clamped to −20..20, and nothing else changes. SET_METER: the settings
of one meter are taken, clamped; DRAW made absent clears the pending volume, LOOP made absent the zero-gate count; counts
and totals stand.

That a meter number above 1 is BAD_VALUE whatever the length is a reading of the manual (DEDUCED, log entry 15).
Rests on R33, R52. -/
def Obligations.TrimsAndMetersAreTakenAlone : Prop :=
  (∀ (s : State) (x y : Byte), s.Takes 0x17 [x, y] →
    let u := s.taking 0x17 [x, y]
    let v := max (-20) (min 20 y.toInt)
    (∀ h : x.toNat < 12, exec (.setProbeTrim [x, y]) s = .next
      (({ u with
          pfe :=
            { u.pfe with
              channels := u.pfe.channels.set x.toNat { u.pfe.channels[x.toNat] with trim := v } } } : State).replying 0x17
        (if v = y.toInt then .ok else .clamped) (byteOf x.toNat ++ byteOf v))) ∧
    (12 ≤ x.toNat → exec (.setProbeTrim [x, y]) s = .next (u.replying 0x17 .badValue []))) ∧
  ∀ (s : State) (p : List Byte), s.Takes 0x18 p →
    let u := s.taking 0x18 p
    let ml := max 0 (min 1000 (wordAt p 1))
    let gate := max 1 (min 60 (byteAt p 3))
    let nominal := max 0 (min 20000 (wordAt p 4))
    (byteAt p 0 = 0 → p.length = 4 → exec (.setMeter p) s = .next
      (({ u with
          fmu :=
            { u.fmu with
              draw := { u.fmu.draw with mlPerPulse := ml, gate := gate }
              pendingVolume :=
                if ml = 0 ∧ s.fmu.draw.mlPerPulse ≠ 0 then 0 else s.fmu.pendingVolume } } : State).replying 0x18
        (if ml = wordAt p 1 ∧ gate = byteAt p 3 then .ok else .clamped) (byteOf 0 ++ wordOf ml ++ byteOf gate))) ∧
    (byteAt p 0 = 1 → p.length = 6 → exec (.setMeter p) s = .next
      (({ u with
          fmu :=
            { u.fmu with
              loop := { u.fmu.loop with mlPerPulse := ml, gate := gate }
              nominalFlow := nominal
              zeroGates := if ml = 0 then 0 else s.fmu.zeroGates } } : State).replying 0x18
        (if ml = wordAt p 1 ∧ gate = byteAt p 3 ∧ nominal = wordAt p 4 then .ok else .clamped)
        (byteOf 1 ++ wordOf ml ++ byteOf gate ++ wordOf nominal))) ∧
    (byteAt p 0 = 0 → p ≠ [] → p.length ≠ 4 → exec (.setMeter p) s = .next (u.replying 0x18 .badLength [])) ∧
    (byteAt p 0 = 1 → p.length ≠ 6 → exec (.setMeter p) s = .next (u.replying 0x18 .badLength [])) ∧
    (1 < byteAt p 0 → exec (.setMeter p) s = .next (u.replying 0x18 .badValue []))

/-- SET_OUTPUT is judged in order. BAD_VALUE: a line above 7 or an unknown function code; a function that another line
carries, a call line of a slot that is no heating slot, a drive line on a relay or of a slot that is no DIVERTER. BUSY: a new
function, while it or the old one names a slot that is not DISABLED, or the solar loop that is not. A taken request takes
the recovery time, and a new function puts the line in AUTO with the alert condition or off as its request: a closed contact
whose request is off opens and rests, a contact asked on closes at once or at the end of its rest, and L6 and L7 follow at
once.

Rests on R165, R167 to R171. -/
def Obligations.SetOutputIsJudgedInOrder : Prop :=
  ∀ (s : State) (x y z : Byte), s.Takes 0x19 [x, y, z] →
    let u := s.taking 0x19 [x, y, z]
    let code (f : LineFunction) : Nat :=
      match f with
      | .noFunction => 0x00
      | .sourceCall n => 0x10 + slotNumber n
      | .sourcePump n => 0x20 + slotNumber n
      | .diverterDrive n => 0x30 + slotNumber n
      | .solarPump => 0x40
      | .alertRelay => 0x50
    let inUse (f : LineFunction) : Prop :=
      match f with
      | .sourceCall n | .sourcePump n | .diverterDrive n => (s.slot n).state ≠ .disabled
      | .solarPump => s.slc.state ≠ .disabled
      | .noFunction | .alertRelay => False
    let allowed (i : Fin 8) (f : LineFunction) : Prop :=
      (f = .noFunction ∨ ∀ j : Fin 8, j ≠ i → s.olu[j].function ≠ f) ∧
        match f with
        | .sourceCall n => (s.slot n).cls ≠ .noSource ∧ (s.slot n).cls ≠ .diverter
        | .diverterDrive n => 6 ≤ i.val ∧ (s.slot n).cls = .diverter
        | .noFunction | .sourcePump _ | .solarPump | .alertRelay => True
    (7 < x.toNat ∨ (∀ f, y.toNat ≠ code f) → exec (.setOutput [x, y, z]) s = .next (u.replying 0x19 .badValue [])) ∧
    ∀ (i : Fin 8) (f : LineFunction), x.toNat = i.val → y.toNat = code f →
      let time := min 30 z.toNat
      let l := s.olu[i]
      (¬ allowed i f → exec (.setOutput [x, y, z]) s = .next (u.replying 0x19 .badValue [])) ∧
      (allowed i f → f ≠ l.function → inUse f ∨ inUse l.function →
        exec (.setOutput [x, y, z]) s = .next (u.replying 0x19 .busy [])) ∧
      (allowed i f → f = l.function ∨ ¬ (inUse f ∨ inUse l.function) →
        ∃ m : Line, exec (.setOutput [x, y, z]) s = .next
          (({ u with olu := u.olu.set i m } : State).replying 0x19 (if time = z.toNat then .ok else .clamped)
            (byteOf i.val ++ byteOf (code f) ++ byteOf time)) ∧
          m.function = f ∧ m.recoveryTime = time ∧ (f = l.function → m = { l with recoveryTime := time }) ∧
          (f ≠ l.function →
            (m.mode = .auto ∧ m.auto = if f = .alertRelay ∧ s.flt.relayCondition = true then 100 else 0) ∧
            (6 ≤ i.val → l.pwmOk → m.output = m.auto ∧ m.recovery = none ∧ m.deferred = false) ∧
            (i.val < 6 → l.relayOk →
              let closes := m.auto ≠ 0 ∧ (l.output = 100 ∨ l.recovery = none)
              m.output = (if closes then 100 else 0) ∧ (m.deferred = true ↔ m.auto ≠ 0 ∧ ¬ closes) ∧
                m.recovery =
                  if l.output = 100 ∧ m.auto = 0 then (if time = 0 then none else some time) else l.recovery)))

/-- SET_FAULT_POLICY: a code above 3, or ADVISORY for kinds 3 and 4, refuses it whole; otherwise every mask and severity
is taken and echoed, the ALERT pin is re-judged, and a change of the relay condition asks for the alert relay; no
status, count, subject or first-fault record changes.

Rests on R182. -/
def Obligations.SetFaultPolicyIsTakenWholeOrNotAtAll : Prop :=
  ∀ (s : State) (p : List Byte), p.length = 16 → s.Takes 0x1A p →
    let u := s.taking 0x1A p
    if (∃ i : Fin 16, 3 < byteAt p i.val) ∨ byteAt p 2 < 2 ∨ byteAt p 3 < 2 then
      exec (.setFaultPolicy p) s = .next (u.replying 0x1A .badValue [])
    else
      ∃ t, exec (.setFaultPolicy p) s = .next t ∧
        (∀ i : Fin 16, t.flt.kinds[i] =
          { s.flt.kinds[i] with
            masked := decide (byteAt p i.val = 1 ∨ byteAt p i.val = 3), trip := decide (2 ≤ byteAt p i.val) }) ∧
        t.flt.first = s.flt.first ∧ t.flt.uptime = s.flt.uptime ∧ t.pins.alertLow = t.flt.pinCondition ∧
        t.olu =
          (if t.flt.relayCondition = s.flt.relayCondition then s.olu
            else (askLine .alertRelay (onOff t.flt.relayCondition) s).olu) ∧
        t.mpt.reply = some (replyFrame 0x1A .ok (policyBytes t.flt)) ∧ t.clm = s.clm ∧ t.pfe = s.pfe ∧ t.fmu = s.fmu ∧
        t.zdu = s.zdu ∧ t.scu = s.scu ∧ t.sar = s.sar ∧ t.slc = s.slc ∧ t.ths = s.ths

/-! ### Action requests -/

/-- SOURCE_ENABLE: a slot that is DISABLED and has a class leaves DISABLED, a heating slot into HOLD for its minimum off;
slot 0 goes to OFF; any other is REFUSED, and a number above 4 BAD_VALUE. SOURCE_RESET: a TRIPPED slot enters HOLD for its
minimum off with its failures cleared; any other slot is REFUSED.

Rests on R86, R101, R144. -/
def Obligations.SourceEnableAndResetAreJudgedByTheState : Prop :=
  (∀ (s : State) (n : SlotId) (b : Byte),
    (b.toNat = slotNumber n → s.Takes 0x20 [b] →
      let u := s.taking 0x20 [b]
      if (s.slot n).cls = .noSource ∨ (s.slot n).state ≠ .disabled then
        exec (.sourceEnable [b]) s = .next (u.replying 0x20 .refused [])
      else if (s.slot n).cls = .diverter then
        ∃ t, exec (.sourceEnable [b]) s = .next t ∧ t.mpt.reply = some (replyFrame 0x20 .ok []) ∧
          ((t.slot n).state = .idle ∨ (t.slot n).state = .diverting) ∧ (∀ m, m ≠ n → t.slot m = s.slot m) ∧ t.clm = s.clm
      else if 0 < (s.slot n).settings.minOff then
        exec (.sourceEnable [b]) s = .next ((u.setSlotState n (.hold (s.slot n).settings.minOff)).replying 0x20 .ok [])
      else ∃ t, exec (.sourceEnable [b]) s = .next t ∧ t.mpt.reply = some (replyFrame 0x20 .ok []) ∧
        (t.slot n).state ≠ .disabled ∧ t.clm = s.clm) ∧
    (s.Takes 0x20 [0] → s.slc.state = .disabled → ∃ t, exec (.sourceEnable [0]) s = .next t ∧ t.slc.state = .off ∧
      t.slc.speed = 0 ∧ t.slc.settings = s.slc.settings ∧ t.mpt.reply = some (replyFrame 0x20 .ok [])) ∧
    (s.Takes 0x20 [0] → s.slc.state ≠ .disabled →
      exec (.sourceEnable [0]) s = .next ((s.taking 0x20 [0]).replying 0x20 .refused [])) ∧
    (4 < b.toNat → s.Takes 0x20 [b] →
      exec (.sourceEnable [b]) s = .next ((s.taking 0x20 [b]).replying 0x20 .badValue []))) ∧
  ∀ (s : State) (n : SlotId) (b : Byte), b.toNat = slotNumber n → s.Takes 0x22 [b] →
    exec (.sourceReset [b]) s = .next
      (if (s.slot n).state = .tripped then
        ((s.taking 0x22 [b]).setSlot n
          { s.slot n with failures := 0, state := .hold (s.slot n).settings.minOff }).replying 0x22 .ok []
      else (s.taking 0x22 [b]).replying 0x22 .refused [])

/-- SOURCE_DISABLE is taken in every state: the slot is DISABLED or in an OVERRUN that ends in DISABLED, its failure count
kept unless it was TRIPPED; slot 0 is DISABLED at speed 0.

Where the slot enters OVERRUN its off time due is a free value (log entry 6), and the statement leaves it open.
Rests on R87, R144. -/
def Obligations.SourceDisableIsTakenInEveryState : Prop :=
  ∀ (s : State) (n : SlotId) (b : Byte),
    (b.toNat = slotNumber n → s.Takes 0x21 [b] →
      ∃ t, exec (.sourceDisable [b]) s = .next t ∧ t.mpt.reply = some (replyFrame 0x21 .ok []) ∧
        ((t.slot n).state = .disabled ∨ ∃ r d, (t.slot n).state = .overrun r d true) ∧
        (t.slot n).failures = (if (s.slot n).state = .tripped then 0 else (s.slot n).failures) ∧
        t.clm = s.clm ∧ t.pfe = s.pfe ∧ t.flt = s.flt ∧ t.settings = s.settings) ∧
    (s.Takes 0x21 [0] → ∃ t, exec (.sourceDisable [0]) s = .next t ∧ t.slc.state = .disabled ∧
      (s.slc.state ≠ .disabled → t.slc.speed = 0) ∧ t.mpt.reply = some (replyFrame 0x21 .ok []) ∧ t.settings = s.settings) ∧
    (4 < b.toNat → s.Takes 0x21 [b] →
      exec (.sourceDisable [b]) s = .next ((s.taking 0x21 [b]).replying 0x21 .badValue []))

/-- BOOST: the boost is clamped to 400..750 and set in its zone, and it is gone again when the zone minimum already stands
at it; while the model is UNSEEDED it is set. BOOST_CANCEL: the zone's boost is gone. Settings and the other zones stand,
and a zone number above 2 is BAD_VALUE in both.

Rests on R76, R77. -/
def Obligations.BoostIsSetAndCancelled : Prop :=
  ∀ (s : State) (p : List Byte) (z : Zone) (b : Byte),
    (p.length = 3 → zoneOfCode (byteAt p 0) = some z → s.Takes 0x23 p →
      let v := max 400 (min 750 (signedWordAt p 1))
      ∃ t, exec (.boost p) s = .next t ∧
        (t.zone z).boost = (if (s.zoneMinimum z).any (fun m => decide (v ≤ m)) then none else some v) ∧
        (∀ y, y ≠ z → t.zone y = s.zone y) ∧ t.clm = s.clm ∧ t.pfe = s.pfe ∧ t.settings = s.settings ∧
        t.mpt.reply = some (replyFrame 0x23 (if v = signedWordAt p 1 then .ok else .clamped)
          (flagOf (t.zone z).boost.isSome ++ tempOf (t.zone z).boost ++ flagOf (t.zone z).demand ++ flagOf (t.zone z).urgent))) ∧
    (p.length = 3 → 2 < byteAt p 0 → s.Takes 0x23 p →
      exec (.boost p) s = .next ((s.taking 0x23 p).replying 0x23 .badValue [])) ∧
    (zoneOfCode b.toNat = some z → s.Takes 0x24 [b] →
      ∃ t, exec (.boostCancel [b]) s = .next t ∧ (t.zone z).boost = none ∧ (∀ y, y ≠ z → t.zone y = s.zone y) ∧
        t.clm = s.clm ∧ t.settings = s.settings ∧ t.mpt.reply = some (replyFrame 0x24 .ok [])) ∧
    (2 < b.toNat → s.Takes 0x24 [b] →
      exec (.boostCancel [b]) s = .next ((s.taking 0x24 [b]).replying 0x24 .badValue []))

/-- SURPLUS and SURPLUS_TIMER_EXPIRY: the figure is taken, clamped to 30 000 W, its timer is loaded with the surplus
timeout, and the expiry of the timer makes the figure 0. At both, each diverter that is not DISABLED is evaluated: its
rearm flag is set at the ceiling and cleared 20 dd below it, it is DIVERTING exactly while the latch is clear, the model
seeded, the figure above 0, the flag clear, its coil below the ceiling and its drive line mapped, and IDLE otherwise; and its
drive line is asked the duty min(100, surplus × 100 / rate), or 0. The other slots stand.

That the expiry is taken whatever count its timer shows is a reading of the manual (DEDUCED, log entry 8). Rests on
R102 to R104. -/
def Obligations.SurplusIsHeldForItsTime : Prop :=
  ∀ (s : State) (p : List Byte),
    let hot (n : SlotId) : Int := s.temp (s.slot n).settings.coilHigh
    let rearm (n : SlotId) : Bool :=
      ((s.slot n).rearm || decide ((s.slot n).state = .diverting ∧ (s.slot n).settings.ceiling ≤ hot n)) &&
        decide ((s.slot n).settings.ceiling - 20 ≤ hot n)
    let diverts (w : Nat) (n : SlotId) : Bool :=
      decide (s.scu.latch = .clear ∧ s.clm.model ≠ .unseeded ∧ 0 < w ∧ rearm n = false ∧
        hot n < (s.slot n).settings.ceiling ∧ s.carrier (.diverterDrive n) ≠ none)
    let evaluated (w : Nat) (t : State) : Prop :=
      (∀ n, (s.slot n).cls ≠ .diverter → t.slot n = s.slot n) ∧
      (∀ n, (s.slot n).cls = .diverter → (s.slot n).state = .disabled → t.slot n = s.slot n) ∧
      (∀ n, (s.slot n).cls = .diverter → (s.slot n).state ≠ .disabled →
        t.slot n = { s.slot n with rearm := rearm n, state := if diverts w n then .diverting else .idle } ∧
        ∀ i : Fin 8, s.carrier (.diverterDrive n) = some i →
          t.olu[i].auto = (if diverts w n then min 100 (w * 100 / (s.slot n).settings.rate) else 0) ∧
          (s.linesOk → 6 ≤ i.val → s.olu[i].mode = .auto → t.olu[i].output = t.olu[i].auto)) ∧
      t.clm = s.clm ∧ t.zdu = s.zdu ∧ t.sar = s.sar ∧ t.flt = s.flt ∧ t.settings = s.settings
    (p.length = 2 → s.Takes 0x25 p →
      let w := min 30000 (wordAt p 0)
      ∃ t, exec (.surplus p) s = .next t ∧ t.scu.surplus = w ∧ t.scu.surplusTimer = some s.scu.surplusTimeout ∧
        evaluated w t ∧ t.mpt.reply = some (replyFrame 0x25 (if w = wordAt p 0 then .ok else .clamped) (wordOf w))) ∧
    (s.scu.surplusTimer ≠ none →
      ∃ t, exec .surplusTimerExpiry s = .next t ∧ t.scu.surplus = 0 ∧ t.scu.surplusTimer = none ∧ evaluated 0 t ∧
        t.mpt = s.mpt)

/-- FORCE_OUTPUT and RELEASE_OUTPUT: forcing is refused on the functions that act on heat and otherwise sets the mode;
release returns the line to AUTO; the auto request and every other line stand.

Rests on R172, R173. -/
def Obligations.ForcingSetsTheModeOfOneLine : Prop :=
  ∀ (s : State) (x y : Byte) (i : Fin 8), x.toNat = i.val →
    (s.Takes 0x26 [x, y] → y.toNat ≤ 1 →
      let u := s.taking 0x26 [x, y]
      match s.olu[i].function with
      | .sourceCall _ | .diverterDrive _ | .solarPump =>
        exec (.forceOutput [x, y]) s = .next (u.replying 0x26 .refused [])
      | .noFunction | .sourcePump _ | .alertRelay =>
        ∃ m : Line, exec (.forceOutput [x, y]) s = .next (({ u with olu := u.olu.set i m } : State).replying 0x26 .ok []) ∧
          m.mode = (if y = 1 then .forcedOn else .forcedOff) ∧ m.auto = s.olu[i].auto ∧ m.function = s.olu[i].function ∧
          m.recoveryTime = s.olu[i].recoveryTime) ∧
    (s.Takes 0x27 [x] →
      ∃ m : Line, exec (.releaseOutput [x]) s = .next
        (({ s.taking 0x27 [x] with olu := (s.taking 0x27 [x]).olu.set i m } : State).replying 0x27 .ok []) ∧
        m.mode = .auto ∧ m.auto = s.olu[i].auto ∧ m.function = s.olu[i].function)

/-- HOLD_NOW: refused while the stepper is disabled; otherwise a running step goes on with the full-pass flag set, and an
idle stepper starts from layer 15.

Rests on R160. -/
def Obligations.HoldNowAsksForAFullPass : Prop :=
  ∀ s : State, s.Takes 0x28 [] →
    let u := s.taking 0x28 []
    if s.ths.settings.enable = false then exec (.holdNow []) s = .next (u.replying 0x28 .refused [])
    else if s.ths.step ≠ .idle then
      exec (.holdNow []) s = .next (({ u with ths := { u.ths with fullPass := true } } : State).replying 0x28 .ok [])
    else
      ∃ t, exec (.holdNow []) s = .next (({ u with ths := t } : State).replying 0x28 .ok []) ∧
        ((∃ i : Fin 16, 16 - s.ths.settings.width.layers ≤ i.val ∧ s.ths.settings.base ≤ i ∧
            s.clm.layers[i].holdAge ≥ s.ths.settings.creditAge ∧ s.clm.layers[i].hotDwell ≠ s.ths.settings.dwell) →
          t.pointer = 15 ∧ t.fullPass = true ∧ ∃ r, t.step = .seeking r ∧ r.top = 15 ∧ r.elapsed = 0)

/-- CLEAR_FAULTS: a code outside 1..16 refuses it whole; otherwise status and count of each named kind are cleared, a
first-fault record that names one is removed, and every other kind stands.

Rests on R183. -/
def Obligations.ClearFaultsClearsTheNamedKinds : Prop :=
  ∀ (s : State) (p : List Byte), p.length ≤ 16 → s.Takes 0x29 p →
    let u := s.taking 0x29 p
    if ∃ b ∈ p, b.toNat < 1 ∨ 16 < b.toNat then exec (.clearFaults p) s = .next (u.replying 0x29 .badValue [])
    else
      ∃ t data, exec (.clearFaults p) s = .next t ∧ t.mpt.reply = some (replyFrame 0x29 .ok data) ∧
        (∀ k, t.flt.kindRec k =
          if ∃ b ∈ p, b.toNat = k.code then { s.flt.kindRec k with status := false, count := 0 } else s.flt.kindRec k) ∧
        (∀ r, t.flt.first = some r ↔ s.flt.first = some r ∧ ∀ b ∈ p, b.toNat ≠ r.kind.code) ∧
        t.pins.alertLow = t.flt.pinCondition ∧ t.flt.uptime = s.flt.uptime ∧ t.clm = s.clm ∧ t.pfe = s.pfe ∧
        t.scu = s.scu ∧ t.sar = s.sar ∧ t.slc = s.slc ∧ t.ths = s.ths

/-! ### Probes, meters and the model -/

/-- A conversion completes for the channel whose turn it is, and the scan moves on; for another channel nothing changes.
The record: a good reading makes the value or counts towards OK, a bad one counts towards FAULTED, and a channel that
becomes FAULTED or changes its kind is reported as PROBE_OPEN or PROBE_SHORT; the other channels and the map stand. While
UNSEEDED the channel joins the scan record, and the conversion that completes it seeds the table from the anchors. While
seeded, a value delivered to an anchor corrects its layer and makes the model TRACKING; any other conversion leaves the
table, and makes a TRACKING model FREE_RUNNING with ANCHORS_LOST when no anchor has a value any more.

That a conversion of a channel out of its turn does not come about, so that its command changes nothing, is the
model's choice (log entry 18). Rests on R10 to R14, R27 to R29, R32, R34 to R39, R44, R45. -/
def Obligations.ConversionIsDebounced : Prop :=
  (∀ (s : State) (c : Fin 12) (raw : Int), s.pfe.scanNext ≠ c → exec (.conversion c raw) s = .next s) ∧
  (∀ (s : State) (c : Fin 12) (raw : Int), s.pfe.scanNext = c → ∃ t, exec (.conversion c raw) s = .next t ∧
    t.pfe.scanNext = c + 1 ∧
    (∀ d : Fin 12, d ≠ c → t.pfe.channels[d] = s.pfe.channels[d]) ∧ t.pfe.map = s.pfe.map ∧
    t.pfe.channels[c].trim = s.pfe.channels[c].trim ∧ t.pending = s.pending ∧ t.mpt = s.mpt ∧ t.settings = s.settings ∧
    (let v := raw + s.pfe.channels[c].trim
    let good := -400 ≤ v ∧ v ≤ (if c.val < 2 then 2500 else 1500)
    let kind : ProbeFault := if v < -400 ↔ c.val < 2 then .shortCircuit else .openCircuit
    (∀ bad old, s.pfe.channels[c].status = .ok bad old →
      (good → t.pfe.channels[c].status = .ok 0 (some v)) ∧
      (¬ good → bad < 2 → t.pfe.channels[c].status = .ok (bad + 1) old) ∧
      (¬ good → 2 ≤ bad → t.pfe.channels[c].status = .faulted kind 0)) ∧
    (∀ k n, s.pfe.channels[c].status = .faulted k n →
      (good → n < 2 → t.pfe.channels[c].status = .faulted k (n + 1)) ∧
      (good → 2 ≤ n → t.pfe.channels[c].status = .ok 0 (some v)) ∧
      (¬ good → t.pfe.channels[c].status = .faulted kind 0)) ∧
    let reports : Prop :=
      ¬ good ∧
        match s.pfe.channels[c].status with
        | .ok bad _ => 2 ≤ bad
        | .faulted k _ => k ≠ kind
    (reports → t.flt.kindRec kind.report = s.reported kind.report (.channel c)) ∧
      ∀ f : ProbeFault, ¬ reports ∨ f ≠ kind → t.flt.kindRec f.report = s.flt.kindRec f.report) ∧
    (s.clm.model = .unseeded →
      let scanned := s.clm.scanned.set c true
      ((∃ d : Fin 12, scanned[d] = false) →
        t.clm = { s.clm with scanned := scanned } ∧ t.flt.kindRec .anchorsLost = s.flt.kindRec .anchorsLost) ∧
      ((∀ d : Fin 12, scanned[d] = true) →
        t.clm =
          { s.clm with
            scanned := scanned, layers := t.clm.layers, model := t.clm.model, zoneMin := t.clm.zoneMin
            usable := t.clm.usable, storedKj := t.clm.storedKj } ∧
        (∀ i : Fin 16, t.clm.layers[i] =
          { s.clm.layers[i] with
            temp := (order ((List.finRange 16).map t.seedTemp)).getD i.val 0
            residue := 0, hotDwell := 0, holdAge := 65535 }) ∧
        (∀ z, t.clm.zoneMin.get z = some (t.temp (t.zdu.lowestLayer z))) ∧
        ((∃ k, t.anchorValue k ≠ none) →
          t.clm.model = .tracking ∧ t.flt.kindRec .anchorsLost = s.flt.kindRec .anchorsLost) ∧
        ((∀ k, t.anchorValue k = none) →
          t.clm.model = .freeRunning ∧ t.flt.kindRec .anchorsLost = s.reported .anchorsLost .none))) ∧
    (s.clm.model ≠ .unseeded →
      (∀ a v, s.pfe.map.roleOf c = some (.anchor a) → t.pfe.channels[c].value = some v →
        let k := s.pfe.map.layer[a]
        let d := v - s.temp k
        let m : Int := 2 ^ s.clm.anchorWeight
        let correction := if 0 ≤ d then (2 * d + m) / (2 * m) else -((m - 2 * d) / (2 * m))
        t.clm.model = .tracking ∧
        (∀ i : Fin 16, t.clm.layers[i] =
          { s.clm.layers[i] with
            temp :=
              (order (blend ((temperatures s.clm.layers).set k.val (max 0 (min 1000 (s.temp k + correction)))))).getD
                i.val 0 }) ∧
        t.flt.kindRec .anchorsLost = s.flt.kindRec .anchorsLost) ∧
      ((∀ a, s.pfe.map.roleOf c ≠ some (.anchor a)) ∨ t.pfe.channels[c].value = none →
        let lost := s.clm.model = .tracking ∧ ∀ a : Fin 6, t.pfe.roleValue (.anchor a) = none
        (lost → t.clm = { s.clm with model := .freeRunning } ∧
          t.flt.kindRec .anchorsLost = s.reported .anchorsLost .none) ∧
        (¬ lost → t.clm = s.clm ∧ t.flt.kindRec .anchorsLost = s.flt.kindRec .anchorsLost)))) ∧
  ∀ (u : State) (j : Fin 16),
    (∀ a : Fin 6, u.pfe.map.ok → u.pfe.map.layer[a] = j → u.pfe.map.channelOf (.anchor a) ≠ none →
      u.anchorValue j = (u.pfe.roleValue (.anchor a)).map fun v => max 0 (min 1000 v)) ∧
    (∀ v, u.anchorValue j = some v → u.seedTemp j = v) ∧
    (∀ a b ta tb, a < j → j < b → u.anchorValue a = some ta → u.anchorValue b = some tb →
      (∀ k, a < k → k < b → u.anchorValue k = none) →
      u.seedTemp j = ta + ((tb - ta) * ((j.val : Int) - a.val)).tdiv ((b.val : Int) - a.val)) ∧
    (∀ b tb, j < b → u.anchorValue b = some tb → (∀ k, k < b → u.anchorValue k = none) → u.seedTemp j = tb) ∧
    (∀ a ta, a < j → u.anchorValue a = some ta → (∀ k, a < k → u.anchorValue k = none) → u.seedTemp j = ta) ∧
    ((∀ k, u.anchorValue k = none) → u.seedTemp j = u.tMains)

/-- A TOP_LIMIT conversion and the cylinder limit latch. With a value, a held one while a bad reading is debounced: at or
above the hard maximum it sets the clear latch to OVERTEMP, reports CYLINDER_OVERTEMP and stops every slot; more than 50 dd
below it a set latch clears; between, PROBE_LOST becomes OVERTEMP, with the report from the hard maximum on, and the latch
otherwise stands. Without a value it does nothing while the channel is OK. FAULTED, it sets the latch to PROBE_LOST with one
report of TOP_PROBE_LOST, which stops every slot, and does nothing to a latch that is PROBE_LOST already.

That the conversion which faults the channel reports once is a reading of the manual (DEDUCED, log entry 34). Rests
on R36, R37, R47, R105 to R107. -/
def Obligations.TopLimitSetsAndClearsTheLatch : Prop :=
  ∀ (s : State) (c : Fin 12) (raw : Int), s.pfe.scanNext = c → s.pfe.map.roleOf c = some .topLimit → s.slotsOk →
    ∃ t, exec (.conversion c raw) s = .next t ∧ t.scu.hardMax = s.scu.hardMax ∧
      (let reading := raw + s.pfe.channels[c].trim
      let good := -400 ≤ reading ∧ reading ≤ (if c.val < 2 then 2500 else 1500)
      ∀ bad old, s.pfe.channels[c].status = .ok bad old →
        (good → t.pfe.channels[c].status = .ok 0 (some reading)) ∧
        (¬ good → bad < 2 → t.pfe.channels[c].status = .ok (bad + 1) old)) ∧
      (∀ bad v, t.pfe.channels[c].status = .ok bad (some v) →
        (s.scu.latch = .clear → v < s.scu.hardMax → t.scu.latch = .clear) ∧
        (s.scu.latch = .clear → s.scu.hardMax ≤ v → t.scu.latch = .overtemp) ∧
        (s.scu.latch ≠ .clear → v < s.scu.hardMax - 50 → t.scu.latch = .clear) ∧
        (s.scu.latch ≠ .clear → s.scu.hardMax - 50 ≤ v → t.scu.latch = .overtemp) ∧
        t.flt.kindRec .cylinderOvertemp =
          (if s.scu.hardMax ≤ v ∧ s.scu.latch ≠ .overtemp then s.reported .cylinderOvertemp .none
            else s.flt.kindRec .cylinderOvertemp) ∧
        t.flt.kindRec .topProbeLost = s.flt.kindRec .topProbeLost) ∧
      (∀ bad, t.pfe.channels[c].status = .ok bad none → t.scu.latch = s.scu.latch ∧
        t.flt.kindRec .cylinderOvertemp = s.flt.kindRec .cylinderOvertemp ∧
        t.flt.kindRec .topProbeLost = s.flt.kindRec .topProbeLost) ∧
      (∀ k n, t.pfe.channels[c].status = .faulted k n → t.scu.latch = .probeLost ∧
        t.flt.kindRec .topProbeLost =
          (if s.scu.latch = .probeLost then s.flt.kindRec .topProbeLost else s.reported .topProbeLost (.channel c)) ∧
        t.flt.kindRec .cylinderOvertemp = s.flt.kindRec .cylinderOvertemp) ∧
      (t.scu.latch ≠ .clear → ∀ n, (t.slot n).state.works = false)

/-- A COLLECTOR conversion and the solar loop, which does nothing while DISABLED. The inputs are read, the table as the CLM
leaves it. Without a value it is FAULT. From the collector maximum on it is STAGNANT, which holds until 100 dd below, and is
reported at its entry. Below, in the limit band it is LIMIT, or COOLDOWN where that may run; outside the band, FROST in frost
with a warm bottom; and otherwise RUN while the difference to the coil carries it, at the speed of the difference, or OFF.
The pump line is asked what the speed says when state or speed changed.

Rests on R46, R133 to R142. -/
def Obligations.SolarLoopFollowsTheCollector : Prop :=
  ∀ (s : State) (c : Fin 12) (raw : Int), s.pfe.scanNext = c → s.pfe.map.roleOf c = some .collector →
    let reading := raw + s.pfe.channels[c].trim
    let good := -400 ≤ reading ∧ reading ≤ (if c.val < 2 then 2500 else 1500)
    let x := s.slc.settings
    let was := s.slc.state
    ∃ t, exec (.conversion c raw) s = .next t ∧ t.slc.settings = x ∧ (was = .disabled → t.slc = s.slc) ∧
      (was ≠ .disabled →
        (∀ kind n, s.pfe.channels[c].status = .faulted kind n → ¬ good →
          t.slc.state = .fault ∧ t.slc.speed = 0 ∧ t.slc.collector = none) ∧
        (∀ bad old, s.pfe.channels[c].status = .ok bad old → good → t.slc.collector = some reading) ∧
        let reference :=
          if t.clm.model ≠ .unseeded then t.temp s.scu.coil0Low
          else
            match t.pfe.roleValue (.anchor 5) with
            | some v => max 0 (min 1000 v)
            | none => s.clm.mainsDefault
        let top := t.temp 15
        let bottom := t.temp 0
        t.slc.collector = t.pfe.channels[c].value ∧ t.slc.reference = some reference ∧ t.slc.top = some top ∧
        t.slc.bottom = some bottom ∧
        (t.pfe.channels[c].value = none → t.slc.state = .fault ∧ t.slc.speed = 0) ∧
        (∀ v, t.pfe.channels[c].value = some v →
          let band :=
            s.scu.latch ≠ .clear ∨
              (if was = .limit ∨ was = .cooldown then x.solarMax - 30 else x.solarMax) ≤ top
          let cools (more : Int) := x.cooldownEnable = true ∧ x.solarMax - 100 < top ∧ v ≤ top - x.cooldownDiff + more
          let icy := 150 ≤ bottom ∧ (if was = .frost then v < x.frost + 30 else v ≤ x.frost)
          let delta := v - reference
          if (if was = .stagnant then x.collectorMax - 100 else x.collectorMax) ≤ v then
            t.slc.state = .stagnant ∧ t.slc.speed = 0
          else if was = .cooldown ∧ cools 30 ∨ was = .limit ∧ band ∧ cools 0 then
            t.slc.state = .cooldown ∧ t.slc.speed = x.minSpeed
          else if band then t.slc.state = .limit ∧ t.slc.speed = 0
          else if icy then t.slc.state = .frost ∧ t.slc.speed = x.minSpeed
          else if (if was = .run then x.offDiff < delta else x.onDiff ≤ delta) then
            t.slc.state = .run ∧
              t.slc.speed = min 100 (max x.minSpeed (x.minSpeed + ((delta - x.onDiff) * x.gain).tdiv 10))
          else t.slc.state = .off ∧ t.slc.speed = 0) ∧
        t.flt.kindRec .collectorOverheat =
          (if t.slc.state = .stagnant ∧ was ≠ .stagnant then s.reported .collectorOverheat .none
            else s.flt.kindRec .collectorOverheat) ∧
        ∀ i : Fin 8, s.carrier .solarPump = some i → t.slc.state ≠ was ∨ t.slc.speed ≠ s.slc.speed →
          t.olu[i].auto =
            (if 6 ≤ i.val then t.slc.speed.toNat else if 0 < t.slc.speed then 100 else 0))

/-- PULSE: the count of its meter rises by 1 up to 255, which sets the saturated flag. RECOVERY_END: a resting contact rests
no more, and closes when its close was deferred. UPTIME_INCREMENT: the uptime rises by 1, wrapping. Nothing else changes.

That a recovery ends at its command whatever count its timer shows is a reading of the manual (DEDUCED, log entry
8). Rests on R50, R168, R169, R184. -/
def Obligations.PulsesRecoveriesAndSecondsAreCounted : Prop :=
  ∀ s : State,
    exec (.pulse .draw) s = .next
      { s with
        fmu :=
          { s.fmu with
            draw :=
              { s.fmu.draw with
                count := min 255 (s.fmu.draw.count + 1)
                saturated := s.fmu.draw.saturated || decide (255 ≤ s.fmu.draw.count + 1) } } } ∧
    exec (.pulse .loop) s = .next
      { s with
        fmu :=
          { s.fmu with
            loop :=
              { s.fmu.loop with
                count := min 255 (s.fmu.loop.count + 1)
                saturated := s.fmu.loop.saturated || decide (255 ≤ s.fmu.loop.count + 1) } } } ∧
    (∀ (i : Fin 8) (r : Nat), i.val < 6 → s.olu[i].recovery = some r →
      exec (.recoveryEnd i) s = .next
        { s with
          olu :=
            s.olu.set i
              (if s.olu[i].deferred then { s.olu[i] with recovery := none, deferred := false, output := 100 }
                else { s.olu[i] with recovery := none }) }) ∧
    exec .uptimeIncrement s = .next { s with flt := { s.flt with uptime := s.flt.uptime + 1 } }

/-- DRAW_GATE_EXPIRY: count and flag are cleared, the next gate starts, a saturated gate of a present meter is reported, and
a present meter adds its volume to the total and the pending volume, from which at most 128 slices are cut and the rest below
one slice is kept; a rest of a whole slice is reported as an overrun. While the model is seeded each slice moves an eighth of
every layer up, with water of the mains below, and counts the energy the top layer gives away; then the temperatures are mixed
and put in order.

That an expiry is taken whatever count its timer shows is a reading of the manual (DEDUCED, log entry 8). Rests on
R3, R9, R23, R24, R28, R29, R31, R51, R53 to R56. -/
def Obligations.DrawGateFormsSlices : Prop :=
  (∀ s : State, s.clm.sliceVolume = s.clm.volume / 16 * 125 ∧ s.clm.unitEnergy = ((418 * (s.clm.volume / 16) : Nat) : Int)) ∧
  ∀ s : State, 0 < s.clm.sliceVolume →
    let present : Prop := 0 < s.fmu.draw.mlPerPulse
    let volume := s.fmu.draw.count * s.fmu.draw.mlPerPulse
    let pending := s.fmu.pendingVolume + volume
    let slices := min 128 (pending / s.clm.sliceVolume)
    let mains : Int :=
      match s.pfe.map.channelOf .mains with
      | none => s.clm.mainsDefault
      | some c =>
        match s.pfe.channels[c].status with
        | .ok _ (some v) => max 0 (min 1000 v)
        | .ok _ none | .faulted _ _ => s.clm.mainsDefault
    let slice (old : Fin 16 → Int) (i : Fin 16) : Int := (7 * old i + (if i = 0 then mains else old (i - 1)) + 4) / 8
    let after (k : Nat) : Fin 16 → Int := slice^[k] s.temp
    ∃ t, exec .drawGateExpiry s = .next t ∧ t.fmu.draw.count = 0 ∧ t.fmu.draw.saturated = false ∧
      (t.fmu.draw.gateLength = s.fmu.draw.gate ∧ t.fmu.draw.gateLeft = s.fmu.draw.gate) ∧ t.fmu.loop = s.fmu.loop ∧
      1000 * (t.fmu.draw.total - s.fmu.draw.total).toNat + t.fmu.draw.remainder =
        1000 * ((s.fmu.draw.remainder + volume) / 1000 % 2 ^ 32) + (s.fmu.draw.remainder + volume) % 1000 ∧
      t.fmu.pendingVolume = (if s.fmu.draw.mlPerPulse = 0 then s.fmu.pendingVolume else pending % s.clm.sliceVolume) ∧
      t.flt.kindRec .meterSaturated =
        (if present ∧ s.fmu.draw.saturated = true then s.reported .meterSaturated (.meter .draw)
          else s.flt.kindRec .meterSaturated) ∧
      t.flt.kindRec .drawOverrun =
        (if present ∧ 129 * s.clm.sliceVolume ≤ pending then s.reported .drawOverrun .none
          else s.flt.kindRec .drawOverrun) ∧
      (∀ k, k ≠ .meterSaturated → k ≠ .drawOverrun → t.flt.kindRec k = s.flt.kindRec k) ∧
      (¬ present ∨ slices = 0 ∨ s.clm.model = .unseeded → t.clm = s.clm) ∧
      (present → s.clm.model ≠ .unseeded → 0 < slices →
        (∀ i : Fin 16, t.clm.layers[i] =
          { s.clm.layers[i] with temp := (order (blend (List.ofFn (after slices)))).getD i.val 0 }) ∧
        t.clm.delivered = s.clm.delivered.add
          ((List.range slices).map fun k => max 0 (s.clm.unitEnergy * (after k 15 - mains) / 8)).sum ∧
        t.clm.model = s.clm.model ∧ t.clm.solarYield = s.clm.solarYield ∧ t.clm.injected = s.clm.injected ∧
        t.clm.loss = s.clm.loss ∧ t.clm.clipped = s.clm.clipped) ∧
      Untouched s t

/-- LOOP_GATE_EXPIRY: count and flag are cleared, the next gate starts, a saturated gate of a present meter is reported, and
its volume is added to the total. The gate's energy is its volume, measured or nominal, times the difference of flow and
return, and the heat rate is formed from it. The third gate in a row without a pulse while the loop circulates is reported.
The energy enters slot 0's coil range only while the model is seeded and the loop circulates: it is split over the range and
counted, what no layer could hold is counted as clipped and reported with the first layer that clipped, and the temperatures
are mixed and put in order. Which line carries a function is the first part.

The heat rate is formed before the energy is applied by the model's choice (log entry 13). That an expiry is taken
whatever count its timer shows is a reading of the manual (DEDUCED, log entry 8). Rests on R9, R17, R19, R25, R26,
R28, R29, R31, R51, R53, R57 to R60. -/
def Obligations.LoopGateFormsTheHeatRate : Prop :=
  (∀ (s : State) (f : LineFunction), (∀ i, s.carrier f = some i → s.olu[i].function = f) ∧
    (s.carrier f = none → ∀ i : Fin 8, s.olu[i].function ≠ f)) ∧
  ∀ s : State,
    let m := s.fmu.loop
    let present : Prop := 0 < m.mlPerPulse
    let value (r : Role) : Option Int :=
      match s.pfe.map.channelOf r with
      | none => none
      | some c =>
        match s.pfe.channels[c].status with
        | .ok _ v => v
        | .faulted _ _ => none
    let speed : Nat :=
      match s.carrier .solarPump with
      | none => 0
      | some i => if 6 ≤ i.val then s.olu[i].output else if s.olu[i].auto = 0 then 0 else 100
    let measured := m.count * m.mlPerPulse
    let volume := if m.mlPerPulse = 0 then s.fmu.nominalFlow * speed * m.gateLength / 6000 else measured
    let back := (value .loopReturn).getD (s.temp s.scu.coil0Low)
    let energy : Int :=
      match value .loopFlow, value .collector with
      | some flow, _ => (volume : Int) * (flow - back) * 418 / 1000
      | none, some flow => (volume : Int) * (flow - back) * 418 / 1000
      | none, none => 0
    let circulates : Prop := s.slc.state = .run ∨ s.slc.state = .frost ∨ s.slc.state = .cooldown
    let zeroGates :=
      if present ∧ circulates then (if 0 < m.count then 0 else min 3 (s.fmu.zeroGates + 1)) else s.fmu.zeroGates
    let h := Heating.split s.clm.unitEnergy ⟨s.clm.layers, 0, none⟩ s.scu.coil0Low s.scu.coil0High energy
    ∃ t, exec .loopGateExpiry s = .next t ∧ t.fmu.loop.count = 0 ∧ t.fmu.loop.saturated = false ∧
      (t.fmu.loop.gateLength = m.gate ∧ t.fmu.loop.gateLeft = m.gate) ∧ t.fmu.draw = s.fmu.draw ∧
      (t.fmu.loop.total = m.total + BitVec.ofNat 32 ((m.remainder + measured) / 1000) ∧
        t.fmu.loop.remainder = (m.remainder + measured) % 1000) ∧
      t.fmu.heatRate = (if circulates then energy / (m.gateLength : Int) else 0) ∧ t.fmu.zeroGates = zeroGates ∧
      t.flt.kindRec .meterSaturated =
        (if present ∧ m.saturated = true then s.reported .meterSaturated (.meter .loop)
          else s.flt.kindRec .meterSaturated) ∧
      t.flt.kindRec .loopNoFlow =
        (if s.fmu.zeroGates < 3 ∧ zeroGates = 3 then s.reported .loopNoFlow .none else s.flt.kindRec .loopNoFlow) ∧
      (∀ k, k ≠ .meterSaturated → k ≠ .loopNoFlow → k ≠ .modelClipped → t.flt.kindRec k = s.flt.kindRec k) ∧
      (s.clm.model = .unseeded ∨ ¬ circulates →
        t.clm = s.clm ∧ t.flt.kindRec .modelClipped = s.flt.kindRec .modelClipped) ∧
      (s.clm.model ≠ .unseeded → circulates →
        (∀ i : Fin 16, t.clm.layers[i] =
          { h.layers[i] with temp := (order (blend (temperatures h.layers))).getD i.val 0 }) ∧
        t.clm.clipped = s.clm.clipped.add h.clipped ∧
        t.flt.kindRec .modelClipped =
          (match h.first with
            | some i => s.reported .modelClipped (.layer i)
            | none => s.flt.kindRec .modelClipped) ∧
        t.clm.solarYield = s.clm.solarYield.add (max 0 energy) ∧ t.clm.injected = s.clm.injected ∧
        t.clm.model = s.clm.model ∧ t.clm.delivered = s.clm.delivered ∧ t.clm.loss = s.clm.loss) ∧ Untouched s t

/-- MODEL_PERIOD_EXPIRY: the timer restarts; while UNSEEDED nothing else changes. Otherwise every layer's loss and then the
energy of each working slot, slot 1 to slot 4, is applied to the table and counted, what no layer could hold is counted as
clipped and reported once with the first layer that clipped, and the temperatures are mixed and put in order, every other
field at its layer. What loss and injection are, layer by layer, is the second part.

That an expiry is taken whatever count its timer shows is a reading of the manual (DEDUCED, log entry 8). Rests on
R9, R17, R19 to R22, R28, R29, R31. -/
def Obligations.ModelPeriodAppliesLossAndInjection : Prop :=
  (∀ s : State,
    (s.clm.model = .unseeded → exec .modelPeriodExpiry s = .next { s with clm := { s.clm with period := 10 } }) ∧
    (s.clm.model ≠ .unseeded →
      let h := s.inject (Heating.lose s.clm.unitEnergy s.clm.uaTenths s.tAmb ⟨s.clm.layers, 0, none⟩)
      ∃ t, exec .modelPeriodExpiry s = .next t ∧ t.clm.period = 10 ∧ t.clm.model = s.clm.model ∧
        (∀ i : Fin 16, t.clm.layers[i] =
          { h.layers[i] with temp := (order (blend (temperatures h.layers))).getD i.val 0 }) ∧
        t.clm.clipped = s.clm.clipped.add h.clipped ∧
        t.flt.kindRec .modelClipped =
          (match h.first with
            | some i => s.reported .modelClipped (.layer i)
            | none => s.flt.kindRec .modelClipped) ∧
        t.clm.loss = s.clm.loss.add
          ((temperatures s.clm.layers).map fun x => max 0 (((s.clm.uaTenths : Int) * (x - s.tAmb)).tdiv 160)).sum ∧
        (∀ n, (t.clm.injected.get n) = (s.clm.injected.get n).add
          (match (s.slot n).state with
            | .running _ _ => ((s.slot n).settings.rate : Int) * 10
            | .diverting => (min s.scu.surplus (s.slot n).settings.rate : Nat) * 10
            | _ => 0)) ∧
        t.clm.delivered = s.clm.delivered ∧ t.clm.solarYield = s.clm.solarYield ∧ Untouched s t)) ∧
  (∀ (u : Int) (ua : Nat) (amb : Int) (h : Heating),
    let lost (i : Fin 16) := h.layers[i].applyEnergy u (-(((ua : Int) * (h.layers[i].temp - amb)).tdiv 160))
    (∀ i : Fin 16, (Heating.lose u ua amb h).layers[i] = (lost i).1) ∧
      (Heating.lose u ua amb h).clipped = h.clipped + ((List.finRange 16).map fun i => (lost i).2).sum) ∧
  (∀ (u e : Int) (h : Heating) (lo hi : Fin 16), lo ≤ hi →
    let n : Int := (hi.val : Int) - lo.val + 1
    let given (i : Fin 16) := h.layers[i].applyEnergy u (e / n + (if i = hi then e - n * (e / n) else 0))
    let inRange (i : Fin 16) : Bool := decide (lo ≤ i ∧ i ≤ hi)
    (∀ i : Fin 16, (h.split u lo hi e).layers[i] = if inRange i then (given i).1 else h.layers[i]) ∧
      (h.split u lo hi e).clipped =
        h.clipped + ((List.finRange 16).map fun i => if inRange i then (given i).2 else 0).sum) ∧
  (∀ (u e : Int) (h : Heating) (i : Fin 16),
    (h.apply u i e).first =
      if h.first = none ∧ 1000 < h.layers[i].temp + (h.layers[i].residue + e) / u then some i else h.first) ∧
  ∀ (s : State) (h : Heating),
    let give (n : SlotId) (h : Heating) : Heating :=
      match (s.slot n).state with
      | .running _ _ =>
        h.split s.clm.unitEnergy (s.slot n).settings.coilLow (s.slot n).settings.coilHigh (((s.slot n).settings.rate : Int) * 10)
      | .diverting =>
        h.split s.clm.unitEnergy (s.slot n).settings.coilLow (s.slot n).settings.coilHigh
          ((min s.scu.surplus (s.slot n).settings.rate : Nat) * 10)
      | _ => h
    s.inject h = give .s4 (give .s3 (give .s2 (give .s1 h)))

/-- Energy in one layer goes to the residue, and whole deci-degrees of it to the temperature: what is given stands in
temperature and residue, or at the top is handed back as clipped; the residue stays below the unit energy. Mixing halves each
inverted pair from the bottom up and puts the temperatures in order: it keeps their sum and leaves them rising. A counter
counts every joule given to it, modulo its width.

Rests on R16 to R18, R28, R29, R31. -/
def Obligations.HeatInTheTableIsAccountedFor : Prop :=
  (∀ (u e : Int) (l : Layer), 0 < u → 0 ≤ l.temp → l.temp ≤ 1000 → 0 ≤ l.residue → l.residue < u →
    let x := l.applyEnergy u e
    let q := (l.residue + e) / u
    (0 ≤ l.temp + q → l.temp + q ≤ 1000 →
      x = ({ l with temp := l.temp + q, residue := l.residue + e - q * u }, 0)) ∧
    (1000 < l.temp + q →
      x = ({ l with temp := 1000, residue := 0 }, (l.temp + q - 1000) * u + (l.residue + e - q * u))) ∧
    (l.temp + q < 0 → x = ({ l with temp := 0, residue := 0 }, 0)) ∧
    (0 ≤ x.1.temp ∧ x.1.temp ≤ 1000) ∧ (0 ≤ x.1.residue ∧ x.1.residue < u) ∧ 0 ≤ x.2 ∧
      (0 ≤ l.temp * u + l.residue + e →
        x.1.temp * u + x.1.residue + x.2 = l.temp * u + l.residue + e) ∧
      (l.temp * u + l.residue + e < 0 → x.1.temp = 0 ∧ x.1.residue = 0 ∧ x.2 = 0) ∧
      x.1.anchor = l.anchor ∧ x.1.hotDwell = l.hotDwell ∧ x.1.holdAge = l.holdAge) ∧
  (∀ (a b : Int) (l : List Int), blend (a :: b :: l) =
    if b < a then (a + b) / 2 :: blend ((a + b - (a + b) / 2) :: l) else a :: blend (b :: l)) ∧
  (∀ l : List Int, (order (blend l)).sum = l.sum ∧ (order (blend l)).length = l.length ∧
    (order (blend l)).Pairwise (· ≤ ·) ∧ (order l).Perm l) ∧
  ∀ (c : EnergyCounter) (j : Int), c.remainder < 1000 →
    (c.add j).remainder < 1000 ∧
      1000 * (c.add j).kilojoules.toNat + (c.add j).remainder =
        (1000 * c.kilojoules.toNat + c.remainder + j.toNat) % (1000 * 2 ^ 32)

/-- A report sets the status of its kind, counts it and keeps its subject, whatever mask and severity. Of an unmasked
kind it fills an absent first-fault record and drives the ALERT pin, and asks for the alert relay when the relay
condition changed; of a masked kind it changes neither the record nor the two signals. All else stands.

Rests on R178 to R181. -/
def Obligations.ReportIsRecorded : Prop :=
  ∀ (k : FaultKind) (x : Subject) (s : State),
    let t := report k x s
    t.flt.kindRec k = { s.flt.kindRec k with status := true, count := min 255 ((s.flt.kindRec k).count + 1), lastSubject := x } ∧
      (∀ j, j ≠ k → t.flt.kindRec j = s.flt.kindRec j) ∧
      t.flt.first = (if (s.flt.kindRec k).masked ∨ s.flt.first.isSome then s.flt.first else some ⟨k, x, s.flt.uptime⟩) ∧
      ((s.flt.kindRec k).masked = true → t.pins = s.pins ∧ t.olu = s.olu) ∧
      ((s.flt.kindRec k).masked = false → t.pins.alertLow = true ∧
        t.olu =
          (if t.flt.relayCondition = s.flt.relayCondition then s.olu
            else (askLine .alertRelay (onOff t.flt.relayCondition) s).olu)) ∧
      t.flt.uptime = s.flt.uptime ∧
      t = { s with flt := t.flt, pins := t.pins, olu := t.olu } ∧ t.pins.confirm = s.pins.confirm

/-! ### Slots, services and the hold -/

/-- DWELL_END: a slot whose confirm input is inactive waits for it for the confirm window, any other enters RUNNING; a
minimum run of 0 is complete at once, and the slot goes on below its ceiling and stops at it. CONFIRM_INPUT_CHANGE: the level
is kept; an active level confirms a waiting start; a change at a WARM or COLD slot reloads its warm time, which puts a slot
with none in COLD; and a level unchanged or named by no slot changes nothing else.

That a level unchanged is no change, and that an expiry is taken whatever count its timer shows, are readings of the
manual (DEDUCED, log entries 19 and 8). Rests on R88, R89, R91, R95, R97. -/
def Obligations.StartsFollowTheDwellAndTheConfirm : Prop :=
  ∀ (s : State) (n : SlotId) (o : StartOrigin) (r : Nat) (h : Holder) (i : Fin 4) (a : Bool),
    let x := s.slot n
    let levels : State :=
      { s with
        scu := { s.scu with confirmLevel := s.scu.confirmLevel.set i a }
        pins := { s.pins with confirm := s.pins.confirm.set i a } }
    (x.state = .starting o .dwell r h →
      (s.confirmActive n = some false →
        exec (.dwellEnd n) s = .next (s.setSlotState n (.starting o .confirm x.settings.confirmWindow h))) ∧
      (s.confirmActive n ≠ some false → 0 < x.settings.minRun →
        exec (.dwellEnd n) s = .next (s.setSlotState n (.running x.settings.minRun (some h)))) ∧
      (s.confirmActive n ≠ some false → x.settings.minRun = 0 → s.temp x.settings.coilHigh < x.settings.ceiling →
        exec (.dwellEnd n) s = .next (s.setSlot n { x with state := .running 0 (some h), failures := 0 })) ∧
      (s.confirmActive n ≠ some false → x.settings.minRun = 0 → x.settings.ceiling ≤ s.temp x.settings.coilHigh →
        x.cls.heating = true →
        ∃ t, exec (.dwellEnd n) s = .next t ∧
          t.slot n = { x with state := s.stopped n x.settings.minOff, failures := 0 } ∧
          (∀ z, h = .zone z → t.service z ≠ .serving n) ∧ t.clm = s.clm ∧ t.flt = s.flt ∧ Untouched s t)) ∧
    (s.scu.confirmLevel[i] = a ∨ (∀ m, (s.slot m).settings.confirm ≠ some i) →
      exec (.confirmInputChange i a) s = .next levels) ∧
    (s.scu.confirmLevel[i] ≠ a → (∀ m, (s.slot m).settings.confirm = some i ↔ m = n) →
      let reload := x.settings.warmTime * 60
      let rests (st : SlotState) : Prop :=
        ∃ t, exec (.confirmInputChange i a) s = .next t ∧ t.slot n = { x with state := st } ∧
          (∀ m, m ≠ n → t.slot m = s.slot m) ∧ t.scu = { levels.scu with slots := t.scu.slots } ∧ t.pins = levels.pins ∧
          t.clm = s.clm ∧ t.olu = s.olu ∧ t.flt = s.flt ∧ t.mpt = s.mpt
      (a = true → x.state = .starting o .confirm r h → 0 < x.settings.minRun →
        exec (.confirmInputChange i a) s = .next (levels.setSlotState n (.running x.settings.minRun (some h)))) ∧
      (x.state = .warm r → 0 < reload →
        exec (.confirmInputChange i a) s = .next (levels.setSlotState n (.warm reload))) ∧
      (x.state = .warm r → reload = 0 → s.noGrant → rests .cold) ∧
      (x.state = .cold → 0 < reload → s.noGrant → rests (.warm reload)) ∧
      (x.state = .cold → reload = 0 → exec (.confirmInputChange i a) s = .next levels))

/-- CONFIRM_WINDOW_EXPIRY and the loss of a confirm while RUNNING: the failure is counted and reported, the third one trips
the slot, and the others put it in HOLD, after an OVERRUN where the slot has one to run; a stop before the minimum run is
complete carries the short-cycle penalty.

That an expiry is taken whatever count its timer shows is a reading of the manual (DEDUCED, log entry 8). Rests on
R92, R98 to R101. -/
def Obligations.FailuresCountToThree : Prop :=
  ∀ (s : State) (n : SlotId), (s.slot n).failures ≤ 2 →
    let x := s.slot n
    let last := x.failures = 2
    (∀ o r h, x.state = .starting o .confirm r h →
      ∃ t, exec (.confirmWindowExpiry n) s = .next t ∧
        t.slot n =
          { x with failures := x.failures + 1, state := if last then .tripped else .hold x.settings.minOff } ∧
        t.flt.kindRec .startFailure =
          { s.flt.kindRec .startFailure with
            status := true, count := min 255 ((s.flt.kindRec .startFailure).count + 1), lastSubject := .slot n } ∧
        (last → (t.flt.kindRec .sourceTripped).status = true) ∧ t.clm = s.clm ∧ Untouched s t) ∧
    (∀ r h i, x.state = .running r h → (∀ m, (s.slot m).settings.confirm = some i ↔ m = n) →
      s.scu.confirmLevel[i] = true →
      let off := if r = 0 then x.settings.minOff else r + 240
      ∃ t, exec (.confirmInputChange i false) s = .next t ∧
        t.slot n =
          { x with
            failures := x.failures + 1
            state :=
              if last then .tripped
              else if s.hasPumpLine n = true ∧ 0 < x.settings.overrun then .overrun x.settings.overrun off false
              else .hold off } ∧
        t.flt.kindRec .confirmLost =
          { s.flt.kindRec .confirmLost with
            status := true, count := min 255 ((s.flt.kindRec .confirmLost).count + 1), lastSubject := .slot n } ∧
        (last → (t.flt.kindRec .sourceTripped).status = true) ∧ t.clm = s.clm ∧ t.mpt = s.mpt ∧ t.settings = s.settings)

/-- MINIMUM_RUN_COMPLETION: the failure count becomes 0; a slot in run-on stops with its minimum off, and so does a slot with
a holder at its ceiling, which leaves its service; below the ceiling it goes on. OVERRUN_EXPIRY: the slot is DISABLED when
that is pending, in HOLD otherwise. HOLD_EXPIRY and WARM_EXPIRY: the slot is WARM for its warm time, then COLD.

That an expiry is taken whatever count its timer shows is a reading of the manual (DEDUCED, log entry 8). Rests on
R87, R88, R95, R97, R98. -/
def Obligations.RunsAndRestsEnd : Prop :=
  ∀ (s : State) (n : SlotId) (r : Nat),
    let x := s.slot n
    (x.state = .running (r + 1) none →
      ∃ t, exec (.minimumRunCompletion n) s = .next t ∧
        t.slot n = { x with failures := 0, state := s.stopped n x.settings.minOff } ∧
        (∀ m, m ≠ n → t.slot m = s.slot m) ∧ t.clm = s.clm ∧ t.sar = s.sar ∧ t.flt = s.flt ∧ Untouched s t) ∧
    (∀ h, x.state = .running (r + 1) (some h) →
      (s.temp x.settings.coilHigh < x.settings.ceiling →
        exec (.minimumRunCompletion n) s = .next (s.setSlot n { x with state := .running 0 (some h), failures := 0 })) ∧
      (x.settings.ceiling ≤ s.temp x.settings.coilHigh → x.cls.heating = true →
        ∃ t, exec (.minimumRunCompletion n) s = .next t ∧
          t.slot n = { x with failures := 0, state := s.stopped n x.settings.minOff } ∧
          (∀ z, h = .zone z → t.service z ≠ .serving n) ∧ t.clm = s.clm ∧ t.flt = s.flt ∧ Untouched s t)) ∧
    (∀ d p, x.state = .overrun r d p →
      ∃ t, exec (.overrunExpiry n) s = .next t ∧ t.slot n = { x with state := if p then .disabled else .hold d } ∧
        (∀ m, m ≠ n → t.slot m = s.slot m) ∧ t.clm = s.clm ∧ t.sar = s.sar ∧ t.flt = s.flt ∧ Untouched s t) ∧
    (s.noGrant →
      (x.state = .hold r →
        ∃ t, exec (.holdExpiry n) s = .next t ∧
          t.slot n =
            { x with
              state := if x.settings.warmTime = 0 then .cold else .warm (x.settings.warmTime * 60) } ∧
          (∀ m, m ≠ n → t.slot m = s.slot m) ∧ t.clm = s.clm ∧ t.olu = s.olu ∧ t.flt = s.flt ∧ Untouched s t) ∧
      (x.state = .warm r →
        ∃ t, exec (.warmExpiry n) s = .next t ∧ t.slot n = { x with state := .cold } ∧
          (∀ m, m ≠ n → t.slot m = s.slot m) ∧ t.clm = s.clm ∧ t.olu = s.olu ∧ t.flt = s.flt ∧ Untouched s t))

/-- HOLDOFF_TIMER_EXPIRY, FURTHER_EVALUATION and the notices of the zones. A demand raised is held off while the solar loop
runs at the priority threshold and the zone is neither urgent nor boosted; otherwise, as a service whose holdoff ends or whose
slot has left it, it waits while no grant is open, and is granted the first ranked slot when that is free, COLD, WARM or in
run-on: the service is SERVING, and the slot works for the zone. Urgency gained or a boost set ends a holdoff. A demand
cleared makes the service IDLE; the slot it had is withdrawn from its start, runs on, or stops.

That a notice which reaches the arbiter in an evaluation waits for FURTHER_EVALUATION as a command of its own is the
model's choice (log entry 16); the notice of a zone is stated of `evaluate`, which is what the commands that move a
zone hand it to. That an expiry is taken whatever count its timer shows is a reading of the manual (DEDUCED, log
entry 8). Rests on R90, R93, R96, R98, R113 to R120. -/
def Obligations.ArbiterServesWaitingDemand : Prop :=
  ∀ (s : State) (z : Zone) (n m : SlotId) (r : Nat) (rest : List ScuNotice) (others : List SlotId) (cause : LeaveCause)
      (ch : ZoneChange),
    let popped : State := { s with sar := { s.sar with further := rest } }
    let quiet : ZoneChange := ⟨false, false, false, false, false, false⟩
    let notice : SarEvent := .zoneNotice ((⟨quiet, quiet, quiet⟩ : PerZone ZoneChange).set z ch)
    let solarFirst : Prop :=
      s.slc.state = .run ∧ (s.sar.threshold : Int) ≤ s.fmu.heatRate ∧ (s.zone z).urgent = false ∧
        (s.zone z).boost = none ∧ 0 < s.sar.holdoffTime
    (s.grantsOpen = false → s.sar.claim ≠ .seeking →
      (s.service z = .holdoff r → s.sar.further = [] →
        exec (.holdoffTimerExpiry z) s = .next (s.setService z .waiting)) ∧
      (s.sar.further = .available m :: rest → exec .furtherEvaluation s = .next popped) ∧
      (s.sar.further = .leftService n (.zone z) cause :: rest → s.service z = .serving n →
        exec .furtherEvaluation s = .next (popped.setService z (if (s.zone z).demand then .waiting else .idle)))) ∧
    (s.grantsOpen = true → s.sar.claim = .none → (∀ y, y ≠ z → s.service y ≠ .waiting) →
      (∀ y, (s.service y).names n = false) → (s.zone z).ranking = n :: others → (s.slot n).cls.heating = true →
      (s.slot n).startsLater →
      (s.service z = .holdoff r → s.sar.further = [] →
        ∃ t, exec (.holdoffTimerExpiry z) s = .next t ∧ Granted s t z n) ∧
      (s.service z = .waiting → s.sar.further = .available m :: rest →
        ∃ t, exec .furtherEvaluation s = .next t ∧ Granted popped t z n) ∧
      (s.service z = .idle → s.sar.further = [] → ch.raised = true → ¬ solarFirst →
        Granted s (evaluate notice s) z n)) ∧
    (s.sar.further = [] → s.sar.claim ≠ .seeking → (∀ y, y ≠ z → s.service y ≠ .waiting) →
      (s.service z = .idle → ch.raised = true →
        (solarFirst → evaluate notice s = s.setService z (.holdoff (s.sar.holdoffTime * 60))) ∧
        (¬ solarFirst → s.grantsOpen = false → evaluate notice s = s.setService z .waiting)) ∧
      (s.service z = .holdoff r → ch.cleared = false → ch.urgencyGained = true ∨ ch.boostSet = true →
        s.grantsOpen = false → evaluate notice s = s.setService z .waiting) ∧
      (ch.cleared = true →
        let left := s.setService z .idle
        (s.service z = .waiting ∨ s.service z = .holdoff r → evaluate notice s = left) ∧
        (s.service z = .serving n →
          (∀ o p h, (s.slot n).state = .starting o p r h →
            evaluate notice s = (linesOff n left).setSlotState n (.hold (s.slot n).settings.minOff)) ∧
          (∀ h, (s.slot n).state = .running (r + 1) (some h) →
            evaluate notice s = (left.setSlotState n (.running (r + 1) none)).deferNotices [.available n]) ∧
          (∀ h, (s.slot n).state = .running 0 (some h) →
            (evaluate notice s).slot n = { s.slot n with state := s.stopped n (s.slot n).settings.minOff } ∧
            (∀ y, y ≠ n → (evaluate notice s).slot y = s.slot y) ∧ (evaluate notice s).sar = left.sar ∧
            Untouched s (evaluate notice s)))))

/-- HOLD_REQUEST and STEP_END with no zone waiting: a request while no grant is open leaves the claim SEEKING and is
answered none; it takes the first ranked slot that is eligible, from the zone it starts or runs for or out of run-on; while a
slot is held it is answered with that slot. A step end gives the slot back to the suspended zone whose demand is raised, and
the zone waits when the slot has stopped; with the demand clear, or with no zone suspended, the slot is released: a start is
withdrawn, a run that is not complete runs on, and a complete one stops.

That the available notice of a released slot waits for FURTHER_EVALUATION is the model's choice (log entry 16).
Rests on R93, R96, R98, R121 to R126, R155. -/
def Obligations.HoldStepsBorrowAndReturnSlots : Prop :=
  ∀ (s : State) (n : SlotId) (z : Zone) (r : Nat) (h : Holder) (q : StepRec) (o : Option Zone)
      (origin : StartOrigin) (phase : StartPhase) (rest : List StepperMessage) (others : List SlotId),
    s.sar.further = [] → (∀ y, s.service y ≠ .waiting) →
    let u : State := { s with ths := { s.ths with messages := rest } }
    (s.ths.messages = .holdRequest :: rest →
      (s.sar.claim = .none → s.grantsOpen = false →
        exec .holdRequest s = .next ((u.setClaim .seeking).answer .noneEligible)) ∧
      (s.sar.claim = .holding n o → exec .holdRequest s = .next (u.answer (.taken n))) ∧
      (s.sar.claim = .none → s.grantsOpen = true → s.ths.step = .seeking q → s.ths.settings.ranking = n :: others →
        (s.slot n).cls.heating = true → (s.slot n).settings.coilLow ≤ q.low →
        s.ths.settings.temp + 50 ≤ (s.slot n).settings.ceiling →
        let borrowed := ((u.setClaim (.holding n (some z))).setService z (.suspended n)).answer (.taken n)
        ((s.slot n).state = .running r (some (.zone z)) →
          exec .holdRequest s = .next (borrowed.setSlotState n (.running r (some .holdStep)))) ∧
        ((s.slot n).state = .starting origin phase r (.zone z) →
          exec .holdRequest s = .next (borrowed.setSlotState n (.starting origin phase r .holdStep))) ∧
        ((s.slot n).state = .running r none →
          exec .holdRequest s = .next
            (((u.setClaim (.holding n none)).answer (.taken n)).setSlotState n (.running r (some .holdStep)))))) ∧
    (s.ths.messages = .stepEnd :: rest →
      let ended := u.setClaim .none
      let released (b : State) : Prop :=
        ((s.slot n).state = .running (r + 1) (some h) →
          exec .stepEnd s = .next ((b.setSlotState n (.running (r + 1) none)).deferNotices [.available n])) ∧
        ((s.slot n).state = .running 0 (some h) →
          ∃ t, exec .stepEnd s = .next t ∧
            t.slot n = { s.slot n with state := s.stopped n (s.slot n).settings.minOff } ∧
            (∀ m, m ≠ n → t.slot m = s.slot m) ∧ t.sar = b.sar ∧ t.ths = u.ths ∧ t.clm = s.clm ∧ t.flt = s.flt ∧
            Untouched s t) ∧
        ((s.slot n).state = .starting origin phase r h →
          exec .stepEnd s = .next ((linesOff n b).setSlotState n (.hold (s.slot n).settings.minOff)))
      (s.sar.claim = .none → exec .stepEnd s = .next u) ∧
      (s.sar.claim = .seeking → exec .stepEnd s = .next ended) ∧
      (s.sar.claim = .holding n (some z) → (s.zone z).demand = true →
        ((s.slot n).state = .running r (some h) →
          exec .stepEnd s = .next ((ended.setService z (.serving n)).setSlotState n (.running r (some (.zone z))))) ∧
        ((s.slot n).state = .starting origin phase r h →
          exec .stepEnd s = .next
            ((ended.setService z (.serving n)).setSlotState n (.starting origin phase r (.zone z)))) ∧
        ((s.slot n).state = .hold r → s.grantsOpen = false →
          exec .stepEnd s = .next (ended.setService z .waiting))) ∧
      (s.sar.claim = .holding n (some z) → (s.zone z).demand = false → released (ended.setService z .idle)) ∧
      (s.sar.claim = .holding n none → released ended))

/-- HOLD_TAKEN, HOLD_NONE and HOLD_LOST: a running step that is answered with a slot is HEATING with it, one that is answered
none or loses its slot is SEEKING, and an answer to an idle stepper is dropped. INTERVAL_EXPIRY: the timer is loaded again; a
running step gets the pending flag, and an idle stepper starts a step at the pointer, which seeks when a layer of its section
is neither credited nor held.

That an expiry is taken whatever count its timer shows is a reading of the manual (DEDUCED, log entry 8). Rests on
R151, R153 to R156. -/
def Obligations.AnswersAndTheIntervalMoveTheStep : Prop :=
  ∀ (s : State) (n : SlotId) (q : StepRec) (rest : List HoldAnswer),
    let u : State := { s with sar := { s.sar with answers := rest } }
    let stepped (x : HoldStep) : State := { u with ths := { s.ths with step := x } }
    (s.sar.answers = .taken n :: rest →
      (s.ths.step = .seeking q ∨ (∃ m, s.ths.step = .heating q m) → exec .holdTaken s = .next (stepped (.heating q n))) ∧
      (s.ths.step = .idle → exec .holdTaken s = .next u)) ∧
    (s.sar.answers = .noneEligible :: rest →
      (s.ths.step = .seeking q ∨ (∃ m, s.ths.step = .heating q m) → exec .holdNone s = .next (stepped (.seeking q))) ∧
      (s.ths.step = .idle → exec .holdNone s = .next u)) ∧
    (s.sar.answers = .lost :: rest →
      (s.ths.step = .seeking q ∨ (∃ m, s.ths.step = .heating q m) → exec .holdLost s = .next (stepped (.seeking q))) ∧
      (s.ths.step = .idle → exec .holdLost s = .next u)) ∧
    (s.ths.interval ≠ none →
      let loaded : Ths := { s.ths with interval := some s.ths.settings.interval }
      (s.ths.step ≠ .idle → exec .intervalExpiry s = .next { s with ths := { loaded with pendingFlag := true } }) ∧
      (s.ths.step = .idle →
        (∃ i : Fin 16, s.ths.settings.base ≤ i ∧ s.ths.pointer.val < i.val + s.ths.settings.width.layers ∧
          i ≤ s.ths.pointer ∧ s.ths.settings.creditAge ≤ s.clm.layers[i].holdAge ∧
          s.clm.layers[i].hotDwell ≠ s.ths.settings.dwell) →
        ∃ q : StepRec, q.top = s.ths.pointer ∧
          q.low.val = max s.ths.settings.base.val (s.ths.pointer.val + 1 - s.ths.settings.width.layers) ∧
          q.width = s.ths.settings.width ∧ q.creditAge = s.ths.settings.creditAge ∧ q.elapsed = 0 ∧
          (∀ i, i ∈ q.done ↔ q.low ≤ i ∧ i ≤ q.top ∧ s.clm.layers[i].hotDwell = s.ths.settings.dwell) ∧
          exec .intervalExpiry s = .next
            { s with ths := { loaded with step := .seeking q, messages := s.ths.messages ++ [.holdRequest] } }))

/-- MINUTE_EVENT: the hour count moves; while the model is seeded every layer's hot dwell and hold age take their new
figures. A running step gains the layers of its section that completed a dwell and counts its minute; with its section done
it completes, and moves the pointer, or completes the pass below the base; and it times out at the step timeout. At the hour
an enabled stepper reports the highest overdue layer, once. HOUR_COUNT_WRAP: the minute event that advances the hold ages.
STEP_TIMEOUT: the step is reported with its top layer, counted as failed and ended, and with no pending flag no other
starts.

That HOUR_COUNT_WRAP is a whole minute event (DEDUCED, log entry 9), and that STEP_TIMEOUT ends a step whatever its
elapsed minutes (DESIGN CHOICE, log entry 20), is the model's reading, and so is that an UNSEEDED model keeps the
layer fields and runs no overdue test (DEDUCED, log entry 22). That an expiry is taken whatever count its timer
shows is a reading of the manual (DEDUCED, log entry 8). Rests on R149, R150, R156 to R159, R162. -/
def Obligations.MinutesKeepTheBooksOfTheHold : Prop :=
  ∀ s : State,
    let dwell (l : Layer) : Nat := if s.ths.settings.temp ≤ l.temp then min (l.hotDwell + 1) s.ths.settings.dwell else 0
    let completes (l : Layer) : Prop := dwell l = s.ths.settings.dwell ∧ l.hotDwell ≠ s.ths.settings.dwell
    let age (hour : Bool) (l : Layer) : Nat :=
      if dwell l = s.ths.settings.dwell ∧ l.hotDwell ≠ s.ths.settings.dwell then 0
      else if hour then min 65535 (l.holdAge + 1) else l.holdAge
    (∃ t, exec .minuteEvent s = .next t ∧
      t.ths.hourCount = (if 59 ≤ s.ths.hourCount then 0 else s.ths.hourCount + 1) ∧ t.ths.minuteLeft = 60 ∧
      (s.clm.model = .unseeded → t.clm = s.clm) ∧
      (s.clm.model ≠ .unseeded → ∀ i : Fin 16, t.clm.layers[i].hotDwell = dwell s.clm.layers[i] ∧
        t.clm.layers[i].holdAge = age (decide (59 ≤ s.ths.hourCount)) s.clm.layers[i]) ∧ Untouched s t ∧
      (∀ q : StepRec, s.ths.step = .seeking q ∨ (∃ n, s.ths.step = .heating q n) →
        let inside (i : Fin 16) : Prop := q.low ≤ i ∧ i ≤ q.top
        let done (i : Fin 16) : Prop := i ∈ q.done ∨ s.clm.model ≠ .unseeded ∧ completes s.clm.layers[i]
        ((∃ i, inside i ∧ ¬ done i) → q.elapsed + 1 < s.ths.settings.timeout →
          (∃ l, (∀ i, i ∈ l ↔ inside i ∧ done i) ∧
            t.ths.step = s.ths.step.withRecord { q with done := l, elapsed := q.elapsed + 1 }) ∧
          t.ths.pointer = s.ths.pointer ∧ t.ths.passes = s.ths.passes ∧ t.ths.messages = s.ths.messages) ∧
        ((∃ i, inside i ∧ ¬ done i) → s.ths.settings.timeout ≤ q.elapsed + 1 →
          t.ths.failedSteps = min 65535 (s.ths.failedSteps + 1) ∧
          t.flt.kindRec .holdIncomplete = s.reported .holdIncomplete (.layer q.top)) ∧
        ((∀ i, inside i → done i) → s.ths.pendingFlag = false → s.ths.fullPass = false →
          (∀ m, s.ths.interval = some m → 1 < m) →
          let p : Int := if s.ths.pointer = q.top then (q.top.val : Int) - q.width.layers else s.ths.pointer.val
          t.ths.step = .idle ∧ t.ths.messages = s.ths.messages ++ [.stepEnd] ∧
          if p < s.ths.settings.base.val then
            t.ths.pointer = 15 ∧ t.ths.passes = s.ths.passes + 1 ∧ (s.ths.hourCount < 59 → t.ths.overdue = false)
          else t.ths.pointer.val = p ∧ t.ths.passes = s.ths.passes)) ∧
      (s.ths.step = .idle → (∀ m, s.ths.interval = some m → 1 < m) →
        let due (i : Fin 16) : Prop :=
          s.ths.settings.base ≤ i ∧ s.ths.settings.period + 24 ≤ age true s.clm.layers[i]
        let tested : Prop :=
          59 ≤ s.ths.hourCount ∧ s.clm.model ≠ .unseeded ∧ s.ths.settings.enable = true ∧ s.ths.overdue = false
        (∀ i, tested → due i → (∀ j, i < j → ¬ due j) →
          t.ths.overdue = true ∧ t.flt.kindRec .holdOverdue = s.reported .holdOverdue (.layer i)) ∧
        (¬ tested ∨ (∀ i, ¬ due i) →
          t.ths.overdue = s.ths.overdue ∧ t.flt.kindRec .holdOverdue = s.flt.kindRec .holdOverdue))) ∧
    (∃ t, exec .hourCountWrap s = .next t ∧ t.ths.hourCount = 0 ∧
      (s.clm.model ≠ .unseeded → ∀ i : Fin 16, t.clm.layers[i].hotDwell = dwell s.clm.layers[i] ∧
        t.clm.layers[i].holdAge = age true s.clm.layers[i]) ∧ Untouched s t) ∧
    exec .hourCountWrap s = exec .minuteEvent { s with ths := { s.ths with hourCount := 59 } } ∧
    ∀ q : StepRec, s.ths.step = .seeking q ∨ (∃ n, s.ths.step = .heating q n) →
      s.ths.pendingFlag = false ∨ s.ths.settings.enable = false →
      ∃ t, exec .stepTimeout s = .next t ∧
        t.ths =
          { s.ths with
            failedSteps := min 65535 (s.ths.failedSteps + 1), messages := s.ths.messages ++ [.stepEnd]
            fullPass := false, step := .idle, pendingFlag := false } ∧
        t.flt.kindRec .holdIncomplete =
          { s.flt.kindRec .holdIncomplete with
            status := true, count := min 255 ((s.flt.kindRec .holdIncomplete).count + 1), lastSubject := .layer q.top } ∧
        t = { s with ths := t.ths, flt := t.flt, pins := t.pins, olu := t.olu }
end

