-- ==== Sys2Proof/Laws/State.lean ====
section
/-! SUPPORT. One lemma per part of the state and per update: what each named update leaves and what it writes. -/

namespace Sys2Proof.Machine

/-! ### Tables -/

@[simp] theorem PerZone.get_set {α : Type} (t : PerZone α) (y z : Zone) (x : α) :
    (t.set z x).get y = if y = z then x else t.get y := by
  cases y <;> cases z <;> simp [PerZone.get, PerZone.set]

@[simp] theorem PerSlot.get_set {α : Type} (t : PerSlot α) (m n : SlotId) (x : α) :
    (t.set n x).get m = if m = n then x else t.get m := by
  cases m <;> cases n <;> simp [PerSlot.get, PerSlot.set]

theorem PerSlot.forall_get {α : Type} (t : PerSlot α) (p : α → Prop) :
    (∀ n, p (t.get n)) ↔ p t.s1 ∧ p t.s2 ∧ p t.s3 ∧ p t.s4 :=
  ⟨fun h => ⟨h .s1, h .s2, h .s3, h .s4⟩, fun h n => by cases n <;> simp [PerSlot.get, h]⟩

theorem PerZone.forall_get {α : Type} (t : PerZone α) (p : α → Prop) :
    (∀ z, p (t.get z)) ↔ p t.top ∧ p t.mid ∧ p t.low :=
  ⟨fun h => ⟨h .top, h .mid, h .low⟩, fun h z => by cases z <;> simp [PerZone.get, h]⟩

/-! ### What each update writes -/

@[simp] theorem State.slot_setSlot (s : State) (m n : SlotId) (x : Slot) :
    (s.setSlot n x).slot m = if m = n then x else s.slot m := by simp [State.slot, State.setSlot]

@[simp] theorem State.slot_setSlotState (s : State) (m n : SlotId) (x : SlotState) :
    (s.setSlotState n x).slot m = if m = n then { s.slot n with state := x } else s.slot m := by
  simp [State.setSlotState]

@[simp] theorem State.service_setService (s : State) (y z : Zone) (x : Service) :
    (s.setService z x).service y = if y = z then x else s.service y := by simp [State.service, State.setService]

@[simp] theorem State.zone_setZone (s : State) (y z : Zone) (x : ZoneRec) :
    (s.setZone z x).zone y = if y = z then x else s.zone y := by simp [State.zone, State.setZone]

@[simp] theorem State.olu_setLine (s : State) (i j : Fin 8) (l : Line) :
    (s.setLine i l).olu[j] = if i = j then l else s.olu[j] := by
  simp [State.setLine, Vector.getElem_set, Fin.ext_iff]

@[simp] theorem State.clm_setLayers (s : State) (l : Vector Layer 16) :
    (s.setLayers l).clm = { s.clm with layers := l } := rfl

@[simp] theorem State.ths_setThs (s : State) (t : Ths) : (s.setThs t).ths = t := rfl

@[simp] theorem State.mpt_setMpt (s : State) (m : Mpt) : (s.setMpt m).mpt = m := rfl

@[simp] theorem State.freeCount_useFree (s : State) : s.useFree.freeCount = s.freeCount + 1 := rfl

@[simp] theorem State.claim_setClaim (s : State) (c : Claim) : (s.setClaim c).sar.claim = c := rfl

/-! The slots' update leaves the rest of the SCU, the service's update the rest of the arbiter. -/

@[simp] theorem State.setSlot_latch (s : State) (n : SlotId) (x : Slot) : (s.setSlot n x).scu.latch = s.scu.latch := rfl
@[simp] theorem State.setSlotState_latch (s : State) (n : SlotId) (x : SlotState) :
    (s.setSlotState n x).scu.latch = s.scu.latch := rfl
@[simp] theorem State.setService_claim (s : State) (z : Zone) (x : Service) :
    (s.setService z x).sar.claim = s.sar.claim := rfl
@[simp] theorem State.setService_further (s : State) (z : Zone) (x : Service) :
    (s.setService z x).sar.further = s.sar.further := rfl
@[simp] theorem State.setClaim_further (s : State) (c : Claim) : (s.setClaim c).sar.further = s.sar.further := rfl
@[simp] theorem State.setClaim_services (s : State) (c : Claim) : (s.setClaim c).sar.services = s.sar.services := rfl
@[simp] theorem State.answer_claim (s : State) (a : HoldAnswer) : (s.answer a).sar.claim = s.sar.claim := rfl
@[simp] theorem State.answer_services (s : State) (a : HoldAnswer) : (s.answer a).sar.services = s.sar.services := rfl
@[simp] theorem State.answer_further (s : State) (a : HoldAnswer) : (s.answer a).sar.further = s.sar.further := rfl
@[simp] theorem State.deferNotices_claim (s : State) (ns : List ScuNotice) :
    (s.deferNotices ns).sar.claim = s.sar.claim := rfl
@[simp] theorem State.deferNotices_services (s : State) (ns : List ScuNotice) :
    (s.deferNotices ns).sar.services = s.sar.services := rfl
@[simp] theorem State.deferNotices_further (s : State) (ns : List ScuNotice) :
    (s.deferNotices ns).sar.further = s.sar.further ++ ns := rfl

/-! `State.setSlot` leaves every part but `scu`. -/

@[simp] theorem State.setSlot_pending (s : State) (n : SlotId) (x : Slot) : (s.setSlot n x).pending = s.pending := rfl
@[simp] theorem State.setSlot_clm (s : State) (n : SlotId) (x : Slot) : (s.setSlot n x).clm = s.clm := rfl
@[simp] theorem State.setSlot_pfe (s : State) (n : SlotId) (x : Slot) : (s.setSlot n x).pfe = s.pfe := rfl
@[simp] theorem State.setSlot_fmu (s : State) (n : SlotId) (x : Slot) : (s.setSlot n x).fmu = s.fmu := rfl
@[simp] theorem State.setSlot_zdu (s : State) (n : SlotId) (x : Slot) : (s.setSlot n x).zdu = s.zdu := rfl
@[simp] theorem State.setSlot_sar (s : State) (n : SlotId) (x : Slot) : (s.setSlot n x).sar = s.sar := rfl
@[simp] theorem State.setSlot_slc (s : State) (n : SlotId) (x : Slot) : (s.setSlot n x).slc = s.slc := rfl
@[simp] theorem State.setSlot_ths (s : State) (n : SlotId) (x : Slot) : (s.setSlot n x).ths = s.ths := rfl
@[simp] theorem State.setSlot_olu (s : State) (n : SlotId) (x : Slot) : (s.setSlot n x).olu = s.olu := rfl
@[simp] theorem State.setSlot_flt (s : State) (n : SlotId) (x : Slot) : (s.setSlot n x).flt = s.flt := rfl
@[simp] theorem State.setSlot_mpt (s : State) (n : SlotId) (x : Slot) : (s.setSlot n x).mpt = s.mpt := rfl
@[simp] theorem State.setSlot_pins (s : State) (n : SlotId) (x : Slot) : (s.setSlot n x).pins = s.pins := rfl
@[simp] theorem State.setSlot_freeCount (s : State) (n : SlotId) (x : Slot) : (s.setSlot n x).freeCount = s.freeCount := rfl

/-! `State.setSlotState` leaves every part but `scu`. -/

@[simp] theorem State.setSlotState_pending (s : State) (n : SlotId) (x : SlotState) : (s.setSlotState n x).pending = s.pending := rfl
@[simp] theorem State.setSlotState_clm (s : State) (n : SlotId) (x : SlotState) : (s.setSlotState n x).clm = s.clm := rfl
@[simp] theorem State.setSlotState_pfe (s : State) (n : SlotId) (x : SlotState) : (s.setSlotState n x).pfe = s.pfe := rfl
@[simp] theorem State.setSlotState_fmu (s : State) (n : SlotId) (x : SlotState) : (s.setSlotState n x).fmu = s.fmu := rfl
@[simp] theorem State.setSlotState_zdu (s : State) (n : SlotId) (x : SlotState) : (s.setSlotState n x).zdu = s.zdu := rfl
@[simp] theorem State.setSlotState_sar (s : State) (n : SlotId) (x : SlotState) : (s.setSlotState n x).sar = s.sar := rfl
@[simp] theorem State.setSlotState_slc (s : State) (n : SlotId) (x : SlotState) : (s.setSlotState n x).slc = s.slc := rfl
@[simp] theorem State.setSlotState_ths (s : State) (n : SlotId) (x : SlotState) : (s.setSlotState n x).ths = s.ths := rfl
@[simp] theorem State.setSlotState_olu (s : State) (n : SlotId) (x : SlotState) : (s.setSlotState n x).olu = s.olu := rfl
@[simp] theorem State.setSlotState_flt (s : State) (n : SlotId) (x : SlotState) : (s.setSlotState n x).flt = s.flt := rfl
@[simp] theorem State.setSlotState_mpt (s : State) (n : SlotId) (x : SlotState) : (s.setSlotState n x).mpt = s.mpt := rfl
@[simp] theorem State.setSlotState_pins (s : State) (n : SlotId) (x : SlotState) : (s.setSlotState n x).pins = s.pins := rfl
@[simp] theorem State.setSlotState_freeCount (s : State) (n : SlotId) (x : SlotState) : (s.setSlotState n x).freeCount = s.freeCount := rfl

/-! `State.setService` leaves every part but `sar`. -/

@[simp] theorem State.setService_pending (s : State) (z : Zone) (x : Service) : (s.setService z x).pending = s.pending := rfl
@[simp] theorem State.setService_clm (s : State) (z : Zone) (x : Service) : (s.setService z x).clm = s.clm := rfl
@[simp] theorem State.setService_pfe (s : State) (z : Zone) (x : Service) : (s.setService z x).pfe = s.pfe := rfl
@[simp] theorem State.setService_fmu (s : State) (z : Zone) (x : Service) : (s.setService z x).fmu = s.fmu := rfl
@[simp] theorem State.setService_zdu (s : State) (z : Zone) (x : Service) : (s.setService z x).zdu = s.zdu := rfl
@[simp] theorem State.setService_scu (s : State) (z : Zone) (x : Service) : (s.setService z x).scu = s.scu := rfl
@[simp] theorem State.setService_slc (s : State) (z : Zone) (x : Service) : (s.setService z x).slc = s.slc := rfl
@[simp] theorem State.setService_ths (s : State) (z : Zone) (x : Service) : (s.setService z x).ths = s.ths := rfl
@[simp] theorem State.setService_olu (s : State) (z : Zone) (x : Service) : (s.setService z x).olu = s.olu := rfl
@[simp] theorem State.setService_flt (s : State) (z : Zone) (x : Service) : (s.setService z x).flt = s.flt := rfl
@[simp] theorem State.setService_mpt (s : State) (z : Zone) (x : Service) : (s.setService z x).mpt = s.mpt := rfl
@[simp] theorem State.setService_pins (s : State) (z : Zone) (x : Service) : (s.setService z x).pins = s.pins := rfl
@[simp] theorem State.setService_freeCount (s : State) (z : Zone) (x : Service) : (s.setService z x).freeCount = s.freeCount := rfl

/-! `State.setClaim` leaves every part but `sar`. -/

@[simp] theorem State.setClaim_pending (s : State) (c : Claim) : (s.setClaim c).pending = s.pending := rfl
@[simp] theorem State.setClaim_clm (s : State) (c : Claim) : (s.setClaim c).clm = s.clm := rfl
@[simp] theorem State.setClaim_pfe (s : State) (c : Claim) : (s.setClaim c).pfe = s.pfe := rfl
@[simp] theorem State.setClaim_fmu (s : State) (c : Claim) : (s.setClaim c).fmu = s.fmu := rfl
@[simp] theorem State.setClaim_zdu (s : State) (c : Claim) : (s.setClaim c).zdu = s.zdu := rfl
@[simp] theorem State.setClaim_scu (s : State) (c : Claim) : (s.setClaim c).scu = s.scu := rfl
@[simp] theorem State.setClaim_slc (s : State) (c : Claim) : (s.setClaim c).slc = s.slc := rfl
@[simp] theorem State.setClaim_ths (s : State) (c : Claim) : (s.setClaim c).ths = s.ths := rfl
@[simp] theorem State.setClaim_olu (s : State) (c : Claim) : (s.setClaim c).olu = s.olu := rfl
@[simp] theorem State.setClaim_flt (s : State) (c : Claim) : (s.setClaim c).flt = s.flt := rfl
@[simp] theorem State.setClaim_mpt (s : State) (c : Claim) : (s.setClaim c).mpt = s.mpt := rfl
@[simp] theorem State.setClaim_pins (s : State) (c : Claim) : (s.setClaim c).pins = s.pins := rfl
@[simp] theorem State.setClaim_freeCount (s : State) (c : Claim) : (s.setClaim c).freeCount = s.freeCount := rfl

/-! `State.answer` leaves every part but `sar`. -/

@[simp] theorem State.answer_pending (s : State) (a : HoldAnswer) : (s.answer a).pending = s.pending := rfl
@[simp] theorem State.answer_clm (s : State) (a : HoldAnswer) : (s.answer a).clm = s.clm := rfl
@[simp] theorem State.answer_pfe (s : State) (a : HoldAnswer) : (s.answer a).pfe = s.pfe := rfl
@[simp] theorem State.answer_fmu (s : State) (a : HoldAnswer) : (s.answer a).fmu = s.fmu := rfl
@[simp] theorem State.answer_zdu (s : State) (a : HoldAnswer) : (s.answer a).zdu = s.zdu := rfl
@[simp] theorem State.answer_scu (s : State) (a : HoldAnswer) : (s.answer a).scu = s.scu := rfl
@[simp] theorem State.answer_slc (s : State) (a : HoldAnswer) : (s.answer a).slc = s.slc := rfl
@[simp] theorem State.answer_ths (s : State) (a : HoldAnswer) : (s.answer a).ths = s.ths := rfl
@[simp] theorem State.answer_olu (s : State) (a : HoldAnswer) : (s.answer a).olu = s.olu := rfl
@[simp] theorem State.answer_flt (s : State) (a : HoldAnswer) : (s.answer a).flt = s.flt := rfl
@[simp] theorem State.answer_mpt (s : State) (a : HoldAnswer) : (s.answer a).mpt = s.mpt := rfl
@[simp] theorem State.answer_pins (s : State) (a : HoldAnswer) : (s.answer a).pins = s.pins := rfl
@[simp] theorem State.answer_freeCount (s : State) (a : HoldAnswer) : (s.answer a).freeCount = s.freeCount := rfl

/-! `State.deferNotices` leaves every part but `sar`. -/

@[simp] theorem State.deferNotices_pending (s : State) (ns : List ScuNotice) : (s.deferNotices ns).pending = s.pending := rfl
@[simp] theorem State.deferNotices_clm (s : State) (ns : List ScuNotice) : (s.deferNotices ns).clm = s.clm := rfl
@[simp] theorem State.deferNotices_pfe (s : State) (ns : List ScuNotice) : (s.deferNotices ns).pfe = s.pfe := rfl
@[simp] theorem State.deferNotices_fmu (s : State) (ns : List ScuNotice) : (s.deferNotices ns).fmu = s.fmu := rfl
@[simp] theorem State.deferNotices_zdu (s : State) (ns : List ScuNotice) : (s.deferNotices ns).zdu = s.zdu := rfl
@[simp] theorem State.deferNotices_scu (s : State) (ns : List ScuNotice) : (s.deferNotices ns).scu = s.scu := rfl
@[simp] theorem State.deferNotices_slc (s : State) (ns : List ScuNotice) : (s.deferNotices ns).slc = s.slc := rfl
@[simp] theorem State.deferNotices_ths (s : State) (ns : List ScuNotice) : (s.deferNotices ns).ths = s.ths := rfl
@[simp] theorem State.deferNotices_olu (s : State) (ns : List ScuNotice) : (s.deferNotices ns).olu = s.olu := rfl
@[simp] theorem State.deferNotices_flt (s : State) (ns : List ScuNotice) : (s.deferNotices ns).flt = s.flt := rfl
@[simp] theorem State.deferNotices_mpt (s : State) (ns : List ScuNotice) : (s.deferNotices ns).mpt = s.mpt := rfl
@[simp] theorem State.deferNotices_pins (s : State) (ns : List ScuNotice) : (s.deferNotices ns).pins = s.pins := rfl
@[simp] theorem State.deferNotices_freeCount (s : State) (ns : List ScuNotice) : (s.deferNotices ns).freeCount = s.freeCount := rfl

/-! `State.tellArbiter` leaves every part but `ths`. -/

@[simp] theorem State.tellArbiter_pending (s : State) (m : StepperMessage) : (s.tellArbiter m).pending = s.pending := rfl
@[simp] theorem State.tellArbiter_clm (s : State) (m : StepperMessage) : (s.tellArbiter m).clm = s.clm := rfl
@[simp] theorem State.tellArbiter_pfe (s : State) (m : StepperMessage) : (s.tellArbiter m).pfe = s.pfe := rfl
@[simp] theorem State.tellArbiter_fmu (s : State) (m : StepperMessage) : (s.tellArbiter m).fmu = s.fmu := rfl
@[simp] theorem State.tellArbiter_zdu (s : State) (m : StepperMessage) : (s.tellArbiter m).zdu = s.zdu := rfl
@[simp] theorem State.tellArbiter_scu (s : State) (m : StepperMessage) : (s.tellArbiter m).scu = s.scu := rfl
@[simp] theorem State.tellArbiter_sar (s : State) (m : StepperMessage) : (s.tellArbiter m).sar = s.sar := rfl
@[simp] theorem State.tellArbiter_slc (s : State) (m : StepperMessage) : (s.tellArbiter m).slc = s.slc := rfl
@[simp] theorem State.tellArbiter_olu (s : State) (m : StepperMessage) : (s.tellArbiter m).olu = s.olu := rfl
@[simp] theorem State.tellArbiter_flt (s : State) (m : StepperMessage) : (s.tellArbiter m).flt = s.flt := rfl
@[simp] theorem State.tellArbiter_mpt (s : State) (m : StepperMessage) : (s.tellArbiter m).mpt = s.mpt := rfl
@[simp] theorem State.tellArbiter_pins (s : State) (m : StepperMessage) : (s.tellArbiter m).pins = s.pins := rfl
@[simp] theorem State.tellArbiter_freeCount (s : State) (m : StepperMessage) : (s.tellArbiter m).freeCount = s.freeCount := rfl

/-! `State.setZone` leaves every part but `zdu`. -/

@[simp] theorem State.setZone_pending (s : State) (z : Zone) (x : ZoneRec) : (s.setZone z x).pending = s.pending := rfl
@[simp] theorem State.setZone_clm (s : State) (z : Zone) (x : ZoneRec) : (s.setZone z x).clm = s.clm := rfl
@[simp] theorem State.setZone_pfe (s : State) (z : Zone) (x : ZoneRec) : (s.setZone z x).pfe = s.pfe := rfl
@[simp] theorem State.setZone_fmu (s : State) (z : Zone) (x : ZoneRec) : (s.setZone z x).fmu = s.fmu := rfl
@[simp] theorem State.setZone_scu (s : State) (z : Zone) (x : ZoneRec) : (s.setZone z x).scu = s.scu := rfl
@[simp] theorem State.setZone_sar (s : State) (z : Zone) (x : ZoneRec) : (s.setZone z x).sar = s.sar := rfl
@[simp] theorem State.setZone_slc (s : State) (z : Zone) (x : ZoneRec) : (s.setZone z x).slc = s.slc := rfl
@[simp] theorem State.setZone_ths (s : State) (z : Zone) (x : ZoneRec) : (s.setZone z x).ths = s.ths := rfl
@[simp] theorem State.setZone_olu (s : State) (z : Zone) (x : ZoneRec) : (s.setZone z x).olu = s.olu := rfl
@[simp] theorem State.setZone_flt (s : State) (z : Zone) (x : ZoneRec) : (s.setZone z x).flt = s.flt := rfl
@[simp] theorem State.setZone_mpt (s : State) (z : Zone) (x : ZoneRec) : (s.setZone z x).mpt = s.mpt := rfl
@[simp] theorem State.setZone_pins (s : State) (z : Zone) (x : ZoneRec) : (s.setZone z x).pins = s.pins := rfl
@[simp] theorem State.setZone_freeCount (s : State) (z : Zone) (x : ZoneRec) : (s.setZone z x).freeCount = s.freeCount := rfl

/-! `State.setLine` leaves every part but `olu`. -/

@[simp] theorem State.setLine_pending (s : State) (i : Fin 8) (l : Line) : (s.setLine i l).pending = s.pending := rfl
@[simp] theorem State.setLine_clm (s : State) (i : Fin 8) (l : Line) : (s.setLine i l).clm = s.clm := rfl
@[simp] theorem State.setLine_pfe (s : State) (i : Fin 8) (l : Line) : (s.setLine i l).pfe = s.pfe := rfl
@[simp] theorem State.setLine_fmu (s : State) (i : Fin 8) (l : Line) : (s.setLine i l).fmu = s.fmu := rfl
@[simp] theorem State.setLine_zdu (s : State) (i : Fin 8) (l : Line) : (s.setLine i l).zdu = s.zdu := rfl
@[simp] theorem State.setLine_scu (s : State) (i : Fin 8) (l : Line) : (s.setLine i l).scu = s.scu := rfl
@[simp] theorem State.setLine_sar (s : State) (i : Fin 8) (l : Line) : (s.setLine i l).sar = s.sar := rfl
@[simp] theorem State.setLine_slc (s : State) (i : Fin 8) (l : Line) : (s.setLine i l).slc = s.slc := rfl
@[simp] theorem State.setLine_ths (s : State) (i : Fin 8) (l : Line) : (s.setLine i l).ths = s.ths := rfl
@[simp] theorem State.setLine_flt (s : State) (i : Fin 8) (l : Line) : (s.setLine i l).flt = s.flt := rfl
@[simp] theorem State.setLine_mpt (s : State) (i : Fin 8) (l : Line) : (s.setLine i l).mpt = s.mpt := rfl
@[simp] theorem State.setLine_pins (s : State) (i : Fin 8) (l : Line) : (s.setLine i l).pins = s.pins := rfl
@[simp] theorem State.setLine_freeCount (s : State) (i : Fin 8) (l : Line) : (s.setLine i l).freeCount = s.freeCount := rfl

/-! `State.setLayers` leaves every part but `clm`. -/

@[simp] theorem State.setLayers_pending (s : State) (l : Vector Layer 16) : (s.setLayers l).pending = s.pending := rfl
@[simp] theorem State.setLayers_pfe (s : State) (l : Vector Layer 16) : (s.setLayers l).pfe = s.pfe := rfl
@[simp] theorem State.setLayers_fmu (s : State) (l : Vector Layer 16) : (s.setLayers l).fmu = s.fmu := rfl
@[simp] theorem State.setLayers_zdu (s : State) (l : Vector Layer 16) : (s.setLayers l).zdu = s.zdu := rfl
@[simp] theorem State.setLayers_scu (s : State) (l : Vector Layer 16) : (s.setLayers l).scu = s.scu := rfl
@[simp] theorem State.setLayers_sar (s : State) (l : Vector Layer 16) : (s.setLayers l).sar = s.sar := rfl
@[simp] theorem State.setLayers_slc (s : State) (l : Vector Layer 16) : (s.setLayers l).slc = s.slc := rfl
@[simp] theorem State.setLayers_ths (s : State) (l : Vector Layer 16) : (s.setLayers l).ths = s.ths := rfl
@[simp] theorem State.setLayers_olu (s : State) (l : Vector Layer 16) : (s.setLayers l).olu = s.olu := rfl
@[simp] theorem State.setLayers_flt (s : State) (l : Vector Layer 16) : (s.setLayers l).flt = s.flt := rfl
@[simp] theorem State.setLayers_mpt (s : State) (l : Vector Layer 16) : (s.setLayers l).mpt = s.mpt := rfl
@[simp] theorem State.setLayers_pins (s : State) (l : Vector Layer 16) : (s.setLayers l).pins = s.pins := rfl
@[simp] theorem State.setLayers_freeCount (s : State) (l : Vector Layer 16) : (s.setLayers l).freeCount = s.freeCount := rfl

/-! `State.useFree` leaves every part but `freeCount`. -/

@[simp] theorem State.useFree_pending (s : State) : (s.useFree).pending = s.pending := rfl
@[simp] theorem State.useFree_clm (s : State) : (s.useFree).clm = s.clm := rfl
@[simp] theorem State.useFree_pfe (s : State) : (s.useFree).pfe = s.pfe := rfl
@[simp] theorem State.useFree_fmu (s : State) : (s.useFree).fmu = s.fmu := rfl
@[simp] theorem State.useFree_zdu (s : State) : (s.useFree).zdu = s.zdu := rfl
@[simp] theorem State.useFree_scu (s : State) : (s.useFree).scu = s.scu := rfl
@[simp] theorem State.useFree_sar (s : State) : (s.useFree).sar = s.sar := rfl
@[simp] theorem State.useFree_slc (s : State) : (s.useFree).slc = s.slc := rfl
@[simp] theorem State.useFree_ths (s : State) : (s.useFree).ths = s.ths := rfl
@[simp] theorem State.useFree_olu (s : State) : (s.useFree).olu = s.olu := rfl
@[simp] theorem State.useFree_flt (s : State) : (s.useFree).flt = s.flt := rfl
@[simp] theorem State.useFree_mpt (s : State) : (s.useFree).mpt = s.mpt := rfl
@[simp] theorem State.useFree_pins (s : State) : (s.useFree).pins = s.pins := rfl

/-! `State.setThs` leaves every part but `ths`. -/

@[simp] theorem State.setThs_pending (s : State) (t : Ths) : (s.setThs t).pending = s.pending := rfl
@[simp] theorem State.setThs_clm (s : State) (t : Ths) : (s.setThs t).clm = s.clm := rfl
@[simp] theorem State.setThs_pfe (s : State) (t : Ths) : (s.setThs t).pfe = s.pfe := rfl
@[simp] theorem State.setThs_fmu (s : State) (t : Ths) : (s.setThs t).fmu = s.fmu := rfl
@[simp] theorem State.setThs_zdu (s : State) (t : Ths) : (s.setThs t).zdu = s.zdu := rfl
@[simp] theorem State.setThs_scu (s : State) (t : Ths) : (s.setThs t).scu = s.scu := rfl
@[simp] theorem State.setThs_sar (s : State) (t : Ths) : (s.setThs t).sar = s.sar := rfl
@[simp] theorem State.setThs_slc (s : State) (t : Ths) : (s.setThs t).slc = s.slc := rfl
@[simp] theorem State.setThs_olu (s : State) (t : Ths) : (s.setThs t).olu = s.olu := rfl
@[simp] theorem State.setThs_flt (s : State) (t : Ths) : (s.setThs t).flt = s.flt := rfl
@[simp] theorem State.setThs_mpt (s : State) (t : Ths) : (s.setThs t).mpt = s.mpt := rfl
@[simp] theorem State.setThs_pins (s : State) (t : Ths) : (s.setThs t).pins = s.pins := rfl
@[simp] theorem State.setThs_freeCount (s : State) (t : Ths) : (s.setThs t).freeCount = s.freeCount := rfl

/-! `State.setMpt` leaves every part but `mpt`. -/

@[simp] theorem State.setMpt_pending (s : State) (m : Mpt) : (s.setMpt m).pending = s.pending := rfl
@[simp] theorem State.setMpt_clm (s : State) (m : Mpt) : (s.setMpt m).clm = s.clm := rfl
@[simp] theorem State.setMpt_pfe (s : State) (m : Mpt) : (s.setMpt m).pfe = s.pfe := rfl
@[simp] theorem State.setMpt_fmu (s : State) (m : Mpt) : (s.setMpt m).fmu = s.fmu := rfl
@[simp] theorem State.setMpt_zdu (s : State) (m : Mpt) : (s.setMpt m).zdu = s.zdu := rfl
@[simp] theorem State.setMpt_scu (s : State) (m : Mpt) : (s.setMpt m).scu = s.scu := rfl
@[simp] theorem State.setMpt_sar (s : State) (m : Mpt) : (s.setMpt m).sar = s.sar := rfl
@[simp] theorem State.setMpt_slc (s : State) (m : Mpt) : (s.setMpt m).slc = s.slc := rfl
@[simp] theorem State.setMpt_ths (s : State) (m : Mpt) : (s.setMpt m).ths = s.ths := rfl
@[simp] theorem State.setMpt_olu (s : State) (m : Mpt) : (s.setMpt m).olu = s.olu := rfl
@[simp] theorem State.setMpt_flt (s : State) (m : Mpt) : (s.setMpt m).flt = s.flt := rfl
@[simp] theorem State.setMpt_pins (s : State) (m : Mpt) : (s.setMpt m).pins = s.pins := rfl
@[simp] theorem State.setMpt_freeCount (s : State) (m : Mpt) : (s.setMpt m).freeCount = s.freeCount := rfl

end Sys2Proof.Machine
end

