-- ==== Sys2Proof/Laws/Lines.lean ====
section
/-! SUPPORT. What requests to the lines can do (chapter 9): one lemma per shared operation. -/

namespace Sys2Proof.Machine

/-- A line as its driver requires. -/
def Line.okFor (relay : Bool) (l : Line) : Prop := if relay then l.relayOk else l.pwmOk

@[simp] theorem Line.follow_function (relay : Bool) (old : Nat) (l : Line) : (l.follow relay old).function = l.function := by
  unfold Line.follow Line.startRecovery; (repeat' split) <;> rfl

@[simp] theorem Line.follow_mode (relay : Bool) (old : Nat) (l : Line) : (l.follow relay old).mode = l.mode := by
  unfold Line.follow Line.startRecovery; (repeat' split) <;> rfl

@[simp] theorem Line.follow_auto (relay : Bool) (old : Nat) (l : Line) : (l.follow relay old).auto = l.auto := by
  unfold Line.follow Line.startRecovery; (repeat' split) <;> rfl

@[simp] theorem Line.drive_function (relay : Bool) (m : LineMode) (a : Nat) (l : Line) :
    (l.drive relay m a).function = l.function := by simp [Line.drive]

@[simp] theorem Line.drive_mode (relay : Bool) (m : LineMode) (a : Nat) (l : Line) : (l.drive relay m a).mode = m := by
  simp [Line.drive]

@[simp] theorem Line.drive_auto (relay : Bool) (m : LineMode) (a : Nat) (l : Line) : (l.drive relay m a).auto = a := by
  simp [Line.drive]

@[simp] theorem Line.drive_recoveryTime (relay : Bool) (m : LineMode) (a : Nat) (l : Line) :
    (l.drive relay m a).recoveryTime = l.recoveryTime := by
  unfold Line.drive Line.follow Line.startRecovery; (repeat' split) <;> rfl

/-- A line that follows a changed target stays as its driver requires (R167, R168). -/
theorem Line.drive_ok {relay : Bool} {l : Line} (h : l.okFor relay) (m : LineMode) (a : Nat) :
    (l.drive relay m a).okFor relay := by
  cases relay
  · simp only [Line.okFor, Bool.false_eq_true, if_false, Line.pwmOk] at h ⊢
    obtain ⟨h1, h2, h3⟩ := h
    simp only [Line.drive, Line.follow]
    split
    · simp_all [Line.target]
    · simp_all [Line.target]
  · simp only [Line.okFor, if_true, Line.relayOk] at h ⊢
    simp only [Line.drive]
    generalize hx : ({ l with mode := m, auto := a } : Line) = x
    have e1 : x.output = l.output := by rw [← hx]
    have e2 : x.recovery = l.recovery := by rw [← hx]
    have e3 : x.deferred = l.deferred := by rw [← hx]
    unfold Line.follow Line.startRecovery
    have ht : ∀ y : Line, y.mode = x.mode → y.auto = x.auto → y.target = x.target := by
      intro y h1 h2; simp [Line.target, h1, h2]
    split
    · simp_all
    · rcases h with ⟨h1, h2, h3, h4⟩ | ⟨h1, h2, h3⟩
      · (repeat' split) <;> simp_all [Line.target]
      · (repeat' split) <;> simp_all [Line.target]
        simp [← e2]

/-- A request changes the lines only. -/
theorem askLine_eq (f : LineFunction) (v : Nat) (s : State) : askLine f v s = { s with olu := (askLine f v s).olu } := by
  unfold askLine; split <;> rfl

/-- What a request to a line does to the lines depends on the lines alone. -/
theorem askLine_olu_congr (f : LineFunction) (v : Nat) {s u : State} (h : s.olu = u.olu) :
    (askLine f v s).olu = (askLine f v u).olu := by
  cases s; cases u
  simp only at h
  subst h
  simp only [askLine, State.carrier, State.setLine]
  generalize (List.finRange 8).find? _ = c
  cases c <;> rfl

/-- The lines after a request: each keeps its function, and stays as its driver requires. -/
theorem askLine_lines (f : LineFunction) (v : Nat) (s : State) (j : Fin 8) :
    (askLine f v s).olu[j] = s.olu[j] ∨
      (s.olu[j].function = f ∧ (askLine f v s).olu[j] = s.olu[j].drive (isRelay j) s.olu[j].mode v) := by
  unfold askLine
  split
  · exact .inl rfl
  · next i hi =>
    rw [State.olu_setLine]
    split
    · next e =>
      subst e
      refine .inr ⟨?_, rfl⟩
      have := List.find?_some hi
      simpa using this
    · exact .inl rfl

/-! ### Lines that are asked off -/

/-- No function is on two lines (R165). -/
def State.mapOk (s : State) : Prop :=
  ∀ i j : Fin 8, s.olu[i].function = s.olu[j].function → s.olu[i].function ≠ .noFunction → i = j

/-- A line with the function, if there is one, is asked off. -/
def State.silent (s : State) (f : LineFunction) : Prop := ∀ i : Fin 8, s.olu[i].function = f → s.olu[i].auto = 0

@[simp] theorem askLine_function (f : LineFunction) (v : Nat) (s : State) (i : Fin 8) :
    (askLine f v s).olu[i].function = s.olu[i].function := by
  rcases askLine_lines f v s i with h | ⟨_, h⟩
  · rw [h]
  · rw [h, Line.drive_function]

@[simp] theorem askLine_mode (f : LineFunction) (v : Nat) (s : State) (i : Fin 8) :
    (askLine f v s).olu[i].mode = s.olu[i].mode := by
  rcases askLine_lines f v s i with h | ⟨_, h⟩
  · rw [h]
  · rw [h, Line.drive_mode]

@[simp] theorem askLine_mapOk (f : LineFunction) (v : Nat) (s : State) : (askLine f v s).mapOk ↔ s.mapOk := by
  simp only [State.mapOk, askLine_function]

/-- A line asked off is asked off (R166). -/
theorem askLine_silent {f : LineFunction} {s : State} (h : s.mapOk) (hf : f ≠ .noFunction) : (askLine f 0 s).silent f := by
  intro i hi
  rw [askLine_function] at hi
  unfold askLine
  cases hc : s.carrier f with
  | none =>
    exact absurd hi (by simpa using List.find?_eq_none.1 hc i (List.mem_finRange i))
  | some j =>
    have hj : s.olu[j].function = f := by simpa using List.find?_some hc
    have : i = j := h i j (hi.trans hj.symm) (by rw [hi]; exact hf)
    subst this
    show (s.setLine i _).olu[i].auto = 0
    rw [State.olu_setLine, if_pos rfl, Line.drive_auto]

/-- It stays off while other lines are asked, or are asked off. -/
theorem State.silent.askLine {f g : LineFunction} {v : Nat} {s : State} (h : s.silent f) (hv : v = 0 ∨ g ≠ f) :
    (askLine g v s).silent f := by
  intro i hi
  rw [askLine_function] at hi
  rcases askLine_lines g v s i with e | ⟨e, k⟩
  · rw [e]; exact h i hi
  · rw [k, Line.drive_auto]
    rcases hv with hv | hv
    · exact hv
    · exact absurd (e.symm.trans hi) hv

theorem askLine_carrier (f g : LineFunction) (v : Nat) (s : State) : (askLine f v s).carrier g = s.carrier g := by
  simp only [State.carrier, askLine_function]

/-- Requests for different functions commute. -/
theorem askLine_comm {f g : LineFunction} (u v : Nat) (s : State) (h : f ≠ g) :
    askLine f u (askLine g v s) = askLine g v (askLine f u s) := by
  have hf : ∀ i, s.carrier f = some i → s.olu[i].function = f := fun i hi => by simpa using List.find?_some hi
  have hg : ∀ i, s.carrier g = some i → s.olu[i].function = g := fun i hi => by simpa using List.find?_some hi
  have key : ∀ (a b : LineFunction) (x y : Nat), askLine a x (askLine b y s) =
      match s.carrier a with
      | none => askLine b y s
      | some i => (askLine b y s).setLine i ((askLine b y s).olu[i].drive (isRelay i) (askLine b y s).olu[i].mode x) := by
    intro a b x y
    have hc := askLine_carrier b a y s
    generalize askLine b y s = t at hc ⊢
    cases hs : s.carrier a <;> simp only [askLine, hc, hs]
  rw [key, key]
  unfold askLine
  cases hi : s.carrier f with
  | none => cases s.carrier g <;> rfl
  | some i =>
    cases hj : s.carrier g with
    | none => rfl
    | some j =>
      have hij : i ≠ j := by
        rintro rfl
        exact h ((hf i hi).symm.trans (hg i hj))
      dsimp only
      rw [State.olu_setLine, State.olu_setLine, if_neg (Ne.symm hij), if_neg hij]
      simp only [State.setLine]
      congr 1
      exact Vector.set_comm _ _ (fun e => hij (Fin.ext e.symm))

end Sys2Proof.Machine
end

