-- ==== Sys2Proof/Laws/Within.lean ====
section
/-! SUPPORT. What the operations inside the block can do to the promises of Safety.lean: `Within s t` says that going from `s`
to `t` leaves the queue of commands, the probe front end, the port and the confirm inputs alone and keeps every other
promise. Each shared operation gets one lemma. -/

namespace Sys2Proof.Machine

/-- From `s` to `t` by operations of the blocks behind the port and the probe front end. -/
structure Within (s t : State) : Prop where
  pending : t.pending = s.pending
  water : t.fmu.pendingVolume = s.fmu.pendingVolume
  pfe : t.pfe = s.pfe
  mpt : t.mpt = s.mpt
  confirm : t.pins.confirm = s.pins.confirm
  settings : t.settings = s.settings
  faults : s.faultsOk → t.faultsOk
  lines : s.linesOk → t.linesOk
  slots : s.slotsOk → t.slotsOk
  solar : s.solarOk → t.solarOk
  layers : s.layersOk → t.layersOk
  hold : s.holdOk → t.holdOk
  agree : s.linesOk → s.agreeOk → t.agreeOk

theorem Within.refl (s : State) : Within s s := ⟨rfl, rfl, rfl, rfl, rfl, rfl, id, id, id, id, id, id, fun _ => id⟩

theorem Within.trans {s t u : State} (h : Within s t) (k : Within t u) : Within s u where
  pending := k.pending.trans h.pending
  pfe := k.pfe.trans h.pfe
  mpt := k.mpt.trans h.mpt
  confirm := k.confirm.trans h.confirm
  water := k.water.trans h.water
  settings := k.settings.trans h.settings
  faults := k.faults ∘ h.faults
  lines := k.lines ∘ h.lines
  slots := k.slots ∘ h.slots
  solar := k.solar ∘ h.solar
  layers := k.layers ∘ h.layers
  hold := k.hold ∘ h.hold
  agree hl ha := k.agree (h.lines hl) (h.agree hl ha)

theorem Within.foldl {α : Type} {f : State → α → State} (h : ∀ s a, Within s (f s a)) (l : List α) (s : State) :
    Within s (l.foldl f s) := by
  induction l generalizing s with
  | nil => exact .refl s
  | cons a l ih => exact (h s a).trans (ih _)

/-! ### Updates of parts that no promise speaks of -/

theorem Within.setSar (s : State) (a : Sar) (h1 : a.holdoffTime = s.sar.holdoffTime := by rfl)
    (h2 : a.threshold = s.sar.threshold := by rfl) : Within s { s with sar := a } :=
  ⟨rfl, rfl, rfl, rfl, rfl, by simp [State.settings, h1, h2], id, id, id, id, id, id, fun _ => id⟩
theorem Within.setZdu (s : State) (z : Zdu) (h : z.figures = s.zdu.figures := by rfl)
    (hr : z.rankings = s.zdu.rankings := by rfl) : Within s { s with zdu := z } :=
  ⟨rfl, rfl, rfl, rfl, rfl, by simp [State.settings, h, hr], id, id, id, id, id, id, fun _ => id⟩
theorem Within.setFmu (s : State) (f : Fmu) (h : f.figures = s.fmu.figures := by rfl)
    (hw : f.pendingVolume = s.fmu.pendingVolume := by rfl) : Within s { s with fmu := f } :=
  ⟨rfl, hw, rfl, rfl, rfl, by simp [State.settings, h], id, id, id, id, id, id, fun _ => id⟩
theorem Within.useFree (s : State) : Within s s.useFree := ⟨rfl, rfl, rfl, rfl, rfl, rfl, id, id, id, id, id, id, fun _ => id⟩
theorem Within.setService (s : State) (z : Zone) (x : Service) : Within s (s.setService z x) := .setSar _ _
theorem Within.setClaim (s : State) (c : Claim) : Within s (s.setClaim c) := .setSar _ _
theorem Within.answer (s : State) (a : HoldAnswer) : Within s (s.answer a) := .setSar _ _
theorem Within.deferNotices (s : State) (ns : List ScuNotice) : Within s (s.deferNotices ns) := .setSar _ _

/-- An update of a zone record that keeps its settings. -/
theorem Within.setZone (s : State) (z : Zone) (x : ZoneRec) (h : x.figures = (s.zone z).figures := by rfl)
    (hr : x.ranking = (s.zone z).ranking := by rfl) : Within s (s.setZone z x) := by
  refine .setZdu _ _ (by cases z <;> simp only [Zdu.figures, State.zone, PerZone.get, PerZone.set] at h ⊢ <;> rw [h]) ?_
  funext y
  simp only [Zdu.rankings, PerZone.get_set]
  split
  · next e => rw [e]; exact hr
  · rfl

/-- An update of the stepper that keeps the base and the pointer in their order. -/
theorem Within.setThs (s : State) (t : Ths) (h : s.holdOk → t.settings.base ≤ t.pointer)
    (hs : t.settings = s.ths.settings := by rfl) : Within s (s.setThs t) :=
  ⟨rfl, rfl, rfl, rfl, rfl, by simp [State.settings, State.setThs, hs], id, id, id, id, id, h, fun _ => id⟩

theorem Within.tellArbiter (s : State) (m : StepperMessage) : Within s (s.tellArbiter m) :=
  .setThs s { s.ths with messages := s.ths.messages ++ [m] } id

/-- The SCU's surplus figure, timer and confirm levels. -/
theorem Within.setSurplusFields (s : State) (w : Nat) (t : Option Nat) :
    Within s { s with scu := { s.scu with surplus := w, surplusTimer := t } } :=
  ⟨rfl, rfl, rfl, rfl, rfl, rfl, id, id, id, id, id, id, fun _ => id⟩

/-! ### Lines -/

theorem Within.setLine {s : State} (i : Fin 8) {l : Line} (hf : l.function = s.olu[i].function)
    (h : s.olu[i].okFor (isRelay i) → l.okFor (isRelay i))
    (hm : s.olu[i].function.forcible = false → s.olu[i].mode = .auto → l.mode = .auto)
    (ha : l.auto ≠ 0 → s.olu[i].auto ≠ 0 ∨ s.warrants s.olu[i].function = true)
    (ht : l.recoveryTime = s.olu[i].recoveryTime := by rfl) : Within s (s.setLine i l) where
  agree _ hs j := by
    have w : (s.setLine i l).warrants = s.warrants := rfl
    rw [State.olu_setLine, w]
    split
    · next e =>
      subst e
      rw [hf]
      exact ⟨fun k => hm k ((hs i).1 k), fun k => (ha k).elim (hs i).2 id⟩
    · exact hs j
  settings := by
    have : lineFigures (s.setLine i l).olu = lineFigures s.olu := by
      funext j
      unfold lineFigures
      rw [State.olu_setLine]
      split
      · next e => subst e; rw [hf, ht]
      · rfl
    simp only [State.settings, this]
    rfl
  pending := rfl
  pfe := rfl
  mpt := rfl
  confirm := rfl
  water := rfl
  faults := id
  slots := id
  solar := id
  layers := id
  hold := id
  lines := by
    rintro ⟨h1, h2⟩
    have hfun : ∀ j : Fin 8, (s.setLine i l).olu[j].function = s.olu[j].function := by
      intro j; rw [State.olu_setLine]; split
      · next e => rw [← e, hf]
      · rfl
    refine ⟨fun j => ?_, fun j k => ?_⟩
    · have h1' := h1 j
      change (s.setLine i l).olu[j].okFor (isRelay j)
      rw [State.olu_setLine]
      split
      · next e => subst e; exact h h1'
      · exact h1'
    · rw [hfun, hfun]; exact h2 j k

theorem Within.drive (s : State) (i : Fin 8) (m : LineMode) (a : Nat)
    (hm : s.olu[i].function.forcible = false → s.olu[i].mode = .auto → m = .auto)
    (ha : a ≠ 0 → s.olu[i].auto ≠ 0 ∨ s.warrants s.olu[i].function = true) :
    Within s (s.setLine i (s.olu[i].drive (isRelay i) m a)) :=
  .setLine i (Line.drive_function ..) (fun h => Line.drive_ok h m a) (by rw [Line.drive_mode]; exact hm)
    (by rw [Line.drive_auto]; exact ha) (Line.drive_recoveryTime ..)

/-- A request that its owner's state warrants (R84, R103, R142, R166). -/
theorem askLine_within (f : LineFunction) (v : Nat) (s : State) (h : v ≠ 0 → s.warrants f = true) :
    Within s (askLine f v s) := by
  unfold askLine
  split
  · exact .refl s
  · next i hi =>
    have hf : s.olu[i].function = f := by simpa using List.find?_some hi
    exact .drive _ _ _ _ (fun _ h => h) fun hv => .inr (by rw [hf]; exact h hv)

theorem askCall_within (n : SlotId) (b : Bool) (s : State) (h : b = true → (s.slot n).calls = true := by simp) :
    Within s (askCall n b s) := askLine_within _ _ _ (by cases b <;> simp_all [onOff, State.warrants])
theorem askPump_within (n : SlotId) (b : Bool) (s : State) (h : b = true → (s.slot n).pumps = true := by simp) :
    Within s (askPump n b s) := askLine_within _ _ _ (by cases b <;> simp_all [onOff, State.warrants])
theorem linesOff_within (n : SlotId) (s : State) : Within s (linesOff n s) :=
  (askCall_within n false s).trans (askPump_within n false _)

@[simp] theorem askLine_scu (f : LineFunction) (v : Nat) (s : State) : (askLine f v s).scu = s.scu := by
  rw [askLine_eq]
@[simp] theorem askLine_slot (f : LineFunction) (v : Nat) (s : State) (n : SlotId) : (askLine f v s).slot n = s.slot n := by
  simp [State.slot]
@[simp] theorem askCall_slot (m : SlotId) (b : Bool) (s : State) (n : SlotId) : (askCall m b s).slot n = s.slot n := by
  simp [askCall]
@[simp] theorem askPump_slot (m : SlotId) (b : Bool) (s : State) (n : SlotId) : (askPump m b s).slot n = s.slot n := by
  simp [askPump]
@[simp] theorem linesOff_slot (m : SlotId) (s : State) (n : SlotId) : (linesOff m s).slot n = s.slot n := by
  simp [linesOff]
@[simp] theorem askCall_scu (m : SlotId) (b : Bool) (s : State) : (askCall m b s).scu = s.scu := by simp [askCall]
@[simp] theorem askPump_scu (m : SlotId) (b : Bool) (s : State) : (askPump m b s).scu = s.scu := by simp [askPump]
@[simp] theorem linesOff_scu (m : SlotId) (s : State) : (linesOff m s).scu = s.scu := by simp [linesOff]

/-! ### Fault reports -/

theorem FaultKind.index_inj : ∀ {a b : FaultKind}, a.index = b.index → a = b := by
  intro a b; cases a <;> cases b <;> decide

@[simp] theorem Flt.kindRec_setRec (f : Flt) (j k : FaultKind) (r : KindRec) :
    (f.setRec k r).kindRec j = if j = k then r else f.kindRec j := by
  unfold Flt.setRec Flt.kindRec
  rw [Vector_set_get]
  by_cases h : k.index = j.index
  · simp [FaultKind.index_inj h]
  · rw [if_neg h, if_neg]; rintro rfl; exact h rfl

@[simp] theorem Flt.fillFirst_kinds (f : Flt) (k : FaultKind) (x : Subject) : (f.fillFirst k x).kinds = f.kinds := by
  unfold Flt.fillFirst; split <;> rfl

/-- What the promise of the Fault Monitor says of its records alone. -/
def Flt.recordsOk (f : Flt) : Prop :=
  (∀ i : Fin 16, f.kinds[i].count ≤ 255) ∧ (∀ r, f.first = some r → (f.kindRec r.kind).status = true) ∧
    (f.kindRec .topProbeLost).trip = true ∧ (f.kindRec .cylinderOvertemp).trip = true

theorem State.faultsOk_iff (s : State) : s.faultsOk ↔ s.pins.alertLow = s.flt.pinCondition ∧ s.flt.recordsOk := Iff.rfl

/-- New records that are in order are re-judged (R180, R181). -/
theorem rejudge_within {f : Flt} {s : State} (h : s.flt.recordsOk → f.recordsOk) (hp : f.policy = s.flt.policy) :
    Within s (rejudge f s) := by
  unfold rejudge
  have base : Within s { s with flt := f, pins := { s.pins with alertLow := f.pinCondition } } :=
    ⟨rfl, rfl, rfl, rfl, rfl, by simp only [State.settings, hp], fun hs => ⟨rfl, h hs.2⟩, id, id, id, id, id, fun _ => id⟩
  split
  · exact base
  · exact base.trans (askLine_within _ _ _ fun _ => rfl)

/-- A record with the same mask and severity leaves the policy. -/
theorem Flt.setRec_policy {f : Flt} {k : FaultKind} {r : KindRec} (h1 : r.masked = (f.kindRec k).masked)
    (h2 : r.trip = (f.kindRec k).trip) : (f.setRec k r).policy = f.policy := by
  funext i
  simp only [Flt.policy, Flt.setRec]
  rw [Vector_set_get]
  split
  · next e => subst e; rw [h1, h2]; rfl
  · rfl

@[simp] theorem Flt.fillFirst_policy (f : Flt) (k : FaultKind) (x : Subject) : (f.fillFirst k x).policy = f.policy := by
  funext i; simp [Flt.policy]

theorem Flt.report_recordsOk {f : Flt} (k : FaultKind) (x : Subject) (h : f.recordsOk) :
    (f.setRec k ((f.kindRec k).report x)).recordsOk := by
  obtain ⟨h1, h2, h3, h4⟩ := h
  refine ⟨fun i => ?_, fun r hr => ?_, ?_, ?_⟩
  · simp only [Flt.setRec]
    rw [Vector_set_get]; split
    · simp [KindRec.report]
    · exact h1 i
  · rw [Flt.kindRec_setRec]; split
    · rfl
    · exact h2 r hr
  · rw [Flt.kindRec_setRec]; split
    · next e => subst e; simpa [KindRec.report] using h3
    · exact h3
  · rw [Flt.kindRec_setRec]; split
    · next e => subst e; simpa [KindRec.report] using h4
    · exact h4

theorem Flt.fillFirst_recordsOk {f : Flt} {k : FaultKind} {x : Subject} (h : f.recordsOk)
    (hk : (f.kindRec k).status = true) : (f.fillFirst k x).recordsOk := by
  unfold Flt.fillFirst
  split
  · exact h
  · refine ⟨h.1, fun r hr => ?_, h.2.2⟩
    simp only [Option.some.injEq] at hr
    subst hr; exact hk

/-- A masked kind has no part in the alert pin condition. -/
theorem Flt.pinCondition_setRec_masked {f : Flt} {k : FaultKind} {r : KindRec} (h : (f.kindRec k).masked = true)
    (hr : r.masked = true) : (f.setRec k r).pinCondition = f.pinCondition := by
  have key : ∀ (g : Flt), g.pinCondition = true ↔ ∃ i : Fin 16, g.kinds[i].status = true ∧ g.kinds[i].masked = false := by
    intro g
    simp only [Flt.pinCondition, List.any_eq_true, Bool.and_eq_true, Bool.not_eq_true']
    constructor
    · rintro ⟨x, hx, h⟩
      obtain ⟨i, hi, rfl⟩ := List.mem_iff_getElem.1 hx
      exact ⟨⟨i, by simpa using hi⟩, by simpa using h⟩
    · rintro ⟨i, h⟩
      exact ⟨g.kinds[i], by simp, h⟩
  rw [Bool.eq_iff_iff, key, key]
  have hg : ∀ i : Fin 16, (f.setRec k r).kinds[i] = if k.index = i then r else f.kinds[i] := fun i => Vector_set_get ..
  constructor
  · rintro ⟨i, h1, h2⟩
    rw [hg] at h1 h2
    split at h1
    · next e => rw [if_pos e, hr] at h2; cases h2
    · next e => rw [if_neg e] at h2; exact ⟨i, h1, h2⟩
  · rintro ⟨i, h1, h2⟩
    refine ⟨i, ?_⟩
    rw [hg]
    split
    · next e => subst e; rw [Flt.kindRec] at h; rw [h] at h2; cases h2
    · exact ⟨h1, h2⟩

/-- A report (R178). -/
theorem report_within (k : FaultKind) (x : Subject) (s : State) : Within s (report k x s) := by
  unfold report
  split
  · next hm =>
    refine ⟨rfl, rfl, rfl, rfl, rfl, ?_, fun hs => ⟨?_, Flt.report_recordsOk k x hs.2⟩, id, id, id, id, id, fun _ => id⟩
    · simp only [State.settings]
      rw [Flt.setRec_policy (f := s.flt) (k := k) (r := (s.flt.kindRec k).report x) rfl rfl]
    exact hs.1.trans (Flt.pinCondition_setRec_masked hm (by simpa [KindRec.report] using hm)).symm
  · exact rejudge_within (fun hs => Flt.fillFirst_recordsOk (Flt.report_recordsOk k x hs) (by simp [KindRec.report]))
      ((Flt.fillFirst_policy ..).trans (Flt.setRec_policy rfl rfl))

@[simp] theorem rejudge_scu (f : Flt) (s : State) : (rejudge f s).scu = s.scu := by
  unfold rejudge; split <;> simp
@[simp] theorem report_scu (k : FaultKind) (x : Subject) (s : State) : (report k x s).scu = s.scu := by
  unfold report; split <;> simp
@[simp] theorem askLine_clm (f : LineFunction) (v : Nat) (s : State) : (askLine f v s).clm = s.clm := by rw [askLine_eq]
@[simp] theorem rejudge_clm (f : Flt) (s : State) : (rejudge f s).clm = s.clm := by unfold rejudge; split <;> simp
@[simp] theorem report_clm (k : FaultKind) (x : Subject) (s : State) : (report k x s).clm = s.clm := by
  unfold report; split <;> simp
@[simp] theorem report_slot (k : FaultKind) (x : Subject) (s : State) (n : SlotId) : (report k x s).slot n = s.slot n := by
  simp [State.slot]

/-! ### What a report leaves -/

/-- Re-judging writes the records, the ALERT pin and perhaps the alert relay line, and nothing else (R180, R181). -/
theorem rejudge_eq (f : Flt) (s : State) :
    rejudge f s =
      { s with flt := f, pins := { s.pins with alertLow := f.pinCondition }, olu := (rejudge f s).olu } := by
  unfold rejudge; dsimp only; split
  · rfl
  · rw [askLine_eq]

/-- A report writes the Fault Monitor, the ALERT pin and the lines (R178). -/
theorem report_eq (k : FaultKind) (x : Subject) (s : State) :
    report k x s =
      { s with flt := (report k x s).flt, pins := (report k x s).pins, olu := (report k x s).olu } := by
  unfold report; dsimp only; split
  · rfl
  · rw [rejudge_eq]

/-- The kind records after a report (R178, steps 1 to 3). -/
theorem report_kindRec (k j : FaultKind) (x : Subject) (s : State) :
    (report k x s).flt.kindRec j = if j = k then (s.flt.kindRec k).report x else s.flt.kindRec j := by
  have h : (report k x s).flt.kindRec j = (s.flt.setRec k ((s.flt.kindRec k).report x)).kindRec j := by
    unfold report; dsimp only; split
    · rfl
    · rw [rejudge_eq]; simp only [Flt.kindRec, Flt.fillFirst_kinds]
  rw [h, Flt.kindRec_setRec]

@[simp] theorem report_pfe (k : FaultKind) (x : Subject) (s : State) : (report k x s).pfe = s.pfe := by rw [report_eq]
@[simp] theorem report_fmu (k : FaultKind) (x : Subject) (s : State) : (report k x s).fmu = s.fmu := by rw [report_eq]
@[simp] theorem report_zdu (k : FaultKind) (x : Subject) (s : State) : (report k x s).zdu = s.zdu := by rw [report_eq]
@[simp] theorem report_sar (k : FaultKind) (x : Subject) (s : State) : (report k x s).sar = s.sar := by rw [report_eq]
@[simp] theorem report_slc (k : FaultKind) (x : Subject) (s : State) : (report k x s).slc = s.slc := by rw [report_eq]
@[simp] theorem report_ths (k : FaultKind) (x : Subject) (s : State) : (report k x s).ths = s.ths := by rw [report_eq]
@[simp] theorem report_mpt (k : FaultKind) (x : Subject) (s : State) : (report k x s).mpt = s.mpt := by rw [report_eq]
@[simp] theorem report_pending (k : FaultKind) (x : Subject) (s : State) : (report k x s).pending = s.pending := by
  rw [report_eq]

end Sys2Proof.Machine
end

