-- ==== Sys2Proof/Laws/Slots.lean ====
section
/-! SUPPORT. What the operations of the Source Control Unit can do (chapter 5): each keeps every slot in order. -/

namespace Sys2Proof.Machine

/-! ### One slot -/

theorem SlotClass.heating_of_admits {c : SlotClass} {x : SlotState} (h : c.admits x = true) (h1 : x ≠ .disabled)
    (h2 : x ≠ .idle) (h3 : x ≠ .diverting) : c.heating = true := by
  cases c <;> simp_all [SlotClass.admits, SlotClass.heating]

theorem SlotClass.admits_of_heating {c : SlotClass} {x : SlotState} (h : c.heating = true) (h2 : x ≠ .idle)
    (h3 : x ≠ .diverting) : c.admits x = true := by
  cases c <;> simp_all [SlotClass.admits, SlotClass.heating]

theorem SlotClass.admits_disabled (c : SlotClass) : c.admits .disabled = true := by cases c <;> decide

/-- A slot in order that is not TRIPPED moves to a state of its class, other than TRIPPED. -/
theorem Slot.ok.move {l : Latch} {x : Slot} (h : x.ok l) {st : SlotState} (ha : x.cls.admits st = true)
    (ht : x.state ≠ .tripped) (ht' : st ≠ .tripped) (hw : l ≠ .clear → st.works = false) :
    ({ x with state := st } : Slot).ok l := by
  obtain ⟨_, h2, h3, _⟩ := h
  refine ⟨ha, h2, ?_, hw⟩
  simp only [ht', iff_false]
  intro e; exact ht (h3.1 e)

/-- A slot in order whose class is heating moves to a resting or working state. -/
theorem Slot.ok.heat {l : Latch} {x : Slot} (h : x.ok l) {st : SlotState} (hh : x.cls.heating = true)
    (ht : x.state ≠ .tripped) (ht' : st ≠ .tripped) (h2 : st ≠ .idle) (h3 : st ≠ .diverting)
    (hw : l ≠ .clear → st.works = false) : ({ x with state := st } : Slot).ok l :=
  h.move (SlotClass.admits_of_heating hh h2 h3) ht ht' hw

theorem Slot.ok.heating {l : Latch} {x : Slot} (h : x.ok l) (h1 : x.state ≠ .disabled) (h2 : x.state ≠ .idle)
    (h3 : x.state ≠ .diverting) : x.cls.heating = true := SlotClass.heating_of_admits h.1 h1 h2 h3

/-- A slot not TRIPPED may have its failure count cleared. -/
theorem Slot.ok.clearFailures {l : Latch} {x : Slot} (h : x.ok l) (ht : x.state ≠ .tripped) :
    ({ x with failures := 0 } : Slot).ok l := by
  obtain ⟨h1, h2, h3, h4⟩ := h
  exact ⟨h1, by simp, by simp [ht], h4⟩

/-! ### Slot updates -/

/-- The lines of slot `n` may stand as they are when it becomes `x`: each is asked off, or `x` warrants it where the slot
did (R84, R102). -/
def State.follows (s : State) (n : SlotId) (x : Slot) : Prop :=
  ((s.slot n).calls = true → x.calls = true ∨ s.silent (.sourceCall n)) ∧
    ((s.slot n).pumps = true → x.pumps = true ∨ s.silent (.sourcePump n)) ∧
    ((s.slot n).diverts = true → x.diverts = true ∨ s.silent (.diverterDrive n))

@[simp] theorem rejudge_mapOk (f : Flt) (s : State) : (rejudge f s).mapOk ↔ s.mapOk := by
  unfold rejudge
  dsimp only
  split
  · exact Iff.rfl
  · exact askLine_mapOk ..

@[simp] theorem report_mapOk (k : FaultKind) (x : Subject) (s : State) : (report k x s).mapOk ↔ s.mapOk := by
  unfold report
  dsimp only
  split
  · exact Iff.rfl
  · exact rejudge_mapOk ..

theorem State.silent.report {s : State} {f : LineFunction} (h : s.silent f) (hf : f ≠ .alertRelay) (k : FaultKind)
    (x : Subject) : (report k x s).silent f := by
  unfold Machine.report rejudge
  dsimp only
  split
  · exact h
  · split
    · exact h
    · exact State.silent.askLine (s := { s with flt := _, pins := _ }) h (.inr hf.symm)

theorem State.follows.report {s : State} {n : SlotId} {y : Slot} (h : s.follows n y) (k : FaultKind)
    (x : Subject) : (report k x s).follows n y := by
  unfold State.follows at h ⊢
  rw [report_slot]
  exact ⟨fun a => (h.1 a).imp_right fun q => q.report (by simp) k x,
    fun a => (h.2.1 a).imp_right fun q => q.report (by simp) k x,
    fun a => (h.2.2 a).imp_right fun q => q.report (by simp) k x⟩

theorem Slot.diverts_of_ne {x : Slot} (h : x.state ≠ .diverting) : x.diverts = false := by simp [Slot.diverts, h]

/-- A slot whose call line is asked off may keep its pump on. -/
theorem askCall_follows {s : State} {n : SlotId} {x : Slot} (h : (askCall n false s).mapOk)
    (hp : (s.slot n).pumps = true → x.pumps = true) (hd : (s.slot n).state ≠ .diverting) :
    (askCall n false s).follows n x := by
  refine ⟨fun _ => .inr (askLine_silent ((askLine_mapOk ..).1 h) (by simp)), fun k => .inl (hp ?_), fun k => ?_⟩
  · rwa [askCall_slot] at k
  · rw [askCall_slot, Slot.diverts_of_ne hd] at k; cases k

/-- A slot whose lines are asked off may become anything. -/
theorem linesOff_follows {s : State} {n : SlotId} {x : Slot} (h : (linesOff n s).mapOk)
    (hd : (s.slot n).state ≠ .diverting) : (linesOff n s).follows n x := by
  have hm : (askCall n false s).mapOk := (askLine_mapOk ..).1 h
  refine ⟨fun _ => .inr ((askLine_silent ((askLine_mapOk ..).1 hm) (by simp)).askLine (.inl rfl)),
    fun _ => .inr (askLine_silent hm (by simp)), fun k => ?_⟩
  rw [linesOff_slot, Slot.diverts_of_ne hd] at k; cases k

/-- A slot whose call line is off anyway and whose pump line is asked off may become anything. -/
theorem askPump_follows {s : State} {n : SlotId} {x : Slot} (h : (askPump n false s).mapOk)
    (hc : (s.slot n).calls = false) (hd : (s.slot n).state ≠ .diverting) : (askPump n false s).follows n x := by
  refine ⟨fun k => ?_, fun _ => .inr (askLine_silent ((askLine_mapOk ..).1 h) (by simp)), fun k => ?_⟩
  · rw [askPump_slot, hc] at k; cases k
  · rw [askPump_slot, Slot.diverts_of_ne hd] at k; cases k

theorem State.agreeOk.setSlot {s : State} {n : SlotId} {x : Slot} (h : s.agreeOk) (k : s.follows n x) :
    (s.setSlot n x).agreeOk := by
  intro i
  refine ⟨(h i).1, fun ha => ?_⟩
  have hw := (h i).2 ha
  have quiet : ∀ f, s.silent f → s.olu[i].function = f → False := fun f hq hf => ha (hq i hf)
  change (s.setSlot n x).warrants s.olu[i].function = true
  obtain ⟨k1, k2, k3⟩ := k
  revert hw quiet
  generalize s.olu[i].function = f
  intro hw quiet
  cases f with
  | sourceCall m =>
    simp only [State.warrants, State.slot_setSlot] at hw ⊢
    split
    · next e => subst e; exact (k1 hw).resolve_right fun q => quiet _ q rfl
    · exact hw
  | sourcePump m =>
    simp only [State.warrants, State.slot_setSlot] at hw ⊢
    split
    · next e => subst e; exact (k2 hw).resolve_right fun q => quiet _ q rfl
    · exact hw
  | diverterDrive m =>
    simp only [State.warrants, State.slot_setSlot] at hw ⊢
    split
    · next e => subst e; exact (k3 hw).resolve_right fun q => quiet _ q rfl
    · exact hw
  | solarPump => exact hw
  | noFunction => rfl
  | alertRelay => rfl

theorem Within.setSlot {s : State} {n : SlotId} {x : Slot}
    (h : s.slotsOk → (s.slot n).ok s.scu.latch → x.ok s.scu.latch)
    (ha : s.mapOk → s.follows n x := by
      intro _; simp_all [State.follows, Slot.calls, Slot.pumps, Slot.diverts])
    (hf : x.figures = (s.slot n).figures := by rfl) : Within s (s.setSlot n x) where
  agree hl hg := hg.setSlot (ha hl.2)
  settings := by
    have : (s.setSlot n x).scu.figures = s.scu.figures := by
      simp only [Scu.figures, State.setSlot, Prod.mk.injEq, true_and]
      funext m
      rw [PerSlot.get_set]
      split
      · next e => subst e; exact hf
      · rfl
    simp only [State.settings, this]
    rfl
  pending := rfl
  pfe := rfl
  mpt := rfl
  confirm := rfl
  water := rfl
  faults := id
  lines := id
  solar := id
  layers := id
  hold := id
  slots := by
    intro hs m
    rw [State.slot_setSlot, State.setSlot_latch]
    split
    · exact h hs (hs n)
    · exact hs m

theorem Within.setSlotState {s : State} {n : SlotId} {st : SlotState}
    (h : (s.slot n).ok s.scu.latch → ({ s.slot n with state := st } : Slot).ok s.scu.latch)
    (ha : s.mapOk → s.follows n { s.slot n with state := st } := by
      intro _; simp_all [State.follows, Slot.calls, Slot.pumps, Slot.diverts]) :
    Within s (s.setSlotState n st) := .setSlot (fun _ => h) ha

/-- A working slot comes to rest. -/
theorem Within.toRest {s : State} {n : SlotId} {st : SlotState} (h1 : (s.slot n).state ≠ .disabled)
    (h2 : (s.slot n).state ≠ .idle) (h3 : (s.slot n).state ≠ .diverting) (h4 : (s.slot n).state ≠ .tripped)
    (k1 : st ≠ .idle) (k2 : st ≠ .diverting) (k3 : st ≠ .tripped) (k4 : st.works = false)
    (ha : s.mapOk → s.follows n { s.slot n with state := st } := by
      intro _; simp_all [State.follows, Slot.calls, Slot.pumps, Slot.diverts]) :
    Within s (s.setSlotState n st) :=
  .setSlotState (fun h => h.heat (h.heating h1 h2 h3) h4 k3 k1 k2 fun _ => k4) ha

/-! ### Stops and completion -/

theorem stopSlot_within {n : SlotId} {off : Nat} {s : State} {r : Nat} {h : Option Holder}
    (hst : (s.slot n).state = .running r h) : Within s (stopSlot n off s) := by
  unfold stopSlot
  dsimp only
  split
  · exact (askCall_within n false s).trans (.toRest (by simp [hst]) (by simp [hst]) (by simp [hst]) (by simp [hst])
      (by simp) (by simp) (by simp) rfl fun h => askCall_follows h (by simp [Slot.pumps, hst]) (by simp [hst]))
  · exact ((askCall_within n false s).trans (askPump_within n false _)).trans
      (.toRest (by simp [hst]) (by simp [hst]) (by simp [hst]) (by simp [hst]) (by simp) (by simp) (by simp) rfl
        fun h => linesOff_follows h (by simp [hst]))

theorem ceilingTest_within (n : SlotId) (s : State) : Within s (ceilingTest n s).1 := by
  unfold ceilingTest
  dsimp only
  split
  · next h => split
              · exact stopSlot_within h
              · exact .refl s
  · exact .refl s

theorem completeRun_within (n : SlotId) (s : State) : Within s (completeRun n s).1 := by
  unfold completeRun
  dsimp only
  split
  · next h =>
    exact (Within.setSlot fun _ hs => hs.clearFailures (by simp [h])).trans (stopSlot_within (h := none) (by simpa using h))
  · next r z h =>
    refine (Within.setSlot fun _ hs => ?_).trans (ceilingTest_within ..)
    have := (hs.clearFailures (by simp [h])).heat (st := .running 0 (some z)) (hs.heating (by simp [h]) (by simp [h]) (by simp [h]))
      (by simp [h]) (by simp) (by simp) (by simp) (fun hl => absurd (hs.2.2.2 hl) (by simp [h, SlotState.works]))
    exact this
  · exact .refl s

/-! ### Starts -/

theorem enterRunning_within {n : SlotId} {h : Holder} {s : State} (hd : (s.slot n).state ≠ .diverting)
    (hw : s.slotsOk → (s.slot n).cls.heating = true ∧ (s.slot n).state ≠ .tripped ∧ s.scu.latch = .clear) :
    Within s (enterRunning n h s).1 := by
  unfold enterRunning
  dsimp only
  have base : Within s (s.setSlotState n (.running (s.slot n).settings.minRun (some h))) := by
    refine .setSlot (fun hs hn => ?_) fun _ => ?_
    rotate_left
    · simp only [State.follows, Slot.calls, Slot.pumps, Slot.diverts_of_ne hd]
      simp_all
    obtain ⟨h1, h2, h3⟩ := hw hs
    exact hn.heat h1 h2 (by simp) (by simp) (by simp) fun hl => absurd h3 hl
  split
  · exact base.trans (completeRun_within ..)
  · exact base

/-- A STARTING slot is of a heating class, and the latch is clear. -/
theorem State.slotsOk.starting {s : State} (hs : s.slotsOk) {n : SlotId} {o p r h}
    (hst : (s.slot n).state = .starting o p r h) :
    (s.slot n).cls.heating = true ∧ (s.slot n).state ≠ .tripped ∧ s.scu.latch = .clear := by
  refine ⟨(hs n).heating (by simp [hst]) (by simp [hst]) (by simp [hst]), by simp [hst], ?_⟩
  by_contra hl
  have := (hs n).2.2.2 hl
  simp [hst, SlotState.works] at this

/-- A RUNNING slot is of a heating class, and the latch is clear. -/
theorem State.slotsOk.running {s : State} (hs : s.slotsOk) {n : SlotId} {r h}
    (hst : (s.slot n).state = .running r h) :
    (s.slot n).cls.heating = true ∧ (s.slot n).state ≠ .tripped ∧ s.scu.latch = .clear := by
  refine ⟨(hs n).heating (by simp [hst]) (by simp [hst]) (by simp [hst]), by simp [hst], ?_⟩
  by_contra hl
  have := (hs n).2.2.2 hl
  simp [hst, SlotState.works] at this

theorem endDwell_within (n : SlotId) (s : State) : Within s (endDwell n s).1 := by
  unfold endDwell
  split
  · next h =>
    split
    · refine .setSlot fun hs hn => ?_
      obtain ⟨h1, h2, h3⟩ := hs.starting h
      exact hn.heat h1 h2 (by simp) (by simp) (by simp) fun hl => absurd h3 hl
    · exact enterRunning_within (by simp [h]) fun hs => hs.starting h
  · exact .refl s

theorem startSlot_within {n : SlotId} {o : StartOrigin} {h : Holder} {s : State} (hh : (s.slot n).cls.heating = true)
    (ht : (s.slot n).state ≠ .tripped) (hl : s.scu.latch = .clear) (hd : (s.slot n).state ≠ .diverting) :
    Within s (startSlot n o h s).1 := by
  unfold startSlot
  dsimp only
  generalize ((s.slot n).settings.startDwell + if o = StartOrigin.cold then (s.slot n).settings.coldExtra else 0) = d
  refine Within.trans (t := askPump n true (askCall n true (s.setSlotState n (.starting o .dwell d h)))) ?_ ?_
  · refine ((Within.setSlot (fun hs hn => ?_) fun _ => ?_).trans (askCall_within _ _ _ fun _ => ?_)).trans
      (askPump_within _ _ _ fun _ => ?_)
    · exact hn.heat hh ht (by simp) (by simp) (by simp) fun k => absurd hl k
    · simp only [State.follows, Slot.calls, Slot.pumps, Slot.diverts_of_ne hd]
      simp_all
    · simp [Slot.calls, hh]
    · simp [Slot.pumps, hh]
  · split
    · exact endDwell_within ..
    · exact .refl _

theorem State.grantsOpen_latch {s : State} (h : s.grantsOpen = true) : s.scu.latch = .clear := by
  simp [State.grantsOpen] at h; exact h.1

theorem grantSlot_within {n : SlotId} {z : Zone} {s : State} {x : Sent} (h : grantSlot n z s = some x) : Within s x.1 := by
  unfold grantSlot at h
  split at h
  · next hc =>
    rw [Bool.and_eq_true] at hc
    have hl := State.grantsOpen_latch hc.1
    split at h <;> cases h
    · next he => exact startSlot_within hc.2 (by simp [he]) hl (by simp [he])
    · next he => exact startSlot_within hc.2 (by simp [he]) hl (by simp [he])
    · next he =>
      exact .setSlotState fun hn => hn.heat hc.2 (by simp [he]) (by simp) (by simp) (by simp) fun h => absurd hl h
  · cases h

theorem takeForHold_within {n : SlotId} {s : State} {x : Sent} (h : takeForHold n s = some x) : Within s x.1 := by
  unfold takeForHold at h
  split at h
  · next hc =>
    rw [Bool.and_eq_true] at hc
    have hl := State.grantsOpen_latch hc.1
    split at h <;> cases h
    · next he => exact startSlot_within hc.2 (by simp [he]) hl (by simp [he])
    · next he => exact startSlot_within hc.2 (by simp [he]) hl (by simp [he])
    · next he =>
      exact .setSlotState fun hn => hn.heat hc.2 (by simp [he]) (by simp) (by simp) (by simp) fun h => absurd hl h
    · next he =>
      exact .setSlotState fun hn => hn.heat hc.2 (by simp [he]) (by simp) (by simp) (by simp) fun h => absurd hl h
  · cases h

theorem returnToZone_within {n : SlotId} {z : Zone} {s : State} {x : Sent} (h : returnToZone n z s = some x) :
    Within s x.1 := by
  unfold returnToZone at h
  split at h <;> cases h
  · next he =>
    refine .setSlot fun hs hn => ?_
    obtain ⟨h1, h2, h3⟩ := hs.starting he
    exact hn.heat h1 h2 (by simp) (by simp) (by simp) fun hl => absurd h3 hl
  · next he =>
    refine .setSlot fun hs hn => ?_
    obtain ⟨h1, h2, h3⟩ := hs.running he
    exact hn.heat h1 h2 (by simp) (by simp) (by simp) fun hl => absurd h3 hl

theorem releaseSlot_within (n : SlotId) (s : State) : Within s (releaseSlot n s).1 := by
  unfold releaseSlot
  split
  · next h =>
    exact (linesOff_within n s).trans
      (.toRest (by simp [h]) (by simp [h]) (by simp [h]) (by simp [h]) (by simp) (by simp) (by simp) rfl
        fun k => linesOff_follows k (by simp [h]))
  · next h => exact stopSlot_within h
  · next h =>
    refine .setSlot fun hs hn => ?_
    obtain ⟨h1, h2, h3⟩ := hs.running h
    exact hn.heat h1 h2 (by simp) (by simp) (by simp) fun hl => absurd h3 hl
  · exact .refl s

/-! ### Resting slots -/

theorem expireHold_within (n : SlotId) (s : State) : Within s (expireHold n s).1 := by
  unfold expireHold
  split
  · next h =>
    dsimp only
    split
    · exact .toRest (by simp [h]) (by simp [h]) (by simp [h]) (by simp [h]) (by simp) (by simp) (by simp) rfl
    · exact .toRest (by simp [h]) (by simp [h]) (by simp [h]) (by simp [h]) (by simp) (by simp) (by simp) rfl
  · exact .refl s

theorem expireWarm_within (n : SlotId) (s : State) : Within s (expireWarm n s).1 := by
  unfold expireWarm
  split
  · next h => exact .toRest (by simp [h]) (by simp [h]) (by simp [h]) (by simp [h]) (by simp) (by simp) (by simp) rfl
  · exact .refl s

theorem expireOverrun_within (n : SlotId) (s : State) : Within s (expireOverrun n s) := by
  unfold expireOverrun
  split
  · next h =>
    refine (askPump_within n false s).trans ?_
    have off : ∀ x, (askPump n false s).mapOk → (askPump n false s).follows n x :=
      fun _ k => askPump_follows k (by simp [h, Slot.calls]) (by simp [h])
    split
    · exact .toRest (by simp [h]) (by simp [h]) (by simp [h]) (by simp [h]) (by simp) (by simp) (by simp) rfl (off _)
    · exact .toRest (by simp [h]) (by simp [h]) (by simp [h]) (by simp [h]) (by simp) (by simp) (by simp) rfl (off _)
  · exact .refl s

theorem reloadActivity_within (n : SlotId) (s : State) : Within s (reloadActivity n s).1 := by
  unfold reloadActivity
  dsimp only
  split
  · next h =>
    split
    · exact .toRest (by simp [h]) (by simp [h]) (by simp [h]) (by simp [h]) (by simp) (by simp) (by simp) rfl
    · exact .toRest (by simp [h]) (by simp [h]) (by simp [h]) (by simp [h]) (by simp) (by simp) (by simp) rfl
  · next h =>
    split
    · exact .refl s
    · exact .toRest (by simp [h]) (by simp [h]) (by simp [h]) (by simp [h]) (by simp) (by simp) (by simp) rfl
  · exact .refl s

/-! ### Failures -/

/-- A failure counted on a working slot, and where the slot goes: TRIPPED at the third. -/
theorem Slot.ok.fail {l : Latch} {x : Slot} (h : x.ok l) (ht : x.state ≠ .tripped) (hh : x.cls.heating = true)
    {st : SlotState} (h2 : st ≠ .idle) (h3 : st ≠ .diverting) (hw : st.works = false)
    (hc : x.failures + 1 ≥ 3 ↔ st = .tripped) :
    ({ x with failures := x.failures + 1, state := st } : Slot).ok l := by
  obtain ⟨k1, k2, k3, k4⟩ := h
  have : x.failures ≠ 3 := fun e => ht (k3.1 e)
  refine ⟨SlotClass.admits_of_heating hh h2 h3, ?_, ?_, fun _ => hw⟩
  · show x.failures + 1 ≤ 3; omega
  · rw [← hc]; show x.failures + 1 = 3 ↔ _; omega

theorem State.setSlot_setSlot (s : State) (n : SlotId) (x y : Slot) : (s.setSlot n x).setSlot n y = s.setSlot n y := by
  cases n <;> rfl

theorem askLine_setSlot (f : LineFunction) (v : Nat) (s : State) (n : SlotId) (x : Slot) :
    askLine f v (s.setSlot n x) = (askLine f v s).setSlot n x := by
  have h : (s.setSlot n x).carrier f = s.carrier f := rfl
  unfold askLine
  rw [h]
  cases s.carrier f <;> rfl

theorem askLine_setSlc (f : LineFunction) (v : Nat) (s : State) (c : Slc) :
    askLine f v { s with slc := c } = { askLine f v s with slc := c } := by
  have h : ({ s with slc := c } : State).carrier f = s.carrier f := rfl
  unfold askLine
  rw [h]
  cases s.carrier f <;> rfl

/-- A request for another line than the alert relay's may come before a report or after it. -/
theorem report_askLine {f : LineFunction} (hf : f ≠ .alertRelay) (v : Nat) (k : FaultKind) (x : Subject) (s : State) :
    report k x (askLine f v s) = askLine f v (report k x s) := by
  have move : ∀ (g : Flt) (p : Pins), ({ askLine f v s with flt := g, pins := p } : State) =
      askLine f v { s with flt := g, pins := p } := by
    intro g p
    have h : ({ s with flt := g, pins := p } : State).carrier f = s.carrier f := rfl
    unfold askLine
    rw [h]
    cases s.carrier f <;> rfl
  have e1 : (askLine f v s).flt = s.flt := by rw [askLine_eq]
  have e2 : (askLine f v s).pins = s.pins := by rw [askLine_eq]
  unfold report rejudge
  dsimp only
  rw [e1]
  split
  · have := move (s.flt.setRec k ((s.flt.kindRec k).report x)) s.pins
    have e3 : ({ askLine f v s with flt := s.flt.setRec k ((s.flt.kindRec k).report x) } : State) =
        { askLine f v s with flt := s.flt.setRec k ((s.flt.kindRec k).report x), pins := s.pins } := by rw [← e2]
    exact e3.trans this
  · rw [e2, move]
    split
    · rfl
    · rw [askLine_comm _ _ _ hf.symm]

theorem linesOff_setSlot (m : SlotId) (s : State) (n : SlotId) (x : Slot) :
    linesOff m (s.setSlot n x) = (linesOff m s).setSlot n x := by
  simp [linesOff, askCall, askPump, askLine_setSlot]

theorem rejudge_setSlot (f : Flt) (s : State) (n : SlotId) (x : Slot) :
    rejudge f (s.setSlot n x) = (rejudge f s).setSlot n x := by
  unfold rejudge
  by_cases h : f.relayCondition = s.flt.relayCondition
  · rw [if_pos (c := f.relayCondition = (s.setSlot n x).flt.relayCondition) h, if_pos h]; rfl
  · rw [if_neg (c := f.relayCondition = (s.setSlot n x).flt.relayCondition) h, if_neg h]
    exact askLine_setSlot _ _ { s with flt := f, pins := { s.pins with alertLow := f.pinCondition } } _ _

theorem report_setSlot (k : FaultKind) (j : Subject) (s : State) (n : SlotId) (x : Slot) :
    report k j (s.setSlot n x) = (report k j s).setSlot n x := by
  unfold report
  by_cases h : (s.flt.kindRec k).masked = true
  · rw [if_pos (c := ((s.setSlot n x).flt.kindRec k).masked = true) h, if_pos h]; rfl
  · rw [if_neg (c := ((s.setSlot n x).flt.kindRec k).masked = true) h, if_neg h]; exact rejudge_setSlot ..

theorem State.setSlot_slot (s : State) (n : SlotId) : s.setSlot n (s.slot n) = s := by
  cases n <;> rfl

theorem startFailure_within (n : SlotId) (s : State) : Within s (startFailure n s).1 := by
  unfold startFailure
  split
  · next h =>
    dsimp only
    have key : ∀ st : SlotState, st ≠ .idle → st ≠ .diverting → st.works = false →
        ((s.slot n).failures + 1 ≥ 3 ↔ st = .tripped) → ∀ u : State, Within s u → (u.mapOk → ∀ x, u.follows n x) → u.slot n = s.slot n →
        Within s (u.setSlot n { s.slot n with failures := (s.slot n).failures + 1, state := st }) := by
      intro st h1 h2 h3 h4 u hu hq hsl
      refine hu.trans (.setSlot (fun hs hn => ?_) (fun k => hq k _) (by rw [hsl]; rfl))
      rw [hsl] at hn
      exact hn.fail (by simp [h]) (hn.heating (by simp [h]) (by simp [h]) (by simp [h])) h1 h2 h3 h4
    simp only [linesOff_slot, report_slot, State.slot_setSlot, if_true, State.setSlotState, report_setSlot,
      State.setSlot_setSlot]
    split
    · next hc =>
      exact key .tripped (by simp) (by simp) rfl (by simp [hc]) _
        (((linesOff_within n s).trans (report_within ..)).trans (report_within ..))
        (fun k _ => ((linesOff_follows (by simpa using k) (by simp [h])).report ..).report ..) (by simp)
    · next hc =>
      exact key (.hold _) (by simp) (by simp) rfl (by simpa using hc) _
        ((linesOff_within n s).trans (report_within ..))
        (fun k _ => (linesOff_follows (by simpa using k) (by simp [h])).report ..) (by simp)
  · exact .refl s

theorem loseConfirm_within (n : SlotId) (s : State) : Within s (loseConfirm n s).1 := by
  unfold loseConfirm
  split
  · next r z h =>
    dsimp only
    have hne : (s.slot n).state ≠ .tripped := by simp [h]
    simp only [report_slot]
    split
    · next hc =>
      simp only [State.setSlotState, linesOff_slot, linesOff_setSlot, State.slot_setSlot, if_true, State.setSlot_setSlot,
        report_setSlot]
      refine (((report_within .confirmLost (.slot n) s).trans (linesOff_within n _)).trans (report_within ..)).trans
        (.setSlot (fun hs hn => ?_)
          (fun k => (linesOff_follows (by simpa using k) (by simp [h])).report ..)
          (by simp only [report_slot, linesOff_slot]; rfl))
      simp only [report_slot, linesOff_slot] at hn
      exact hn.fail hne (hn.heating (by simp [h]) (by simp [h]) (by simp [h])) (by simp) (by simp) rfl (by simp [hc])
    · next hc =>
      refine (report_within .confirmLost (.slot n) s).trans ?_
      refine (Within.setSlot (fun hs hn => ?_) (fun _ => by
        unfold State.follows; rw [report_slot]; exact ⟨.inl, .inl, .inl⟩) (by rw [report_slot]; rfl)).trans
        (stopSlot_within (r := r) (h := z) (by simp [h]))
      rw [report_slot] at hn
      obtain ⟨k1, k2, k3, k4⟩ := hn
      refine ⟨k1, ?_, ?_, k4⟩
      · show (s.slot n).failures + 1 ≤ 3; omega
      · show (s.slot n).failures + 1 = 3 ↔ (s.slot n).state = .tripped
        simp only [hne, iff_false]; omega
  · exact .refl s

theorem confirmChanged_within (n : SlotId) (b : Bool) (s : State) : Within s (confirmChanged n b s).1 := by
  unfold confirmChanged
  split
  · exact reloadActivity_within ..
  · exact reloadActivity_within ..
  · next h =>
    split
    · exact enterRunning_within (by simp [h]) fun hs => hs.starting h
    · exact .refl s
  · split
    · exact .refl s
    · exact loseConfirm_within ..
  · exact .refl s

/-! ### Diverters -/

/-- A diverter has no call and no pump line that is asked on. -/
theorem Slot.diverter_still {x : Slot} (hc : x.cls = .diverter) : x.calls = false ∧ x.pumps = false := by
  simp [Slot.calls, Slot.pumps, hc, SlotClass.heating]

/-- What an evaluation leaves of the slot (R102). -/
theorem evaluateDiverter_within (n : SlotId) (s : State) : Within s (evaluateDiverter n s) := by
  unfold evaluateDiverter
  dsimp only
  split
  · next hc =>
    have rest : (s.slot n).ok s.scu.latch → (s.slot n).failures ≤ 3 ∧ (s.slot n).failures ≠ 3 := by
      rintro ⟨k1, k2, k3, _⟩
      refine ⟨k2, fun e => ?_⟩
      rw [hc.1, k3.1 e] at k1
      simp [SlotClass.admits] at k1
    split
    · next hd =>
      simp only [Bool.and_eq_true] at hd
      have hl := State.grantsOpen_latch hd.1.1.1.1
      refine Within.trans (.setSlot (fun _ hn => ?_) fun _ => ?_) (askLine_within _ _ _ fun _ => ?_)
      · obtain ⟨k2, h3⟩ := rest hn
        exact ⟨by simp [hc.1, SlotClass.admits], k2, by simp [h3], fun h => absurd hl h⟩
      · have := Slot.diverter_still hc.1
        exact ⟨fun k => absurd k (by simp [this.1]), fun k => absurd k (by simp [this.2]),
          fun _ => .inl (by simp [Slot.diverts, hc.1])⟩
      · simp [State.warrants, Slot.diverts, hc.1]
    · rw [askLine_setSlot]
      refine (askLine_within (.diverterDrive n) 0 s (by simp)).trans (.setSlot (fun _ hn => ?_) (fun hm => ?_) ?_)
      · rw [askLine_slot, askLine_scu] at hn
        rw [askLine_scu]
        obtain ⟨k2, h3⟩ := rest hn
        exact ⟨by simp [hc.1, SlotClass.admits], k2, by simp [h3], fun _ => rfl⟩
      · have := Slot.diverter_still (x := (askLine (.diverterDrive n) 0 s).slot n) (by rw [askLine_slot]; exact hc.1)
        exact ⟨fun k => absurd k (by rw [this.1]; simp), fun k => absurd k (by rw [this.2]; simp),
          fun _ => .inr (askLine_silent ((askLine_mapOk ..).1 hm) (by simp))⟩
      · rw [askLine_slot]; rfl
  · exact .refl s

theorem evaluateDiverters_within (s : State) : Within s (evaluateDiverters s) :=
  Within.foldl (fun s n => evaluateDiverter_within n s) allSlots s

theorem setSurplus_within (w : Nat) (t : Option Nat) (s : State) : Within s (setSurplus w t s) :=
  (Within.setSurplusFields s w t).trans (evaluateDiverters_within _)

/-- A fold of operations that send notices. -/
theorem Within.foldSent {f : SlotId → State → Sent} (h : ∀ n s, Within s (f n s).1) (l : List SlotId) (x : Sent) :
    Within x.1 (l.foldl (fun (x : Sent) n => x.andThen (f n)) x).1 := by
  induction l generalizing x with
  | nil => exact .refl _
  | cons n l ih => exact (h n x.1).trans (ih (x.andThen (f n)))

theorem scuUpdateCompleted_within (s : State) : Within s (scuUpdateCompleted s).1 := by
  have h := Within.foldSent (fun n s => ceilingTest_within n s) allSlots (s, [])
  unfold scuUpdateCompleted
  dsimp only at h ⊢
  exact h.trans (evaluateDiverters_within _)

end Sys2Proof.Machine
end

