-- ==== Sys2Proof/Laws/Arbiter.lean ====
section
/-! SUPPORT. What the arbiter's evaluations, the latch and the zones can do (chapters 4 to 6). -/

namespace Sys2Proof.Machine

/-! ### The arbiter -/

theorem Sent.deferred_within {s : State} {x : Sent} (h : Within s x.1) : Within s x.deferred := h.trans (.deferNotices ..)

theorem raiseDemand_within (z : Zone) (s : State) : Within s (raiseDemand z s) := .setService ..

theorem applyZoneChange_within (z : Zone) (c : ZoneChange) (s : State) : Within s (applyZoneChange z c s) := by
  unfold applyZoneChange
  split
  · split
    · exact raiseDemand_within ..
    · exact .refl s
  · split
    · exact .setService ..
    · split
      · exact .setService ..
      · exact .refl s
  · split
    · exact .setService ..
    · exact .refl s
  · split
    · exact Sent.deferred_within ((Within.setService s z .idle).trans (releaseSlot_within ..))
    · exact .refl s
  · exact .refl s

theorem applyLeftService_within (n : SlotId) (h : Holder) (s : State) : Within s (applyLeftService n h s) := by
  unfold applyLeftService
  split
  · split
    · exact .setService ..
    · exact .refl s
  · split
    · split
      · dsimp only
        split
        · exact ((Within.setService ..).trans (.setClaim ..)).trans (.answer ..)
        · exact (Within.setClaim ..).trans (.answer ..)
      · exact .refl s
    · exact .refl s

theorem endHoldoff_within (z : Zone) (s : State) : Within s (endHoldoff z s) := by
  unfold endHoldoff
  split
  · exact .setService ..
  · exact .refl s

theorem applyStepEnd_within (s : State) : Within s (applyStepEnd s) := by
  unfold applyStepEnd
  split
  · exact .refl s
  · exact .setClaim ..
  · exact Sent.deferred_within ((Within.setClaim ..).trans (releaseSlot_within ..))
  · dsimp only
    split
    · split
      · next h => exact (((Within.setClaim ..).trans (returnToZone_within h)).trans (.setService ..)).trans (.deferNotices ..)
      · exact (Within.setClaim ..).trans (.setService ..)
    · exact Sent.deferred_within (((Within.setClaim ..).trans (.setService ..)).trans (releaseSlot_within ..))

theorem applyHoldRequest_within (s : State) : Within s (applyHoldRequest s) := by
  unfold applyHoldRequest
  split
  · exact .setClaim ..
  · exact .refl s
  · exact .answer ..

theorem applyEvent_within (e : SarEvent) (s : State) : Within s (applyEvent e s) := by
  unfold applyEvent
  split
  · exact ((applyZoneChange_within ..).trans (applyZoneChange_within ..)).trans (applyZoneChange_within ..)
  · exact .refl s
  · exact applyLeftService_within ..
  · exact endHoldoff_within ..
  · split
    · exact ((endHoldoff_within ..).trans (endHoldoff_within ..)).trans (endHoldoff_within ..)
    · exact .refl s
  · exact applyHoldRequest_within s
  · exact applyStepEnd_within s
  · exact .refl s

theorem recordTake_within (n : SlotId) (b : SlotState) (s : State) : Within s (recordTake n b s) := by
  unfold recordTake
  dsimp only
  split
  · exact ((Within.setClaim ..).trans (.setService ..)).trans (.answer ..)
  · exact (Within.setClaim ..).trans (.answer ..)

theorem scanEntries_within (low : Fin 16) (l : List SlotId) (s : State) : Within s (scanEntries low l s) := by
  induction l with
  | nil => exact .answer ..
  | cons n l ih =>
    rw [scanEntries]
    split
    · split
      · next h => exact ((takeForHold_within h).trans (recordTake_within ..)).trans (.deferNotices ..)
      · exact ih
    · exact ih

theorem scanEntries_useFree (low : Fin 16) (l : List SlotId) (s : State) : Within s (scanEntries low l s.useFree) :=
  (Within.useFree s).trans (scanEntries_within ..)

theorem holdScan_within (s : State) : Within s (holdScan s) := by
  unfold holdScan
  split
  · split
    · exact scanEntries_within ..
    · exact scanEntries_within ..
    · exact scanEntries_useFree ..
  · exact .answer ..

theorem grantEntries_within (z : Zone) (l : List SlotId) (s : State) : Within s (grantEntries z l s) := by
  induction l with
  | nil => exact .refl s
  | cons n l ih =>
    rw [grantEntries]
    split
    · split
      · next h => exact ((grantSlot_within h).trans (.setService ..)).trans (.deferNotices ..)
      · exact ih
    · exact ih

theorem selectGrant_within (z : Zone) (s : State) : Within s (selectGrant z s) := by
  unfold selectGrant
  split
  · exact grantEntries_within ..
  · exact .refl s

theorem evaluateOne_within (e : SarEvent) (s : State) : Within s (evaluateOne e s) := by
  have grants : ∀ t, Within t (selectGrant .low (selectGrant .mid (selectGrant .top t))) := fun t =>
    ((selectGrant_within ..).trans (selectGrant_within ..)).trans (selectGrant_within ..)
  have h := applyEvent_within e s
  unfold evaluateOne
  dsimp only
  split
  · exact (h.trans (holdScan_within _)).trans (grants _)
  · exact h.trans (grants _)

theorem takeFurther_within (s : State) : Within s (takeFurther s) := by
  unfold takeFurther
  split
  · exact .refl s
  · exact (Within.setSar ..).trans (evaluateOne_within ..)

theorem settle_within (k : Nat) (s : State) : Within s (settle k s) := by
  induction k generalizing s with
  | zero => exact .refl s
  | succ k ih => exact (takeFurther_within s).trans (ih _)

/-- An evaluation of the arbiter (R113), the further evaluations before it included. -/
theorem evaluate_within (e : SarEvent) (s : State) : Within s (evaluate e s) :=
  (settle_within _ s).trans (evaluateOne_within ..)

theorem Sent.notify_within {s : State} {x : Sent} (h : Within s x.1) : Within s x.notify :=
  h.trans (Within.foldl (fun s n => evaluate_within (.scuNotice n) s) x.2 x.1)

/-! ### The zones -/

/-- Judging a zone keeps its settings. -/
theorem ZoneRec.judge_figures (m : Option Int) (z : ZoneRec) : (z.judge m).figures = z.figures := by
  unfold ZoneRec.judge; split <;> rfl

theorem ZoneRec.judge_ranking (m : Option Int) (z : ZoneRec) : (z.judge m).ranking = z.ranking := by
  unfold ZoneRec.judge; split <;> rfl

/-! ### The cylinder limit latch -/

/-- A stop (R98): the slot enters OVERRUN or HOLD, and no other slot changes. -/
theorem stopSlot_slot (n m : SlotId) (off : Nat) (s : State) :
    (stopSlot n off s).slot m =
      if m = n then
        { s.slot n with
          state :=
            if s.hasPumpLine n && decide ((s.slot n).settings.overrun > 0) then
              .overrun (s.slot n).settings.overrun off false
            else .hold off }
      else s.slot m := by
  have hp : ∀ b, (askCall n b s).hasPumpLine n = s.hasPumpLine n := by
    intro b
    have key : ∀ i : Fin 8, (askCall n b s).olu[i].function = s.olu[i].function := by
      intro i
      rcases askLine_lines (.sourceCall n) (onOff b) s i with h | ⟨_, h⟩
      · exact congrArg Line.function h
      · exact (congrArg Line.function h).trans (Line.drive_function ..)
    simp only [State.hasPumpLine, State.carrier, key]
  unfold stopSlot
  dsimp only
  simp only [askCall_slot, hp]
  by_cases h : m = n <;> split <;> simp_all

@[simp] theorem stopSlot_latch (n : SlotId) (off : Nat) (s : State) : (stopSlot n off s).scu.latch = s.scu.latch := by
  unfold stopSlot; dsimp only; split <;> simp

/-- One slot at the setting of the latch (R106): it comes to rest, in order, and no other slot changes. -/
theorem latchStop_slot (n : SlotId) (s : State) (h : (s.slot n).ok .clear) :
    ((latchStop n s).1.slot n).ok .clear ∧
      (((latchStop n s).1.slot n).state.works = true → ((latchStop n s).1.slot n).state = .diverting) ∧
      (latchStop n s).1.scu.latch = s.scu.latch ∧ ∀ m, m ≠ n → (latchStop n s).1.slot m = s.slot m := by
  have heat : ∀ st : SlotState, (s.slot n).state ≠ .disabled → (s.slot n).state ≠ .idle →
      (s.slot n).state ≠ .diverting → (s.slot n).state ≠ .tripped → st ≠ .tripped → st ≠ .idle → st ≠ .diverting →
      ({ s.slot n with state := st } : Slot).ok .clear := fun st h1 h2 h3 h4 k1 k2 k3 =>
    h.heat (h.heating h1 h2 h3) h4 k1 k2 k3 (by simp)
  unfold latchStop
  dsimp only
  split
  · next hs =>
    refine ⟨?_, ?_, by simp, fun m hm => by simp [hm]⟩
    · simpa using heat (.hold (s.slot n).settings.minOff) (by simp [hs]) (by simp [hs]) (by simp [hs]) (by simp [hs])
        (by simp) (by simp) (by simp)
    · simp [SlotState.works]
  · next hs =>
    refine ⟨?_, ?_, by simp, fun m hm => by rw [stopSlot_slot, if_neg hm]⟩
    · rw [stopSlot_slot, if_pos rfl]
      split
      · exact heat _ (by simp [hs]) (by simp [hs]) (by simp [hs]) (by simp [hs]) (by simp) (by simp) (by simp)
      · exact heat _ (by simp [hs]) (by simp [hs]) (by simp [hs]) (by simp [hs]) (by simp) (by simp) (by simp)
    · rw [stopSlot_slot, if_pos rfl]
      split <;> simp [SlotState.works]
  · next h1 h2 =>
    refine ⟨h, ?_, rfl, fun m _ => rfl⟩
    intro hw
    cases hst : (s.slot n).state
    case starting => exact absurd hst (h1 _ _ _ _)
    case running => exact absurd hst (h2 _ _)
    all_goals simp_all [SlotState.works]

theorem latchStop_within (n : SlotId) (s : State) : Within s (latchStop n s).1 := by
  unfold latchStop
  dsimp only
  split
  · next h =>
    exact (linesOff_within n s).trans
      (.toRest (by simp [h]) (by simp [h]) (by simp [h]) (by simp [h]) (by simp) (by simp) (by simp) rfl
        fun k => linesOff_follows k (by simp [h]))
  · next h => exact stopSlot_within h
  · exact .refl s

/-- One diverter's evaluation (R102): only its state and its rearm flag change. -/
theorem evaluateDiverter_slot (n m : SlotId) (s : State) :
    (evaluateDiverter n s).slot m = s.slot m ∨
      m = n ∧ (s.slot n).cls = .diverter ∧ (s.slot n).state ≠ .disabled ∧
        ∃ r st, (evaluateDiverter n s).slot n = { s.slot n with rearm := r, state := st } ∧
          (st = .idle ∨ st = .diverting ∧ s.grantsOpen = true) := by
  unfold evaluateDiverter
  dsimp only
  split
  · next hc =>
    by_cases h : m = n
    · refine .inr ⟨h, hc.1, hc.2, _, _, (askLine_slot _ _ _ _).trans ((State.slot_setSlot _ _ _ _).trans (if_pos rfl)), ?_⟩
      split
      · next hd =>
        simp only [Bool.and_eq_true] at hd
        exact .inr ⟨rfl, hd.1.1.1.1⟩
      · exact .inl rfl
    · exact .inl (by simp [h])
  · exact .inl rfl

@[simp] theorem evaluateDiverter_latch (n : SlotId) (s : State) : (evaluateDiverter n s).scu.latch = s.scu.latch := by
  unfold evaluateDiverter; dsimp only; split <;> simp

/-- While the latch is set an evaluated diverter does not divert. -/
theorem evaluateDiverter_set {n : SlotId} {s : State} (hl : s.scu.latch ≠ .clear) (h : (s.slot n).ok .clear)
    (hw : (s.slot n).state.works = true → (s.slot n).state = .diverting) :
    ((evaluateDiverter n s).slot n).ok s.scu.latch ∧ ∀ m, m ≠ n → (evaluateDiverter n s).slot m = s.slot m := by
  constructor
  · unfold evaluateDiverter
    dsimp only
    have hg : s.grantsOpen = false := by simp [State.grantsOpen, hl]
    have hnt : (s.slot n).cls = .diverter → (s.slot n).state ≠ .tripped := by
      intro hc ht; have := h.1; rw [hc, ht] at this; simp [SlotClass.admits] at this
    split
    · next hc =>
      obtain ⟨k1, k2, k3, _⟩ := h
      have h3 : (s.slot n).failures ≠ 3 := fun e => hnt hc.1 (k3.1 e)
      simp only [hg, Bool.false_and, Bool.false_eq_true, if_false, askLine_slot, State.slot_setSlot, if_true]
      exact ⟨by simp [hc.1, SlotClass.admits], k2, by simp [h3], fun _ => rfl⟩
    · next hc =>
      refine ⟨h.1, h.2.1, h.2.2.1, fun _ => ?_⟩
      by_contra hn
      have hd := hw (by simpa using hn)
      have ha := h.1
      rw [hd] at ha
      apply hc
      cases hcl : (s.slot n).cls <;> simp_all [SlotClass.admits]
  · intro m hm
    rcases evaluateDiverter_slot n m s with h | ⟨h, _⟩
    · exact h
    · exact absurd h hm

/-- After the setting of the latch every slot is in order under it (R106). -/
theorem latchSet_slots {s : State} (hl : s.scu.latch ≠ .clear) (h : ∀ n, (s.slot n).ok .clear) :
    (evaluateDiverters (allSlots.foldl (fun (x : Sent) n => x.andThen (latchStop n)) (s, [])).1).slotsOk := by
  obtain ⟨u, hu⟩ : ∃ u, (allSlots.foldl (fun (x : Sent) n => x.andThen (latchStop n)) (s, [])).1 = u := ⟨_, rfl⟩
  have stopped : u.scu.latch = s.scu.latch ∧
      ∀ n, (u.slot n).ok .clear ∧ ((u.slot n).state.works = true → (u.slot n).state = .diverting) := by
    have a := latchStop_slot .s1 s (h _)
    have b := latchStop_slot .s2 (latchStop .s1 s).1 (by rw [a.2.2.2 _ (by decide)]; exact h _)
    have c := latchStop_slot .s3 (latchStop .s2 (latchStop .s1 s).1).1
      (by rw [b.2.2.2 _ (by decide), a.2.2.2 _ (by decide)]; exact h _)
    have d := latchStop_slot .s4 (latchStop .s3 (latchStop .s2 (latchStop .s1 s).1).1).1
      (by rw [c.2.2.2 _ (by decide), b.2.2.2 _ (by decide), a.2.2.2 _ (by decide)]; exact h _)
    subst hu
    simp only [allSlots, List.foldl, Sent.andThen]
    refine ⟨by rw [d.2.2.1, c.2.2.1, b.2.2.1, a.2.2.1], fun n => ?_⟩
    cases n
    · rw [d.2.2.2 _ (by decide), c.2.2.2 _ (by decide), b.2.2.2 _ (by decide)]; exact ⟨a.1, a.2.1⟩
    · rw [d.2.2.2 _ (by decide), c.2.2.2 _ (by decide)]; exact ⟨b.1, b.2.1⟩
    · rw [d.2.2.2 _ (by decide)]; exact ⟨c.1, c.2.1⟩
    · exact ⟨d.1, d.2.1⟩
  rw [hu]
  obtain ⟨e, k⟩ := stopped
  have hlu : u.scu.latch ≠ .clear := by rw [e]; exact hl
  have a := evaluateDiverter_set hlu (k .s1).1 (k .s1).2
  have b := evaluateDiverter_set (s := evaluateDiverter .s1 u) (n := .s2) (by simpa using hlu)
    (by rw [a.2 _ (by decide)]; exact (k _).1) (by rw [a.2 _ (by decide)]; exact (k _).2)
  have c := evaluateDiverter_set (s := evaluateDiverter .s2 (evaluateDiverter .s1 u)) (n := .s3) (by simpa using hlu)
    (by rw [b.2 _ (by decide), a.2 _ (by decide)]; exact (k _).1)
    (by rw [b.2 _ (by decide), a.2 _ (by decide)]; exact (k _).2)
  have d := evaluateDiverter_set (s := evaluateDiverter .s3 (evaluateDiverter .s2 (evaluateDiverter .s1 u))) (n := .s4)
    (by simpa using hlu)
    (by rw [c.2 _ (by decide), b.2 _ (by decide), a.2 _ (by decide)]; exact (k _).1)
    (by rw [c.2 _ (by decide), b.2 _ (by decide), a.2 _ (by decide)]; exact (k _).2)
  simp only [evaluateDiverters, allSlots, List.foldl]
  intro n
  simp only [evaluateDiverter_latch] at a b c d ⊢
  cases n
  · rw [d.2 _ (by decide), c.2 _ (by decide), b.2 _ (by decide)]; exact a.1
  · rw [d.2 _ (by decide), c.2 _ (by decide)]; exact b.1
  · rw [d.2 _ (by decide)]; exact c.1
  · exact d.1

theorem Slot.ok.bare {l : Latch} {x : Slot} (h : x.ok l) : x.ok .clear := ⟨h.1, h.2.1, h.2.2.1, by simp⟩

/-- The latch set with some cause is set (R105). -/
theorem setLatch_within (cause : Latch) (hc : cause ≠ .clear) (k : FaultKind) (j : Subject) (s : State) :
    Within s (setLatch cause k j s).1 := by
  obtain ⟨v, hv⟩ : ∃ v, report k j { s with scu := { s.scu with latch := cause } } = v := ⟨_, rfl⟩
  have hr : Within { s with scu := { s.scu with latch := cause } } v := hv ▸ report_within k j _
  have hs : v.scu = { s.scu with latch := cause } := by rw [← hv, report_scu]
  have rest := (Within.foldSent (fun n s => latchStop_within n s) allSlots (v, [])).trans (evaluateDiverters_within _)
  have all := hr.trans rest
  unfold setLatch
  dsimp only
  rw [hv]
  refine ⟨all.pending, all.water, all.pfe, all.mpt, all.confirm, all.settings, all.faults, all.lines, ?_, all.solar, all.layers, all.hold, all.agree⟩
  intro h
  refine latchSet_slots (by rw [hs]; exact hc) fun n => ?_
  have : v.slot n = s.slot n := by simp [State.slot, hs]
  rw [this]; exact (h n).bare

theorem clearLatch_within (s : State) : Within s (clearLatch s).1 := by
  unfold clearLatch
  refine Within.trans (t := { s with scu := { s.scu with latch := .clear } }) ?_ (evaluateDiverters_within _)
  exact ⟨rfl, rfl, rfl, rfl, rfl, rfl, id, id, fun h n => (h n).bare, id, id, id, fun _ => id⟩

theorem topProbeIsLost_within (s : State) : Within s (topProbeIsLost s).1 := by
  unfold topProbeIsLost
  split
  · exact setLatch_within _ (by simp) ..
  · next hl =>
    refine Within.trans (t := { s with scu := { s.scu with latch := .probeLost } }) ?_ (report_within ..)
    refine ⟨rfl, rfl, rfl, rfl, rfl, rfl, id, id, fun h n => ?_, id, id, id, fun _ => id⟩
    obtain ⟨h1, h2, h3, h4⟩ := h n
    exact ⟨h1, h2, h3, fun _ => h4 (by simp [hl])⟩
  · exact .refl s

theorem topLimitValue_within (v : Int) (s : State) : Within s (topLimitValue v s).1 := by
  unfold topLimitValue
  dsimp only
  split
  · split
    · exact setLatch_within _ (by simp) ..
    · exact .refl s
  · split
    · exact clearLatch_within s
    · exact .refl s
  · next hl =>
    split
    · exact clearLatch_within s
    · have base : Within s { s with scu := { s.scu with latch := .overtemp } } := by
        refine ⟨rfl, rfl, rfl, rfl, rfl, rfl, id, id, fun h n => ?_, id, id, id, fun _ => id⟩
        obtain ⟨h1, h2, h3, h4⟩ := h n
        exact ⟨h1, h2, h3, fun _ => h4 (by simp [hl])⟩
      dsimp only
      split
      · exact base
      · exact base.trans (report_within ..)

/-! ### Disabling -/

theorem disableSlot_within (n : SlotId) (s : State) : Within s (disableSlot n s).1 := by
  have disable : ∀ u : State, u.scu = s.scu → (s.slot n).state ≠ .tripped →
      (u.mapOk → ∀ x, u.follows n x) → Within u (u.setSlotState n .disabled) := by
    intro u hu ht hq
    have hsl : u.slot n = s.slot n := by simp [State.slot, hu]
    exact .setSlotState (fun h => h.move (SlotClass.admits_disabled _) (by rw [hsl]; exact ht) (by simp)
      (by simp [SlotState.works])) fun k => hq k _
  have stop : ∀ h : Option Holder, (s.slot n).state.works = true → (s.slot n).state ≠ .diverting →
      (s.slot n).state ≠ .disabled → (s.slot n).state ≠ .idle → (s.slot n).state ≠ .tripped →
      Within s (if (askCall n false s).hasPumpLine n && decide ((s.slot n).settings.overrun > 0) then
        ((((askCall n false s).setSlotState n (.overrun (s.slot n).settings.overrun
          (Config.freeOffTime (askCall n false s).freeCount).toNat true)).useFree, leave n h .disable) : Sent)
      else ((askPump n false (askCall n false s)).setSlotState n .disabled, leave n h .disable)).1 := by
    intro h hw h1 h2 h3 h4
    split
    · exact ((askCall_within n false s).trans (.toRest (by simpa using h2) (by simpa using h3) (by simpa using h1)
        (by simpa using h4) (by simp) (by simp) (by simp) rfl
        fun k => askCall_follows k (fun h => by simp_all [Slot.pumps]) h1)).trans (.useFree _)
    · exact ((askCall_within n false s).trans (askPump_within ..)).trans
        (disable _ (by simp) h4 fun k _ => linesOff_follows k h1)
  have off : (s.slot n).state ≠ .diverting → (s.slot n).calls = false → (askPump n false s).mapOk → ∀ x,
      (askPump n false s).follows n x := fun hd hc k _ => askPump_follows k hc hd
  have still : (s.slot n).state ≠ .tripped → (s.slot n).calls = false → (s.slot n).pumps = false →
      Within s (askLine (.diverterDrive n) 0 (s.setSlot n { s.slot n with state := .disabled, rearm := false })) := by
    intro ht hc hp
    rw [askLine_setSlot]
    refine (askLine_within (.diverterDrive n) 0 s (by simp)).trans (.setSlot (fun _ hn => ?_) (fun k => ?_) (by rw [askLine_slot]; rfl))
    · rw [askLine_slot] at hn
      obtain ⟨_, k2, k3, _⟩ := hn
      exact ⟨SlotClass.admits_disabled _, k2, by simp_all, fun _ => rfl⟩
    · unfold State.follows
      rw [askLine_slot, hc, hp]
      exact ⟨by simp, by simp, fun _ => .inr (askLine_silent ((askLine_mapOk ..).1 k) (by simp))⟩
  unfold disableSlot
  dsimp only
  split
  · next h => exact stop _ (by simp [h, SlotState.works]) (by simp [h]) (by simp [h]) (by simp [h]) (by simp [h])
  · next h => exact stop _ (by simp [h, SlotState.works]) (by simp [h]) (by simp [h]) (by simp [h]) (by simp [h])
  · next h => exact .toRest (by simp [h]) (by simp [h]) (by simp [h]) (by simp [h]) (by simp) (by simp) (by simp) rfl
  · next h => exact (askPump_within ..).trans (disable _ (by simp) (by simp [h]) (off (by simp [h]) (by simp [h, Slot.calls])))
  · next h => exact (askPump_within ..).trans (disable _ (by simp) (by simp [h]) (off (by simp [h]) (by simp [h, Slot.calls])))
  · next h => exact (askPump_within ..).trans (disable _ (by simp) (by simp [h]) (off (by simp [h]) (by simp [h, Slot.calls])))
  · next h =>
    refine (askPump_within ..).trans (.setSlot
      (fun _ hn => ⟨SlotClass.admits_disabled _, by simp, by simp, fun _ => rfl⟩)
      (fun k => off (by simp [h]) (by simp [h, Slot.calls]) k _) (by rw [askPump_slot]; rfl))
  · next h => exact still (by simp [h]) (by simp [h, Slot.calls]) (by simp [h, Slot.pumps])
  · next h => exact still (by simp [h]) (by simp [h, Slot.calls]) (by simp [h, Slot.pumps])
  · exact .refl s

end Sys2Proof.Machine
end

