-- ==== Sys2Proof/Laws/Services.lean ====
section
/-! SUPPORT. The agreement of the service records, the hold claim and the slots' holders (chapter 6, `State.Serves` of
Safety.lean): what an operation of the SCU takes out of service (`Drops`), and what the arbiter does with its notices. -/

namespace Sys2Proof.Machine

@[simp] theorem leavers_append (k l : List ScuNotice) : leavers (k ++ l) = leavers k ++ leavers l := List.filterMap_append

@[simp] theorem leavers_nil : leavers [] = [] := rfl
@[simp] theorem leavers_available (n : SlotId) (l : List ScuNotice) : leavers (.available n :: l) = leavers l := rfl
@[simp] theorem leavers_left (n : SlotId) (h : Holder) (c : LeaveCause) (l : List ScuNotice) :
    leavers (.leftService n h c :: l) = (n, h) :: leavers l := rfl

theorem leavers_leave (n : SlotId) (h : Option Holder) (c : LeaveCause) :
    leavers (leave n h c) = h.toList.map (n, ·) := by cases h <;> rfl

theorem leavers_availableSlots (s : State) : leavers (availableSlots s) = [] := by
  unfold availableSlots leavers
  rw [List.filterMap_map, List.filterMap_eq_nil_iff]
  intros; rfl

/-- The holder of a slot. -/
def State.holder (s : State) (n : SlotId) : Option Holder := (s.slot n).state.holder?

/-- Only slots of a heating class have a holder. -/
def State.heated (s : State) : Prop := ∀ n, s.holder n ≠ none → (s.slot n).cls.heating = true

/-- The agreement speaks of the records, the claim, the holders and the classes alone. -/
theorem State.Serves.congr {l : List (SlotId × Holder)} {s t : State} (h : s.Serves l)
    (h1 : ∀ z, t.service z = s.service z) (h2 : t.sar.claim = s.sar.claim) (h3 : ∀ n, t.holder n = s.holder n)
    (h4 : ∀ n, (t.slot n).cls.heating = (s.slot n).cls.heating) : t.Serves l := by
  unfold State.holder at h3
  exact ⟨by simpa only [h1, h3] using h.serving, by simpa only [h1, h2] using h.suspended,
    by simpa only [h1] using h.once, by simpa only [h2, h3] using h.claimed, by simpa only [h1, h2] using h.noted,
    by simpa only [h1, h3] using h.held, by simpa only [h2, h3] using h.lent, by simpa only [h3] using h.left,
    by simpa only [h1] using h.leftZone, by simpa only [h2] using h.leftStep, h.distinct,
    by simpa only [h3, h4] using h.heating⟩

theorem State.Serves.perm {k l : List (SlotId × Holder)} {s : State} (h : s.Serves k) (p : k.Perm l) : s.Serves l where
  serving z n e := (h.serving z n e).imp_right p.mem_iff.1
  suspended := h.suspended
  once := h.once
  claimed n e := (h.claimed n e).imp_right p.mem_iff.1
  noted := h.noted
  held := h.held
  lent := h.lent
  left n x e := h.left n x (p.mem_iff.2 e)
  leftZone n z e := h.leftZone n z (p.mem_iff.2 e)
  leftStep n e := h.leftStep n (p.mem_iff.2 e)
  distinct := (p.map _).nodup_iff.1 h.distinct
  heating := h.heating

/-! ### What the SCU takes out of service -/

/-- An operation of the SCU leaves the arbiter's records alone; a slot keeps its holder, or has none afterwards, and then
exactly one left-service notice names the two (R85). -/
structure Drops (s : State) (x : Sent) : Prop where
  sar : x.1.sar = s.sar
  heating : ∀ n, (x.1.slot n).cls.heating = (s.slot n).cls.heating
  keep : s.heated → ∀ n, x.1.holder n = s.holder n ∨ x.1.holder n = none
  left : s.heated → ∀ n h, (n, h) ∈ leavers x.2 ↔ s.holder n = some h ∧ x.1.holder n = none
  nodup : s.heated → (leavers x.2).Nodup

theorem Drops.heated {s : State} {x : Sent} (d : Drops s x) (h : s.heated) : x.1.heated := by
  intro n hn
  rw [d.heating]
  rcases d.keep h n with e | e
  · rw [e] at hn; exact h n hn
  · exact absurd e hn

theorem Drops.same {s t : State} (h1 : t.sar = s.sar) (h2 : ∀ n, t.slot n = s.slot n) {l : List ScuNotice}
    (hl : leavers l = [] := by rfl) : Drops s (t, l) where
  sar := h1
  heating n := by rw [h2]
  keep _ n := .inl (by simp only [State.holder, h2])
  left _ n h := by
    simp only [hl, List.not_mem_nil, false_iff, State.holder, h2]
    rintro ⟨e, f⟩
    rw [e] at f; cases f
  nodup _ := by rw [hl]; exact List.nodup_nil

theorem Drops.refl (s : State) : Drops s (s, []) := .same rfl fun _ => rfl

theorem Drops.trans {s : State} {x y : Sent} (h : Drops s x) (k : Drops x.1 y) : Drops s (y.1, x.2 ++ y.2) where
  sar := k.sar.trans h.sar
  heating n := (k.heating n).trans (h.heating n)
  keep hs n := by
    rcases k.keep (h.heated hs) n with e | e
    · rw [e]; exact h.keep hs n
    · exact .inr e
  left hs n i := by
    rw [leavers_append, List.mem_append, h.left hs, k.left (h.heated hs)]
    rcases h.keep hs n with e | e <;> rcases k.keep (h.heated hs) n with f | f <;> simp only [e, f] <;> simp_all
  nodup hs := by
    rw [leavers_append, List.nodup_append]
    refine ⟨h.nodup hs, k.nodup (h.heated hs), ?_⟩
    rintro ⟨n, i⟩ a _ b rfl
    have := ((h.left hs n i).1 a).2
    rw [((k.left (h.heated hs) n i).1 b).1] at this
    cases this

/-- An operation on one slot. -/
theorem Drops.one {s : State} {x : Sent} (n : SlotId) (h1 : x.1.sar = s.sar) (h2 : ∀ m, m ≠ n → x.1.slot m = s.slot m)
    (h3 : (x.1.slot n).cls = (s.slot n).cls)
    (h : s.heated → x.1.holder n = s.holder n ∧ leavers x.2 = [] ∨
      x.1.holder n = none ∧ leavers x.2 = (s.holder n).toList.map (n, ·)) : Drops s x where
  sar := h1
  heating m := by
    by_cases e : m = n
    · rw [e, h3]
    · rw [h2 m e]
  keep hs m := by
    by_cases e : m = n
    · subst e
      exact (h hs).imp And.left And.left
    · exact .inl (by simp only [State.holder, h2 m e])
  left hs m i := by
    by_cases e : m = n
    · subst e
      rcases h hs with ⟨a, b⟩ | ⟨a, b⟩
      · rw [a, b]
        simp only [List.not_mem_nil, false_iff]
        rintro ⟨e, f⟩; rw [e] at f; cases f
      · rw [a, b]; cases s.holder m <;> simp [eq_comm]
    · have : x.1.holder m = s.holder m := by simp only [State.holder, h2 m e]
      rw [this]
      constructor
      · intro hm
        rcases h hs with ⟨_, b⟩ | ⟨_, b⟩
        · rw [b] at hm; cases hm
        · rw [b] at hm
          cases hh : s.holder n
          · rw [hh] at hm; cases hm
          · rw [hh] at hm; simp [e] at hm
      · rintro ⟨e, f⟩; rw [e] at f; cases f
  nodup hs := by
    rcases h hs with ⟨_, b⟩ | ⟨_, b⟩
    · rw [b]; exact List.nodup_nil
    · rw [b]; cases s.holder n <;> simp

/-- An operation after which the slot stands as it did but for its state, where no other part of the machine but the
lines and the fault records has changed. -/
theorem Drops.toState {s t : State} {n : SlotId} {x : Slot} {l : List ScuNotice} (h1 : t.sar = s.sar)
    (h2 : ∀ m, t.slot m = if m = n then x else s.slot m) (h3 : x.cls = (s.slot n).cls)
    (h : s.heated → x.state.holder? = s.holder n ∧ leavers l = [] ∨
      x.state.holder? = none ∧ leavers l = (s.holder n).toList.map (n, ·)) : Drops s (t, l) := by
  refine .one n h1 (fun m hm => (h2 m).trans (if_neg hm)) ?_ ?_
  · rw [h2, if_pos rfl]; exact h3
  · simpa only [State.holder, h2, if_pos] using h

@[simp] theorem askLine_sar (f : LineFunction) (v : Nat) (s : State) : (askLine f v s).sar = s.sar := by rw [askLine_eq]
@[simp] theorem askCall_sar (n : SlotId) (b : Bool) (s : State) : (askCall n b s).sar = s.sar := by simp [askCall]
@[simp] theorem askPump_sar (n : SlotId) (b : Bool) (s : State) : (askPump n b s).sar = s.sar := by simp [askPump]
@[simp] theorem linesOff_sar (n : SlotId) (s : State) : (linesOff n s).sar = s.sar := by simp [linesOff]
@[simp] theorem stopSlot_sar (n : SlotId) (off : Nat) (s : State) : (stopSlot n off s).sar = s.sar := by
  unfold stopSlot; dsimp only; split <;> simp

theorem stopSlot_drops {n : SlotId} {off : Nat} {s : State} {l : List ScuNotice}
    (h : leavers l = (s.holder n).toList.map (n, ·)) : Drops s (stopSlot n off s, l) := by
  refine .toState (n := n) (stopSlot_sar ..) (fun m => stopSlot_slot n m off s) rfl fun _ => .inr ⟨?_, h⟩
  dsimp only
  split <;> rfl

theorem ceilingTest_drops (n : SlotId) (s : State) : Drops s (ceilingTest n s) := by
  unfold ceilingTest
  dsimp only
  split
  · next h hs =>
    split
    · exact stopSlot_drops (by simp [State.holder, hs, SlotState.holder?, leavers_leave])
    · exact .refl s
  · exact .refl s

/-- A slot whose failure count changes. -/
theorem Drops.setSlot {s : State} {n : SlotId} {x : Slot} {l : List ScuNotice} (h1 : x.cls = (s.slot n).cls)
    (h : s.heated → x.state.holder? = s.holder n ∧ leavers l = [] ∨
      x.state.holder? = none ∧ leavers l = (s.holder n).toList.map (n, ·)) : Drops s (s.setSlot n x, l) :=
  .toState (n := n) rfl (fun m => State.slot_setSlot s m n x) h1 h

theorem completeRun_drops (n : SlotId) (s : State) : Drops s (completeRun n s) := by
  unfold completeRun
  dsimp only
  split
  · next hs =>
    have a : Drops s (s.setSlot n { s.slot n with failures := 0 }, []) := .setSlot rfl fun _ => .inl ⟨rfl, rfl⟩
    exact a.trans (y := (stopSlot n _ _, [])) (stopSlot_drops (by simp [State.holder, hs, SlotState.holder?]))
  · next h hs =>
    have a : Drops s (s.setSlot n { s.slot n with failures := 0, state := .running 0 (some h) }, []) :=
      .setSlot rfl fun _ => .inl ⟨by simp [State.holder, hs, SlotState.holder?], rfl⟩
    exact a.trans (ceilingTest_drops n _)
  · exact .refl s

theorem enterRunning_drops {n : SlotId} {h : Holder} {s : State} (hs : s.holder n = some h) :
    Drops s (enterRunning n h s) := by
  have a : Drops s (s.setSlotState n (.running (s.slot n).settings.minRun (some h)), []) :=
    .setSlot rfl fun _ => .inl ⟨by simp [hs, SlotState.holder?], rfl⟩
  unfold enterRunning
  dsimp only
  split
  · exact a.trans (completeRun_drops n _)
  · exact a

theorem endDwell_drops (n : SlotId) (s : State) : Drops s (endDwell n s) := by
  unfold endDwell
  split
  · next hs =>
    split
    · exact .setSlot rfl fun _ => .inl ⟨by simp [State.holder, hs, SlotState.holder?], rfl⟩
    · exact enterRunning_drops (by simp [State.holder, hs, SlotState.holder?])
  · exact .refl s

theorem expireHold_drops (n : SlotId) (s : State) : Drops s (expireHold n s) := by
  unfold expireHold
  split
  · next hs =>
    refine .setSlot rfl fun _ => .inl ⟨?_, rfl⟩
    simp only [State.holder, hs]
    split <;> rfl
  · exact .refl s

theorem expireWarm_drops (n : SlotId) (s : State) : Drops s (expireWarm n s) := by
  unfold expireWarm
  split
  · next hs => exact .setSlot rfl fun _ => .inl ⟨by simp [State.holder, hs, SlotState.holder?], rfl⟩
  · exact .refl s

theorem expireOverrun_drops (n : SlotId) (s : State) : Drops s (expireOverrun n s, []) := by
  unfold expireOverrun
  split
  · next off pending hs =>
    refine .toState (n := n) (by simp) (x := { s.slot n with state := if pending then .disabled else .hold off })
      (fun m => by simp) rfl fun _ => .inl ⟨?_, rfl⟩
    simp only [State.holder, hs]
    cases pending <;> rfl
  · exact .refl s

theorem reloadActivity_drops (n : SlotId) (s : State) : Drops s (reloadActivity n s) := by
  unfold reloadActivity
  dsimp only
  split
  · next hs =>
    split <;> exact .setSlot rfl fun _ => .inl ⟨by simp [State.holder, hs, SlotState.holder?], rfl⟩
  · next hs =>
    split
    · exact .refl s
    · exact .setSlot rfl fun _ => .inl ⟨by simp [State.holder, hs, SlotState.holder?], rfl⟩
  · exact .refl s

theorem startFailure_drops (n : SlotId) (s : State) : Drops s (startFailure n s) := by
  unfold startFailure
  split
  · next o r h hs =>
    have a : leavers (leave n (some h) .tripped) = (s.holder n).toList.map (n, ·) ∧
        leavers (leave n (some h) .startFailure) = (s.holder n).toList.map (n, ·) := by
      simp [State.holder, hs, SlotState.holder?, leavers_leave]
    dsimp only
    split
    · refine .toState (n := n) (x := { s.slot n with failures := (s.slot n).failures + 1, state := .tripped })
        (by simp) (fun m => ?_) rfl fun _ => .inr ⟨rfl, a.1⟩
      by_cases e : m = n <;> simp [e]
    · refine .toState (n := n)
        (x := { s.slot n with failures := (s.slot n).failures + 1, state := .hold (s.slot n).settings.minOff })
        (by simp) (fun m => ?_) rfl fun _ => .inr ⟨rfl, a.2⟩
      by_cases e : m = n <;> simp [e]
  · exact .refl s

theorem loseConfirm_drops (n : SlotId) (s : State) : Drops s (loseConfirm n s) := by
  unfold loseConfirm
  split
  · next r h hs =>
    have hh : s.holder n = h := by simp [State.holder, hs, SlotState.holder?]
    dsimp only
    split
    · refine .toState (n := n) (x := { s.slot n with failures := (s.slot n).failures + 1, state := .tripped })
        (by simp) (fun m => ?_) rfl fun _ => .inr ⟨rfl, by rw [leavers_leave, hh]⟩
      by_cases e : m = n <;> simp [e]
    · have a : Drops s (((report .confirmLost (.slot n) s).setSlot n
          { s.slot n with failures := (s.slot n).failures + 1 }), []) := by
        refine .toState (n := n) (x := { s.slot n with failures := (s.slot n).failures + 1 }) (by simp) (fun m => ?_) rfl
          fun _ => .inl ⟨rfl, rfl⟩
        by_cases e : m = n <;> simp [e]
      refine a.trans (y := (stopSlot n _ _, _)) ?_
      simp only [report_slot]
      refine stopSlot_drops ((leavers_leave ..).trans ?_)
      rw [← hh]
      simp [State.holder]
  · exact .refl s

theorem confirmChanged_drops (n : SlotId) (b : Bool) (s : State) : Drops s (confirmChanged n b s) := by
  unfold confirmChanged
  split
  · exact reloadActivity_drops ..
  · exact reloadActivity_drops ..
  · next hs =>
    split
    · exact enterRunning_drops (by simp [State.holder, hs, SlotState.holder?])
    · exact .refl s
  · split
    · exact .refl s
    · exact loseConfirm_drops ..
  · exact .refl s

@[simp] theorem evaluateDiverter_sar (n : SlotId) (s : State) : (evaluateDiverter n s).sar = s.sar := by
  unfold evaluateDiverter; dsimp only; split <;> simp

theorem evaluateDiverter_drops (n : SlotId) (s : State) : Drops s (evaluateDiverter n s, []) := by
  rcases evaluateDiverter_slot n n s with h | ⟨_, hc, _, r, st, h, hst⟩
  · refine .same (by simp) fun m => ?_
    rcases evaluateDiverter_slot n m s with k | ⟨e, _⟩
    · exact k
    · rw [e]; exact h
  · refine .one n (by simp) (fun m hm => ?_) (by dsimp only; rw [h]) fun hs => .inl ⟨?_, rfl⟩
    · exact (evaluateDiverter_slot n m s).resolve_right fun e => hm e.1
    · have hn : s.holder n = none := by
        by_contra hn
        have := hs n hn
        rw [hc] at this
        cases this
      rw [hn]
      simp only [State.holder, h]
      rcases hst with rfl | ⟨rfl, _⟩ <;> rfl

theorem Drops.foldl {f : SlotId → State → State} (h : ∀ n s, Drops s (f n s, [])) (l : List SlotId) (s : State) :
    Drops s (l.foldl (fun s n => f n s) s, []) := by
  induction l generalizing s with
  | nil => exact .refl s
  | cons n l ih => exact (h n s).trans (ih _)

theorem Drops.foldSent {f : SlotId → State → Sent} (h : ∀ n s, Drops s (f n s)) (l : List SlotId) {s : State} {x : Sent}
    (hx : Drops s x) : Drops s (l.foldl (fun (x : Sent) n => x.andThen (f n)) x) := by
  induction l generalizing x with
  | nil => exact hx
  | cons n l ih => exact ih (hx.trans (h n x.1))

theorem evaluateDiverters_drops (s : State) : Drops s (evaluateDiverters s, []) := Drops.foldl evaluateDiverter_drops _ s

theorem setSurplus_drops (w : Nat) (t : Option Nat) (s : State) : Drops s (setSurplus w t s, []) :=
  (Drops.same (s := s) (l := []) (t := { s with scu := { s.scu with surplus := w, surplusTimer := t } }) rfl
    fun _ => rfl).trans (evaluateDiverters_drops _)

theorem Drops.andDiverters {s : State} {x : Sent} (h : Drops s x) : Drops s (evaluateDiverters x.1, x.2) := by
  have := h.trans (evaluateDiverters_drops x.1)
  rwa [List.append_nil] at this

theorem scuUpdateCompleted_drops (s : State) : Drops s (scuUpdateCompleted s) :=
  (Drops.foldSent ceilingTest_drops allSlots (.refl s)).andDiverters

theorem latchStop_drops (n : SlotId) (s : State) : Drops s (latchStop n s) := by
  unfold latchStop
  dsimp only
  split
  · next h hs =>
    refine .toState (n := n) (x := { s.slot n with state := .hold (s.slot n).settings.minOff }) (by simp) (fun m => ?_) rfl
      fun _ => .inr ⟨rfl, ?_⟩
    · by_cases e : m = n <;> simp [e]
    · simp [State.holder, hs, SlotState.holder?, leavers_leave]
  · next hs => exact stopSlot_drops (by simp [State.holder, hs, SlotState.holder?, leavers_leave])
  · exact .refl s

theorem setLatch_drops (c : Latch) (k : FaultKind) (j : Subject) (s : State) : Drops s (setLatch c k j s) := by
  have a : Drops s (report k j { s with scu := { s.scu with latch := c } }, []) :=
    .same (by simp) fun n => by simp [State.slot]
  exact (Drops.foldSent latchStop_drops allSlots a).andDiverters

theorem clearLatch_drops (s : State) : Drops s (clearLatch s) := by
  have a : ∀ t : State, t.sar = s.sar → (∀ n, t.slot n = s.slot n) → Drops s (t, availableSlots t) := fun t h1 h2 =>
    .same h1 h2 (leavers_availableSlots t)
  exact (a { s with scu := { s.scu with latch := .clear } } rfl fun _ => rfl).andDiverters

theorem topProbeIsLost_drops (s : State) : Drops s (topProbeIsLost s) := by
  unfold topProbeIsLost
  split
  · exact setLatch_drops ..
  · exact .same (by simp) fun n => by simp [State.slot]
  · exact .refl s

theorem topLimitValue_drops (v : Int) (s : State) : Drops s (topLimitValue v s) := by
  unfold topLimitValue
  dsimp only
  split
  · split
    · exact setLatch_drops ..
    · exact .refl s
  · split
    · exact clearLatch_drops s
    · exact .refl s
  · split
    · exact clearLatch_drops s
    · split
      · refine Drops.same (l := []) ?_ fun n => ?_ <;> rfl
      · exact Drops.same (l := []) (by simp) fun n => by simp [State.slot]

theorem disableSlot_drops (n : SlotId) (s : State) : Drops s (disableSlot n s) := by
  unfold disableSlot
  dsimp only
  have stop : ∀ h, s.holder n = h → Drops s
      (if (askCall n false s).hasPumpLine n && decide ((s.slot n).settings.overrun > 0) then
        ((((askCall n false s).setSlotState n (.overrun (s.slot n).settings.overrun
          (Config.freeOffTime (askCall n false s).freeCount).toNat true)).useFree, leave n h .disable) : Sent)
      else ((askPump n false (askCall n false s)).setSlotState n .disabled, leave n h .disable)) := by
    intro h hh
    split
    · refine .toState (n := n)
        (x := { s.slot n with
          state := (.overrun (s.slot n).settings.overrun (Config.freeOffTime (askCall n false s).freeCount).toNat true) })
        (by simp [State.useFree]) (fun m => ?_) rfl fun _ => .inr ⟨rfl, by rw [leavers_leave, hh]⟩
      show ((askCall n false s).setSlotState n _).slot m = _
      simp
    · refine .toState (n := n) (x := { s.slot n with state := .disabled }) (by simp) (fun m => ?_) rfl
        fun _ => .inr ⟨rfl, by rw [leavers_leave, hh]⟩
      simp
  have rest : ∀ st f r, s.holder n = none → SlotState.holder? st = none →
      Drops s ((askPump n false s).setSlot n { s.slot n with state := st, failures := f, rearm := r }, []) := by
    intro st f r h1 h2
    refine .toState (n := n) (x := { s.slot n with state := st, failures := f, rearm := r }) (by simp) (fun m => ?_) rfl
      fun _ => .inl ⟨by rw [h1]; exact h2, rfl⟩
    simp
  have quiet : s.holder n = none →
      Drops s ((askPump n false s).setSlotState n .disabled, []) := by
    intro h1
    refine .toState (n := n) (x := { s.slot n with state := .disabled }) (by simp) (fun m => ?_) rfl
      fun _ => .inl ⟨by rw [h1]; rfl, rfl⟩
    simp
  have still : s.holder n = none →
      Drops s (askLine (.diverterDrive n) 0 (s.setSlot n { s.slot n with state := .disabled, rearm := false }), []) := by
    intro h1
    refine .toState (n := n) (x := { s.slot n with state := .disabled, rearm := false }) (by simp) (fun m => ?_) rfl
      fun _ => .inl ⟨by rw [h1]; rfl, rfl⟩
    simp
  split
  · next hs => exact stop _ (by simp [State.holder, hs, SlotState.holder?])
  · next hs => exact stop _ (by simp [State.holder, hs, SlotState.holder?])
  · next hs => exact .setSlot rfl fun _ => .inl ⟨by simp [State.holder, hs, SlotState.holder?], rfl⟩
  · next hs => exact quiet (by simp [State.holder, hs, SlotState.holder?])
  · next hs => exact quiet (by simp [State.holder, hs, SlotState.holder?])
  · next hs => exact quiet (by simp [State.holder, hs, SlotState.holder?])
  · next hs => exact rest _ _ _ (by simp [State.holder, hs, SlotState.holder?]) rfl
  · next hs => exact still (by simp [State.holder, hs, SlotState.holder?])
  · next hs => exact still (by simp [State.holder, hs, SlotState.holder?])
  · exact .refl s

/-- What leaves service joins the notices on their way. -/
theorem State.Serves.drops {l : List (SlotId × Holder)} {s : State} {x : Sent} (h : s.Serves l) (d : Drops s x) :
    x.1.Serves (leavers x.2 ++ l) := by
  have hw : s.heated := h.heating
  have sv : ∀ z, x.1.service z = s.service z := fun z => by simp only [State.service, d.sar]
  have lost : ∀ n i, s.holder n = some i → x.1.holder n = some i ∨ (n, i) ∈ leavers x.2 := by
    intro n i e
    rcases d.keep hw n with k | k
    · exact .inl (k.trans e)
    · exact .inr ((d.left hw n i).2 ⟨e, k⟩)
  have kept : ∀ n i, x.1.holder n = some i → s.holder n = some i := by
    intro n i e
    rcases d.keep hw n with k | k
    · rw [← k]; exact e
    · rw [k] at e; cases e
  have had : ∀ n i, (n, i) ∈ leavers x.2 → s.holder n = some i := fun n i e => ((d.left hw n i).1 e).1
  have whose : ∀ m n i, s.holder m = some i → s.holder n = some i → m = n := by
    intro m n i e f
    cases i with
    | zone z =>
      have := (h.held m z e).symm.trans (h.held n z f)
      simpa using this
    | holdStep =>
      have a := h.lent m e
      have b := h.lent n f
      revert a b
      cases s.sar.claim <;> simp_all [Claim.holds]
  refine ⟨fun z n e => ?_, fun z n e => ?_, fun y z n => ?_, fun n e => ?_, fun n z e => ?_, fun n z e => ?_, fun n e => ?_,
    fun n i e => ?_, fun n z e => ?_, fun n e => ?_, ?_, fun n e => ?_⟩
  · rw [sv] at e
    rcases h.serving z n e with a | a
    · exact (lost n _ a).imp_right (List.mem_append_left _)
    · exact .inr (List.mem_append_right _ a)
  · rw [sv] at e; rw [d.sar]; exact h.suspended z n e
  · rw [sv, sv]; exact h.once y z n
  · rw [d.sar] at e
    rcases h.claimed n e with a | a
    · exact (lost n _ a).imp_right (List.mem_append_left _)
    · exact .inr (List.mem_append_right _ a)
  · rw [d.sar] at e; rw [sv]; exact h.noted n z e
  · rw [sv]; exact h.held n z (kept n _ e)
  · rw [d.sar]; exact h.lent n (kept n _ e)
  · rcases List.mem_append.1 e with a | a
    · intro k
      have := ((d.left hw n i).1 a).2
      rw [State.holder, k] at this; cases this
    · exact fun k => h.left n i a (kept n i k)
  · rw [sv]
    rcases List.mem_append.1 e with a | a
    · exact h.held n z (had n _ a)
    · exact h.leftZone n z a
  · rw [d.sar]
    rcases List.mem_append.1 e with a | a
    · exact h.lent n (had n _ a)
    · exact h.leftStep n a
  · rw [List.map_append, List.nodup_append]
    refine ⟨(List.nodup_map_iff_inj_on (d.nodup hw)).2 ?_, h.distinct, ?_⟩
    · rintro ⟨m, i⟩ a ⟨n, j⟩ b (rfl : i = j)
      rw [whose m n i (had m i a) (had n i b)]
    · rintro i hi j hj rfl
      obtain ⟨⟨m, i⟩, a, rfl⟩ := List.mem_map.1 hi
      obtain ⟨⟨n, j⟩, b, e⟩ := List.mem_map.1 hj
      cases (e : j = i)
      have hm := had m i a
      have : m = n := by
        cases i with
        | zone z =>
          have := (h.held m z hm).symm.trans (h.leftZone n z b)
          simpa using this
        | holdStep =>
          have c := h.lent m hm
          have d := h.leftStep n b
          revert c d
          cases s.sar.claim <;> simp_all [Claim.holds]
      subst this
      exact h.left m i b hm
  · rw [d.heating]
    cases k : (x.1.slot n).state.holder? with
    | none => exact absurd k e
    | some i => exact hw n (by rw [kept n i k]; simp)

/-! ### What the arbiter records -/

theorem Service.names_iff (x : Service) (n : SlotId) : x.names n = true ↔ x = .serving n ∨ x = .suspended n := by
  cases x <;> simp [Service.names, eq_comm]

theorem Claim.holds_iff (c : Claim) (n : SlotId) : c.holds n = true ↔ ∃ o, c = .holding n o := by
  cases c <;> simp [Claim.holds, eq_comm]

/-- A record that names no slot. -/
def Service.bare (x : Service) : Prop := ∀ n, x ≠ .serving n ∧ x ≠ .suspended n

/-- A slot free of every record is granted to a WAITING zone (R116). -/
theorem State.Serves.grant {l : List (SlotId × Holder)} {s t : State} {z : Zone} {n : SlotId} (h : s.Serves l)
    (hz : s.service z = .waiting) (hn : ∀ y, (s.service y).names n = false) (hc : s.sar.claim.holds n = false)
    (hh : (s.slot n).cls.heating = true)
    (h1 : ∀ y, t.service y = if y = z then .serving n else s.service y) (h2 : t.sar.claim = s.sar.claim)
    (h3 : ∀ m, t.holder m = if m = n then some (.zone z) else s.holder m)
    (h4 : ∀ m, (t.slot m).cls.heating = (s.slot m).cls.heating) : t.Serves l := by
  unfold State.holder at h3
  obtain ⟨a1, a2, a3, a4, a5, a6, a7, a8, a9, a10, a11, a12⟩ := h
  constructor <;> grind [Service.names_iff, Claim.holds_iff, Service.bare]

/-- A SEEKING claim takes a slot (R123). -/
theorem State.Serves.take {l : List (SlotId × Holder)} {s t : State} {n : SlotId} {o : Option Zone} (h : s.Serves l)
    (hc : s.sar.claim = .seeking) (hh : (s.slot n).cls.heating = true)
    (ho : ∀ y, o = some y ↔ s.holder n = some (.zone y))
    (h1 : ∀ y, t.service y = if o = some y then .suspended n else s.service y) (h2 : t.sar.claim = .holding n o)
    (h3 : ∀ m, t.holder m = if m = n then some .holdStep else s.holder m)
    (h4 : ∀ m, (t.slot m).cls.heating = (s.slot m).cls.heating) : t.Serves l := by
  unfold State.holder at h3 ho
  obtain ⟨a1, a2, a3, a4, a5, a6, a7, a8, a9, a10, a11, a12⟩ := h
  constructor <;> grind [Service.names_iff, Claim.holds_iff, Service.bare]

/-- A record that names no slot takes another value that names none. -/
theorem State.Serves.setIdle {l : List (SlotId × Holder)} {s t : State} {z : Zone} {x : Service} (h : s.Serves l)
    (hz : (s.service z).bare) (hx : x.bare)
    (h1 : ∀ y, t.service y = if y = z then x else s.service y) (h2 : t.sar.claim = s.sar.claim)
    (h3 : ∀ m, t.slot m = s.slot m) : t.Serves l := by
  obtain ⟨a1, a2, a3, a4, a5, a6, a7, a8, a9, a10, a11, a12⟩ := h
  constructor <;> grind [Service.names_iff, Claim.holds_iff, Service.bare]

/-- A left-service notice of a zone's slot arrives (R119). -/
theorem State.Serves.leftService {l : List (SlotId × Holder)} {s t : State} {z : Zone} {n : SlotId} {x : Service}
    (h : s.Serves ((n, .zone z) :: l)) (hx : x.bare)
    (h1 : ∀ y, t.service y = if y = z then x else s.service y) (h2 : t.sar.claim = s.sar.claim)
    (h3 : ∀ m, t.slot m = s.slot m) : t.Serves l := by
  obtain ⟨a1, a2, a3, a4, a5, a6, a7, a8, a9, a10, a11, a12⟩ := h
  simp only [List.map_cons, List.nodup_cons, List.mem_map, Prod.exists, exists_eq_right, not_exists] at a11
  constructor <;> grind [Service.names_iff, Claim.holds_iff, Service.bare]

/-- The left-service notice of the hold claim's slot arrives (R125). -/
theorem State.Serves.leftStep' {l : List (SlotId × Holder)} {s t : State} {n : SlotId} {o : Option Zone} {x : Zone → Service}
    (h : s.Serves ((n, .holdStep) :: l)) (hc : s.sar.claim = .holding n o) (hx : ∀ z, (x z).bare)
    (h1 : ∀ y, t.service y = if o = some y then x y else s.service y) (h2 : t.sar.claim = .seeking)
    (h3 : ∀ m, t.slot m = s.slot m) : t.Serves l := by
  obtain ⟨a1, a2, a3, a4, a5, a6, a7, a8, a9, a10, a11, a12⟩ := h
  simp only [List.map_cons, List.nodup_cons, List.mem_map, Prod.exists, exists_eq_right, not_exists] at a11
  constructor <;> grind [Service.names_iff, Claim.holds_iff, Service.bare]

/-- A served zone gives its slot up (R118). -/
theorem State.Serves.release {s t : State} {z : Zone} {n : SlotId} {x : Service} (h : s.Serves [])
    (hz : s.service z = .serving n) (hx : x.bare)
    (h1 : ∀ y, t.service y = if y = z then x else s.service y) (h2 : t.sar.claim = s.sar.claim)
    (h3 : ∀ m, t.holder m = if m = n then none else s.holder m)
    (h4 : ∀ m, (t.slot m).cls.heating = (s.slot m).cls.heating) : t.Serves [] := by
  unfold State.holder at h3
  obtain ⟨a1, a2, a3, a4, a5, a6, a7, a8, a9, a10, a11, a12⟩ := h
  constructor <;> grind [Service.names_iff, Claim.holds_iff, Service.bare]

/-- The claim is dropped, and its slot with it (R126). -/
theorem State.Serves.giveUp {s t : State} {n : SlotId} {o : Option Zone} {x : Service} (h : s.Serves [])
    (hc : s.sar.claim = .holding n o) (hx : x.bare)
    (h1 : ∀ y, t.service y = if o = some y then x else s.service y) (h2 : t.sar.claim = .none)
    (h3 : ∀ m, t.holder m = if m = n then none else s.holder m)
    (h4 : ∀ m, (t.slot m).cls.heating = (s.slot m).cls.heating) : t.Serves [] := by
  unfold State.holder at h3
  obtain ⟨a1, a2, a3, a4, a5, a6, a7, a8, a9, a10, a11, a12⟩ := h
  constructor <;> grind [Service.names_iff, Claim.holds_iff, Service.bare]

/-- The claim's slot returns to its zone (R126). -/
theorem State.Serves.giveBack {s t : State} {n : SlotId} {z : Zone} (h : s.Serves [])
    (hc : s.sar.claim = .holding n (some z))
    (h1 : ∀ y, t.service y = if y = z then .serving n else s.service y) (h2 : t.sar.claim = .none)
    (h3 : ∀ m, t.holder m = if m = n then some (.zone z) else s.holder m)
    (h4 : ∀ m, (t.slot m).cls.heating = (s.slot m).cls.heating) : t.Serves [] := by
  unfold State.holder at h3
  obtain ⟨a1, a2, a3, a4, a5, a6, a7, a8, a9, a10, a11, a12⟩ := h
  constructor <;> grind [Service.names_iff, Claim.holds_iff, Service.bare]

/-- A claim that holds no slot takes another value that holds none. -/
theorem State.Serves.setClaim {l : List (SlotId × Holder)} {s t : State} (h : s.Serves l)
    (hc : ∀ n o, s.sar.claim ≠ .holding n o) (hx : ∀ n o, t.sar.claim ≠ .holding n o)
    (h1 : ∀ y, t.service y = s.service y) (h3 : ∀ m, t.slot m = s.slot m) : t.Serves l := by
  obtain ⟨a1, a2, a3, a4, a5, a6, a7, a8, a9, a10, a11, a12⟩ := h
  constructor <;> grind [Service.names_iff, Claim.holds_iff, Service.bare]

theorem Service.bare_of_ite {p : Prop} [Decidable p] {x y : Service} (hx : x.bare) (hy : y.bare) :
    (if p then x else y).bare := by split <;> assumption

theorem Service.idle_bare : Service.idle.bare := by simp [Service.bare]
theorem Service.waiting_bare : Service.waiting.bare := by simp [Service.bare]
theorem Service.holdoff_bare (r : Nat) : (Service.holdoff r).bare := by simp [Service.bare]
theorem State.waitingOrIdle_bare (s : State) (z : Zone) : (s.waitingOrIdle z).bare :=
  Service.bare_of_ite Service.waiting_bare Service.idle_bare

/-- The arbiter's records may be written beside what the SCU does. -/
theorem Drops.withSar {s : State} {x : Sent} (d : Drops s x) (a : Sar) :
    Drops { s with sar := a } ({ x.1 with sar := a }, x.2) :=
  ⟨rfl, d.heating, d.keep, d.left, d.nodup⟩

/-! ### Starts -/

/-- A slot that starts. -/
def starting (n : SlotId) (o : StartOrigin) (h : Holder) (s : State) : State :=
  askPump n true (askCall n true (s.setSlotState n (.starting o .dwell
    ((s.slot n).settings.startDwell + (if o = .cold then (s.slot n).settings.coldExtra else 0)) h)))

theorem startSlot_drops (n : SlotId) (o : StartOrigin) (h : Holder) (s : State) :
    Drops (starting n o h s) (startSlot n o h s) := by
  have e : startSlot n o h s =
      if (s.slot n).settings.startDwell + (if o = .cold then (s.slot n).settings.coldExtra else 0) = 0 then
        endDwell n (starting n o h s)
      else (starting n o h s, []) := rfl
  rw [e]
  by_cases k : (s.slot n).settings.startDwell + (if o = .cold then (s.slot n).settings.coldExtra else 0) = 0
  · rw [if_pos k]; exact endDwell_drops n _
  · rw [if_neg k]; exact .refl _

@[simp] theorem starting_sar (n : SlotId) (o : StartOrigin) (h : Holder) (s : State) : (starting n o h s).sar = s.sar := by
  simp [starting]

theorem starting_slot (n m : SlotId) (o : StartOrigin) (h : Holder) (s : State) :
    (starting n o h s).holder m = (if m = n then some h else s.holder m) ∧
      ((starting n o h s).slot m).cls = (s.slot m).cls := by
  by_cases e : m = n <;> simp [starting, State.holder, e, SlotState.holder?]

/-- A granted or lent slot: the slot's new holder, and what leaves service at once. -/
structure Moves (n : SlotId) (h : Holder) (s : State) (x : Sent) : Prop where
  via : ∃ u, Drops u x ∧ u.sar = s.sar ∧ (∀ m, u.holder m = if m = n then some h else s.holder m) ∧
    ∀ m, (u.slot m).cls = (s.slot m).cls
  heating : (s.slot n).cls.heating = true

theorem startSlot_moves {n : SlotId} {o : StartOrigin} {h : Holder} {s : State} (hh : (s.slot n).cls.heating = true) :
    Moves n h s (startSlot n o h s) :=
  ⟨⟨starting n o h s, startSlot_drops .., starting_sar .., fun m => (starting_slot n m o h s).1,
    fun m => (starting_slot n m o h s).2⟩, hh⟩

theorem setSlotState_moves {n : SlotId} {h : Holder} {s : State} {st : SlotState} (hh : (s.slot n).cls.heating = true)
    (hst : st.holder? = some h) : Moves n h s (s.setSlotState n st, []) := by
  refine ⟨⟨_, .refl _, rfl, fun m => ?_, fun m => ?_⟩, hh⟩
  · simp only [State.holder, State.slot_setSlotState]; split <;> simp_all
  · rw [State.slot_setSlotState]; split <;> simp_all

theorem grantSlot_moves {n : SlotId} {z : Zone} {s : State} {x : Sent} (h : grantSlot n z s = some x) :
    Moves n (.zone z) s x := by
  unfold grantSlot at h
  split at h
  · next hg =>
    simp only [Bool.and_eq_true] at hg
    split at h <;> cases h
    · exact startSlot_moves hg.2
    · exact startSlot_moves hg.2
    · exact setSlotState_moves hg.2 rfl
  · cases h

theorem takeForHold_moves {n : SlotId} {s : State} {x : Sent} (h : takeForHold n s = some x) : Moves n .holdStep s x := by
  unfold takeForHold at h
  split at h
  · next hg =>
    simp only [Bool.and_eq_true] at hg
    split at h <;> cases h
    · exact startSlot_moves hg.2
    · exact startSlot_moves hg.2
    · exact setSlotState_moves hg.2 rfl
    · exact setSlotState_moves hg.2 rfl
  · cases h

/-- The agreement once the records that go with a moved slot are written. -/
theorem Moves.serves {n : SlotId} {h : Holder} {s : State} {x : Sent} (m : Moves n h s x) {l : List (SlotId × Holder)} {a : Sar}
    (k : ∀ u : State, u.sar = a → (∀ m, u.holder m = if m = n then some h else s.holder m) →
      (∀ m, (u.slot m).cls.heating = (s.slot m).cls.heating) → u.Serves l) :
    ({ x.1 with sar := a } : State).Serves (leavers x.2 ++ l) := by
  obtain ⟨u, d, _, h2, h3⟩ := m.via
  exact (k { u with sar := a } rfl h2 fun m => by rw [← h3 m]; rfl).drops (d.withSar a)

/-! ### Evaluations -/

/-- The agreement, with notices `e` on their way beside those that wait for further evaluations. -/
def State.Agrees (e : List (SlotId × Holder)) (s : State) : Prop := s.Serves (leavers s.sar.further ++ e)

theorem State.Agrees.of {e : List (SlotId × Holder)} {s : State} (h : s.Serves (leavers s.sar.further ++ e)) : s.Agrees e := h

theorem grantEntries_agrees (z : Zone) (r : List SlotId) {e : List (SlotId × Holder)} {s : State} (h : s.Agrees e)
    (hz : s.service z = .waiting) : (grantEntries z r s).Agrees e := by
  induction r with
  | nil => exact h
  | cons n r ih =>
    rw [grantEntries]
    split
    · next hc =>
      split
      · next x hx =>
        simp only [State.candidate, Bool.and_eq_true, Bool.not_eq_true', List.any_eq_false, Bool.not_eq_true] at hc
        have hn : ∀ y, (s.service y).names n = false := fun y => hc.1.2 y (by cases y <;> decide)
        have m := grantSlot_moves hx
        have hs : x.1.sar = s.sar := by obtain ⟨u, d, h1, _⟩ := m.via; exact d.sar.trans h1
        have key := m.serves (l := leavers s.sar.further ++ e)
          (a := { s.sar with services := s.sar.services.set z (.serving n) }) fun u hu h3 h4 =>
            State.Serves.grant (z := z) h hz hn hc.2 m.heating (fun y => by simp [State.service, hu]) (by rw [hu]) h3 h4
        refine State.Serves.perm (k := leavers x.2 ++ (leavers s.sar.further ++ e)) ?_ ?_
        · refine key.congr (fun y => ?_) ?_ (fun _ => rfl) fun _ => rfl
          · simp [State.service, State.deferNotices, State.setService, hs]
          · simp [State.deferNotices, State.setService, hs]
        · simp only [State.deferNotices, State.setService, hs, leavers_append, ← List.append_assoc]
          exact (List.perm_append_comm).append_right e
      · exact ih
    · exact ih

theorem selectGrant_agrees (z : Zone) {e : List (SlotId × Holder)} {s : State} (h : s.Agrees e) :
    (selectGrant z s).Agrees e := by
  unfold selectGrant
  split
  · next hz => exact grantEntries_agrees z _ h hz.1
  · exact h

theorem SlotState.zoneHolder_iff (x : SlotState) (y : Zone) : x.zoneHolder = some y ↔ x.holder? = some (.zone y) := by
  unfold SlotState.zoneHolder SlotState.holder?
  cases x <;> try simp
  · next o p r h => cases h <;> simp
  · next r h => rcases h with _ | _ | _ <;> simp

theorem scanEntries_agrees (low : Fin 16) (r : List SlotId) {e : List (SlotId × Holder)} {s : State} (h : s.Agrees e)
    (hc : s.sar.claim = .seeking) : (scanEntries low r s).Agrees e := by
  induction r with
  | nil => exact h.congr (fun _ => rfl) rfl (fun _ => rfl) fun _ => rfl
  | cons n r ih =>
    rw [scanEntries]
    split
    · split
      · next x hx =>
        have m := takeForHold_moves hx
        have hs : x.1.sar = s.sar := by obtain ⟨u, d, h1, _⟩ := m.via; exact d.sar.trans h1
        have key := m.serves (l := leavers s.sar.further ++ e)
          (a := { s.sar with
            claim := .holding n (s.slot n).state.zoneHolder
            services := match (s.slot n).state.zoneHolder with
              | some z => s.sar.services.set z (.suspended n)
              | none => s.sar.services }) fun u hu h3 h4 =>
            State.Serves.take (o := (s.slot n).state.zoneHolder) h hc m.heating (fun y => SlotState.zoneHolder_iff _ y)
              (fun y => by
                simp only [State.service, hu]
                cases (s.slot n).state.zoneHolder with
                | none => simp
                | some z => simp [eq_comm]) (by rw [hu]) h3 h4
        refine State.Serves.perm (k := leavers x.2 ++ (leavers s.sar.further ++ e)) ?_ ?_
        · refine key.congr (fun y => ?_) ?_ (fun _ => ?_) fun _ => ?_
          all_goals
            unfold recordTake
            dsimp only
            cases (s.slot n).state.zoneHolder <;> simp [State.service, State.deferNotices, State.setService, State.setClaim, State.answer, State.holder, hs] <;> rfl
        · have : ((recordTake n (s.slot n).state x.1).deferNotices x.2).sar.further = s.sar.further ++ x.2 := by
            unfold recordTake
            dsimp only
            cases (s.slot n).state.zoneHolder <;> simp [hs]
          rw [show _ = leavers _ from congrArg leavers this, leavers_append]
          simp only [← List.append_assoc]
          exact (List.perm_append_comm).append_right e
      · exact ih
    · exact ih

theorem holdScan_agrees {e : List (SlotId × Holder)} {s : State} (h : s.Agrees e) (hc : s.sar.claim = .seeking) :
    (holdScan s).Agrees e := by
  unfold holdScan
  split
  · split
    · exact scanEntries_agrees _ _ h hc
    · exact scanEntries_agrees _ _ h hc
    · exact scanEntries_agrees _ _ (s := s.useFree) (h.congr (fun _ => rfl) rfl (fun _ => rfl) fun _ => rfl) hc
  · exact h.congr (fun _ => rfl) rfl (fun _ => rfl) fun _ => rfl

/-- The scan and the grants of an evaluation. -/
theorem evaluateOne_agrees {v : SarEvent} {e : List (SlotId × Holder)} {s : State} (h : (applyEvent v s).Agrees e) :
    (evaluateOne v s).Agrees e := by
  unfold evaluateOne
  dsimp only
  refine selectGrant_agrees _ (selectGrant_agrees _ (selectGrant_agrees _ ?_))
  split
  · next hc => exact holdScan_agrees h hc
  · exact h

/-- A notice arrives at the arbiter. -/
theorem applyNotice_agrees (p : ScuNotice) {e : List (SlotId × Holder)} {s : State}
    (h : s.Serves (leavers [p] ++ (leavers s.sar.further ++ e))) : (applyEvent (.scuNotice p) s).Agrees e := by
  rcases p with n | ⟨n, i, c⟩
  · exact h
  · change s.Serves ((n, i) :: (leavers s.sar.further ++ e)) at h
    change (applyLeftService n i s).Agrees e
    cases i with
    | zone z =>
      have hz := h.leftZone n z List.mem_cons_self
      unfold applyLeftService
      simp only [hz, if_true]
      exact h.leftService (State.waitingOrIdle_bare s z) (fun y => by simp) rfl fun _ => rfl
    | holdStep =>
      obtain ⟨o, ho⟩ := (Claim.holds_iff _ _).1 (h.leftStep n List.mem_cons_self)
      unfold applyLeftService
      simp only [ho, if_true]
      have key : ∀ t : State, (∀ y, t.service y = if o = some y then s.waitingOrIdle y else s.service y) →
          t.sar.claim = .seeking → (∀ m, t.slot m = s.slot m) → t.sar.further = s.sar.further → t.Agrees e := by
        intro t h1 h2 h3 h4
        rw [State.Agrees, h4]
        exact h.leftStep' ho (fun z => State.waitingOrIdle_bare s z) h1 h2 h3
      cases o with
      | none => exact key _ (fun y => by simp [State.service, State.setClaim, State.answer]) rfl (fun _ => rfl) rfl
      | some z =>
        refine key _ (fun y => ?_) rfl (fun _ => rfl) rfl
        change ((s.setService z (s.waitingOrIdle z)).service y) = _
        rw [State.service_setService]
        by_cases e : y = z
        · simp [e]
        · simp [e, Ne.symm e]

theorem evaluateNotice_agrees (p : ScuNotice) {e : List (SlotId × Holder)} {s : State}
    (h : s.Serves (leavers [p] ++ (leavers s.sar.further ++ e))) : (evaluateOne (.scuNotice p) s).Agrees e :=
  evaluateOne_agrees (applyNotice_agrees p h)

theorem takeFurther_agrees {e : List (SlotId × Holder)} {s : State} (h : s.Agrees e) : (takeFurther s).Agrees e := by
  unfold takeFurther
  split
  · exact h
  · next p rest hf =>
    refine evaluateNotice_agrees p ?_
    have : leavers s.sar.further = leavers [p] ++ leavers rest := by rw [hf, ← leavers_append]; rfl
    rw [State.Agrees, this, List.append_assoc] at h
    exact h.congr (fun _ => rfl) rfl (fun _ => rfl) fun _ => rfl

theorem settle_agrees (k : Nat) {e : List (SlotId × Holder)} {s : State} (h : s.Agrees e) : (settle k s).Agrees e := by
  induction k generalizing s with
  | zero => exact h
  | succ k ih => exact ih (takeFurther_agrees h)

/-- A notice reaches the arbiter with others still on their way. -/
theorem evaluate_notice_agrees (p : ScuNotice) {e : List (SlotId × Holder)} {s : State} (h : s.Agrees (leavers [p] ++ e)) :
    (evaluate (.scuNotice p) s).Agrees e := by
  refine evaluateNotice_agrees p ?_
  refine (settle_agrees _ h).perm ?_
  rw [← List.append_assoc, ← List.append_assoc]
  exact List.perm_append_comm.append_right e

/-- What the SCU takes out of service, the arbiter is told. -/
theorem Sent.notify_agrees {s : State} {x : Sent} (d : Drops s x) (h : s.servicesOk) : x.notify.servicesOk := by
  have start : x.1.Agrees (leavers x.2) := by
    refine (State.Serves.drops h d).perm ?_
    rw [d.sar]; exact List.perm_append_comm
  have key : ∀ (l : List ScuNotice) (t : State), t.Agrees (leavers l) →
      (l.foldl (fun s n => evaluate (.scuNotice n) s) t).Agrees [] := by
    intro l
    induction l with
    | nil => exact fun _ h => h
    | cons p l ih => exact fun t ht => ih _ (evaluate_notice_agrees p (e := leavers l) (by rwa [← leavers_append]))
  have := key x.2 x.1 start
  rwa [State.Agrees, List.append_nil] at this

/-! ### The further evaluations end -/

/-- WARM or COLD. -/
def SlotState.cool : SlotState → Bool
  | .warm _ | .cold => true
  | _ => false

/-- How many slots rest WARM or COLD. -/
def State.cool (s : State) : Nat := (allSlots.filter fun n => (s.slot n).state.cool).length

theorem State.cool_congr {s t : State} (h : ∀ n, (t.slot n).state.cool = (s.slot n).state.cool) : t.cool = s.cool := by
  unfold State.cool
  simp only [h]

theorem State.cool_lt {s t : State} {n : SlotId} (h : ∀ m, m ≠ n → (t.slot m).state.cool = (s.slot m).state.cool)
    (hs : (s.slot n).state.cool = true) (ht : (t.slot n).state.cool = false) : t.cool + 1 = s.cool := by
  unfold State.cool allSlots
  have h1 := h .s1
  have h2 := h .s2
  have h3 := h .s3
  have h4 := h .s4
  cases n <;> simp_all [List.filter] <;>
    (cases (s.slot .s1).state.cool <;> cases (s.slot .s2).state.cool <;> cases (s.slot .s3).state.cool <;>
      cases (s.slot .s4).state.cool <;> simp_all)

/-- One slot is at work or stopping afterwards, and at most one notice is sent. -/
structure Stirs (n : SlotId) (s : State) (x : Sent) : Prop where
  others : ∀ m, m ≠ n → x.1.slot m = s.slot m
  state : (x.1.slot n).state.cool = false
  notices : x.2.length ≤ 1

theorem Stirs.after {n : SlotId} {s t : State} {x : Sent} (h : Stirs n t x) (k : ∀ m, m ≠ n → t.slot m = s.slot m) :
    Stirs n s x := ⟨fun m hm => (h.others m hm).trans (k m hm), h.state, h.notices⟩

theorem leave_length (n : SlotId) (h : Option Holder) (c : LeaveCause) : (leave n h c).length ≤ 1 := by
  cases h <;> simp [leave]

theorem stopSlot_stirs {n : SlotId} {off : Nat} {s : State} {l : List ScuNotice} (h : l.length ≤ 1) :
    Stirs n s (stopSlot n off s, l) := by
  refine ⟨fun m hm => by rw [stopSlot_slot, if_neg hm], ?_, h⟩
  rw [stopSlot_slot, if_pos rfl]
  dsimp only
  split <;> rfl

theorem ceilingTest_stirs {n : SlotId} {s : State} (h : (s.slot n).state.cool = false) : Stirs n s (ceilingTest n s) := by
  have same : Stirs n s (s, []) := ⟨fun _ _ => rfl, h, Nat.zero_le _⟩
  unfold ceilingTest
  dsimp only
  split
  · split
    · exact stopSlot_stirs (leave_length ..)
    · exact same
  · exact same

theorem completeRun_stirs {n : SlotId} {s : State} (h : (s.slot n).state.cool = false) : Stirs n s (completeRun n s) := by
  unfold completeRun
  dsimp only
  split
  · exact (stopSlot_stirs (Nat.zero_le _)).after fun m hm => by simp [hm]
  · exact (ceilingTest_stirs (by simp [SlotState.cool])).after fun m hm => by simp [hm]
  · exact ⟨fun _ _ => rfl, h, Nat.zero_le _⟩

theorem endDwell_stirs {n : SlotId} {s : State} (h : (s.slot n).state.cool = false) : Stirs n s (endDwell n s) := by
  unfold endDwell
  split
  · split
    · exact ⟨fun m hm => by simp [hm], by simp [SlotState.cool], Nat.zero_le _⟩
    · unfold enterRunning
      dsimp only
      split
      · exact (completeRun_stirs (by simp [SlotState.cool])).after fun m hm => by simp [hm]
      · exact ⟨fun m hm => by simp [hm], by simp [SlotState.cool], Nat.zero_le _⟩
  · exact ⟨fun _ _ => rfl, h, Nat.zero_le _⟩

theorem startSlot_stirs (n : SlotId) (o : StartOrigin) (h : Holder) (s : State) : Stirs n s (startSlot n o h s) := by
  have a : ∀ m, m ≠ n → (starting n o h s).slot m = s.slot m := fun m hm => by simp [starting, hm]
  have b : ((starting n o h s).slot n).state.cool = false := by simp [starting, SlotState.cool]
  have e : startSlot n o h s =
      if (s.slot n).settings.startDwell + (if o = .cold then (s.slot n).settings.coldExtra else 0) = 0 then
        endDwell n (starting n o h s)
      else (starting n o h s, []) := rfl
  rw [e]
  by_cases k : (s.slot n).settings.startDwell + (if o = .cold then (s.slot n).settings.coldExtra else 0) = 0
  · rw [if_pos k]; exact (endDwell_stirs b).after a
  · rw [if_neg k]; exact ⟨a, b, Nat.zero_le _⟩

/-- Notices that wait, and slots that could still send one. -/
def State.load (s : State) : Nat := s.sar.further.length + s.cool

/-- A start from WARM or COLD pays for its notice; any other move sends none. -/
def Paid (s : State) (x : Sent) : Prop := x.1.sar = s.sar ∧ x.2.length + x.1.cool ≤ s.cool

theorem startSlot_paid {n : SlotId} {o : StartOrigin} {h : Holder} {s : State} (hs : (s.slot n).state.cool = true) :
    Paid s (startSlot n o h s) := by
  have k := startSlot_stirs n o h s
  refine ⟨(startSlot_drops n o h s).sar.trans (starting_sar ..), ?_⟩
  have := State.cool_lt (s := s) (t := (startSlot n o h s).1) (n := n) (fun m hm => by rw [k.others m hm]) hs k.state
  have := k.notices
  omega

theorem setSlotState_paid {n : SlotId} {s : State} {st : SlotState} (h : st.cool = (s.slot n).state.cool) :
    Paid s (s.setSlotState n st, []) := by
  refine ⟨rfl, ?_⟩
  have : (s.setSlotState n st).cool = s.cool := State.cool_congr fun m => by
    rw [State.slot_setSlotState]; split
    · next e => rw [e]; exact h
    · rfl
  simp [this]

theorem grantSlot_paid {n : SlotId} {z : Zone} {s : State} {x : Sent} (h : grantSlot n z s = some x) : Paid s x := by
  unfold grantSlot at h
  split at h
  · split at h <;> cases h
    · next hs => exact startSlot_paid (by rw [hs]; rfl)
    · next hs => exact startSlot_paid (by rw [hs]; rfl)
    · next hs => exact setSlotState_paid (by rw [hs]; rfl)
  · cases h

theorem takeForHold_paid {n : SlotId} {s : State} {x : Sent} (h : takeForHold n s = some x) : Paid s x := by
  unfold takeForHold at h
  split at h
  · split at h <;> cases h
    · next hs => exact startSlot_paid (by rw [hs]; rfl)
    · next hs => exact startSlot_paid (by rw [hs]; rfl)
    · next hs => exact setSlotState_paid (by rw [hs]; rfl)
    · next hs => exact setSlotState_paid (by rw [hs]; rfl)
  · cases h

/-- What the arbiter writes beside a paid move: its records, and the notices sent. -/
theorem Paid.load {s t : State} {x : Sent} (h : Paid s x) (h1 : t.sar.further = x.1.sar.further ++ x.2)
    (h2 : ∀ m, t.slot m = x.1.slot m) : t.load ≤ s.load := by
  have : t.cool = x.1.cool := State.cool_congr fun m => by rw [h2]
  unfold State.load
  rw [h1, h.1, this, List.length_append]
  have := h.2
  omega

theorem grantEntries_load (z : Zone) (r : List SlotId) (s : State) : (grantEntries z r s).load ≤ s.load := by
  induction r with
  | nil => exact Nat.le_refl _
  | cons n r ih =>
    rw [grantEntries]
    split
    · split
      · next x hx => exact (grantSlot_paid hx).load rfl fun _ => rfl
      · exact ih
    · exact ih

theorem selectGrant_load (z : Zone) (s : State) : (selectGrant z s).load ≤ s.load := by
  unfold selectGrant
  split
  · exact grantEntries_load ..
  · exact Nat.le_refl _

theorem scanEntries_load (low : Fin 16) (r : List SlotId) (s : State) : (scanEntries low r s).load ≤ s.load := by
  induction r with
  | nil => exact Nat.le_refl _
  | cons n r ih =>
    rw [scanEntries]
    split
    · split
      · next x hx =>
        refine (takeForHold_paid hx).load ?_ fun m => ?_ <;>
          (unfold recordTake; dsimp only; cases (s.slot n).state.zoneHolder <;> rfl)
      · exact ih
    · exact ih

theorem holdScan_load (s : State) : (holdScan s).load ≤ s.load := by
  unfold holdScan
  split
  · split
    · exact scanEntries_load ..
    · exact scanEntries_load ..
    · exact scanEntries_load ..
  · exact Nat.le_refl _

theorem evaluateOne_load (v : SarEvent) (s : State) : (evaluateOne v s).load ≤ (applyEvent v s).load := by
  unfold evaluateOne
  dsimp only
  refine ((selectGrant_load ..).trans ((selectGrant_load ..).trans (selectGrant_load ..))).trans ?_
  split
  · exact holdScan_load _
  · exact Nat.le_refl _

theorem applyLeftService_load (n : SlotId) (h : Holder) (s : State) : (applyLeftService n h s).load = s.load := by
  unfold applyLeftService
  split
  · split <;> rfl
  · split
    · split
      · dsimp only; split <;> rfl
      · rfl
    · rfl

theorem takeFurther_load (s : State) (h : s.sar.further ≠ []) : (takeFurther s).load + 1 ≤ s.load := by
  unfold takeFurther
  split
  · next e => exact absurd e h
  · next p rest e =>
    have a := evaluateOne_load (.scuNotice p) { s with sar := { s.sar with further := rest } }
    have b : (applyEvent (.scuNotice p) { s with sar := { s.sar with further := rest } }).load =
        ({ s with sar := { s.sar with further := rest } } : State).load := by
      rcases p with n | ⟨n, i, c⟩
      · rfl
      · exact applyLeftService_load ..
    have c : ({ s with sar := { s.sar with further := rest } } : State).load + 1 = s.load := by
      have : ({ s with sar := { s.sar with further := rest } } : State).cool = s.cool := rfl
      unfold State.load
      rw [this, e, List.length_cons]
      dsimp only
      omega
    omega

theorem settle_nil (k : Nat) (s : State) (h : s.load ≤ k ∨ s.sar.further = []) : (settle k s).sar.further = [] := by
  induction k generalizing s with
  | zero =>
    rcases h with h | h
    · unfold State.load at h
      exact List.length_eq_zero_iff.1 (by change s.sar.further.length = 0; omega)
    · exact h
  | succ k ih =>
    refine ih _ ?_
    by_cases hf : s.sar.further = []
    · right; unfold takeFurther; rw [hf]; exact hf
    · left
      have := takeFurther_load s hf
      rcases h with h | h
      · omega
      · exact absurd h hf

/-- Once the further evaluations are taken none waits. -/
theorem State.settled_further (s : State) : s.settled.sar.further = [] := by
  refine settle_nil _ s (.inl ?_)
  have : s.cool ≤ 4 := (List.length_filter_le ..).trans (by decide)
  unfold State.load
  omega

/-! ### The other events -/

/-- A released slot has no holder, and no left-service notice goes out (R93). -/
theorem releaseSlot_spec (n : SlotId) (s : State) :
    (releaseSlot n s).1.sar = s.sar ∧ leavers (releaseSlot n s).2 = [] ∧
      (∀ m, (releaseSlot n s).1.holder m = if m = n then none else s.holder m) ∧
      ∀ m, ((releaseSlot n s).1.slot m).cls.heating = (s.slot m).cls.heating := by
  unfold releaseSlot
  split
  · refine ⟨by simp, rfl, fun m => ?_, fun m => ?_⟩ <;> by_cases e : m = n <;> simp [State.holder, e, SlotState.holder?]
  · refine ⟨by simp, rfl, fun m => ?_, fun m => ?_⟩
    · simp only [State.holder, stopSlot_slot]; split
      · split <;> rfl
      · rfl
    · rw [stopSlot_slot]; split
      · next e => rw [e]
      · rfl
  · refine ⟨rfl, rfl, fun m => ?_, fun m => ?_⟩ <;> by_cases e : m = n <;> simp [State.holder, e, SlotState.holder?]
  · next h1 h2 h3 =>
    refine ⟨rfl, rfl, fun m => ?_, fun _ => rfl⟩
    by_cases e : m = n
    · rw [if_pos e, e]
      unfold State.holder SlotState.holder?
      split
      · next k => exact absurd k (h1 _ _ _ _)
      · next r h k =>
        rcases h with _ | h
        · rfl
        · rcases r with _ | r
          · exact absurd k (h2 _)
          · exact absurd k (h3 _ _)
      · rfl
    · rw [if_neg e]

/-- No left-service notice waits, and all agrees. -/
def State.Quiet (s : State) : Prop := s.Serves [] ∧ leavers s.sar.further = []

theorem State.Quiet.of_release {s : State} {n : SlotId}
    (h : ∀ t : State, t.sar = s.sar → (∀ m, t.holder m = if m = n then none else s.holder m) →
      (∀ m, (t.slot m).cls.heating = (s.slot m).cls.heating) → t.Serves [])
    (hf : leavers s.sar.further = []) : (releaseSlot n s).deferred.Quiet := by
  obtain ⟨h1, h2, h3, h4⟩ := releaseSlot_spec n s
  refine ⟨(h _ h1 h3 h4).congr (fun _ => rfl) rfl (fun _ => rfl) fun _ => rfl, ?_⟩
  simp [Sent.deferred, State.deferNotices, h1, h2, hf]

theorem Service.bare_names {x : Service} (h : x.bare) (n : SlotId) : x.names n = false := by
  by_contra k
  rw [Bool.not_eq_false, Service.names_iff] at k
  exact k.elim (h n).1 (h n).2

theorem raiseDemand_quiet (z : Zone) {s : State} (h : s.Quiet) (hz : (s.service z).bare) : (raiseDemand z s).Quiet :=
  ⟨h.1.setIdle hz (Service.bare_of_ite (Service.holdoff_bare _) Service.waiting_bare)
    (fun y => State.service_setService s y z _) rfl fun _ => rfl, h.2⟩

theorem State.Quiet.setService {s : State} (h : s.Quiet) {z : Zone} {x : Service} (hz : (s.service z).bare) (hx : x.bare) :
    (s.setService z x).Quiet :=
  ⟨h.1.setIdle hz hx (fun y => State.service_setService s y z _) rfl fun _ => rfl, h.2⟩

theorem applyZoneChange_quiet (z : Zone) (c : ZoneChange) {s : State} (h : s.Quiet) : (applyZoneChange z c s).Quiet := by
  unfold applyZoneChange
  split
  · next hz =>
    split
    · exact raiseDemand_quiet z h (by rw [hz]; exact Service.idle_bare)
    · exact h
  · next hz =>
    have hb : (s.service z).bare := by rw [hz]; exact Service.holdoff_bare _
    split
    · exact h.setService hb Service.idle_bare
    · split
      · exact h.setService hb Service.waiting_bare
      · exact h
  · next hz =>
    split
    · exact h.setService (by rw [hz]; exact Service.waiting_bare) Service.idle_bare
    · exact h
  · next n hz =>
    split
    · refine State.Quiet.of_release (fun t h1 h3 h4 => ?_) h.2
      exact h.1.release hz Service.idle_bare (fun y => by
        have : t.service y = (s.setService z .idle).service y := by simp only [State.service, h1]
        rw [this, State.service_setService]) (by rw [h1]; rfl) h3 h4
    · exact h
  · exact h

theorem endHoldoff_quiet (z : Zone) {s : State} (h : s.Quiet) : (endHoldoff z s).Quiet := by
  unfold endHoldoff
  split
  · next hz => exact h.setService (by rw [hz]; exact Service.holdoff_bare _) Service.waiting_bare
  · exact h

theorem applyHoldRequest_quiet {s : State} (h : s.Quiet) : (applyHoldRequest s).Quiet := by
  unfold applyHoldRequest
  split
  · next hc =>
    exact ⟨h.1.setClaim (by rw [hc]; simp) (by simp) (fun _ => rfl) fun _ => rfl, h.2⟩
  · exact h
  · exact ⟨h.1.congr (fun _ => rfl) rfl (fun _ => rfl) fun _ => rfl, h.2⟩

theorem returnToZone_spec {n : SlotId} {z : Zone} {s : State} (h : s.holder n ≠ none) :
    ∃ t : State, returnToZone n z s = some (t, []) ∧ t.sar = s.sar ∧
      (∀ m, t.holder m = if m = n then some (.zone z) else s.holder m) ∧
      ∀ m, (t.slot m).cls.heating = (s.slot m).cls.heating := by
  unfold returnToZone
  split
  · refine ⟨_, rfl, rfl, fun m => ?_, fun m => ?_⟩ <;> by_cases e : m = n <;> simp [State.holder, e, SlotState.holder?]
  · refine ⟨_, rfl, rfl, fun m => ?_, fun m => ?_⟩ <;> by_cases e : m = n <;> simp [State.holder, e, SlotState.holder?]
  · next h1 h2 =>
    exfalso
    apply h
    unfold State.holder SlotState.holder?
    split
    · next k => exact absurd k (h1 _ _ _ _)
    · next k => exact absurd k (h2 _ _)
    · rfl

theorem applyStepEnd_quiet {s : State} (h : s.Quiet) : (applyStepEnd s).Quiet := by
  unfold applyStepEnd
  split
  · exact h
  · next hc => exact ⟨h.1.setClaim (by rw [hc]; simp) (by simp) (fun _ => rfl) fun _ => rfl, h.2⟩
  · next n hc =>
    refine State.Quiet.of_release (fun t h1 h3 h4 => ?_) h.2
    exact h.1.giveUp hc Service.idle_bare (fun y => by simp [State.service, h1, State.setClaim]) (by rw [h1]; rfl) h3 h4
  · next n z hc =>
    have hh : (s.setClaim .none).holder n ≠ none := by
      have := (h.1.claimed n (by rw [hc]; simp [Claim.holds])).resolve_right (by simp)
      show (s.slot n).state.holder? ≠ none
      rw [this]; simp
    dsimp only
    split
    · obtain ⟨t, e, h1, h3, h4⟩ := returnToZone_spec (z := z) hh
      rw [e]
      refine ⟨?_, ?_⟩
      · exact h.1.giveBack hc (fun y => by
          change (t.setService z (.serving n)).service y = _
          rw [State.service_setService]
          simp only [State.service, h1]; rfl) (by
          change t.sar.claim = _
          rw [h1]; rfl) h3 h4
      · simp [State.deferNotices, State.setService, h1, State.setClaim, h.2]
    · refine State.Quiet.of_release (fun t h1 h3 h4 => ?_) h.2
      refine h.1.giveUp hc Service.idle_bare (fun y => ?_) (by rw [h1]; rfl) h3 h4
      have : t.service y = ((s.setClaim .none).setService z .idle).service y := by simp only [State.service, h1]
      rw [this, State.service_setService]
      by_cases e : y = z
      · simp [e]
      · simp only [e, if_false, Option.some.injEq, Ne.symm e]; rfl

theorem applyEvent_quiet (v : SarEvent) (hv : ∀ p, v ≠ .scuNotice p) {s : State} (h : s.Quiet) : (applyEvent v s).Quiet := by
  unfold applyEvent
  split
  · exact applyZoneChange_quiet _ _ (applyZoneChange_quiet _ _ (applyZoneChange_quiet _ _ h))
  · exact h
  · exact absurd rfl (hv _)
  · exact endHoldoff_quiet _ h
  · split
    · exact endHoldoff_quiet _ (endHoldoff_quiet _ (endHoldoff_quiet _ h))
    · exact h
  · exact applyHoldRequest_quiet h
  · exact applyStepEnd_quiet h
  · exact h

/-- An event of any other kind than a notice reaches the arbiter. -/
theorem evaluate_services (v : SarEvent) (hv : ∀ p, v ≠ .scuNotice p) {s : State} (h : s.servicesOk) :
    (evaluate v s).servicesOk := by
  have a : s.settled.Agrees [] := settle_agrees _ (by rw [State.Agrees, List.append_nil]; exact h)
  have q : s.settled.Quiet := by
    rw [State.Agrees, State.settled_further] at a
    exact ⟨a, by rw [State.settled_further]; rfl⟩
  obtain ⟨k1, k2⟩ := applyEvent_quiet v hv q
  have := evaluateOne_agrees (v := v) (e := []) (s := s.settled) (by rw [State.Agrees, k2]; exact k1)
  rw [State.Agrees, List.append_nil] at this
  exact this

end Sys2Proof.Machine
end

