-- ==== Sys2Proof/Laws/Inner.lean ====
section
/-! SUPPORT. What the operations inside the block can do once the arbiter has been told: `Inner s t` is `Within s t` with the
agreement of the services, the hold claim and the slots' holders (chapter 6) kept too. -/

namespace Sys2Proof.Machine

/-- From `s` to `t` by operations of the blocks behind the port and the probe front end, the arbiter told. -/
structure Inner (s t : State) : Prop where
  pending : t.pending = s.pending
  water : t.fmu.pendingVolume = s.fmu.pendingVolume
  pfe : t.pfe = s.pfe
  mpt : t.mpt = s.mpt
  confirm : t.pins.confirm = s.pins.confirm
  settings : t.settings = s.settings
  faults : s.faultsOk → t.faultsOk
  lines : s.linesOk → t.linesOk
  slots : s.slotsOk → t.slotsOk
  solar : s.solarOk → t.solarOk
  layers : s.layersOk → t.layersOk
  hold : s.holdOk → t.holdOk
  agree : s.linesOk → s.agreeOk → t.agreeOk
  services : s.servicesOk → t.servicesOk

theorem Within.inner {s t : State} (h : Within s t) (k : s.servicesOk → t.servicesOk) : Inner s t :=
  ⟨h.pending, h.water, h.pfe, h.mpt, h.confirm, h.settings, h.faults, h.lines, h.slots, h.solar, h.layers, h.hold, h.agree, k⟩

theorem Inner.within {s t : State} (h : Inner s t) : Within s t :=
  ⟨h.pending, h.water, h.pfe, h.mpt, h.confirm, h.settings, h.faults, h.lines, h.slots, h.solar, h.layers, h.hold, h.agree⟩

theorem Inner.refl (s : State) : Inner s s := (Within.refl s).inner id

theorem Inner.trans {s t u : State} (h : Inner s t) (k : Inner t u) : Inner s u :=
  (h.within.trans k.within).inner (k.services ∘ h.services)

theorem Inner.foldl {α : Type} {f : State → α → State} (h : ∀ s a, Inner s (f s a)) (l : List α) (s : State) :
    Inner s (l.foldl f s) := by
  induction l generalizing s with
  | nil => exact .refl s
  | cons a l ih => exact (h s a).trans (ih _)

/-! ### Operations that the arbiter need not be told of -/

/-- The agreement is a matter of the records, the claim, the notices that wait, the holders and the classes. -/
theorem State.servicesOk_congr {s t : State} (h1 : t.sar.services = s.sar.services) (h2 : t.sar.claim = s.sar.claim)
    (h3 : t.sar.further = s.sar.further) (h4 : ∀ n, t.holder n = s.holder n)
    (h5 : ∀ n, (t.slot n).cls.heating = (s.slot n).cls.heating) (k : s.servicesOk) : t.servicesOk := by
  unfold State.servicesOk
  rw [h3]
  exact k.congr (fun z => by simp only [State.service, h1]) h2 h4 h5

/-- The agreement is a matter of the arbiter's records and the slots alone. -/
theorem State.servicesOk_still {s t : State} (h1 : t.sar = s.sar := by rfl)
    (h2 : ∀ n, t.slot n = s.slot n := by exact fun _ => rfl) : s.servicesOk → t.servicesOk := by
  exact State.servicesOk_congr (by rw [h1]) (by rw [h1]) (by rw [h1]) (fun n => by simp only [State.holder, h2])
    fun n => by rw [h2]

/-- The arbiter's records and the slots stand. -/
theorem Within.still {s t : State} (h : Within s t) (h1 : t.sar = s.sar := by rfl)
    (h2 : ∀ n, t.slot n = s.slot n := by exact fun _ => rfl) : Inner s t := h.inner (State.servicesOk_still h1 h2)

/-- An operation of the SCU that sends no left-service notice. -/
theorem Within.drops {s t : State} (h : Within s t) (d : Drops s (t, [])) : Inner s t := by
  refine h.inner fun k => ?_
  unfold State.servicesOk
  rw [show t.sar = s.sar from d.sar]
  exact State.Serves.drops k d

theorem Inner.setFmu (s : State) (f : Fmu) (h : f.figures = s.fmu.figures := by rfl)
    (hw : f.pendingVolume = s.fmu.pendingVolume := by rfl) : Inner s { s with fmu := f } :=
  (Within.setFmu s f h hw).still

theorem Inner.setZone (s : State) (z : Zone) (x : ZoneRec) (h : x.figures = (s.zone z).figures := by rfl)
    (hr : x.ranking = (s.zone z).ranking := by rfl) : Inner s (s.setZone z x) := (Within.setZone s z x h hr).still

theorem Inner.setThs (s : State) (t : Ths) (h : s.holdOk → t.settings.base ≤ t.pointer)
    (hs : t.settings = s.ths.settings := by rfl) : Inner s (s.setThs t) := (Within.setThs s t h hs).still

theorem Inner.tellArbiter (s : State) (m : StepperMessage) : Inner s (s.tellArbiter m) :=
  (Within.tellArbiter s m).still

theorem Inner.setLine {s : State} (i : Fin 8) {l : Line} (hf : l.function = s.olu[i].function)
    (h : s.olu[i].okFor (isRelay i) → l.okFor (isRelay i))
    (hm : s.olu[i].function.forcible = false → s.olu[i].mode = .auto → l.mode = .auto)
    (ha : l.auto ≠ 0 → s.olu[i].auto ≠ 0 ∨ s.warrants s.olu[i].function = true)
    (ht : l.recoveryTime = s.olu[i].recoveryTime := by rfl) : Inner s (s.setLine i l) :=
  (Within.setLine i hf h hm ha ht).still

theorem Inner.drive (s : State) (i : Fin 8) (m : LineMode) (a : Nat)
    (hm : s.olu[i].function.forcible = false → s.olu[i].mode = .auto → m = .auto)
    (ha : a ≠ 0 → s.olu[i].auto ≠ 0 ∨ s.warrants s.olu[i].function = true) :
    Inner s (s.setLine i (s.olu[i].drive (isRelay i) m a)) := (Within.drive s i m a hm ha).still

theorem askLine_inner (f : LineFunction) (v : Nat) (s : State) (h : v ≠ 0 → s.warrants f = true) :
    Inner s (askLine f v s) := (askLine_within f v s h).still (by simp) fun n => by simp

theorem report_inner (k : FaultKind) (x : Subject) (s : State) : Inner s (report k x s) :=
  (report_within k x s).still (by simp) fun n => by simp

theorem expireOverrun_inner (n : SlotId) (s : State) : Inner s (expireOverrun n s) :=
  (expireOverrun_within n s).drops (expireOverrun_drops n s)

theorem evaluateDiverter_inner (n : SlotId) (s : State) : Inner s (evaluateDiverter n s) :=
  (evaluateDiverter_within n s).drops (evaluateDiverter_drops n s)

theorem evaluateDiverters_inner (s : State) : Inner s (evaluateDiverters s) :=
  (evaluateDiverters_within s).drops (evaluateDiverters_drops s)

theorem setSurplus_inner (w : Nat) (t : Option Nat) (s : State) : Inner s (setSurplus w t s) :=
  (setSurplus_within w t s).drops (setSurplus_drops w t s)

/-- With no slot in service all agrees. -/
theorem State.servicesOk_bare {s : State} (h1 : ∀ z, (s.service z).bare) (h2 : s.sar.claim = .none)
    (h3 : s.sar.further = []) (h4 : ∀ n, s.holder n = none) : s.servicesOk := by
  unfold State.holder at h4
  unfold State.servicesOk
  rw [h3, leavers_nil]
  constructor <;> grind [Service.names_iff, Claim.holds_iff, Service.bare, List.nodup_nil]

/-- Holdoff times may run. -/
theorem State.servicesOk_tick {s t : State} (h1 : ∀ z, t.service z = (s.service z).tick) (h2 : t.sar.claim = s.sar.claim)
    (h3 : t.sar.further = s.sar.further) (h4 : ∀ n, t.holder n = s.holder n)
    (h5 : ∀ n, (t.slot n).cls = (s.slot n).cls) (k : s.servicesOk) : t.servicesOk := by
  have hs : ∀ z n, t.service z = .serving n ↔ s.service z = .serving n := fun z n => by
    rw [h1]; cases s.service z <;> simp [Service.tick]
  have hu : ∀ z n, t.service z = .suspended n ↔ s.service z = .suspended n := fun z n => by
    rw [h1]; cases s.service z <;> simp [Service.tick]
  unfold State.holder at h4
  unfold State.servicesOk at k ⊢
  rw [h3]
  obtain ⟨a1, a2, a3, a4, a5, a6, a7, a8, a9, a10, a11, a12⟩ := k
  constructor <;> grind [Service.names_iff, Claim.holds_iff]

/-- A slot that keeps its holder, and its class where it has one. -/
theorem State.servicesOk_setSlot {s : State} {n : SlotId} {x : Slot} (h1 : x.state.holder? = s.holder n)
    (h2 : x.cls = (s.slot n).cls ∨ s.holder n = none) (k : s.servicesOk) : (s.setSlot n x).servicesOk := by
  have hh : ∀ m, ((s.setSlot n x).slot m).state.holder? = (s.slot m).state.holder? := by
    intro m
    rw [State.slot_setSlot]
    split
    · next e => rw [e, h1]; rfl
    · rfl
  obtain ⟨a1, a2, a3, a4, a5, a6, a7, a8, a9, a10, a11, a12⟩ := k
  refine ⟨fun z m e => by rw [hh]; exact a1 z m e, a2, a3, fun m e => by rw [hh]; exact a4 m e, a5,
    fun m z e => a6 m z (by rwa [hh] at e), fun m e => a7 m (by rwa [hh] at e), fun m i e => by rw [hh]; exact a8 m i e,
    a9, a10, a11, fun m e => ?_⟩
  rw [hh] at e
  rw [State.slot_setSlot]
  split
  · next em =>
    subst em
    rcases h2 with h2 | h2
    · rw [h2]; exact a12 m e
    · exact absurd h2 e
  · exact a12 m e

theorem Inner.setSlot {s : State} {n : SlotId} {x : Slot}
    (h : s.slotsOk → (s.slot n).ok s.scu.latch → x.ok s.scu.latch) (ho : x.state.holder? = s.holder n)
    (ha : s.mapOk → s.follows n x := by
      intro _; simp_all [State.follows, Slot.calls, Slot.pumps, Slot.diverts])
    (hf : x.figures = (s.slot n).figures := by rfl) : Inner s (s.setSlot n x) :=
  (Within.setSlot h ha hf).inner (State.servicesOk_setSlot ho (.inl (congrArg Prod.fst hf)))

theorem Inner.setSlotState {s : State} {n : SlotId} {st : SlotState}
    (h : (s.slot n).ok s.scu.latch → ({ s.slot n with state := st } : Slot).ok s.scu.latch)
    (ho : st.holder? = s.holder n)
    (ha : s.mapOk → s.follows n { s.slot n with state := st } := by
      intro _; simp_all [State.follows, Slot.calls, Slot.pumps, Slot.diverts]) :
    Inner s (s.setSlotState n st) := .setSlot (fun _ => h) ho ha

/-! ### Operations that the arbiter is told of -/

/-- An event of another kind than a notice reaches the arbiter. -/
theorem evaluate_inner (v : SarEvent) (s : State) (hv : ∀ p, v ≠ .scuNotice p := by simp) : Inner s (evaluate v s) :=
  (evaluate_within v s).inner (evaluate_services v hv)

/-- What the SCU did, and its notices to the arbiter. -/
theorem Sent.notify_inner {s : State} {x : Sent} (h : Within s x.1) (d : Drops s x) : Inner s x.notify :=
  (Sent.notify_within h).inner (Sent.notify_agrees d)

theorem takeFurther_inner (s : State) : Inner s (takeFurther s) :=
  (takeFurther_within s).inner fun h => by
    have := takeFurther_agrees (e := []) (s := s) (by rw [State.Agrees, List.append_nil]; exact h)
    rwa [State.Agrees, List.append_nil] at this

theorem evaluateZones_inner (b : PerZone ZoneRec) (zs : List Zone) (z : Option Zone) (s : State) :
    Inner s (evaluateZones b zs z s) := by
  have h := Inner.foldl
    (fun t z => Inner.setZone t z ((t.zone z).judge (s.zoneMinimum z)) (ZoneRec.judge_figures ..)
      (ZoneRec.judge_ranking ..)) zs s
  unfold evaluateZones
  dsimp only
  split
  · exact h
  · exact h.trans (evaluate_inner ..)

theorem evaluateAllZones_inner (s : State) : Inner s (evaluateAllZones s) := evaluateZones_inner ..

theorem cancelBoosts_inner (zs : List Zone) (s : State) : Inner s (cancelBoosts zs s) := by
  unfold cancelBoosts
  split
  · exact .refl s
  · exact (Inner.foldl (fun t z => Inner.setZone t z { t.zone z with boost := none }) _ s).trans (evaluateZones_inner ..)

theorem zduWarmRestart_inner (s : State) : Inner s (zduWarmRestart s) := by
  refine Inner.trans (Within.still (.setZdu s _ ?_ ?_)) (evaluateAllZones_inner _)
  · rfl
  · funext z; cases z <;> rfl

end Sys2Proof.Machine
end

