-- ==== Sys2Proof/Laws/Layers.lean ====
section
/-! SUPPORT. What the updates of the layer table can do (chapter 1): energy and slices keep every layer in its range, and a
completed update leaves the temperatures in rising order. -/

namespace Sys2Proof.Machine

theorem clamp_mem {lo hi x : Int} (h : lo ≤ hi) : lo ≤ clamp lo hi x ∧ clamp lo hi x ≤ hi := by
  unfold clamp; omega

theorem clampNat_mem {lo hi x : Nat} (h : lo ≤ hi) : lo ≤ clampNat lo hi x ∧ clampNat lo hi x ≤ hi := by
  unfold clampNat; omega

/-! ### One layer -/

/-- A layer in its range for the unit energy `u` (R4). -/
def Layer.okFor (u : Int) (l : Layer) : Prop := (0 ≤ l.temp ∧ l.temp ≤ 1000) ∧ 0 ≤ l.residue ∧ l.residue < u

/-- Energy keeps a layer in its range (R16 to R18). -/
theorem Layer.applyEnergy_ok {u : Int} (hu : 0 < u) (e : Int) {l : Layer} (h : l.okFor u) :
    (l.applyEnergy u e).1.okFor u := by
  obtain ⟨⟨h1, h2⟩, h3, h4⟩ := h
  have r1 := Int.emod_nonneg (l.residue + e) (by omega : u ≠ 0)
  have r2 := Int.emod_lt_of_pos (l.residue + e) hu
  have r3 := Int.mul_ediv_add_emod (l.residue + e) u
  have r4 : (l.residue + e) / u * u = u * ((l.residue + e) / u) := Int.mul_comm _ _
  unfold Layer.applyEnergy
  dsimp only
  split
  · exact ⟨by simp, by simp [hu]⟩
  · split
    · exact ⟨by simp, by simp [hu]⟩
    · refine ⟨⟨?_, ?_⟩, ?_, ?_⟩ <;> dsimp only <;> omega

/-- Every layer of a table in its range. -/
def tableOk (u : Int) (l : Vector Layer 16) : Prop := ∀ i : Fin 16, l[i].okFor u

theorem tableOk.set {u : Int} {l : Vector Layer 16} (h : tableOk u l) (i : Fin 16) {x : Layer} (hx : x.okFor u) :
    tableOk u (l.set i x) := by
  intro j
  rw [Vector_set_get]
  split
  · exact hx
  · exact h j

theorem Heating.apply_ok {u : Int} (hu : 0 < u) {h : Heating} (hh : tableOk u h.layers) (i : Fin 16) (e : Int) :
    tableOk u (h.apply u i e).layers := hh.set i (Layer.applyEnergy_ok hu e (hh i))

theorem Heating.foldl_ok {u : Int} (hu : 0 < u) (f : Fin 16 → Int) (l : List (Fin 16)) {h : Heating}
    (hh : tableOk u h.layers) : tableOk u (l.foldl (fun g i => g.apply u i (f i)) h).layers := by
  induction l generalizing h with
  | nil => exact hh
  | cons i l ih => exact ih (Heating.apply_ok hu hh i _)

theorem Heating.split_ok {u : Int} (hu : 0 < u) {h : Heating} (hh : tableOk u h.layers) (lo hi : Fin 16) (e : Int) :
    tableOk u (h.split u lo hi e).layers := Heating.foldl_ok hu _ _ hh

theorem Heating.lose_ok {u : Int} (hu : 0 < u) {h : Heating} (hh : tableOk u h.layers) (ua : Nat) (ta : Int) :
    tableOk u (h.lose u ua ta).layers := Heating.foldl_ok hu _ _ hh

theorem State.inject_ok {s : State} (hu : 0 < s.clm.unitEnergy) {h : Heating} (hh : tableOk s.clm.unitEnergy h.layers) :
    tableOk s.clm.unitEnergy (s.inject h).layers := by
  have step : ∀ (l : List SlotId) (h : Heating), tableOk s.clm.unitEnergy h.layers →
      tableOk s.clm.unitEnergy (l.foldl (fun h n =>
        if (s.slot n).state.heats then
          h.split s.clm.unitEnergy (s.slot n).settings.coilLow (s.slot n).settings.coilHigh (s.periodEnergy n)
        else h) h).layers := by
    intro l
    induction l with
    | nil => exact fun _ h => h
    | cons n l ih =>
      intro h hh
      refine ih _ ?_
      by_cases hp : (s.slot n).state.heats
      · simp only [hp, if_true]
        exact Heating.split_ok hu hh _ _ _
      · simp only [hp]
        exact hh
  exact step _ _ hh

/-! ### Mixing (R28, R29) -/

theorem blendFrom_mem {lo hi : Int} (l : List Int) (t : Int) (ht : lo ≤ t ∧ t ≤ hi) (h : ∀ x ∈ l, lo ≤ x ∧ x ≤ hi) :
    ∀ x ∈ blendFrom t l, lo ≤ x ∧ x ≤ hi := by
  induction l generalizing t with
  | nil => simpa [blendFrom] using ht
  | cons n l ih =>
    have hn := h n (by simp)
    have hl : ∀ x ∈ l, lo ≤ x ∧ x ≤ hi := fun x hx => h x (by simp [hx])
    rw [blendFrom]
    split
    · intro x hx
      rcases List.mem_cons.1 hx with rfl | hx
      · omega
      · exact ih _ (by omega) hl x hx
    · intro x hx
      rcases List.mem_cons.1 hx with rfl | hx
      · exact ht
      · exact ih _ hn hl x hx

theorem blend_mem {lo hi : Int} {l : List Int} (h : ∀ x ∈ l, lo ≤ x ∧ x ≤ hi) : ∀ x ∈ blend l, lo ≤ x ∧ x ≤ hi := by
  cases l with
  | nil => simp [blend]
  | cons t l => exact blendFrom_mem l t (h t (by simp)) fun x hx => h x (by simp [hx])

theorem blendFrom_length (l : List Int) (t : Int) : (blendFrom t l).length = l.length + 1 := by
  induction l generalizing t with
  | nil => rfl
  | cons n l ih => rw [blendFrom]; split <;> simp [ih]

theorem blend_length (l : List Int) : (blend l).length = l.length := by
  cases l with
  | nil => rfl
  | cons t l => exact blendFrom_length l t

theorem order_pairwise (l : List Int) : (order l).Pairwise (· ≤ ·) := List.pairwise_insertionSort _ l

theorem order_perm (l : List Int) : (order l).Perm l := List.perm_insertionSort _ l

theorem order_length (l : List Int) : (order l).length = l.length := (order_perm l).length_eq

theorem order_mem {l : List Int} {x : Int} : x ∈ order l ↔ x ∈ l := (order_perm l).mem_iff

/-- Mixing moves no heat: the sum of the temperatures stands (R29). -/
theorem blendFrom_sum (l : List Int) (t : Int) : (blendFrom t l).sum = t + l.sum := by
  induction l generalizing t with
  | nil => simp [blendFrom]
  | cons n l ih => rw [blendFrom]; split <;> simp [ih]; omega

theorem temperatures_mem (l : Vector Layer 16) (x : Int) : x ∈ temperatures l ↔ ∃ i : Fin 16, l[i].temp = x := by
  simp only [temperatures, List.mem_map]
  constructor
  · rintro ⟨y, hy, rfl⟩
    obtain ⟨i, hi, rfl⟩ := List.mem_iff_getElem.1 hy
    exact ⟨⟨i, by simpa using hi⟩, by simp⟩
  · rintro ⟨i, rfl⟩
    exact ⟨l[i], by simp, rfl⟩

theorem temperatures_length (l : Vector Layer 16) : (temperatures l).length = 16 := by simp [temperatures]

theorem withTemperatures_temp (l : Vector Layer 16) (ts : List Int) (i : Fin 16) :
    (withTemperatures l ts)[i].temp = ts.getD i.val 0 := by unfold withTemperatures; rw [tabulate_get]

theorem withTemperatures_residue (l : Vector Layer 16) (ts : List Int) (i : Fin 16) :
    (withTemperatures l ts)[i].residue = l[i].residue := by unfold withTemperatures; rw [tabulate_get]

theorem withTemperatures_ok {u : Int} {l : Vector Layer 16} (h : tableOk u l) {ts : List Int} (hn : ts.length = 16)
    (ht : ∀ x ∈ ts, 0 ≤ x ∧ x ≤ 1000) : tableOk u (withTemperatures l ts) := by
  intro i
  refine ⟨?_, by rw [withTemperatures_residue]; exact (h i).2⟩
  rw [withTemperatures_temp]
  have hi : i.val < ts.length := by omega
  have : ts.getD i.val 0 = ts[i.val] := by simp [hi]
  rw [this]
  exact ht _ (List.getElem_mem hi)

/-! ### A completed update (R7) -/

/-- Volume and mains default in their ranges (R1, R2). -/
def Clm.geometryOk (c : Clm) : Prop :=
  64 ≤ c.volume ∧ c.volume ≤ 512 ∧ 0 ≤ c.mainsDefault ∧ c.mainsDefault ≤ 300

theorem Clm.geometryOk.unit {c : Clm} (h : c.geometryOk) : 0 < c.unitEnergy := by
  obtain ⟨h1, h2, _⟩ := h
  have : 4 ≤ c.layerVolume := by unfold Clm.layerVolume; omega
  unfold Clm.unitEnergy Config.heatConstant
  omega

/-- A rising table in its range, as `State.layersOk` says it. -/
theorem State.layersOk_iff (s : State) :
    s.layersOk ↔ tableOk s.clm.unitEnergy s.clm.layers ∧ (∀ i j : Fin 16, i ≤ j → s.temp i ≤ s.temp j) ∧
      s.clm.geometryOk := by
  constructor
  · rintro ⟨h1, h2, h3, h4⟩
    exact ⟨fun i => ⟨h1 i, h3 i⟩, h2, h4⟩
  · rintro ⟨h1, h2, h3⟩
    exact ⟨fun i => (h1 i).1, h2, fun i => (h1 i).2, h3⟩

theorem Inner.ofClm {s t : State} (c : Clm) (h : Inner { s with clm := c } t) (hl : s.layersOk → t.layersOk)
    (hf : c.figures = s.clm.figures := by rfl) : Inner s t :=
  ⟨h.pending, h.water, h.pfe, h.mpt, h.confirm, h.settings.trans (by simp only [State.settings, hf]), h.faults, h.lines,
    h.slots, h.solar, hl, h.hold, h.agree, fun k => h.services (State.servicesOk_still (s := s) rfl (fun _ => rfl) k)⟩

theorem deriveValues_inner (s : State) : Inner s (deriveValues s) :=
  ⟨rfl, rfl, rfl, rfl, rfl, rfl, id, id, id, id, id, id, fun _ => id, State.servicesOk_still⟩

theorem finishUpdate_inner (s : State) : Inner s (finishUpdate s) :=
  ((deriveValues_inner s).trans (evaluateAllZones_inner _)).trans
    (Sent.notify_inner (scuUpdateCompleted_within _) (scuUpdateCompleted_drops _))

theorem ordered_layers {s : State} (ht : tableOk s.clm.unitEnergy s.clm.layers) (hg : s.clm.geometryOk)
    {ts : List Int} (hn : ts.length = 16) (hr : ∀ x ∈ ts, 0 ≤ x ∧ x ≤ 1000) :
    (s.setLayers (withTemperatures s.clm.layers (order ts))).layersOk := by
  rw [State.layersOk_iff]
  refine ⟨?_, ?_, hg⟩
  · exact withTemperatures_ok (u := s.clm.unitEnergy) ht (by rw [order_length, hn])
      fun x hx => hr x (order_mem.1 hx)
  · intro i j hij
    show (withTemperatures s.clm.layers (order ts))[i].temp ≤ (withTemperatures s.clm.layers (order ts))[j].temp
    rw [withTemperatures_temp, withTemperatures_temp]
    have hl : (order ts).length = 16 := by rw [order_length, hn]
    have hi : i.val < (order ts).length := by omega
    have hj : j.val < (order ts).length := by omega
    have e1 : (order ts).getD i.val 0 = (order ts)[i.val] := by simp [hi]
    have e2 : (order ts).getD j.val 0 = (order ts)[j.val] := by simp [hj]
    rw [e1, e2]
    rcases Nat.lt_or_ge i.val j.val with h | h
    · exact List.pairwise_iff_getElem.1 (order_pairwise ts) i.val j.val hi hj h
    · have : i = j := Fin.ext (Nat.le_antisymm hij h)
      subst this; exact le_refl _

/-- A completed update leaves a rising table in its range (R7), from any table in its range. -/
theorem completeUpdate_layers {s : State} (ht : tableOk s.clm.unitEnergy s.clm.layers) (hg : s.clm.geometryOk) :
    (completeUpdate s).layersOk := by
  refine (finishUpdate_inner _).layers (ordered_layers ht hg (by rw [blend_length, temperatures_length]) ?_)
  refine blend_mem fun x hx => ?_
  obtain ⟨i, rfl⟩ := (temperatures_mem _ _).1 hx
  exact (ht i).1

theorem completeUpdate_inner (s : State) : Inner s (completeUpdate s) := by
  refine .ofClm { s.clm with
    layers := withTemperatures s.clm.layers (order (blend (temperatures s.clm.layers))) } (finishUpdate_inner _) ?_
  intro h
  rw [State.layersOk_iff] at h
  exact completeUpdate_layers h.1 h.2.2

/-! ### The updates -/

theorem takeHeating_clm (h : Heating) (s : State) :
    (takeHeating h s).clm = { s.clm with layers := h.layers, clipped := s.clm.clipped.add h.clipped } := by
  unfold takeHeating; dsimp only; split <;> simp

theorem takeHeating_inner (h : Heating) (s : State) :
    Inner { s with clm := { s.clm with layers := h.layers, clipped := s.clm.clipped.add h.clipped } } (takeHeating h s) := by
  unfold takeHeating; dsimp only; split
  · exact report_inner ..
  · exact .refl _

/-- Energy taken into the table, and the update completed. -/
theorem heating_inner {h : Heating} {s : State} (c : Clm) (hf : c.figures = s.clm.figures) (hh : s.layersOk → tableOk s.clm.unitEnergy h.layers) :
    Inner s (completeUpdate (takeHeating h { s with clm := c })) := by
  refine .ofClm { c with layers := h.layers, clipped := c.clipped.add h.clipped }
    ((takeHeating_inner h { s with clm := c }).trans (completeUpdate_inner _)) ?_ hf
  intro hs
  have hv : c.volume = s.clm.volume := congrArg Prod.fst hf
  have hu : c.unitEnergy = s.clm.unitEnergy := by unfold Clm.unitEnergy Clm.layerVolume; rw [hv]
  have hc : c.geometryOk ↔ s.clm.geometryOk := by
    have hm : c.mainsDefault = s.clm.mainsDefault := congrArg (fun x => x.2.2.1) hf
    unfold Clm.geometryOk; rw [hv, hm]
  refine completeUpdate_layers ?_ ?_
  · rw [takeHeating_clm]
    show tableOk c.unitEnergy h.layers
    rw [hu]; exact hh hs
  · rw [takeHeating_clm]
    exact hc.2 ((State.layersOk_iff s).1 hs).2.2

theorem solarInjection_inner (e : Int) (s : State) : Inner s (solarInjection e s) := by
  unfold solarInjection
  split
  · refine heating_inner _ rfl fun h => ?_
    rw [State.layersOk_iff] at h
    exact Heating.split_ok h.2.2.unit (h := ⟨s.clm.layers, 0, none⟩) h.1 _ _ _
  · exact .refl s

theorem execModelPeriodExpiry_inner {s t : State} (h : execModelPeriodExpiry s = .next t) : Inner s t := by
  unfold execModelPeriodExpiry at h
  dsimp only at h
  split at h <;> cases h
  · refine Inner.trans (t := { s with clm := { s.clm with period := Config.modelPeriod } })
      ⟨rfl, rfl, rfl, rfl, rfl, rfl, id, id, id, id, id, id, fun _ => id, State.servicesOk_still⟩ (heating_inner _ rfl fun h => ?_)
    rw [State.layersOk_iff] at h
    exact State.inject_ok h.2.2.unit (Heating.lose_ok h.2.2.unit (h := ⟨s.clm.layers, 0, none⟩) h.1 _ _)
  · exact ⟨rfl, rfl, rfl, rfl, rfl, rfl, id, id, id, id, id, id, fun _ => id, State.servicesOk_still⟩

theorem State.tMains_mem {s : State} (h : s.clm.geometryOk) : 0 ≤ s.tMains ∧ s.tMains ≤ 1000 := by
  obtain ⟨_, _, h1, h2⟩ := h
  unfold State.tMains
  split
  · exact clamp_mem (by omega)
  · omega

theorem sliceFrom_mem (l : List Int) (b : Int) (hb : 0 ≤ b ∧ b ≤ 1000) (h : ∀ x ∈ l, 0 ≤ x ∧ x ≤ 1000) :
    ∀ x ∈ sliceFrom b l, 0 ≤ x ∧ x ≤ 1000 := by
  induction l generalizing b with
  | nil => simp [sliceFrom]
  | cons t l ih =>
    have ht := h t (by simp)
    intro x hx
    rcases List.mem_cons.1 hx with rfl | hx
    · omega
    · exact ih t ht (fun y hy => h y (by simp [hy])) x hx

theorem sliceFrom_length (l : List Int) (b : Int) : (sliceFrom b l).length = l.length := by
  induction l generalizing b with
  | nil => rfl
  | cons t l ih => simp [sliceFrom, ih]

theorem drawSlices_mem (u m : Int) (hm : 0 ≤ m ∧ m ≤ 1000) (k : Nat) (ts : List Int) (d : Int)
    (h : ∀ x ∈ ts, 0 ≤ x ∧ x ≤ 1000) :
    (∀ x ∈ (drawSlices u m k (ts, d)).1, 0 ≤ x ∧ x ≤ 1000) ∧ (drawSlices u m k (ts, d)).1.length = ts.length := by
  induction k generalizing ts d with
  | zero => exact ⟨h, rfl⟩
  | succ k ih =>
    have := ih (sliceFrom m ts) (d + max 0 (u * (ts.getLastD 0 - m) / 8)) (sliceFrom_mem ts m hm h)
    exact ⟨this.1, this.2.trans (sliceFrom_length ts m)⟩

theorem drawRequest_inner (k : Nat) (s : State) : Inner s (drawRequest k s) := by
  unfold drawRequest
  split
  · dsimp only
    refine .ofClm { s.clm with
      layers := withTemperatures s.clm.layers
        (drawSlices s.clm.unitEnergy s.tMains k (temperatures s.clm.layers, 0)).1
      delivered := s.clm.delivered.add (drawSlices s.clm.unitEnergy s.tMains k (temperatures s.clm.layers, 0)).2 }
      (completeUpdate_inner _) fun h => ?_
    rw [State.layersOk_iff] at h
    have hd := drawSlices_mem s.clm.unitEnergy s.tMains (State.tMains_mem h.2.2) k (temperatures s.clm.layers) 0
      (fun x hx => by obtain ⟨i, rfl⟩ := (temperatures_mem _ _).1 hx; exact (h.1 i).1)
    refine completeUpdate_layers ?_ h.2.2
    exact withTemperatures_ok (u := s.clm.unitEnergy) h.1 (by rw [hd.2, temperatures_length]) hd.1
  · exact .refl s

/-! ### Seeding and anchoring -/

theorem interpolate_mem {ta tb x d : Int} (ha : 0 ≤ ta ∧ ta ≤ 1000) (hb : 0 ≤ tb ∧ tb ≤ 1000) (h0 : 0 ≤ x) (h1 : x ≤ d)
    (hd : 0 < d) : 0 ≤ ta + ((tb - ta) * x).tdiv d ∧ ta + ((tb - ta) * x).tdiv d ≤ 1000 := by
  rcases Int.le_total ta tb with h | h
  · have p0 : 0 ≤ (tb - ta) * x := Int.mul_nonneg (by omega) h0
    have p1 : (tb - ta) * x ≤ (tb - ta) * d := Int.mul_le_mul_of_nonneg_left h1 (by omega)
    rw [Int.tdiv_eq_ediv_of_nonneg p0]
    have q0 := Int.ediv_nonneg p0 (by omega : 0 ≤ d)
    have q1 : (tb - ta) * x / d ≤ tb - ta := by
      have := Int.ediv_le_ediv hd p1
      rwa [Int.mul_ediv_cancel _ (by omega : d ≠ 0)] at this
    omega
  · have p0 : 0 ≤ (ta - tb) * x := Int.mul_nonneg (by omega) h0
    have p1 : (ta - tb) * x ≤ (ta - tb) * d := Int.mul_le_mul_of_nonneg_left h1 (by omega)
    have e : (tb - ta) * x = -((ta - tb) * x) := by rw [← Int.neg_mul]; congr 1; omega
    rw [e, Int.neg_tdiv, Int.tdiv_eq_ediv_of_nonneg p0]
    have q0 := Int.ediv_nonneg p0 (by omega : 0 ≤ d)
    have q1 : (ta - tb) * x / d ≤ ta - tb := by
      have := Int.ediv_le_ediv hd p1
      rwa [Int.mul_ediv_cancel _ (by omega : d ≠ 0)] at this
    omega

theorem State.anchorValue_mem {s : State} {k : Fin 16} {v : Int} (h : s.anchorValue k = some v) : 0 ≤ v ∧ v ≤ 1000 := by
  unfold State.anchorValue at h
  split at h
  · cases h
  · obtain ⟨w, _, rfl⟩ := Option.map_eq_some_iff.1 h
    exact clamp_mem (by omega)

theorem State.anchorBelow_mem {s : State} {j : Fin 16} {a : Fin 16} {v : Int} (h : s.anchorBelow j = some (a, v)) :
    a ≤ j ∧ 0 ≤ v ∧ v ≤ 1000 := by
  unfold State.anchorBelow at h
  obtain ⟨k, hk, hv⟩ := List.exists_of_findSome?_eq_some h
  obtain ⟨w, hw, e⟩ := Option.map_eq_some_iff.1 hv
  cases e
  exact ⟨by simpa using hk, State.anchorValue_mem hw⟩

theorem State.anchorAbove_mem {s : State} {j : Fin 16} {a : Fin 16} {v : Int} (h : s.anchorAbove j = some (a, v)) :
    j ≤ a ∧ 0 ≤ v ∧ v ≤ 1000 := by
  unfold State.anchorAbove at h
  obtain ⟨k, hk, hv⟩ := List.exists_of_findSome?_eq_some h
  obtain ⟨w, hw, e⟩ := Option.map_eq_some_iff.1 hv
  cases e
  exact ⟨by simpa using hk, State.anchorValue_mem hw⟩

/-- A seeded temperature lies in its range (R11). -/
theorem State.seedTemp_mem {s : State} (h : s.clm.geometryOk) (j : Fin 16) : 0 ≤ s.seedTemp j ∧ s.seedTemp j ≤ 1000 := by
  unfold State.seedTemp
  split
  · next ha hb =>
    have a := State.anchorBelow_mem ha
    have b := State.anchorAbove_mem hb
    split
    · exact a.2
    · next hne =>
      have h1 := Fin.le_def.1 a.1
      have h2 := Fin.le_def.1 b.1
      have h3 := fun e => hne (Fin.ext e)
      exact interpolate_mem a.2 b.2 (by omega) (by omega) (by omega)
  · next ha _ => exact (State.anchorBelow_mem ha).2
  · next hb => exact (State.anchorAbove_mem hb).2
  · exact State.tMains_mem h

theorem seed_inner (s : State) : Inner s (seed s) := by
  unfold seed
  dsimp only
  generalize hm : ((List.finRange 16).any fun k => (s.anchorValue k).isSome) = b
  generalize hl : (tabulate fun _ => _) = ls
  have hbase : s.layersOk → ∀ m, ({ s with clm := { s.clm with layers := ls, model := m } } : State).layersOk := by
    intro h m
    rw [State.layersOk_iff] at h ⊢
    have hn : ((List.finRange 16).map s.seedTemp).length = 16 := by simp
    have hr : ∀ x ∈ (List.finRange 16).map s.seedTemp, 0 ≤ x ∧ x ≤ 1000 := by
      intro x hx
      obtain ⟨j, _, rfl⟩ := List.mem_map.1 hx
      exact State.seedTemp_mem h.2.2 j
    have hz : tableOk s.clm.unitEnergy (tabulate fun i : Fin 16 => ({ s.clm.layers[i] with residue := 0 } : Layer)) := by
      intro i
      rw [tabulate_get]
      exact ⟨(h.1 i).1, by simp [h.2.2.unit]⟩
    have key := (State.layersOk_iff _).1 (ordered_layers (s := s.setLayers
      (tabulate fun i : Fin 16 => ({ s.clm.layers[i] with residue := 0 } : Layer))) hz h.2.2 hn hr)
    subst hl
    refine ⟨fun i => ?_, fun i j hij => ?_, h.2.2⟩
    · have := key.1 i
      simp only [State.setLayers, withTemperatures, tabulate_get] at this ⊢
      exact this
    · have := key.2.1 i j hij
      simp only [State.temp, State.setLayers, withTemperatures, tabulate_get] at this ⊢
      exact this
  cases b
  · refine .ofClm { s.clm with layers := ls, model := .freeRunning }
      ((report_inner .anchorsLost .none _).trans (finishUpdate_inner _)) fun h => ?_
    exact ((report_inner .anchorsLost .none _).trans (finishUpdate_inner _)).layers (hbase h .freeRunning)
  · exact .ofClm { s.clm with layers := ls, model := .tracking } (finishUpdate_inner _) fun h =>
      (finishUpdate_inner _).layers (hbase h .tracking)

theorem anchorUpdate_inner (k : Fin 16) (v : Int) (s : State) : Inner s (anchorUpdate k v s) := by
  unfold anchorUpdate
  dsimp only
  refine .ofClm { s.clm with layers := s.clm.layers.set k { s.clm.layers[k] with
    temp := clamp 0 1000 (s.temp k + roundDiv (v - s.temp k) (2 ^ s.clm.anchorWeight)) } } (completeUpdate_inner _) fun h => ?_
  rw [State.layersOk_iff] at h
  exact completeUpdate_layers (h.1.set k ⟨clamp_mem (by omega), (h.1 k).2⟩) h.2.2

theorem examineAnchors_inner (b : Bool) (s : State) : Inner s (examineAnchors b s) := by
  unfold examineAnchors
  split
  · split
    · exact .refl s
    · exact Inner.trans (t := { s with clm := { s.clm with model := .freeRunning } })
        ⟨rfl, rfl, rfl, rfl, rfl, rfl, id, id, id, id, id, id, fun _ => id, State.servicesOk_still⟩ (report_inner ..)
  · split
    · exact ⟨rfl, rfl, rfl, rfl, rfl, rfl, id, id, id, id, id, id, fun _ => id, State.servicesOk_still⟩
    · exact .refl s
  · exact .refl s

/-- The entry to UNSEEDED (R8): the temperatures stand and every residue is 0. -/
theorem unseed_layersOk {s : State} {c : Clm} (hc : c.layers = s.clm.layers) (hg : c.geometryOk) (h : s.layersOk) :
    ({ s with clm := unseed c } : State).layersOk := by
  rw [State.layersOk_iff] at h ⊢
  have hl : (unseed c).layers = tabulate fun i : Fin 16 => ({ s.clm.layers[i] with residue := 0 } : Layer) := by
    rw [← hc]; rfl
  refine ⟨fun i => ?_, fun i j hij => ?_, hg⟩
  · show (unseed c).layers[i].okFor _
    rw [hl, tabulate_get]
    exact ⟨(h.1 i).1, by simp; exact hg.unit⟩
  · show (unseed c).layers[i].temp ≤ (unseed c).layers[j].temp
    rw [hl, tabulate_get, tabulate_get]
    exact h.2.1 i j hij

end Sys2Proof.Machine
end

