-- ==== Sys2Proof/Laws/Events.lean ====
section
/-! SUPPORT. What the operations of the flow meters, the solar loop and the conversions can do (chapters 2, 3 and 7). -/

namespace Sys2Proof.Machine

/-! ### Flow meters -/

theorem State.setMeter_inner (m : Meter) (r : MeterRec) (s : State)
    (h1 : r.mlPerPulse = (s.meter m).mlPerPulse := by rfl) (h2 : r.gate = (s.meter m).gate := by rfl) :
    Inner s (s.setMeter m r) := by
  cases m <;> exact .setFmu _ _ (by simp only [Fmu.figures]; rw [h1, h2]; rfl)

theorem endGate_inner (m : Meter) (s : State) : Inner s (endGate m s) := by
  unfold endGate
  dsimp only
  split
  · exact (State.setMeter_inner ..).trans (report_inner ..)
  · exact State.setMeter_inner ..

theorem Inner.reportIf (b : Bool) (k : FaultKind) (x : Subject) (s : State) :
    Inner s (if b then report k x s else s) := by
  split
  · exact report_inner ..
  · exact .refl s

theorem Inner.drawIf (b : Prop) [Decidable b] (k : Nat) (s : State) : Inner s (if b then drawRequest k s else s) := by
  split
  · exact drawRequest_inner ..
  · exact .refl s

/-- The pending volume a DRAW gate leaves (R54, R55). -/
def State.pendingAfter (s : State) : Nat :=
  if s.fmu.draw.present then
    let pending := s.fmu.pendingVolume + s.fmu.draw.gateVolume
    (pending - min Config.sliceCap (pending / s.clm.sliceVolume) * s.clm.sliceVolume) % s.clm.sliceVolume
  else s.fmu.pendingVolume

theorem State.pendingAfter_lt {s : State} (hd : 0 < s.fmu.draw.mlPerPulse) (hv : 0 < s.clm.sliceVolume) :
    s.pendingAfter < s.clm.sliceVolume := by
  unfold State.pendingAfter
  rw [if_pos (by simpa [MeterRec.present] using hd)]
  exact Nat.mod_lt _ hv

theorem endGate_draw (s : State) (v : Nat) :
    endGate .draw { s with fmu := { s.fmu with pendingVolume := v } } =
      { endGate .draw s with fmu := { (endGate .draw s).fmu with pendingVolume := v } } := by
  have ask : ∀ (t : State) g v (f : Fmu), askLine g v { t with fmu := f } = { askLine g v t with fmu := f } := by
    intro t g v f
    have hc : ({ t with fmu := f } : State).carrier g = t.carrier g := rfl
    unfold askLine
    rw [hc]
    split <;> rfl
  have : ∀ (t : State) k x (f : Fmu), report k x { t with fmu := f } = { report k x t with fmu := f } := by
    intro t k x f
    unfold report rejudge
    dsimp only
    split
    · rfl
    · split
      · rfl
      · exact ask { t with
          flt := (t.flt.setRec k ((t.flt.kindRec k).report x)).fillFirst k x
          pins := { t.pins with
            alertLow := ((t.flt.setRec k ((t.flt.kindRec k).report x)).fillFirst k x).pinCondition } } _ _ f
  unfold endGate
  dsimp only [State.meter, State.setMeter]
  split
  · rw [this _ _ _ { s.fmu with draw := s.fmu.draw.endGate, pendingVolume := v },
      this s _ _ { s.fmu with draw := s.fmu.draw.endGate }]
  · rfl

/-- But for the pending volume it leaves, a DRAW gate keeps every promise. -/
theorem execDrawGateExpiry_inner {s t : State} (h : execDrawGateExpiry s = .next t) :
    Inner { s with fmu := { s.fmu with pendingVolume := s.pendingAfter } } t := by
  have first := endGate_inner .draw { s with fmu := { s.fmu with pendingVolume := s.pendingAfter } }
  rw [endGate_draw] at first
  have hf : (endGate .draw s).fmu.pendingVolume = s.fmu.pendingVolume := (endGate_inner .draw s).water
  have hc : (endGate .draw s).clm = s.clm := by
    unfold endGate; dsimp only; split
    · rw [report_eq]; rfl
    · rfl
  unfold execDrawGateExpiry at h
  dsimp only at h
  split at h <;> cases h
  · next hp =>
    have e : s.pendingAfter =
        ((endGate .draw s).fmu.pendingVolume + s.fmu.draw.gateVolume -
          min Config.sliceCap (((endGate .draw s).fmu.pendingVolume + s.fmu.draw.gateVolume) /
            (endGate .draw s).clm.sliceVolume) * (endGate .draw s).clm.sliceVolume) %
          (endGate .draw s).clm.sliceVolume := by
      rw [hf, hc]; unfold State.pendingAfter; rw [if_pos hp]
    rw [← e]
    exact (first.trans (.reportIf _ _ _ _)).trans (.drawIf _ _ _)
  · next hp =>
    have e : s.pendingAfter = (endGate .draw s).fmu.pendingVolume := by
      rw [hf]; unfold State.pendingAfter; rw [if_neg hp]
    rw [e] at first ⊢
    exact first

theorem execLoopGateExpiry_inner {s t : State} (h : execLoopGateExpiry s = .next t) : Inner s t := by
  unfold execLoopGateExpiry at h
  dsimp only at h
  cases h
  exact (((endGate_inner .loop s).trans (.setFmu _ _)).trans (.reportIf _ _ _ _)).trans (solarInjection_inner ..)

/-! ### The solar loop -/

/-- A speed of RUN lies between the minimum speed and 100 (R141). -/
theorem runSpeed_mem {x : SolarSettings} (h : 10 ≤ x.minSpeed ∧ x.minSpeed ≤ 100) (d : Int) :
    0 ≤ runSpeed x d ∧ runSpeed x d ≤ 100 := by
  unfold runSpeed
  omega

/-- The outcome of the steps: a speed in its range, 0 in the states that do not circulate (R129). -/
def speedOk (r : SolarState × Int) : Prop := 0 ≤ r.2 ∧ r.2 ≤ 100 ∧ (r.1.circulates = false → r.2 = 0)

theorem speedOk.ite {p : Prop} [Decidable p] {a b : SolarState × Int} (ha : speedOk a) (hb : speedOk b) :
    speedOk (if p then a else b) := by
  split
  · exact ha
  · exact hb

theorem speedOk.still (w : SolarState) : speedOk (w, 0) := by simp [speedOk]

theorem differentialStep_ok {x : SolarSettings} (h : 10 ≤ x.minSpeed ∧ x.minSpeed ≤ 100) (i : SolarInputs) (c : Int)
    (w : SolarState) : speedOk (differentialStep x i c w) :=
  .ite ⟨(runSpeed_mem h _).1, (runSpeed_mem h _).2, by simp [SolarState.circulates]⟩ (.still _)

theorem frostStep_ok {x : SolarSettings} (h : 10 ≤ x.minSpeed ∧ x.minSpeed ≤ 100) (i : SolarInputs) (c : Int)
    (w : SolarState) : speedOk (frostStep x i c w) := by
  have frost : speedOk (.frost, x.minSpeed) := ⟨by simp; omega, h.2, by simp [SolarState.circulates]⟩
  unfold frostStep
  split <;> split <;> first | exact frost | exact differentialStep_ok h ..

theorem limitTest_ok {x : SolarSettings} (h : 10 ≤ x.minSpeed ∧ x.minSpeed ≤ 100) (i : SolarInputs) (c : Int) :
    speedOk (limitTest x i c) := by
  unfold limitTest
  split
  · split
    · exact ⟨by simp; omega, h.2, by simp [SolarState.circulates]⟩
    · simp [speedOk]
  · exact frostStep_ok h ..

theorem limitStep_ok {x : SolarSettings} (h : 10 ≤ x.minSpeed ∧ x.minSpeed ≤ 100) (i : SolarInputs) (c : Int)
    (w : SolarState) : speedOk (limitStep x i c w) := by
  unfold limitStep
  split
  · split
    · exact ⟨by simp; omega, h.2, by simp [SolarState.circulates]⟩
    · exact limitTest_ok h ..
  · exact limitTest_ok h ..
  · split
    · simp [speedOk]
    · exact frostStep_ok h ..

/-- Steps 1 to 5 answer a speed in its range (R129, R141). -/
theorem solarSteps_ok {x : SolarSettings} (h : 10 ≤ x.minSpeed ∧ x.minSpeed ≤ 100) (i : SolarInputs) (c : Option Int)
    (w : SolarState) : speedOk (solarSteps x i c w) := by
  unfold solarSteps
  split
  · exact .still _
  · exact .ite (.ite (.still _) (limitStep_ok h ..)) (.ite (.still _) (limitStep_ok h ..))

/-- The steps leave the pump still in the states that do not circulate (R129). -/
theorem solarSteps_still (x : SolarSettings) (i : SolarInputs) (c : Option Int) (w : SolarState) :
    (solarSteps x i c w).1.circulates = false → (solarSteps x i c w).2 = 0 := by
  have d : ∀ c w, (differentialStep x i c w).1.circulates = false → (differentialStep x i c w).2 = 0 := by
    intro c w; unfold differentialStep; dsimp only; (repeat' split) <;> simp [SolarState.circulates]
  have f : ∀ c w, (frostStep x i c w).1.circulates = false → (frostStep x i c w).2 = 0 := by
    intro c w; unfold frostStep; split <;> split <;> first | exact d _ _ | simp [SolarState.circulates]
  have t : ∀ c, (limitTest x i c).1.circulates = false → (limitTest x i c).2 = 0 := by
    intro c; unfold limitTest; split
    · split <;> simp [SolarState.circulates]
    · exact f _ _
  have l : ∀ c w, (limitStep x i c w).1.circulates = false → (limitStep x i c w).2 = 0 := by
    intro c w; unfold limitStep; split
    · split
      · simp [SolarState.circulates]
      · exact t _
    · exact t _
    · split
      · simp
      · exact f _ _
  unfold solarSteps
  split
  · simp
  · dsimp only
    generalize (if w = .fault then .off else w) = v
    split <;> split <;> first | exact l _ _ | simp

/-- An update of the solar record that keeps the promise of section 7.1, and stops the loop only with its pump line asked
off. -/
theorem Inner.setSlc (s : State) (c : Slc) (h : s.solarOk → ({ s with slc := c } : State).solarOk)
    (hp : s.mapOk → s.slc.state.circulates = true → c.state.circulates = true ∨ s.silent .solarPump)
    (hf : c.settings = s.slc.settings := by rfl) : Inner s { s with slc := c } :=
  ⟨rfl, rfl, rfl, rfl, rfl, by simp only [State.settings, hf], id, id, id, h, id, id, fun hl hs i => by
    refine ⟨(hs i).1, fun ha => ?_⟩
    have hw := (hs i).2 ha
    have quiet : s.silent .solarPump → s.olu[i].function = .solarPump → False := fun hq e => ha (hq i e)
    have hp := hp hl.2
    change ({ s with slc := c } : State).warrants s.olu[i].function = true
    revert hw quiet
    generalize s.olu[i].function = f
    intro hw quiet
    cases f with
    | solarPump => exact (hp hw).resolve_right fun q => quiet q rfl
    | sourceCall | sourcePump | diverterDrive | noFunction | alertRelay => exact hw,
    State.servicesOk_still⟩

theorem askSolarPump_inner (v : Int) (s : State) (h : 0 < v → s.slc.state.circulates = true) :
    Inner s (askSolarPump v s) := by
  unfold askSolarPump
  split
  · exact .refl s
  · refine askLine_inner _ _ _ fun hv => h ?_
    revert hv
    split
    · cases hd : decide (v > 0) <;> simp_all [onOff]
    · omega

/-- The pump asked to stand still. -/
theorem askSolarPump_zero (s : State) : askSolarPump 0 s = askLine .solarPump 0 s := by
  unfold askSolarPump
  split
  · next h => unfold askLine; rw [h]
  · split <;> rfl

theorem fmuSolarChange_inner (w : SolarState) (s : State) : Inner s (fmuSolarChange w s) := by
  unfold fmuSolarChange
  split
  · exact .refl s
  · exact .setFmu _ _

/-- A change of the solar record, told to the pump line and to the blocks that follow it (R142, R143). -/
theorem solarChange_inner {p : Prop} [Decidable p] {s : State} {c : Slc}
    (h : s.solarOk → ({ s with slc := c } : State).solarOk) (hz : c.state.circulates = false → c.speed = 0)
    (hf : c.settings = s.slc.settings) :
    Inner s (tellSolarChange s.slc
      (if p then report .collectorOverheat .none { s with slc := c } else { s with slc := c })) := by
  have reported : ∀ u : State, Inner u (if p then report .collectorOverheat .none u else u) := by
    intro u; split
    · exact report_inner ..
    · exact .refl u
  have slc : ∀ u : State, (if p then report .collectorOverheat .none u else u).slc = u.slc := by
    intro u; split
    · rw [report_eq]
    · rfl
  by_cases hs : s.slc.state.circulates = true ∧ c.state.circulates = false
  · have hne : c.state ≠ s.slc.state := by
      intro e; rw [e, hs.1] at hs; exact absurd hs.2 (by simp)
    have hv := hz hs.2
    unfold tellSolarChange
    dsimp only
    rw [slc]
    dsimp only
    rw [if_neg hne, if_neg (fun e => hne e.1), hv, askSolarPump_zero]
    refine Inner.trans ?_ ((fmuSolarChange_inner ..).trans (evaluate_inner ..))
    have e : askLine .solarPump 0 (if p then report .collectorOverheat .none { s with slc := c } else { s with slc := c }) =
        if p then report .collectorOverheat .none { askLine .solarPump 0 s with slc := c }
        else { askLine .solarPump 0 s with slc := c } := by
      split
      · rw [← report_askLine (by simp), askLine_setSlc]
      · rw [askLine_setSlc]
    rw [e]
    have ea := askLine_eq .solarPump 0 s
    refine ((askLine_inner .solarPump 0 s (by simp)).trans (.setSlc _ c (fun k => ?_) (fun k _ => .inr ?_) ?_)).trans (reported _)
    · have := h (by rw [ea] at k; exact k)
      rw [ea]; exact this
    · exact askLine_silent ((askLine_mapOk ..).1 k) (by simp)
    · rw [ea]; exact hf
  · have first : Inner s { s with slc := c } := .setSlc s c h (fun _ hc => by
      cases hcs : c.state.circulates
      · exact absurd ⟨hc, hcs⟩ hs
      · exact .inl rfl) hf
    refine (first.trans (reported _)).trans ?_
    have hslc := slc { s with slc := c }
    generalize (if p then report .collectorOverheat .none { s with slc := c } else { s with slc := c }) = t at hslc ⊢
    have pump : Inner t (askSolarPump t.slc.speed t) := askSolarPump_inner _ _ fun hv => by
      rw [hslc] at hv ⊢
      cases hcs : c.state.circulates
      · have := hz hcs
        simp only [this] at hv
        exact absurd hv (Int.lt_irrefl 0)
      · rfl
    unfold tellSolarChange
    dsimp only
    have pump' : Inner t (if t.slc.state = s.slc.state ∧ t.slc.speed = s.slc.speed then t else askSolarPump t.slc.speed t) := by
      split
      · exact .refl t
      · exact pump
    split
    · exact pump'
    · exact (pump'.trans (fmuSolarChange_inner ..)).trans (evaluate_inner ..)

theorem solarEvaluate_inner (c : Option Int) (s : State) : Inner s (solarEvaluate c s) := by
  unfold solarEvaluate
  split
  · exact .refl s
  · dsimp only
    refine solarChange_inner (fun h => ?_) (solarSteps_still _ _ _ _) rfl
    obtain ⟨_, _, _, h1, h2, h3, h4⟩ := h
    have k := solarSteps_ok (x := s.slc.settings) ⟨h1, h2⟩ s.solarInputs c s.slc.state
    exact ⟨k.1, k.2.1, k.2.2, h1, h2, h3, h4⟩

theorem solarSwitch_inner (w : SolarState) (s : State) : Inner s (solarSwitch w s) := by
  unfold solarSwitch
  have := solarChange_inner (p := False) (s := s) (c := { s.slc with state := w, speed := 0 }) (fun h => ?_) (fun _ => rfl) rfl
  · simpa using this
  · obtain ⟨_, _, _, h⟩ := h
    exact ⟨Int.le_refl 0, (by decide : (0 : Int) ≤ 100), fun _ => rfl, h⟩

/-! ### Conversions -/

theorem clmReceive_inner (c : Fin 12) (d : Bool) (s : State) : Inner s (clmReceive c d s) := by
  unfold clmReceive
  split
  · exact examineAnchors_inner ..
  · dsimp only
    have first : Inner s { s with clm := { s.clm with scanned := s.clm.scanned.set c true } } :=
      ⟨rfl, rfl, rfl, rfl, rfl, rfl, id, id, id, id, id, id, fun _ => id, State.servicesOk_still⟩
    split
    · exact first.trans (seed_inner _)
    · exact first

theorem lost_inner (s : State) : Inner s (topProbeIsLost s).notify := 
  Sent.notify_inner (topProbeIsLost_within s) (topProbeIsLost_drops s)

theorem Inner.lostIf (b : Bool) (s : State) : Inner s (if b then (topProbeIsLost s).notify else s) := by
  split
  · exact lost_inner s
  · exact .refl s

theorem deliverTopLimit_inner (c : Fin 12) (b : Bool) (s : State) : Inner s (deliverTopLimit c b s) := by
  unfold deliverTopLimit
  dsimp only
  refine (Inner.lostIf b s).trans ?_
  generalize (if b = true then (topProbeIsLost s).notify else s) = t
  split
  · exact lost_inner _
  · split
    · exact Sent.notify_inner (topLimitValue_within ..) (topLimitValue_drops ..)
    · exact .refl _

theorem deliverAnchor_inner (a : Fin 6) (v : Option Int) (s : State) : Inner s (deliverAnchor a v s) := by
  unfold deliverAnchor
  split
  · split
    · exact anchorUpdate_inner ..
    · exact .refl s
  · exact .refl s

theorem deliverRole_inner (c : Fin 12) (b f : Bool) (s : State) : Inner s (deliverRole c b f s) := by
  unfold deliverRole
  split
  · split
    · exact deliverAnchor_inner ..
    · exact .refl s
  · exact solarEvaluate_inner ..
  · exact deliverTopLimit_inner ..
  · exact .refl s

theorem deliverNoCollector_inner (c : Fin 12) (s : State) : Inner s (deliverNoCollector c s) := by
  unfold deliverNoCollector
  split
  · exact solarEvaluate_inner ..
  · exact .refl s

/-- A debounced status counts to 2 at most and holds good readings only (R36 to R39). -/
theorem ChannelStatus.debounce_ok {c : Fin 12} {x : Channel} (h : x.ok c) (r : Int) :
    ({ x with status := (x.status.debounce r (classify c r)).1 } : Channel).ok c := by
  obtain ⟨h1, h2⟩ := h
  refine ⟨?_, h2⟩
  unfold ChannelStatus.debounce
  cases hs : x.status with
  | ok b v =>
    rw [hs] at h1
    cases hf : classify c r with
    | none =>
      refine ⟨Nat.zero_le _, ?_⟩
      intro t ht; cases ht; exact hf
    | some k =>
      by_cases hb : b + 1 < 3
      · simp only [hb, if_true]; exact ⟨by omega, h1.2⟩
      · simp only [hb, if_false]; exact Nat.zero_le _
  | faulted k g =>
    rw [hs] at h1
    cases hf : classify c r with
    | none =>
      by_cases hb : g + 1 < 3
      · simp only [hb, if_true]; show g + 1 ≤ 2; omega
      · simp only [hb, if_false]
        refine ⟨Nat.zero_le _, ?_⟩
        intro t ht; cases ht; exact hf
    | some k' => exact Nat.zero_le _

end Sys2Proof.Machine
end

