-- ==== Sys2Proof/Laws/Frames.lean ====
section
/-! SUPPORT. What an evaluation of the arbiter can touch: `Governed s t` says that going from `s` to `t` the arbiter's
records, the slots that could be granted or lent, and requests to lines changed, and nothing else did. -/

namespace Sys2Proof.Machine

/-- From `s` to `t` by the arbiter and the slots it moves. -/
structure Governed (s t : State) : Prop where
  pending : t.pending = s.pending
  clm : t.clm = s.clm
  pfe : t.pfe = s.pfe
  fmu : t.fmu = s.fmu
  zdu : t.zdu = s.zdu
  slc : t.slc = s.slc
  ths : t.ths = s.ths
  flt : t.flt = s.flt
  mpt : t.mpt = s.mpt
  pins : t.pins = s.pins
  scu : t.scu = { s.scu with slots := t.scu.slots }
  sar : t.sar.holdoffTime = s.sar.holdoffTime ∧ t.sar.threshold = s.sar.threshold
  figures : ∀ n, (t.slot n).figures = (s.slot n).figures
  /-- A slot that can be neither granted nor lent nor released stands. -/
  rests : ∀ n, (s.slot n).state.lendable = false → t.slot n = s.slot n
  lines : ∀ i : Fin 8, t.olu[i].function = s.olu[i].function ∧ t.olu[i].mode = s.olu[i].mode ∧
    t.olu[i].recoveryTime = s.olu[i].recoveryTime

theorem Governed.refl (s : State) : Governed s s :=
  ⟨rfl, rfl, rfl, rfl, rfl, rfl, rfl, rfl, rfl, rfl, rfl, ⟨rfl, rfl⟩, fun _ => rfl, fun _ _ => rfl, fun _ => ⟨rfl, rfl, rfl⟩⟩

theorem Governed.trans {s t u : State} (h : Governed s t) (k : Governed t u) : Governed s u where
  pending := k.pending.trans h.pending
  clm := k.clm.trans h.clm
  pfe := k.pfe.trans h.pfe
  fmu := k.fmu.trans h.fmu
  zdu := k.zdu.trans h.zdu
  slc := k.slc.trans h.slc
  ths := k.ths.trans h.ths
  flt := k.flt.trans h.flt
  mpt := k.mpt.trans h.mpt
  pins := k.pins.trans h.pins
  scu := by rw [k.scu, h.scu]
  sar := ⟨k.sar.1.trans h.sar.1, k.sar.2.trans h.sar.2⟩
  figures n := (k.figures n).trans (h.figures n)
  rests n hn := (k.rests n (by rw [h.rests n hn]; exact hn)).trans (h.rests n hn)
  lines i := ⟨(k.lines i).1.trans (h.lines i).1, (k.lines i).2.1.trans (h.lines i).2.1,
    (k.lines i).2.2.trans (h.lines i).2.2⟩

theorem Governed.foldl {α : Type} {f : State → α → State} (h : ∀ s a, Governed s (f s a)) (l : List α) (s : State) :
    Governed s (l.foldl f s) := by
  induction l generalizing s with
  | nil => exact .refl s
  | cons a l ih => exact (h s a).trans (ih _)

/-! ### The arbiter's own records -/

theorem Governed.setSar (s : State) (a : Sar) (h1 : a.holdoffTime = s.sar.holdoffTime := by rfl)
    (h2 : a.threshold = s.sar.threshold := by rfl) : Governed s { s with sar := a } :=
  ⟨rfl, rfl, rfl, rfl, rfl, rfl, rfl, rfl, rfl, rfl, rfl, ⟨h1, h2⟩, fun _ => rfl, fun _ _ => rfl, fun _ => ⟨rfl, rfl, rfl⟩⟩

theorem Governed.useFree (s : State) : Governed s s.useFree :=
  ⟨rfl, rfl, rfl, rfl, rfl, rfl, rfl, rfl, rfl, rfl, rfl, ⟨rfl, rfl⟩, fun _ => rfl, fun _ _ => rfl, fun _ => ⟨rfl, rfl, rfl⟩⟩

theorem Governed.setService (s : State) (z : Zone) (x : Service) : Governed s (s.setService z x) := .setSar _ _
theorem Governed.setClaim (s : State) (c : Claim) : Governed s (s.setClaim c) := .setSar _ _
theorem Governed.answer (s : State) (a : HoldAnswer) : Governed s (s.answer a) := .setSar _ _
theorem Governed.deferNotices (s : State) (ns : List ScuNotice) : Governed s (s.deferNotices ns) := .setSar _ _

/-! ### Lines and slots -/

theorem askLine_governed (f : LineFunction) (v : Nat) (s : State) : Governed s (askLine f v s) := by
  rw [askLine_eq]
  refine ⟨rfl, rfl, rfl, rfl, rfl, rfl, rfl, rfl, rfl, rfl, rfl, ⟨rfl, rfl⟩, fun _ => rfl, fun _ _ => rfl, fun i => ?_⟩
  show (askLine f v s).olu[i].function = _ ∧ (askLine f v s).olu[i].mode = _ ∧ _
  rcases askLine_lines f v s i with h | ⟨_, h⟩
  · rw [h]; exact ⟨rfl, rfl, rfl⟩
  · rw [h]; exact ⟨Line.drive_function .., Line.drive_mode .., Line.drive_recoveryTime ..⟩

theorem askCall_governed (n : SlotId) (b : Bool) (s : State) : Governed s (askCall n b s) := askLine_governed ..
theorem askPump_governed (n : SlotId) (b : Bool) (s : State) : Governed s (askPump n b s) := askLine_governed ..
theorem linesOff_governed (n : SlotId) (s : State) : Governed s (linesOff n s) :=
  (askCall_governed n false s).trans (askPump_governed n false _)

/-- A slot that is not at rest takes a new record of the same class and settings. -/
theorem Governed.setSlot {s : State} {n : SlotId} {x : Slot} (hn : (s.slot n).state.lendable = true)
    (hf : x.figures = (s.slot n).figures := by rfl) : Governed s (s.setSlot n x) where
  pending := rfl
  clm := rfl
  pfe := rfl
  fmu := rfl
  zdu := rfl
  slc := rfl
  ths := rfl
  flt := rfl
  mpt := rfl
  pins := rfl
  scu := rfl
  sar := ⟨rfl, rfl⟩
  figures m := by
    rw [State.slot_setSlot]
    split
    · next e => subst e; exact hf
    · rfl
  rests m hm := by
    rw [State.slot_setSlot, if_neg]
    rintro rfl
    rw [hn] at hm
    cases hm
  lines _ := ⟨rfl, rfl, rfl⟩

theorem Governed.setSlotState {s : State} {n : SlotId} {st : SlotState} (hn : (s.slot n).state.lendable = true) :
    Governed s (s.setSlotState n st) := .setSlot hn

theorem stopSlot_governed {n : SlotId} {off : Nat} {s : State} (hn : (s.slot n).state.lendable = true) :
    Governed s (stopSlot n off s) := by
  unfold stopSlot
  dsimp only
  split
  · exact (askCall_governed n false s).trans (.setSlotState (by simpa using hn))
  · exact ((askCall_governed n false s).trans (askPump_governed n false _)).trans (.setSlotState (by simpa using hn))

theorem ceilingTest_governed (n : SlotId) (s : State) : Governed s (ceilingTest n s).1 := by
  unfold ceilingTest
  dsimp only
  split
  · next h =>
    split
    · exact stopSlot_governed (by simp [h, SlotState.lendable])
    · exact .refl s
  · exact .refl s

theorem completeRun_governed (n : SlotId) (s : State) : Governed s (completeRun n s).1 := by
  unfold completeRun
  dsimp only
  split
  · next h =>
    exact (Governed.setSlot (by simp [h, SlotState.lendable])).trans (stopSlot_governed (by simp [h, SlotState.lendable]))
  · next h => exact (Governed.setSlot (by simp [h, SlotState.lendable])).trans (ceilingTest_governed ..)
  · exact .refl s

theorem enterRunning_governed {n : SlotId} {h : Holder} {s : State} (hn : (s.slot n).state.lendable = true) :
    Governed s (enterRunning n h s).1 := by
  unfold enterRunning
  dsimp only
  split
  · exact (Governed.setSlotState hn).trans (completeRun_governed ..)
  · exact .setSlotState hn

theorem endDwell_governed (n : SlotId) (s : State) : Governed s (endDwell n s).1 := by
  unfold endDwell
  split
  · next h =>
    split
    · exact .setSlotState (by simp [h, SlotState.lendable])
    · exact enterRunning_governed (by simp [h, SlotState.lendable])
  · exact .refl s

theorem startSlot_governed {n : SlotId} {o : StartOrigin} {h : Holder} {s : State} (hn : (s.slot n).state.lendable = true) :
    Governed s (startSlot n o h s).1 := by
  have key : ∀ d, Governed s (askPump n true (askCall n true (s.setSlotState n (.starting o .dwell d h)))) := fun d =>
    ((Governed.setSlotState hn).trans (askCall_governed ..)).trans (askPump_governed ..)
  unfold startSlot
  dsimp only
  generalize (s.slot n).settings.startDwell + (if o = .cold then (s.slot n).settings.coldExtra else 0) = d
  split
  · exact (key d).trans (endDwell_governed ..)
  · exact key d

theorem grantSlot_governed {n : SlotId} {z : Zone} {s : State} {x : Sent} (h : grantSlot n z s = some x) :
    Governed s x.1 := by
  unfold grantSlot at h
  split at h
  · split at h
    · next hs => cases h; exact startSlot_governed (by simp [hs, SlotState.lendable])
    · next hs => cases h; exact startSlot_governed (by simp [hs, SlotState.lendable])
    · next hs => cases h; exact .setSlotState (by simp [hs, SlotState.lendable])
    · cases h
  · cases h

theorem takeForHold_governed {n : SlotId} {s : State} {x : Sent} (h : takeForHold n s = some x) : Governed s x.1 := by
  unfold takeForHold at h
  split at h
  · split at h
    · next hs => cases h; exact startSlot_governed (by simp [hs, SlotState.lendable])
    · next hs => cases h; exact startSlot_governed (by simp [hs, SlotState.lendable])
    · next hs => cases h; exact .setSlotState (by simp [hs, SlotState.lendable])
    · next hs => cases h; exact .setSlotState (by simp [hs, SlotState.lendable])
    · cases h
  · cases h

theorem returnToZone_governed {n : SlotId} {z : Zone} {s : State} {x : Sent} (h : returnToZone n z s = some x) :
    Governed s x.1 := by
  unfold returnToZone at h
  split at h
  · next hs => cases h; exact .setSlotState (by simp [hs, SlotState.lendable])
  · next hs => cases h; exact .setSlotState (by simp [hs, SlotState.lendable])
  · cases h

theorem releaseSlot_governed (n : SlotId) (s : State) : Governed s (releaseSlot n s).1 := by
  unfold releaseSlot
  split
  · next h => exact (linesOff_governed n s).trans (.setSlotState (by simp [h, SlotState.lendable]))
  · next h => exact stopSlot_governed (by simp [h, SlotState.lendable])
  · next h => exact .setSlotState (by simp [h, SlotState.lendable])
  · exact .refl s

/-! ### Evaluations -/

theorem Sent.deferred_governed {s : State} {x : Sent} (h : Governed s x.1) : Governed s x.deferred :=
  h.trans (.deferNotices ..)

theorem applyZoneChange_governed (z : Zone) (c : ZoneChange) (s : State) : Governed s (applyZoneChange z c s) := by
  unfold applyZoneChange
  split
  · split
    · exact .setService ..
    · exact .refl s
  · split
    · exact .setService ..
    · split
      · exact .setService ..
      · exact .refl s
  · split
    · exact .setService ..
    · exact .refl s
  · split
    · exact Sent.deferred_governed ((Governed.setService s z .idle).trans (releaseSlot_governed ..))
    · exact .refl s
  · exact .refl s

theorem applyLeftService_governed (n : SlotId) (h : Holder) (s : State) : Governed s (applyLeftService n h s) := by
  unfold applyLeftService
  split
  · split
    · exact .setService ..
    · exact .refl s
  · split
    · split
      · dsimp only
        split
        · exact ((Governed.setService ..).trans (.setClaim ..)).trans (.answer ..)
        · exact (Governed.setClaim ..).trans (.answer ..)
      · exact .refl s
    · exact .refl s

theorem endHoldoff_governed (z : Zone) (s : State) : Governed s (endHoldoff z s) := by
  unfold endHoldoff
  split
  · exact .setService ..
  · exact .refl s

theorem applyStepEnd_governed (s : State) : Governed s (applyStepEnd s) := by
  unfold applyStepEnd
  split
  · exact .refl s
  · exact .setClaim ..
  · exact Sent.deferred_governed ((Governed.setClaim ..).trans (releaseSlot_governed ..))
  · dsimp only
    split
    · split
      · next h =>
        exact (((Governed.setClaim ..).trans (returnToZone_governed h)).trans (.setService ..)).trans (.deferNotices ..)
      · exact (Governed.setClaim ..).trans (.setService ..)
    · exact Sent.deferred_governed (((Governed.setClaim ..).trans (.setService ..)).trans (releaseSlot_governed ..))

theorem applyHoldRequest_governed (s : State) : Governed s (applyHoldRequest s) := by
  unfold applyHoldRequest
  split
  · exact .setClaim ..
  · exact .refl s
  · exact .answer ..

theorem applyEvent_governed (e : SarEvent) (s : State) : Governed s (applyEvent e s) := by
  unfold applyEvent
  split
  · exact ((applyZoneChange_governed ..).trans (applyZoneChange_governed ..)).trans (applyZoneChange_governed ..)
  · exact .refl s
  · exact applyLeftService_governed ..
  · exact endHoldoff_governed ..
  · split
    · exact ((endHoldoff_governed ..).trans (endHoldoff_governed ..)).trans (endHoldoff_governed ..)
    · exact .refl s
  · exact applyHoldRequest_governed s
  · exact applyStepEnd_governed s
  · exact .refl s

theorem recordTake_governed (n : SlotId) (b : SlotState) (s : State) : Governed s (recordTake n b s) := by
  unfold recordTake
  dsimp only
  split
  · exact ((Governed.setClaim ..).trans (.setService ..)).trans (.answer ..)
  · exact (Governed.setClaim ..).trans (.answer ..)

theorem scanEntries_governed (low : Fin 16) (l : List SlotId) (s : State) : Governed s (scanEntries low l s) := by
  induction l with
  | nil => exact .answer ..
  | cons n l ih =>
    rw [scanEntries]
    split
    · split
      · next h => exact ((takeForHold_governed h).trans (recordTake_governed ..)).trans (.deferNotices ..)
      · exact ih
    · exact ih

theorem holdScan_governed (s : State) : Governed s (holdScan s) := by
  unfold holdScan
  split
  · split
    · exact scanEntries_governed ..
    · exact scanEntries_governed ..
    · exact (Governed.useFree s).trans (scanEntries_governed ..)
  · exact .answer ..

theorem grantEntries_governed (z : Zone) (l : List SlotId) (s : State) : Governed s (grantEntries z l s) := by
  induction l with
  | nil => exact .refl s
  | cons n l ih =>
    rw [grantEntries]
    split
    · split
      · next h => exact ((grantSlot_governed h).trans (.setService ..)).trans (.deferNotices ..)
      · exact ih
    · exact ih

theorem selectGrant_governed (z : Zone) (s : State) : Governed s (selectGrant z s) := by
  unfold selectGrant
  split
  · exact grantEntries_governed ..
  · exact .refl s

theorem evaluateOne_governed (e : SarEvent) (s : State) : Governed s (evaluateOne e s) := by
  have grants : ∀ t, Governed t (selectGrant .low (selectGrant .mid (selectGrant .top t))) := fun t =>
    ((selectGrant_governed ..).trans (selectGrant_governed ..)).trans (selectGrant_governed ..)
  have h := applyEvent_governed e s
  unfold evaluateOne
  dsimp only
  split
  · exact (h.trans (holdScan_governed _)).trans (grants _)
  · exact h.trans (grants _)

theorem takeFurther_governed (s : State) : Governed s (takeFurther s) := by
  unfold takeFurther
  split
  · exact .refl s
  · exact (Governed.setSar ..).trans (evaluateOne_governed ..)

theorem settle_governed (k : Nat) (s : State) : Governed s (settle k s) := by
  induction k generalizing s with
  | zero => exact .refl s
  | succ k ih => exact (takeFurther_governed s).trans (ih _)

/-- What one evaluation of the arbiter can touch, the further evaluations before it included (R113). -/
theorem evaluate_governed (e : SarEvent) (s : State) : Governed s (evaluate e s) :=
  (settle_governed _ s).trans (evaluateOne_governed ..)

/-- What the notices of an SCU operation can lead to. -/
theorem Sent.notify_governed (x : Sent) : Governed x.1 x.notify :=
  Governed.foldl (fun s n => evaluate_governed (.scuNotice n) s) x.2 x.1

/-! ### Evaluations that can do nothing more -/

/-- With no notice waiting there is nothing to settle. -/
theorem State.settled_of_further {s : State} (h : s.sar.further = []) : s.settled = s := by
  have : ∀ k, settle k s = s := by
    intro k
    induction k with
    | zero => rfl
    | succ k ih => rw [settle, show takeFurther s = s by unfold takeFurther; rw [h], ih]
  exact this _

/-- Grant selection makes no grant while none is open or no zone waits (R116). -/
theorem selectGrant_none {z : Zone} {s : State} (h : s.grantsOpen = false ∨ s.service z ≠ .waiting) :
    selectGrant z s = s := by
  unfold selectGrant
  rw [if_neg]
  rintro ⟨h1, h2⟩
  rcases h with h | h
  · rw [h] at h2; cases h2
  · exact h h1

/-- An evaluation ends with its event when no hold is sought and no grant can be made (R113). -/
theorem evaluateOne_event {e : SarEvent} {s : State} (hc : (applyEvent e s).sar.claim ≠ .seeking)
    (hg : (applyEvent e s).grantsOpen = false ∨ ∀ z, (applyEvent e s).service z ≠ .waiting) :
    evaluateOne e s = applyEvent e s := by
  have h : ∀ z, selectGrant z (applyEvent e s) = applyEvent e s := fun z => selectGrant_none (hg.imp_right (· z))
  unfold evaluateOne
  simp only [if_neg hc, h]

theorem evaluate_event {e : SarEvent} {s : State} (hf : s.sar.further = []) (hc : (applyEvent e s).sar.claim ≠ .seeking)
    (hg : (applyEvent e s).grantsOpen = false ∨ ∀ z, (applyEvent e s).service z ≠ .waiting) :
    evaluate e s = applyEvent e s := by
  rw [evaluate, State.settled_of_further hf, evaluateOne_event hc hg]

/-! ### Zones, diverters and the end of an update -/

/-- From `s` to `t` by zones, arbiter, slots and requests to lines: the measuring side, the solar loop, the stepper, the
Fault Monitor, the port and the pins stand. -/
structure Quiet (s t : State) : Prop where
  pending : t.pending = s.pending
  clm : t.clm = s.clm
  pfe : t.pfe = s.pfe
  fmu : t.fmu = s.fmu
  slc : t.slc = s.slc
  ths : t.ths = s.ths
  flt : t.flt = s.flt
  mpt : t.mpt = s.mpt
  pins : t.pins = s.pins
  scu : t.scu = { s.scu with slots := t.scu.slots }
  modes : ∀ i : Fin 8, t.olu[i].mode = s.olu[i].mode

theorem Quiet.refl (s : State) : Quiet s s := ⟨rfl, rfl, rfl, rfl, rfl, rfl, rfl, rfl, rfl, rfl, fun _ => rfl⟩

theorem Quiet.trans {s t u : State} (h : Quiet s t) (k : Quiet t u) : Quiet s u :=
  ⟨k.pending.trans h.pending, k.clm.trans h.clm, k.pfe.trans h.pfe, k.fmu.trans h.fmu, k.slc.trans h.slc,
    k.ths.trans h.ths, k.flt.trans h.flt, k.mpt.trans h.mpt, k.pins.trans h.pins, by rw [k.scu, h.scu],
    fun i => (k.modes i).trans (h.modes i)⟩

theorem Quiet.foldl {α : Type} {f : State → α → State} (h : ∀ s a, Quiet s (f s a)) (l : List α) (s : State) :
    Quiet s (l.foldl f s) := by
  induction l generalizing s with
  | nil => exact .refl s
  | cons a l ih => exact (h s a).trans (ih _)

theorem Governed.quiet {s t : State} (h : Governed s t) : Quiet s t :=
  ⟨h.pending, h.clm, h.pfe, h.fmu, h.slc, h.ths, h.flt, h.mpt, h.pins, h.scu, fun i => (h.lines i).2.1⟩

theorem Quiet.setZone (s : State) (z : Zone) (x : ZoneRec) : Quiet s (s.setZone z x) :=
  ⟨rfl, rfl, rfl, rfl, rfl, rfl, rfl, rfl, rfl, rfl, fun _ => rfl⟩

theorem Quiet.setSlot (s : State) (n : SlotId) (x : Slot) : Quiet s (s.setSlot n x) :=
  ⟨rfl, rfl, rfl, rfl, rfl, rfl, rfl, rfl, rfl, rfl, fun _ => rfl⟩

/-- The zones of the list judged, one after another. -/
def judgeZones (zs : List Zone) (s : State) : State :=
  zs.foldl (fun t z => t.setZone z ((t.zone z).judge (s.zoneMinimum z))) s

/-- An evaluation of zones judges them, and the arbiter takes the notice (R71 to R75). -/
theorem evaluateZones_governed (b : PerZone ZoneRec) (zs : List Zone) (y : Option Zone) (s : State) :
    Governed (judgeZones zs s) (evaluateZones b zs y s) := by
  unfold evaluateZones
  dsimp only
  split
  · exact .refl _
  · exact evaluate_governed ..

theorem evaluateZones_quiet (b : PerZone ZoneRec) (zs : List Zone) (y : Option Zone) (s : State) :
    Quiet s (evaluateZones b zs y s) :=
  (Quiet.foldl (fun t z => Quiet.setZone t z ((t.zone z).judge (s.zoneMinimum z))) zs s).trans
    (evaluateZones_governed ..).quiet

theorem evaluateAllZones_quiet (s : State) : Quiet s (evaluateAllZones s) := evaluateZones_quiet ..

theorem cancelBoosts_quiet (zs : List Zone) (s : State) : Quiet s (cancelBoosts zs s) := by
  unfold cancelBoosts
  split
  · exact .refl s
  · exact (Quiet.foldl (fun t z => Quiet.setZone t z { t.zone z with boost := none }) _ s).trans (evaluateZones_quiet ..)

theorem evaluateDiverter_quiet (n : SlotId) (s : State) : Quiet s (evaluateDiverter n s) := by
  unfold evaluateDiverter
  dsimp only
  split
  · exact (Quiet.setSlot ..).trans (askLine_governed ..).quiet
  · exact .refl s

theorem evaluateDiverters_quiet (s : State) : Quiet s (evaluateDiverters s) :=
  Quiet.foldl (fun s n => evaluateDiverter_quiet n s) allSlots s

theorem Sent.andThen_fst (x : Sent) (f : State → Sent) : (x.andThen f).1 = (f x.1).1 := rfl

theorem scuUpdateCompleted_quiet (s : State) : Quiet s (scuUpdateCompleted s).1 := by
  have key : ∀ (l : List SlotId) (x : Sent),
      Quiet x.1 (l.foldl (fun (x : Sent) n => x.andThen (ceilingTest n)) x).1 := by
    intro l
    induction l with
    | nil => exact fun x => .refl _
    | cons n l ih =>
      intro x
      exact (ceilingTest_governed n x.1).quiet.trans (ih (x.andThen (ceilingTest n)))
  have h := key allSlots (s, [])
  unfold scuUpdateCompleted
  dsimp only at h ⊢
  generalize allSlots.foldl (fun (x : Sent) n => x.andThen (ceilingTest n)) (s, []) = x at h ⊢
  exact h.trans (evaluateDiverters_quiet _)

end Sys2Proof.Machine
end

