-- ==== Sys2Proof/Laws/Hold.lean ====
section
/-! SUPPORT. What the operations of the Thermal Hold Stepper can do (chapter 8). -/

namespace Sys2Proof.Machine

/-- An update of the stepper that leaves the base and the pointer alone. -/
theorem Inner.setThs' (s : State) {t : Ths} (h1 : t.settings = s.ths.settings) (h2 : t.pointer = s.ths.pointer) :
    Inner s (s.setThs t) := .setThs s t (fun h => by rw [h1, h2]; exact h) h1

/-- The same, before what follows it. -/
theorem Inner.afterThs {s u : State} {t : Ths} (h : Inner (s.setThs t) u) (h1 : t.settings = s.ths.settings)
    (h2 : t.pointer = s.ths.pointer) : Inner s u := (Inner.setThs' s h1 h2).trans h

theorem book_layersOk {s : State} (h : s.layersOk) (b : Bool) :
    (s.setLayers (tabulate fun i => (s.clm.layers[i]).book s.ths.settings b)).layersOk := by
  rw [State.layersOk_iff] at h ⊢
  refine ⟨fun i => ?_, fun i j hij => ?_, h.2.2⟩
  · simp only [State.setLayers, tabulate_get]
    exact h.1 i
  · simp only [State.temp, State.setLayers, tabulate_get]
    exact h.2.1 i j hij

theorem bookkeeping_inner (s : State) : Inner s (bookkeeping s) := by
  unfold bookkeeping
  dsimp only
  split
  · refine Inner.trans (Inner.trans (.setThs' s rfl rfl) ?_) (completeUpdate_inner _)
    exact ⟨rfl, rfl, rfl, rfl, rfl, rfl, id, id, id, id, fun h => book_layersOk h _, id, fun _ => id,
      State.servicesOk_still⟩
  · exact .setThs' s rfl rfl

theorem finishStep_inner (r : StepRec) (s : State) : Inner s (finishStep r s) := by
  unfold finishStep
  dsimp only
  refine (Inner.tellArbiter s .stepEnd).trans ?_
  split
  · exact .setThs _ _ fun _ => Fin.le_last _
  · next hp =>
    refine .setThs _ _ fun h => ?_
    have hb : (s.ths.settings.base).val ≤ (s.ths.pointer).val := h
    have e : (s.tellArbiter .stepEnd).ths.settings = s.ths.settings := rfl
    have e' : (s.tellArbiter .stepEnd).ths.pointerAfter r = s.ths.pointerAfter r := rfl
    rw [e, e'] at hp
    rw [e']
    have hl : s.ths.pointerAfter r ≤ 15 := by
      unfold Ths.pointerAfter
      have h1 := r.top.isLt
      have h2 := s.ths.pointer.isLt
      split <;> omega
    show s.ths.settings.base ≤ Fin.ofNat 16 (s.ths.pointerAfter r).toNat
    rw [Fin.le_def]
    simp only [Fin.ofNat]
    omega

theorem nextStep_inner {f : State → State} (hf : ∀ s, Inner s (f s)) (s : State) : Inner s (nextStep f s) := by
  unfold nextStep
  split
  · split
    · exact .afterThs (hf _) rfl rfl
    · exact .refl s
  · exact .setThs' s rfl rfl

theorem startStep_inner (k : Nat) (s : State) : Inner s (startStep k s) := by
  induction k generalizing s with
  | zero => exact .refl s
  | succ k ih =>
    unfold startStep
    dsimp only
    split
    · exact (finishStep_inner _ s).trans (nextStep_inner ih _)
    · exact .afterThs (.tellArbiter ..) rfl rfl

theorem completeStep_inner (r : StepRec) (s : State) : Inner s (completeStep r s) :=
  (finishStep_inner r s).trans (nextStep_inner (startStep_inner _) _)

theorem stepProgress_inner (l : List (Fin 16)) (s : State) : Inner s (stepProgress l s) := by
  unfold stepProgress
  split
  · exact .refl s
  · dsimp only
    split
    · exact .afterThs (completeStep_inner ..) rfl rfl
    · exact .setThs' s rfl rfl

theorem timeOut_inner (r : StepRec) (s : State) : Inner s (timeOut r s) := by
  unfold timeOut
  dsimp only
  refine (report_inner .holdIncomplete (.layer r.top) s).trans ?_
  generalize report .holdIncomplete (.layer r.top) s = t
  have counted : Inner t (t.setThs { t.ths with failedSteps := min 65535 (t.ths.failedSteps + 1) }) := .setThs' t rfl rfl
  refine counted.trans ?_
  generalize t.setThs { t.ths with failedSteps := min 65535 (t.ths.failedSteps + 1) } = u
  refine (Inner.tellArbiter u .stepEnd).trans ?_
  generalize u.tellArbiter .stepEnd = v
  have idle : Inner v (v.setThs { v.ths with fullPass := false, step := .idle }) := .setThs' v rfl rfl
  refine idle.trans ?_
  split
  · exact .afterThs (startStep_inner ..) rfl rfl
  · exact .setThs' _ rfl rfl

theorem countElapsed_inner (s : State) : Inner s (countElapsed s) := by
  unfold countElapsed
  split
  · exact .refl s
  · dsimp only
    split
    · exact .afterThs (timeOut_inner ..) rfl rfl
    · exact .setThs' s rfl rfl

theorem expireInterval_inner (s : State) : Inner s (expireInterval s) := by
  unfold expireInterval
  dsimp only
  have loaded : Inner s (s.setThs { s.ths with interval := some s.ths.settings.interval }) := .setThs' s rfl rfl
  refine loaded.trans ?_
  split
  · exact startStep_inner ..
  · exact .setThs' _ rfl rfl

theorem countInterval_inner (s : State) : Inner s (countInterval s) := by
  unfold countInterval
  split
  · split
    · exact expireInterval_inner s
    · exact .setThs' s rfl rfl
  · exact .refl s

theorem overdueTest_inner (s : State) : Inner s (overdueTest s) := by
  unfold overdueTest
  split
  · split
    · exact .afterThs (report_inner ..) rfl rfl
    · exact .refl s
  · exact .refl s

theorem minuteEvent_inner (s : State) : Inner s (minuteEvent s) := by
  unfold minuteEvent
  dsimp only
  have main : Inner s (countInterval (countElapsed (stepProgress s.dwellsCompleted
      (bookkeeping (s.setThs { s.ths with minuteLeft := Config.minuteSeconds }))))) :=
    .afterThs ((((bookkeeping_inner _).trans (stepProgress_inner ..)).trans (countElapsed_inner _)).trans
      (countInterval_inner _)) rfl rfl
  split
  · exact main.trans (overdueTest_inner _)
  · exact main

theorem takeAnswer_inner (f : HoldAnswer → Bool) (s : State) : Inner s (takeAnswer f s) := by
  unfold takeAnswer
  split
  · exact .refl s
  · split
    · exact ⟨rfl, rfl, rfl, rfl, rfl, rfl, id, id, id, id, id, id, fun _ => id, 
      State.servicesOk_congr rfl rfl rfl (fun _ => rfl) fun _ => rfl⟩
    · exact .refl s

theorem holdNow_inner (s : State) : Inner s (holdNow s) := by
  unfold holdNow
  split
  · exact Inner.trans (.setThs s _ fun _ => Fin.le_last _) (startStep_inner ..)
  · exact .setThs' s rfl rfl

/-- A taken SET_HOLD keeps the pointer at the base or above (R161). -/
theorem Ths.takeSettings_ok {t : Ths} (h : t.settings.base ≤ t.pointer) (x : HoldSettings) :
    (t.takeSettings x).settings.base ≤ (t.takeSettings x).pointer := by
  unfold Ths.takeSettings
  dsimp only
  split
  · exact Fin.le_last _
  · next hn =>
    by_cases hb : x.base = t.settings.base
    · rw [hb]; exact h
    · simp only [ne_eq, hb, not_false_eq_true, true_and] at hn
      exact Fin.not_lt.1 hn

end Sys2Proof.Machine
end

