-- ==== Sys2Proof/Laws/PerInstr.lean ====
section
/-! SUPPORT. The per-command family `KindByte`: a command carries a payload exactly when it has a KIND, a KIND of
section 11.4 belongs to its own request, and every length section 11.4 fixes fits in a frame. -/

namespace Sys2Proof.Laws

open Sys2Proof.Machine

/-- What a command's KIND, payload and length have to do with each other (R186, R190, section 11.4). -/
def KindByte.Statement (i : Instr) : Prop :=
  (kindOf i).isSome = i.payload?.isSome ∧
    (i.wellFormed = true → ∀ k, kindOf i = some k → (knownKind k = false ↔ ∃ p, i = .unknownKindRequest k p)) ∧
    ∀ n, fixedLength i = some n → n ≤ Config.largestPayload ∧ (kindOf i).isSome = true

/-- A command without a KIND. -/
theorem kindByte_event {i : Instr} (h1 : kindOf i = none) (h2 : i.payload? = none) (h3 : fixedLength i = none) :
    KindByte.Statement i := by
  refine ⟨by rw [h1, h2]; rfl, fun _ k h => ?_, fun n h => ?_⟩
  · rw [h1] at h; cases h
  · rw [h3] at h; cases h

/-- A request of section 11.4. -/
theorem kindByte_request {i : Instr} {k : Byte} {p : List Byte} (h1 : kindOf i = some k) (h2 : i.payload? = some p)
    (h3 : knownKind k = true) (h4 : ∀ j q, i ≠ .unknownKindRequest j q)
    (h5 : ∀ n, fixedLength i = some n → n ≤ Config.largestPayload) : KindByte.Statement i := by
  refine ⟨by rw [h1, h2]; rfl, fun _ j h => ?_, fun n h => ⟨h5 n h, by rw [h1]; rfl⟩⟩
  rw [h1] at h
  cases h
  exact ⟨fun hk => absurd h3 (by simp [hk]), fun ⟨q, hq⟩ => absurd hq (h4 k q)⟩

theorem KindByte.powerOn : KindByte.Statement .powerOn := kindByte_event rfl rfl rfl
theorem KindByte.resetPin : KindByte.Statement .resetPin := kindByte_event rfl rfl rfl
theorem KindByte.receiveByte (byte : Byte) (framingError : Bool) :
    KindByte.Statement (.receiveByte byte framingError) := kindByte_event rfl rfl rfl
theorem KindByte.gapTimerExpiry : KindByte.Statement .gapTimerExpiry := kindByte_event rfl rfl rfl
theorem KindByte.replySent : KindByte.Statement .replySent := kindByte_event rfl rfl rfl
theorem KindByte.linkLapse : KindByte.Statement .linkLapse := kindByte_event rfl rfl rfl
theorem KindByte.unknownKindRequest (kind : Byte) (payload : List Byte) :
    KindByte.Statement (.unknownKindRequest kind payload) := by
  refine ⟨rfl, fun hw j h => ?_, fun n h => by cases h⟩
  cases h
  have : knownKind kind = false := by
    simp only [Instr.wellFormed, Bool.and_eq_true, Bool.not_eq_true'] at hw
    exact hw.2
  exact ⟨fun _ => ⟨payload, rfl⟩, fun _ => this⟩
theorem KindByte.setCylinder (payload : List Byte) :
    KindByte.Statement (.setCylinder payload) := kindByte_request rfl rfl (by decide) (by rintro _ _ ⟨⟩) (by rintro n ⟨⟩; decide)
theorem KindByte.setZoneBounds (payload : List Byte) :
    KindByte.Statement (.setZoneBounds payload) := kindByte_request rfl rfl (by decide) (by rintro _ _ ⟨⟩) (by rintro n ⟨⟩; decide)
theorem KindByte.setZone (payload : List Byte) :
    KindByte.Statement (.setZone payload) := kindByte_request rfl rfl (by decide) (by rintro _ _ ⟨⟩) (by rintro n ⟨⟩)
theorem KindByte.setSource (payload : List Byte) :
    KindByte.Statement (.setSource payload) := kindByte_request rfl rfl (by decide) (by rintro _ _ ⟨⟩) (by rintro n ⟨⟩)
theorem KindByte.setSolar (payload : List Byte) :
    KindByte.Statement (.setSolar payload) := kindByte_request rfl rfl (by decide) (by rintro _ _ ⟨⟩) (by rintro n ⟨⟩; decide)
theorem KindByte.setHold (payload : List Byte) :
    KindByte.Statement (.setHold payload) := kindByte_request rfl rfl (by decide) (by rintro _ _ ⟨⟩) (by rintro n ⟨⟩)
theorem KindByte.setProbeMap (payload : List Byte) :
    KindByte.Statement (.setProbeMap payload) := kindByte_request rfl rfl (by decide) (by rintro _ _ ⟨⟩) (by rintro n ⟨⟩; decide)
theorem KindByte.setProbeTrim (payload : List Byte) :
    KindByte.Statement (.setProbeTrim payload) := kindByte_request rfl rfl (by decide) (by rintro _ _ ⟨⟩) (by rintro n ⟨⟩; decide)
theorem KindByte.setMeter (payload : List Byte) :
    KindByte.Statement (.setMeter payload) := kindByte_request rfl rfl (by decide) (by rintro _ _ ⟨⟩) (by rintro n ⟨⟩)
theorem KindByte.setOutput (payload : List Byte) :
    KindByte.Statement (.setOutput payload) := kindByte_request rfl rfl (by decide) (by rintro _ _ ⟨⟩) (by rintro n ⟨⟩; decide)
theorem KindByte.setFaultPolicy (payload : List Byte) :
    KindByte.Statement (.setFaultPolicy payload) := kindByte_request rfl rfl (by decide) (by rintro _ _ ⟨⟩) (by rintro n ⟨⟩; decide)
theorem KindByte.setLink (payload : List Byte) :
    KindByte.Statement (.setLink payload) := kindByte_request rfl rfl (by decide) (by rintro _ _ ⟨⟩) (by rintro n ⟨⟩; decide)
theorem KindByte.sourceEnable (payload : List Byte) :
    KindByte.Statement (.sourceEnable payload) := kindByte_request rfl rfl (by decide) (by rintro _ _ ⟨⟩) (by rintro n ⟨⟩; decide)
theorem KindByte.sourceDisable (payload : List Byte) :
    KindByte.Statement (.sourceDisable payload) := kindByte_request rfl rfl (by decide) (by rintro _ _ ⟨⟩) (by rintro n ⟨⟩; decide)
theorem KindByte.sourceReset (payload : List Byte) :
    KindByte.Statement (.sourceReset payload) := kindByte_request rfl rfl (by decide) (by rintro _ _ ⟨⟩) (by rintro n ⟨⟩; decide)
theorem KindByte.boost (payload : List Byte) :
    KindByte.Statement (.boost payload) := kindByte_request rfl rfl (by decide) (by rintro _ _ ⟨⟩) (by rintro n ⟨⟩; decide)
theorem KindByte.boostCancel (payload : List Byte) :
    KindByte.Statement (.boostCancel payload) := kindByte_request rfl rfl (by decide) (by rintro _ _ ⟨⟩) (by rintro n ⟨⟩; decide)
theorem KindByte.surplus (payload : List Byte) :
    KindByte.Statement (.surplus payload) := kindByte_request rfl rfl (by decide) (by rintro _ _ ⟨⟩) (by rintro n ⟨⟩; decide)
theorem KindByte.forceOutput (payload : List Byte) :
    KindByte.Statement (.forceOutput payload) := kindByte_request rfl rfl (by decide) (by rintro _ _ ⟨⟩) (by rintro n ⟨⟩; decide)
theorem KindByte.releaseOutput (payload : List Byte) :
    KindByte.Statement (.releaseOutput payload) := kindByte_request rfl rfl (by decide) (by rintro _ _ ⟨⟩) (by rintro n ⟨⟩; decide)
theorem KindByte.holdNow (payload : List Byte) :
    KindByte.Statement (.holdNow payload) := kindByte_request rfl rfl (by decide) (by rintro _ _ ⟨⟩) (by rintro n ⟨⟩; decide)
theorem KindByte.clearFaults (payload : List Byte) :
    KindByte.Statement (.clearFaults payload) := kindByte_request rfl rfl (by decide) (by rintro _ _ ⟨⟩) (by rintro n ⟨⟩)
theorem KindByte.lockLimits (payload : List Byte) :
    KindByte.Statement (.lockLimits payload) := kindByte_request rfl rfl (by decide) (by rintro _ _ ⟨⟩) (by rintro n ⟨⟩; decide)
theorem KindByte.restart (payload : List Byte) :
    KindByte.Statement (.restart payload) := kindByte_request rfl rfl (by decide) (by rintro _ _ ⟨⟩) (by rintro n ⟨⟩; decide)
theorem KindByte.ident (payload : List Byte) :
    KindByte.Statement (.ident payload) := kindByte_request rfl rfl (by decide) (by rintro _ _ ⟨⟩) (by rintro n ⟨⟩; decide)
theorem KindByte.status (payload : List Byte) :
    KindByte.Statement (.status payload) := kindByte_request rfl rfl (by decide) (by rintro _ _ ⟨⟩) (by rintro n ⟨⟩; decide)
theorem KindByte.layers (payload : List Byte) :
    KindByte.Statement (.layers payload) := kindByte_request rfl rfl (by decide) (by rintro _ _ ⟨⟩) (by rintro n ⟨⟩; decide)
theorem KindByte.zones (payload : List Byte) :
    KindByte.Statement (.zones payload) := kindByte_request rfl rfl (by decide) (by rintro _ _ ⟨⟩) (by rintro n ⟨⟩; decide)
theorem KindByte.source (payload : List Byte) :
    KindByte.Statement (.source payload) := kindByte_request rfl rfl (by decide) (by rintro _ _ ⟨⟩) (by rintro n ⟨⟩; decide)
theorem KindByte.solar (payload : List Byte) :
    KindByte.Statement (.solar payload) := kindByte_request rfl rfl (by decide) (by rintro _ _ ⟨⟩) (by rintro n ⟨⟩; decide)
theorem KindByte.hold (payload : List Byte) :
    KindByte.Statement (.hold payload) := kindByte_request rfl rfl (by decide) (by rintro _ _ ⟨⟩) (by rintro n ⟨⟩; decide)
theorem KindByte.meters (payload : List Byte) :
    KindByte.Statement (.meters payload) := kindByte_request rfl rfl (by decide) (by rintro _ _ ⟨⟩) (by rintro n ⟨⟩; decide)
theorem KindByte.energy (payload : List Byte) :
    KindByte.Statement (.energy payload) := kindByte_request rfl rfl (by decide) (by rintro _ _ ⟨⟩) (by rintro n ⟨⟩; decide)
theorem KindByte.faults (payload : List Byte) :
    KindByte.Statement (.faults payload) := kindByte_request rfl rfl (by decide) (by rintro _ _ ⟨⟩) (by rintro n ⟨⟩; decide)
theorem KindByte.probes (payload : List Byte) :
    KindByte.Statement (.probes payload) := kindByte_request rfl rfl (by decide) (by rintro _ _ ⟨⟩) (by rintro n ⟨⟩; decide)
theorem KindByte.outputs (payload : List Byte) :
    KindByte.Statement (.outputs payload) := kindByte_request rfl rfl (by decide) (by rintro _ _ ⟨⟩) (by rintro n ⟨⟩; decide)
theorem KindByte.config (payload : List Byte) :
    KindByte.Statement (.config payload) := kindByte_request rfl rfl (by decide) (by rintro _ _ ⟨⟩) (by rintro n ⟨⟩; decide)
theorem KindByte.conversion (channel : Fin 12) (raw : Int) :
    KindByte.Statement (.conversion channel raw) := kindByte_event rfl rfl rfl
theorem KindByte.pulse (meter : Meter) :
    KindByte.Statement (.pulse meter) := kindByte_event rfl rfl rfl
theorem KindByte.drawGateExpiry : KindByte.Statement .drawGateExpiry := kindByte_event rfl rfl rfl
theorem KindByte.loopGateExpiry : KindByte.Statement .loopGateExpiry := kindByte_event rfl rfl rfl
theorem KindByte.modelPeriodExpiry : KindByte.Statement .modelPeriodExpiry := kindByte_event rfl rfl rfl
theorem KindByte.surplusTimerExpiry : KindByte.Statement .surplusTimerExpiry := kindByte_event rfl rfl rfl
theorem KindByte.furtherEvaluation : KindByte.Statement .furtherEvaluation := kindByte_event rfl rfl rfl
theorem KindByte.holdoffTimerExpiry (zone : Zone) :
    KindByte.Statement (.holdoffTimerExpiry zone) := kindByte_event rfl rfl rfl
theorem KindByte.holdRequest : KindByte.Statement .holdRequest := kindByte_event rfl rfl rfl
theorem KindByte.stepEnd : KindByte.Statement .stepEnd := kindByte_event rfl rfl rfl
theorem KindByte.holdTaken : KindByte.Statement .holdTaken := kindByte_event rfl rfl rfl
theorem KindByte.holdNone : KindByte.Statement .holdNone := kindByte_event rfl rfl rfl
theorem KindByte.holdLost : KindByte.Statement .holdLost := kindByte_event rfl rfl rfl
theorem KindByte.confirmInputChange (input : Fin 4) (active : Bool) :
    KindByte.Statement (.confirmInputChange input active) := kindByte_event rfl rfl rfl
theorem KindByte.dwellEnd (slot : SlotId) :
    KindByte.Statement (.dwellEnd slot) := kindByte_event rfl rfl rfl
theorem KindByte.confirmWindowExpiry (slot : SlotId) :
    KindByte.Statement (.confirmWindowExpiry slot) := kindByte_event rfl rfl rfl
theorem KindByte.minimumRunCompletion (slot : SlotId) :
    KindByte.Statement (.minimumRunCompletion slot) := kindByte_event rfl rfl rfl
theorem KindByte.overrunExpiry (slot : SlotId) :
    KindByte.Statement (.overrunExpiry slot) := kindByte_event rfl rfl rfl
theorem KindByte.holdExpiry (slot : SlotId) :
    KindByte.Statement (.holdExpiry slot) := kindByte_event rfl rfl rfl
theorem KindByte.warmExpiry (slot : SlotId) :
    KindByte.Statement (.warmExpiry slot) := kindByte_event rfl rfl rfl
theorem KindByte.minuteEvent : KindByte.Statement .minuteEvent := kindByte_event rfl rfl rfl
theorem KindByte.hourCountWrap : KindByte.Statement .hourCountWrap := kindByte_event rfl rfl rfl
theorem KindByte.stepTimeout : KindByte.Statement .stepTimeout := kindByte_event rfl rfl rfl
theorem KindByte.intervalExpiry : KindByte.Statement .intervalExpiry := kindByte_event rfl rfl rfl
theorem KindByte.recoveryEnd (line : Fin 8) :
    KindByte.Statement (.recoveryEnd line) := kindByte_event rfl rfl rfl
theorem KindByte.uptimeIncrement : KindByte.Statement .uptimeIncrement := kindByte_event rfl rfl rfl

end Sys2Proof.Laws
end

