-- ==== Sys2Proof/Laws/Requests.lean ====
section
/-! SUPPORT. What the owners of requests and the port can do (chapter 11): `Owned s t` says that going from `s` to `t` keeps
every promise and leaves the port's queue and receiver alone, `Kept s t` that it keeps every promise and leaves the waiting
commands alone. -/

namespace Sys2Proof.Machine

/-- From `s` to `t` by the owner of a request. -/
structure Owned (s t : State) : Prop where
  pending : t.pending = s.pending
  queue : t.mpt.queue = s.mpt.queue
  discards : t.mpt.discards = s.mpt.discards
  assembler : t.mpt.assembler = s.mpt.assembler
  gap : t.mpt.gapTimer = s.mpt.gapTimer
  faults : s.faultsOk → t.faultsOk
  lines : s.linesOk → t.linesOk
  slots : s.slotsOk → t.slotsOk
  solar : s.solarOk → t.solarOk
  layers : s.layersOk → t.layersOk
  hold : s.holdOk → t.holdOk
  probes : s.probesOk → t.probesOk
  ranges : s.rangesOk → t.rangesOk
  locked : s.solarOk → s.mpt.lock = true → t.mpt.lock = true ∧ t.limits = s.limits
  agree : s.linesOk → s.agreeOk → t.agreeOk
  rankings : s.rankingsOk → t.rankingsOk
  link : s.linkOk → t.linkOk
  trims : s.trimsOk → t.trimsOk
  services : s.servicesOk → t.servicesOk
  water : t.fmu.pendingVolume = s.fmu.pendingVolume ∨ t.fmu.pendingVolume = 0
  dry : s.dryOk → t.dryOk

/-- From `s` to `t` by a command. -/
structure Kept (s t : State) : Prop where
  pending : t.pending = s.pending
  faults : s.faultsOk → t.faultsOk
  lines : s.linesOk → t.linesOk
  slots : s.slotsOk → t.slotsOk
  solar : s.solarOk → t.solarOk
  layers : s.layersOk → t.layersOk
  hold : s.holdOk → t.holdOk
  probes : s.probesOk → t.probesOk
  ranges : s.rangesOk → t.rangesOk
  locked : s.solarOk → s.mpt.lock = true → t.mpt.lock = true ∧ t.limits = s.limits
  port : s.portOk → t.portOk
  agree : s.linesOk → s.agreeOk → t.agreeOk
  rankings : s.rankingsOk → t.rankingsOk
  link : s.linkOk → t.linkOk
  trims : s.trimsOk → t.trimsOk
  services : s.servicesOk → t.servicesOk
  water : t.fmu.pendingVolume = s.fmu.pendingVolume ∨ t.fmu.pendingVolume = 0
  dry : s.dryOk → t.dryOk

/-- A command that keeps the promises keeps every setting in its range. -/
theorem Kept.settings {s t : State} (h : Kept s t) : s.settingsOk → t.settingsOk :=
  fun ⟨h1, h2, h3, h4⟩ => ⟨h.ranges h1, h.rankings h2, h.link h3, h.trims h4⟩

theorem State.figures_of_settings {s t : State} (h : t.settings = s.settings) :
    t.clm.figures = s.clm.figures ∧ t.fmu.figures = s.fmu.figures ∧ t.zdu.figures = s.zdu.figures ∧
      t.scu.figures = s.scu.figures ∧ (t.sar.holdoffTime = s.sar.holdoffTime ∧ t.sar.threshold = s.sar.threshold) ∧
      t.slc.settings = s.slc.settings ∧ t.ths.settings = s.ths.settings ∧ lineFigures t.olu = lineFigures s.olu ∧
      t.zdu.rankings = s.zdu.rankings ∧ t.flt.policy = s.flt.policy ∧ t.mpt.interval = s.mpt.interval ∧
      t.pfe.map = s.pfe.map ∧ t.pfe.trims = s.pfe.trims := by
  simpa only [State.settings, Prod.mk.injEq] using h

/-- The ranges, the rankings and the locked values are a matter of the settings alone. -/
theorem State.rangesOk_of_settings {s t : State} (h : t.settings = s.settings) (hs : s.rangesOk) : t.rangesOk := by
  obtain ⟨e1, e2, e3, e4, ⟨e5, e6⟩, e7, e8, e9, _⟩ := State.figures_of_settings h
  obtain ⟨h1, h2, h3, h4, h5, h6, h7, h8, h9, h10⟩ := hs
  simp only [Clm.figures, Fmu.figures, Zdu.figures, Scu.figures, Prod.mk.injEq] at e1 e2 e3 e4
  have z : ∀ z, (t.zone z).figures = (s.zone z).figures := by
    intro z; cases z
    · exact e3.2.2.1
    · exact e3.2.2.2.1
    · exact e3.2.2.2.2
  have n : ∀ n, (t.slot n).figures = (s.slot n).figures := fun n => congrFun e4.2.2.2.2 n
  refine ⟨?_, ?_, ?_, fun y => ?_, ?_, fun m => ?_, ?_, ?_, ?_, fun i => ?_⟩
  · unfold Clm.figuresOk at h1 ⊢; simp only [e1]; exact h1
  · unfold Fmu.figuresOk at h2 ⊢; simp only [e2]; exact h2
  · rw [e3.1, e3.2.1]; exact h3
  · have := z y
    simp only [ZoneRec.figures, Prod.mk.injEq] at this
    have k := h4 y
    unfold ZoneRec.figuresOk at k ⊢; simp only [this]; exact k
  · simp only [e4]; exact h5
  · have := n m
    simp only [Slot.figures, Prod.mk.injEq] at this
    rw [this.2]; exact h6 m
  · rw [e5, e6]; exact h7
  · rw [e7, e4.2.2.1]; exact h8
  · rw [e8]; exact h9
  · have : (lineFigures t.olu i).2 = (lineFigures s.olu i).2 := by rw [e9]
    exact Nat.le_trans (Nat.le_of_eq this) (h10 i)

theorem State.rankingsOk_of_settings {s t : State} (h : t.settings = s.settings) (hs : s.rankingsOk) : t.rankingsOk := by
  obtain ⟨_, _, e3, e4, _, _, _, _, e9, _⟩ := State.figures_of_settings h
  simp only [Zdu.figures, Scu.figures, Prod.mk.injEq] at e3 e4
  intro z
  have hr : (t.zone z).ranking = (s.zone z).ranking := congrFun e9 z
  have ht : t.zdu.topLayer z = s.zdu.topLayer z := by cases z <;> simp [Zdu.topLayer, e3.1, e3.2.1]
  have hn : ∀ n, (t.slot n).cls = (s.slot n).cls ∧ (t.slot n).settings = (s.slot n).settings := fun n => by
    have := congrFun e4.2.2.2.2 n
    simp only [Slot.figures, Prod.mk.injEq] at this
    exact this
  rw [hr, ht]
  refine ⟨(hs z).1, fun n hm => ?_⟩
  rw [(hn n).1, (hn n).2]
  exact (hs z).2 n hm

theorem State.limits_of_settings {s t : State} (h : t.settings = s.settings) : t.limits = s.limits := by
  obtain ⟨_, _, _, e4, _, e7, e8, _⟩ := State.figures_of_settings h
  simp only [Scu.figures, Prod.mk.injEq] at e4
  unfold State.limits
  rw [e4.2.2.1, e7, e8]

theorem Inner.owned {s t : State} (h : Inner s t) : Owned s t :=
  ⟨h.pending, by rw [h.mpt], by rw [h.mpt], by rw [h.mpt], by rw [h.mpt], h.faults, h.lines, h.slots, h.solar, h.layers,
    h.hold, by unfold State.probesOk; rw [h.pfe]; exact id, State.rangesOk_of_settings h.settings,
    fun _ hl => ⟨by rw [h.mpt]; exact hl, State.limits_of_settings h.settings⟩, h.agree,
    State.rankingsOk_of_settings h.settings, by unfold State.linkOk; rw [h.mpt]; exact id,
    by unfold State.trimsOk; rw [h.pfe]; exact id, h.services, .inl h.water, by
      have := (State.figures_of_settings h.settings).2.1
      simp only [Fmu.figures, Prod.mk.injEq] at this
      unfold State.dryOk
      rw [this.1, h.water]; exact id⟩

theorem Inner.kept {s t : State} (h : Inner s t) : Kept s t :=
  ⟨h.pending, h.faults, h.lines, h.slots, h.solar, h.layers, h.hold, h.owned.probes, h.owned.ranges, h.owned.locked,
    by unfold State.portOk; rw [h.mpt]; exact id, h.agree, h.owned.rankings, h.owned.link, h.owned.trims,
    h.services, h.owned.water, h.owned.dry⟩

theorem Owned.refl (s : State) : Owned s s := (Inner.refl s).owned

theorem Owned.trans {s t u : State} (h : Owned s t) (k : Owned t u) : Owned s u where
  pending := k.pending.trans h.pending
  queue := k.queue.trans h.queue
  discards := k.discards.trans h.discards
  assembler := k.assembler.trans h.assembler
  gap := k.gap.trans h.gap
  ranges := k.ranges ∘ h.ranges
  agree hl ha := k.agree (h.lines hl) (h.agree hl ha)
  rankings := k.rankings ∘ h.rankings
  link := k.link ∘ h.link
  trims := k.trims ∘ h.trims
  services := k.services ∘ h.services
  water := k.water.elim (fun e => h.water.elim (fun f => .inl (e.trans f)) fun f => .inr (e.trans f)) .inr
  dry := k.dry ∘ h.dry
  locked hs hl :=
    have a := h.locked hs hl
    have b := k.locked (h.solar hs) a.1
    ⟨b.1, b.2.trans a.2⟩
  faults := k.faults ∘ h.faults
  lines := k.lines ∘ h.lines
  slots := k.slots ∘ h.slots
  solar := k.solar ∘ h.solar
  layers := k.layers ∘ h.layers
  hold := k.hold ∘ h.hold
  probes := k.probes ∘ h.probes

theorem Owned.inner {s t u : State} (h : Owned s t) (k : Inner t u) : Owned s u := h.trans k.owned

theorem Kept.trans {s t u : State} (h : Kept s t) (k : Kept t u) : Kept s u where
  pending := k.pending.trans h.pending
  faults := k.faults ∘ h.faults
  lines := k.lines ∘ h.lines
  slots := k.slots ∘ h.slots
  solar := k.solar ∘ h.solar
  layers := k.layers ∘ h.layers
  hold := k.hold ∘ h.hold
  probes := k.probes ∘ h.probes
  ranges := k.ranges ∘ h.ranges
  agree hl ha := k.agree (h.lines hl) (h.agree hl ha)
  rankings := k.rankings ∘ h.rankings
  link := k.link ∘ h.link
  trims := k.trims ∘ h.trims
  services := k.services ∘ h.services
  water := k.water.elim (fun e => h.water.elim (fun f => .inl (e.trans f)) fun f => .inr (e.trans f)) .inr
  dry := k.dry ∘ h.dry
  locked hs hl :=
    have a := h.locked hs hl
    have b := k.locked (h.solar hs) a.1
    ⟨b.1, b.2.trans a.2⟩
  port := k.port ∘ h.port

theorem Kept.inner {s t u : State} (h : Kept s t) (k : Inner t u) : Kept s u := h.trans k.kept

/-- An update of the port that keeps its promise. -/
theorem Kept.setMpt (s : State) (m : Mpt) (h : s.portOk → (s.setMpt m).portOk) (hl : m.lock = s.mpt.lock := by rfl)
    (hi : m.interval = s.mpt.interval := by rfl) : Kept s (s.setMpt m) :=
  ⟨rfl, id, id, id, id, id, id, id, id, fun _ k => ⟨hl.trans k, rfl⟩, h, fun _ => id, id,
    by unfold State.linkOk; rw [State.mpt_setMpt, hi]; exact id, id,
    State.servicesOk_still, .inl rfl, id⟩

/-! ### Arrivals and replies (R187, R189) -/

/-- The arrival of a frame keeps the receiver as it is, and the queue within its two places. -/
theorem Mpt.arrive_queue (m : Mpt) (f : Frame) :
    (m.arrive f).queue = if m.queue.length < 2 then m.queue ++ [f] else m.queue := by
  unfold Mpt.arrive Config.queuePlaces
  dsimp only
  rw [show m.loadSupervision.queue = m.queue from rfl]
  split <;> rfl

theorem Mpt.arrive_rest (m : Mpt) (f : Frame) :
    (m.arrive f).reply = m.reply ∧ (m.arrive f).restartDue = m.restartDue ∧ (m.arrive f).assembler = m.assembler ∧
      (m.arrive f).gapTimer = m.gapTimer ∧ (m.discards ≤ 65535 → (m.arrive f).discards ≤ 65535) := by
  unfold Mpt.arrive Mpt.loadSupervision Mpt.countDiscard
  dsimp only
  split
  · exact ⟨rfl, rfl, rfl, rfl, id⟩
  · exact ⟨rfl, rfl, rfl, rfl, fun _ => Nat.min_le_left ..⟩

theorem Mpt.arrive_interval (m : Mpt) (f : Frame) : (m.arrive f).interval = m.interval := by
  unfold Mpt.arrive; dsimp only; split <;> rfl

theorem Mpt.arrive_lock (m : Mpt) (f : Frame) : (m.arrive f).lock = m.lock := by
  unfold Mpt.arrive; dsimp only; split <;> rfl

theorem Kept.arrive (s : State) (f : Frame) : Kept s (s.setMpt (s.mpt.arrive f)) := by
  refine .setMpt s _ ?_ (Mpt.arrive_lock ..) (Mpt.arrive_interval ..)
  rintro ⟨h1, h2, h3, h4, h5⟩
  obtain ⟨r1, r2, r3, r4, r5⟩ := Mpt.arrive_rest s.mpt f
  show (s.mpt.arrive f).queue.length ≤ 2 ∧ (s.mpt.arrive f).discards ≤ 65535 ∧ _ ∧ _ ∧ _
  refine ⟨?_, r5 h2, ?_, ?_, ?_⟩
  · rw [Mpt.arrive_queue]; split
    · simp; omega
    · exact h1
  · show (s.mpt.arrive f).reply ≠ none → (s.mpt.arrive f).queue ≠ []
    rw [r1, Mpt.arrive_queue]
    intro h; split
    · simp
    · exact h3 h
  · show (s.mpt.arrive f).restartDue ≠ none → (s.mpt.arrive f).reply ≠ none
    rw [r1, r2]; exact h4
  · show (s.mpt.arrive f).gapTimer = none ↔ (s.mpt.arrive f).assembler = .hunt
    rw [r3, r4]; exact h5

/-- A request is answered by an owner that keeps the promises. -/
theorem answerRequest_kept {s : State} {owner : State → Answer} (kind : Byte) (h : Owned s (owner s).state)
    (hq : s.mpt.queue ≠ []) : Kept s (answerRequest kind owner s) := by
  refine ⟨h.pending, h.faults, h.lines, h.slots, h.solar, h.layers, h.hold, h.probes, h.ranges, h.locked, ?_, h.agree, h.rankings, h.link, h.trims,
    fun k => State.servicesOk_still (s := (owner s).state) rfl (fun _ => rfl) (h.services k),
    h.water, h.dry⟩
  rintro ⟨h1, h2, h3, h4, h5⟩
  refine ⟨?_, ?_, fun _ => ?_, fun _ => by simp [answerRequest, State.setMpt], ?_⟩
  · show (owner s).state.mpt.queue.length ≤ 2; rw [h.queue]; exact h1
  · show (owner s).state.mpt.discards ≤ 65535; rw [h.discards]; exact h2
  · show (owner s).state.mpt.queue ≠ []; rw [h.queue]; exact hq
  · show (owner s).state.mpt.gapTimer = none ↔ (owner s).state.mpt.assembler = .hunt
    rw [h.gap, h.assembler]; exact h5

/-- A request command, whatever its owner's answer is (R189, R190). -/
theorem requestStep_kept {owner : State → Answer} (h : ∀ s, Owned s (owner s).state) (kind : Byte) (p : List Byte)
    (s : State) : Kept s (requestStep kind p owner s) := by
  unfold requestStep
  dsimp only
  split
  · next hr hq =>
    refine (Kept.arrive s ⟨kind, p⟩).trans (answerRequest_kept kind (h _) ?_)
    show (s.mpt.arrive ⟨kind, p⟩).queue ≠ []
    rw [Mpt.arrive_queue, hq]; simp
  · next f l hr hq =>
    split
    · exact answerRequest_kept kind (h s) (by rw [hq]; simp)
    · exact .arrive s _
  · exact .arrive s _

theorem withLength_owned {owner : State → Answer} (h : ∀ s, Owned s (owner s).state) (b : Bool) (s : State) :
    Owned s (withLength b owner s).state := by
  unfold withLength; split
  · exact h s
  · exact .refl s

theorem plainRead_owned (data : State → List Byte) (p : List Byte) (s : State) : Owned s (plainRead data p s).state :=
  withLength_owned (fun s => .refl s) _ s

theorem indexedRead_owned (n : Nat) (data : State → Option (List Byte)) (p : List Byte) (s : State) :
    Owned s (indexedRead n data p s).state := by
  refine withLength_owned (fun s => ?_) _ s
  split <;> exact .refl s

/-! ### Setting requests -/

theorem enterUnseeded_inner (s : State) (hg : s.layersOk → s.clm.geometryOk) : Inner s (enterUnseeded s) := by
  have first : Inner s { s with clm := unseed s.clm } :=
    ⟨rfl, rfl, rfl, rfl, rfl, rfl, id, id, id, id, fun h => unseed_layersOk rfl (hg h) h, id, fun _ => id,
      State.servicesOk_still⟩
  exact (first.trans (evaluateAllZones_inner _)).trans (evaluateDiverters_inner _)

theorem Clm.withCylinder_geometry (c : Clm) (p : List Byte) : (c.withCylinder p).geometryOk :=
  ⟨(clampNat_mem (by omega)).1, (clampNat_mem (by omega)).2, (clamp_mem (by omega)).1, (clamp_mem (by omega)).2⟩

theorem Clm.withCylinder_figuresOk (c : Clm) (p : List Byte) : (c.withCylinder p).figuresOk := by
  refine ⟨?_, clampNat_mem (by omega), clamp_mem (by omega), clamp_mem (by omega), clamp_mem (by omega),
    (clampNat_mem (by omega)).2⟩
  simp only [Clm.withCylinder, takenVolume, clampNat]
  omega

/-- A change of the CLM's settings. -/
theorem Owned.setClm (s : State) (c : Clm) (hf : c.figuresOk) (hl : s.layersOk → ({ s with clm := c } : State).layersOk) :
    Owned s { s with clm := c } :=
  ⟨rfl, rfl, rfl, rfl, rfl, id, id, id, id, hl, id, id, fun h => ⟨hf, h.2⟩, fun _ k => ⟨k, rfl⟩, fun _ => id, id, id, id,
    State.servicesOk_still, .inl rfl, id⟩

theorem ownSetCylinder_owned (p : List Byte) (s : State) : Owned s (ownSetCylinder p s).state := by
  unfold ownSetCylinder
  dsimp only
  split
  · exact .refl s
  · have hg := s.clm.withCylinder_geometry p
    have hf := s.clm.withCylinder_figuresOk p
    simp only [taken]
    split
    · have rest : Inner { s with clm := unseed (s.clm.withCylinder p) }
          (enterUnseeded { s with clm := s.clm.withCylinder p }) :=
        (evaluateAllZones_inner _).trans (evaluateDiverters_inner _)
      have first : Owned s { s with clm := unseed (s.clm.withCylinder p) } :=
        .setClm s _ hf (unseed_layersOk (c := s.clm.withCylinder p) rfl hg)
      exact first.inner rest
    · next hv =>
      refine .setClm s _ hf fun h => ?_
      have hv' : (s.clm.withCylinder p).volume = s.clm.volume := by simpa using hv
      rw [State.layersOk_iff] at h ⊢
      have hu : (s.clm.withCylinder p).unitEnergy = s.clm.unitEnergy := by
        unfold Clm.unitEnergy Clm.layerVolume; rw [hv']
      refine ⟨?_, h.2.1, hg⟩
      show tableOk (s.clm.withCylinder p).unitEnergy s.clm.layers
      rw [hu]; exact h.1

/-! ### The rankings (R66, R68, R70) -/

/-- A change of the zones' settings. -/
theorem Owned.setZdu (s : State) (u : Zdu) (h : s.rangesOk → ({ s with zdu := u } : State).rangesOk)
    (hr : s.rankingsOk → ({ s with zdu := u } : State).rankingsOk) : Owned s { s with zdu := u } :=
  ⟨rfl, rfl, rfl, rfl, rfl, id, id, id, id, id, id, id, h, fun _ k => ⟨k, rfl⟩, fun _ => id, hr, id, id,
    State.servicesOk_still, .inl rfl, id⟩

/-- The zones with other rankings. -/
def Zdu.withRankings (u : Zdu) (r : Zone → List SlotId) : Zdu :=
  { u with
    zones := ⟨{ u.zones.top with ranking := r .top }, { u.zones.mid with ranking := r .mid },
      { u.zones.low with ranking := r .low }⟩ }

theorem Zdu.withRankings_ranking (u : Zdu) (r : Zone → List SlotId) (z : Zone) :
    ((u.withRankings r).zones.get z).ranking = r z := by cases z <;> rfl

/-- Rankings from which entries are taken out. -/
theorem Owned.withRankings (s : State) (p : Zone → SlotId → Bool) :
    Owned s { s with zdu := s.zdu.withRankings fun z => (s.zone z).ranking.filter (p z) } := by
  refine .setZdu s _ (fun hs => ?_) fun hs z => ?_
  · refine ⟨hs.1, hs.2.1, hs.2.2.1, fun z => ?_, hs.2.2.2.2⟩
    have := hs.2.2.2.1 z
    cases z <;> exact this
  · simp only [State.zone, Zdu.withRankings_ranking]
    exact ⟨(hs z).1.filter _, fun n hm => (hs z).2 n (List.mem_filter.1 hm).1⟩

theorem rankable_iff {c : SlotClass} {lo : Fin 16} {k : Nat} :
    rankable c lo k = true ↔ c.heating = true ∧ lo.val ≤ k := by simp [rankable]

/-- The rankings after a change of the boundaries. -/
theorem pruneAfterBounds_eq (s : State) :
    pruneAfterBounds s =
      { s with
        zdu := s.zdu.withRankings fun z => match z with
          | .top => (s.zone .top).ranking
          | .mid => s.prunedRanking .mid
          | .low => s.prunedRanking .low } := rfl

/-- The rankings once a slot has changed. -/
theorem pruneSlot_eq (n : SlotId) (s : State) :
    pruneSlot n s =
      { s with
        zdu := s.zdu.withRankings fun z => (s.zone z).ranking.filter fun m =>
          rankable (s.slot n).cls (s.slot n).settings.coilLow (s.zdu.topLayer z) || decide (m ≠ n) } := by
  have step : ∀ (t : State) z, (if rankable (t.slot n).cls (t.slot n).settings.coilLow (t.zdu.topLayer z) then t
      else t.setZone z { t.zone z with ranking := (t.zone z).ranking.filter fun m => decide (m ≠ n) }) =
      t.setZone z { t.zone z with ranking := ((t.zone z).ranking.filter fun m =>
        rankable (t.slot n).cls (t.slot n).settings.coilLow (t.zdu.topLayer z) || decide (m ≠ n)) } := by
    intro t z
    split
    · next h => cases z <;> simp [h, State.setZone, State.zone, PerZone.set, PerZone.get]
    · next h => simp [h]
  simp only [pruneSlot, allZones, List.foldl, step]
  rfl

theorem ownSetZoneBounds_owned (p : List Byte) (s : State) : Owned s (ownSetZoneBounds p s).state := by
  unfold ownSetZoneBounds
  split
  · next b1 b2 _ _ =>
    split
    · exact .refl s
    · next hb =>
      split
      · exact .refl s
      · simp only [not_or, not_lt] at hb
        obtain ⟨u, hu⟩ : ∃ u : State, u = { s with zdu := { s.zdu with b1 := b1, b2 := b2 } } := ⟨_, rfl⟩
        obtain ⟨p, hp⟩ : ∃ p : Zone → SlotId → Bool, p = fun z n =>
          decide (z = .top) || rankable (s.slot n).cls (s.slot n).settings.coilLow (u.zdu.topLayer z) := ⟨_, rfl⟩
        have e : pruneAfterBounds u =
            { ({ s with zdu := s.zdu.withRankings fun z => (s.zone z).ranking.filter (p z) } : State) with
              zdu := { s.zdu.withRankings (fun z => (s.zone z).ranking.filter (p z)) with b1 := b1, b2 := b2 } } := by
          rw [pruneAfterBounds_eq]
          subst hp hu
          simp [Zdu.withRankings, State.prunedRanking, State.zone, State.slot, PerZone.get]
        have both : Owned s (pruneAfterBounds u) := by
          rw [e]
          refine (Owned.withRankings s p).trans (.setZdu _ _ (fun h => ?_) fun h z => ?_)
          · exact ⟨h.1, h.2.1, ⟨Fin.le_def.2 hb.1, Fin.not_le.1 hb.2⟩, h.2.2.2⟩
          · refine ⟨(h z).1, fun n hm => ?_⟩
            have old := (h z).2 n hm
            refine ⟨old.1, ?_⟩
            have hm' : n ∈ (s.zone z).ranking.filter (p z) := by
              simpa only [State.zone, Zdu.withRankings_ranking] using hm
            have := (List.mem_filter.1 hm').2
            subst hp hu
            simp only [Bool.or_eq_true, decide_eq_true_eq, rankable_iff] at this
            rcases this with rfl | k
            · exact Nat.le_of_lt_succ ((s.slot n).settings.coilLow.isLt)
            · cases z <;> exact k.2
        rw [← hu]
        exact both
  · exact .refl s

theorem takenTarget_mem (t : Int) : takenTarget t = 0 ∨ 300 ≤ takenTarget t ∧ takenTarget t ≤ 750 := by
  unfold takenTarget
  split
  · exact .inl rfl
  · exact .inr (clamp_mem (by omega))

/-- A change of a zone's settings. -/
theorem Owned.setZone (s : State) (z : Zone) (x : ZoneRec) (h : x.figuresOk) (hr : s.rankingValid z x.ranking = true) :
    Owned s (s.setZone z x) := by
  refine .setZdu s _ (fun hs => ?_) fun hs y => ?_
  · refine ⟨hs.1, hs.2.1, hs.2.2.1, fun y => ?_, hs.2.2.2.2⟩
    change ((s.setZone z x).zone y).figuresOk
    rw [State.zone_setZone]
    split
    · exact h
    · exact hs.2.2.2.1 y
  · change ((s.setZone z x).zone y).ranking.Nodup ∧ ∀ n ∈ ((s.setZone z x).zone y).ranking,
      (s.slot n).cls.heating = true ∧ (s.slot n).settings.coilLow.val ≤ s.zdu.topLayer y
    rw [State.zone_setZone]
    split
    · next e =>
      subst e
      simp only [State.rankingValid, Bool.and_eq_true, decide_eq_true_eq, List.all_eq_true, rankable_iff] at hr
      exact hr
    · exact hs y

theorem ownSetZone_owned (p : List Byte) (s : State) : Owned s (ownSetZone p s).state := by
  unfold ownSetZone
  split
  · split
    · next hv =>
      refine Owned.inner (.setZone s _ _ ?_ hv) ((evaluateZones_inner ..).trans (evaluate_inner ..))
      exact ⟨takenTarget_mem _, clamp_mem (by omega), clamp_mem (by omega)⟩
    · exact .refl s
  · exact .refl s

theorem ownSetSolarSlot_owned (p : List Byte) (s : State) : Owned s (ownSetSolarSlot p s).state := by
  unfold ownSetSolarSlot
  split
  · next lo hi _ _ =>
    dsimp only
    split
    · exact .refl s
    · next ho =>
      split
      · exact .refl s
      · next hl =>
        split
        · exact .refl s
        · have hard := clamp_mem (lo := 750) (hi := 950) (x := signedWordAt p 3) (by omega)
          generalize clamp 750 950 (signedWordAt p 3) = hm at *
          have hm' : ∀ x : Int, (if decide (x > hm - 50) = true then hm - 50 else x) ≤ hm - 50 := by
            intro x; split
            · exact Int.le_refl _
            · next hn => simpa using hn
          refine ⟨rfl, rfl, rfl, rfl, rfl, id, id, id, ?_, id, id, id, ?_, ?_, fun _ => id, id, id, id,
    State.servicesOk_still, .inl rfl, id⟩
          · rintro ⟨h1, h2, h3, h4, h5, h6, h7⟩
            exact ⟨h1, h2, h3, h4, h5, hard.1, hm' _⟩
          · rintro ⟨h1, h2, h3, h4, h5, h6, h7, ⟨g1, g2, g3, g4, g5, g6⟩, h9⟩
            have tm := clampNat_mem (lo := 5) (hi := 120) (x := byteAt p 5) (by omega)
            refine ⟨h1, h2, h3, h4, ⟨Fin.not_lt.1 ho, hard.1, hard.2, tm.1, tm.2⟩, h6, h7,
              ⟨g1, g2, g3, g4, ⟨?_, hm' _⟩, g6⟩, h9⟩
            dsimp only [taken]
            split
            · omega
            · exact g5.1
          · rintro ⟨_, _, _, _, _, _, h7⟩ k
            refine ⟨k, ?_⟩
            have e : hm = s.scu.hardMax := by
              by_contra hne; exact hl ⟨k, hne⟩
            dsimp only [taken, State.limits]
            rw [if_neg, e]
            simp only [decide_eq_true_eq, not_lt, gt_iff_lt]
            omega
  · exact .refl s

theorem settingsAsked_ok {cls : SlotClass} {lo hi : Fin 16} {c : Option (Fin 4)} {p : List Byte} (h : lo ≤ hi) :
    (settingsAsked cls lo hi c p).ok := by
  refine ⟨h, ?_⟩
  simp only [settingsAsked, clampNat, clamp]
  omega

theorem takeSource_owned (n : SlotId) (cls : SlotClass) (lo hi : Fin 16) (c : Option (Fin 4)) (p : List Byte) (s : State) :
    Owned s (takeSource n cls lo hi c p s).state := by
  unfold takeSource
  dsimp only
  split
  · exact .refl s
  · next ho =>
    split
    · exact .refl s
    · split
      · exact .refl s
      · next hb =>
        simp only [taken]
        generalize hx : (if cls = (s.slot n).cls then _ else _ : Slot) = x
        have hset : x.settings = settingsAsked cls lo hi c p := by subst hx; split <;> rfl
        have hd : ¬ cls = (s.slot n).cls → (s.slot n).state = .disabled := fun hc => by
          by_contra hd; exact hb ⟨hd, fun e => hc e.1⟩
        have hcls : x.cls = cls := by subst hx; split <;> simp_all
        have set : ∀ t : State, t.scu = s.scu →
            (t.rankingsOk → ∀ z, n ∈ (t.zone z).ranking → cls.heating = true ∧ lo.val ≤ t.zdu.topLayer z) →
            Owned t (t.setSlot n x) := by
          intro t ht hr
          have hl : t.scu.latch = s.scu.latch := by rw [ht]
          have hsl : ∀ m, t.slot m = s.slot m := fun m => by simp [State.slot, ht]
          refine ⟨rfl, rfl, rfl, rfl, rfl, id, id, fun hs m => ?_, id, id, id, id, fun hs => ?_, fun _ k => ⟨k, rfl⟩,
            fun _ hs => hs.setSlot ?_, fun hs z => ⟨(hs z).1, fun m hm => ?_⟩, id, id, fun hs => ?_,
            .inl rfl, id⟩
          · rw [State.slot_setSlot, State.setSlot_latch]
            split
            · subst hx
              have h := hs n
              rw [hsl] at h
              split
              · exact h
              · next hc =>
                obtain ⟨h1, h2, h3, h4⟩ := h
                refine ⟨SlotClass.admits_disabled _, h2, ?_, fun _ => rfl⟩
                rw [h3, hd hc]
            · exact hs m
          · obtain ⟨h1, h2, h3, h4, h5, h6, h7⟩ := hs
            refine ⟨h1, h2, h3, h4, h5, fun m => ?_, h7⟩
            rw [State.slot_setSlot]
            split
            · rw [hset]
              simp only [not_or] at ho
              exact settingsAsked_ok (Fin.not_lt.1 ho.1)
            · exact h6 m
          · unfold State.follows
            rw [hsl]
            subst hx
            split
            · exact ⟨.inl, .inl, .inl⟩
            · next hc => simp [Slot.calls, Slot.pumps, Slot.diverts, hd hc]
          · have old := (hs z).2 m hm
            rw [State.slot_setSlot]
            split
            · next e =>
              subst e
              rw [hcls, hset]
              exact hr hs z hm
            · exact old
          · refine State.servicesOk_setSlot ?_ ?_ hs
            · unfold State.holder
              rw [hsl]; subst hx
              split
              · rfl
              · next hc => rw [hd hc]
            · unfold State.holder
              rw [hsl, hcls]
              by_cases hc : cls = (s.slot n).cls
              · exact .inl hc
              · right; rw [hd hc]; rfl
        refine Owned.inner (t := (if cls ≠ (s.slot n).cls ∨ lo ≠ (s.slot n).settings.coilLow ∨
          hi ≠ (s.slot n).settings.coilHigh then pruneSlot n (s.setSlot n x) else s.setSlot n x)) ?_ (evaluateDiverter_inner ..)
        split
        · obtain ⟨p, hp⟩ : ∃ p : Zone → SlotId → Bool,
              p = fun z m => rankable cls lo (s.zdu.topLayer z) || decide (m ≠ n) := ⟨_, rfl⟩
          obtain ⟨u, hu⟩ : ∃ u : State,
              u = { s with zdu := s.zdu.withRankings fun z => (s.zone z).ranking.filter (p z) } := ⟨_, rfl⟩
          have e : pruneSlot n (s.setSlot n x) = u.setSlot n x := by
            rw [pruneSlot_eq, hu, hp, State.slot_setSlot, if_pos rfl, hcls, hset]
            rfl
          rw [e]
          refine Owned.trans (t := u) (hu ▸ Owned.withRankings s p) (set u (by rw [hu]) fun _ z hm => ?_)
          have hm' : n ∈ (s.zone z).ranking.filter (p z) := by
            rw [hu] at hm
            simpa only [State.zone, Zdu.withRankings_ranking] using hm
          have h := (List.mem_filter.1 hm').2
          rw [hp] at h
          simp only [Bool.or_eq_true, decide_eq_true_eq, ne_eq, not_true_eq_false, or_false, rankable_iff] at h
          refine ⟨h.1, ?_⟩
          rw [hu]
          cases z <;> exact h.2
        · next hk =>
          simp only [not_or, not_not] at hk
          refine set s rfl fun hs z hm => ?_
          rw [hk.1, hk.2.1]
          exact (hs z).2 n hm

theorem ownSetSlot_owned (n : SlotId) (p : List Byte) (s : State) : Owned s (ownSetSlot n p s).state := by
  unfold ownSetSlot
  split
  · split
    · exact takeSource_owned ..
    · exact .refl s
  · exact .refl s

theorem ownSetSource_owned (p : List Byte) (s : State) : Owned s (ownSetSource p s).state := by
  unfold ownSetSource
  split
  · exact .refl s
  · rcases sourceOfCode (byteAt p 0) with _ | _ | n
    · exact .refl s
    · exact withLength_owned (ownSetSolarSlot_owned p) _ s
    · exact withLength_owned (ownSetSlot_owned n p) _ s

theorem solarAsked_ok {hm : Int} (h : 750 ≤ hm) (b : Bool) (p : List Byte) : (solarAsked hm b p).ok hm := by
  simp only [SolarSettings.ok, solarAsked, clamp]
  omega

theorem ownSetSolar_owned (p : List Byte) (s : State) : Owned s (ownSetSolar p s).state := by
  unfold ownSetSolar
  split
  · exact .refl s
  · next b _ =>
    dsimp only
    split
    · exact .refl s
    · next hl =>
      refine ⟨rfl, rfl, rfl, rfl, rfl, id, id, id, ?_, id, id, id, ?_, fun _ k => ⟨k, ?_⟩, fun _ => id, id, id, id,
        State.servicesOk_congr rfl rfl rfl (fun _ => rfl) fun _ => rfl, .inl rfl, id⟩
      · rintro ⟨h1, h2, h3, h4, h5, h6, h7⟩
        exact ⟨h1, h2, h3, (clamp_mem (by omega)).1, (clamp_mem (by omega)).2, h6, (clamp_mem (by omega)).2⟩
      · rintro ⟨h1, h2, h3, h4, h5, h6, h7, h8, h9⟩
        exact ⟨h1, h2, h3, h4, h5, h6, ⟨(clampNat_mem (by omega)).2, (clampNat_mem (by omega)).2⟩,
          solarAsked_ok h5.2.1 b p, h9⟩
      · have e : (solarAsked s.scu.hardMax b p).solarMax = s.slc.settings.solarMax ∧
            (solarAsked s.scu.hardMax b p).collectorMax = s.slc.settings.collectorMax := by
          constructor <;> by_contra hne
          · exact hl ⟨k, .inl hne⟩
          · exact hl ⟨k, .inr hne⟩
        simp only [taken, State.limits]
        rw [e.1, e.2]

theorem holdAsked_ok {ranking : List SlotId} (h : ranking.Nodup) (b : Bool) (w : HoldWidth) (p : List Byte) :
    (holdAsked b w ranking p).ok :=
  ⟨clamp_mem (by omega), clampNat_mem (by omega), clampNat_mem (by omega), clampNat_mem (by omega), h⟩

theorem ownSetHold_owned (p : List Byte) (s : State) : Owned s (ownSetHold p s).state := by
  unfold ownSetHold
  split
  · next b w r _ _ _ =>
    dsimp only
    split
    · exact .refl s
    · next hn =>
      split
      · exact .refl s
      · next hl =>
        have hs : (s.ths.takeSettings (holdAsked b w r p)).settings = holdAsked b w r p := rfl
        refine ⟨rfl, rfl, rfl, rfl, rfl, id, id, id, id, id, fun h => Ths.takeSettings_ok h _, id, ?_, fun _ k => ⟨k, ?_⟩, fun _ => id, id, id, id,
    State.servicesOk_still, .inl rfl, id⟩
        · rintro ⟨h1, h2, h3, h4, h5, h6, h7, h8, h9, h10⟩
          exact ⟨h1, h2, h3, h4, h5, h6, h7, h8, holdAsked_ok (not_not.1 hn) b w p, h10⟩
        · have e : (holdAsked b w r p).temp = s.ths.settings.temp ∧ (holdAsked b w r p).dwell = s.ths.settings.dwell := by
            constructor <;> by_contra hne
            · exact hl ⟨k, .inl hne⟩
            · exact hl ⟨k, .inr hne⟩
          simp only [taken, State.limits, State.setThs]
          rw [hs, e.1, e.2]
  · exact .refl s

/-- A change of the probe front end that keeps its promise. -/
theorem Owned.setPfe (s : State) (f : Pfe) (h : s.probesOk → ({ s with pfe := f } : State).probesOk)
    (ht : s.trimsOk → ({ s with pfe := f } : State).trimsOk) : Owned s { s with pfe := f } :=
  ⟨rfl, rfl, rfl, rfl, rfl, id, id, id, id, id, id, h, id, fun _ k => ⟨k, rfl⟩, fun _ => id, id, id, ht,
    State.servicesOk_still, .inl rfl, id⟩

theorem rewriteAnchors_inner (s : State) : Inner s (rewriteAnchors s) := by
  refine ⟨rfl, rfl, rfl, rfl, rfl, rfl, id, id, id, id, fun h => ?_, id, fun _ => id, State.servicesOk_still⟩
  rw [State.layersOk_iff] at h ⊢
  refine ⟨fun i => ?_, fun i j hij => ?_, h.2.2⟩
  · simp only [rewriteAnchors, State.setLayers, tabulate_get]
    exact h.1 i
  · simp only [rewriteAnchors, State.temp, State.setLayers, tabulate_get]
    exact h.2.1 i j hij

theorem mem_allRoles (r : Role) : r ∈ allRoles := by
  rcases r with a | _ | _ | _ | _ | _ | _ <;> first | decide | (revert a; decide)

/-- No value twice in the image of a list without repeats: equal images come from equal entries. -/
theorem nodup_filterMap_iff {α β : Type} {l : List α} (f : α → Option β) (hl : l.Nodup) :
    (l.filterMap f).Nodup ↔ ∀ q ∈ l, ∀ r ∈ l, ∀ c, f q = some c → f r = some c → q = r := by
  rw [List.Nodup, List.pairwise_filterMap]
  induction l with
  | nil => simp
  | cons x l ih =>
    have hx := (List.nodup_cons.1 hl).1
    rw [List.pairwise_cons, ih (List.nodup_cons.1 hl).2]
    grind

/-- The test of R41 at SET_PROBE_MAP takes exactly the maps in order. -/
theorem ProbeMap.valid_iff (m : ProbeMap) : m.valid = true ↔ m.ok := by
  have named := nodup_filterMap_iff m.channelOf (by decide : allRoles.Nodup)
  have layers := nodup_filterMap_iff (fun a : Fin 6 => if m.channelOf (.anchor a) ≠ none then some m.layer[a] else none)
    (List.nodup_finRange 6)
  have e : ((List.finRange 6).filter fun a => (m.channelOf (.anchor a)).isSome).map (fun a => m.layer[a]) =
      (List.finRange 6).filterMap fun a => if m.channelOf (.anchor a) ≠ none then some m.layer[a] else none := by
    induction List.finRange 6 with
    | nil => rfl
    | cons a l ih => cases h : m.channelOf (.anchor a) <;> simp [h] at ih ⊢ <;> exact ih
  unfold ProbeMap.valid ProbeMap.ok
  simp only [Bool.and_eq_true, decide_eq_true_eq, e, List.filterMap_map, Function.id_comp, named, layers]
  simp only [mem_allRoles, forall_const, List.all_cons, List.all_nil, Bool.and_true, Bool.and_eq_true, Option.all_eq_true,
    highRange, decide_eq_true_eq, List.mem_finRange, and_assoc]
  refine and_congr Iff.rfl (and_congr ⟨fun h a b ha hb hl => ?_, fun h a b c ha hb => ?_⟩
    ⟨fun h c hc => hc.elim (h.1 c) (h.2 c), fun h => ⟨fun c hc => h c (.inl hc), fun c hc => h c (.inr hc)⟩⟩)
  · exact h a b m.layer[b] (by rw [if_pos ha, hl]) (if_pos hb)
  · split at ha
    · split at hb
      · exact h a b ‹_› ‹_› (Option.some.inj (ha.trans hb.symm))
      · cases hb
    · cases ha

theorem ownSetProbeMap_owned (p : List Byte) (s : State) : Owned s (ownSetProbeMap p s).state := by
  unfold ownSetProbeMap
  split
  · exact .refl s
  · next m _ =>
    split
    · next hv =>
      refine Owned.inner (Owned.setPfe s { s.pfe with map := m } (fun h => ⟨h.1, m.valid_iff.1 hv⟩) id) ?_
      exact (rewriteAnchors_inner _).trans (.lostIf _ _)
    · exact .refl s

theorem Pfe.setChannel_get (f : Pfe) (c d : Fin 12) (x : Channel) :
    (f.setChannel c x).channels[d] = if c = d then x else f.channels[d] := Vector_set_get ..

theorem ownSetProbeTrim_owned (p : List Byte) (s : State) : Owned s (ownSetProbeTrim p s).state := by
  unfold ownSetProbeTrim
  split
  · exact .refl s
  · next c _ =>
    refine Owned.setPfe s _ (fun h => ⟨fun d => ?_, h.2⟩) fun h d => ?_
    · rw [Pfe.setChannel_get]
      split
      · next e => subst e; exact ⟨(h.1 c).1, clamp_mem (by omega)⟩
      · exact h.1 d
    · show -20 ≤ ((s.pfe.setChannel c _).channels[d]).trim ∧ ((s.pfe.setChannel c _).channels[d]).trim ≤ 20
      rw [Pfe.setChannel_get]
      split
      · exact clamp_mem (by omega)
      · exact h d

/-- A change of the meters' settings. -/
theorem Owned.setFmu (s : State) (f : Fmu) (h : s.fmu.figuresOk → f.figuresOk)
    (hw : f.pendingVolume = s.fmu.pendingVolume ∨ f.pendingVolume = 0)
    (hd : s.dryOk → f.draw.mlPerPulse = 0 → f.pendingVolume = 0) : Owned s { s with fmu := f } :=
  ⟨rfl, rfl, rfl, rfl, rfl, id, id, id, id, id, id, id, fun k => ⟨k.1, h k.2.1, k.2.2⟩, fun _ k => ⟨k, rfl⟩, fun _ => id, id, id, id,
    State.servicesOk_still, hw, hd⟩

theorem ownSetDraw_owned (p : List Byte) (s : State) : Owned s (ownSetDraw p s).state := by
  refine Owned.setFmu s _ (fun h => ⟨?_, ?_, h.2.2⟩) ?_ fun hd ha => ?_
  · exact (clampNat_mem (by omega)).2
  · exact clampNat_mem (by omega)
  · dsimp only
    split
    · exact .inr rfl
    · exact .inl rfl
  · dsimp only at ha ⊢
    by_cases h : s.fmu.draw.mlPerPulse = 0
    · simp [hd h]
    · simp [h, ha]

theorem ownSetLoop_owned (p : List Byte) (s : State) : Owned s (ownSetLoop p s).state := by
  refine Owned.setFmu s _ (fun h => ⟨h.1, h.2.1, ?_, ?_, ?_⟩) (.inl rfl) id
  · exact (clampNat_mem (by omega)).2
  · exact clampNat_mem (by omega)
  · exact (clampNat_mem (by omega)).2

theorem ownSetMeter_owned (p : List Byte) (s : State) : Owned s (ownSetMeter p s).state := by
  unfold ownSetMeter
  split
  · exact .refl s
  · rcases byteAt p 0 with _ | _ | k
    · exact withLength_owned (ownSetDraw_owned p) _ s
    · exact withLength_owned (ownSetLoop_owned p) _ s
    · exact .refl s

/-- A line that takes a function no other line carries. -/
theorem Owned.takeFunction {s : State} (i : Fin 8) {l : Line}
    (hc : l.function ≠ s.olu[i].function → s.carriedElsewhere i l.function = false)
    (h : s.olu[i].okFor (isRelay i) → l.okFor (isRelay i)) (ht : l.recoveryTime ≤ 30)
    (hm : l.function.forcible = false → l.mode = .auto ∨ l.function = s.olu[i].function ∧ l.mode = s.olu[i].mode)
    (ha : l.auto ≠ 0 → s.warrants l.function = true ∨ l.function = s.olu[i].function ∧ s.olu[i].auto ≠ 0) :
    Owned s (s.setLine i l) where
  agree _ hs j := by
    have w : (s.setLine i l).warrants = s.warrants := rfl
    rw [State.olu_setLine, w]
    split
    · refine ⟨fun k => ?_, fun k => ?_⟩
      · rcases hm k with e | ⟨e, e'⟩
        · exact e
        · rw [e']; exact (hs i).1 (e ▸ k)
      · rcases ha k with e | ⟨e, e'⟩
        · exact e
        · rw [e]; exact (hs i).2 e'
    · exact hs j
  pending := rfl
  queue := rfl
  discards := rfl
  assembler := rfl
  gap := rfl
  faults := id
  slots := id
  solar := id
  layers := id
  hold := id
  probes := id
  locked _ k := ⟨k, rfl⟩
  rankings := id
  link := id
  trims := id
  services := State.servicesOk_still
  water := .inl rfl
  dry := id
  ranges := by
    rintro ⟨h1, h2, h3, h4, h5, h6, h7, h8, h9, h10⟩
    refine ⟨h1, h2, h3, h4, h5, h6, h7, h8, h9, fun j => ?_⟩
    rw [State.olu_setLine]
    split
    · exact ht
    · exact h10 j
  lines := by
    rintro ⟨h1, h2⟩
    have free : l.function ≠ .noFunction → ∀ j : Fin 8, j ≠ i → s.olu[j].function ≠ l.function := by
      intro hn j hj he
      by_cases hf : l.function = s.olu[i].function
      · exact hj (h2 j i (he.trans hf) (he ▸ hn))
      replace hc := hc hf
      simp only [State.carriedElsewhere, hn, ne_eq, not_false_eq_true, decide_true, Bool.true_and,
        List.any_eq_false, Bool.and_eq_true, decide_eq_true_eq, not_and] at hc
      exact hc j (List.mem_finRange j) hj he
    refine ⟨fun j => ?_, fun j k => ?_⟩
    · have h1' := h1 j
      change (s.setLine i l).olu[j].okFor (isRelay j)
      rw [State.olu_setLine]
      split
      · next e => subst e; exact h h1'
      · exact h1'
    · rw [State.olu_setLine, State.olu_setLine]
      split
      · next e =>
        split
        · next e' => exact fun _ _ => e.symm.trans e'
        · next e' => exact fun heq hn => absurd heq.symm (free hn k (fun x => e' x.symm))
      · next e =>
        split
        · next e' => exact fun heq hn => absurd heq (free (heq ▸ hn) j (fun x => e x.symm))
        · exact h2 j k

theorem ownSetOutput_owned (p : List Byte) (s : State) : Owned s (ownSetOutput p s).state := by
  unfold ownSetOutput
  split
  · next i f _ _ =>
    dsimp only
    split
    · exact .refl s
    · next ha =>
      have hc : s.carriedElsewhere i f = false := by
        simp only [State.mapAllows, Bool.not_and, Bool.or_eq_true, Bool.not_eq_true', not_or] at ha
        have := ha.1
        simpa using this
      split
      · exact .refl s
      · simp only [taken]
        have hr := (clampNat_mem (lo := 0) (hi := 30) (x := byteAt p 2) (by omega)).2
        split
        · next e =>
          exact .takeFunction i (fun hn => absurd rfl hn) (fun h => h) hr (fun _ => .inr ⟨rfl, rfl⟩)
            fun h => .inr ⟨rfl, h⟩
        · refine .takeFunction i (fun _ => ?_) (fun h => ?_) ?_ (fun _ => .inl (by simp [Line.takeFunction])) fun h => .inl ?_
          · simpa [Line.takeFunction] using hc
          · exact Line.drive_ok (l := { s.olu[i] with recoveryTime := _, function := f }) h _ _
          · simpa [Line.takeFunction] using hr
          · simp only [Line.takeFunction, Line.drive_auto, Line.drive_function] at h ⊢
            by_cases hf : f = .alertRelay
            · rw [hf]; rfl
            · rw [if_neg hf] at h; exact absurd rfl h
  · exact .refl s

/-- New records that are in order are re-judged, whatever policy they stand under. -/
theorem rejudge_owned {f : Flt} {s : State} (h : s.flt.recordsOk → f.recordsOk) : Owned s (rejudge f s) := by
  unfold rejudge
  have base : Owned s { s with flt := f, pins := { s.pins with alertLow := f.pinCondition } } :=
    ⟨rfl, rfl, rfl, rfl, rfl, fun hs => ⟨rfl, h hs.2⟩, id, id, id, id, id, id, id, fun _ k => ⟨k, rfl⟩, fun _ => id, id, id,
      id, State.servicesOk_still, .inl rfl, id⟩
  split
  · exact base
  · exact base.inner (askLine_inner _ _ _ fun _ => rfl)

theorem Flt.withPolicy_recordsOk {f : Flt} {p : List Byte} (hp : policyValid p = true) (h : f.recordsOk) :
    (f.withPolicy p).recordsOk := by
  obtain ⟨h1, h2, h3, h4⟩ := h
  simp only [policyValid, Bool.and_eq_true, decide_eq_true_eq] at hp
  refine ⟨fun i => ?_, fun r hr => ?_, ?_, ?_⟩
  · simp only [Flt.withPolicy, tabulate_get]; exact h1 i
  · simp only [Flt.withPolicy, Flt.kindRec, tabulate_get]; exact h2 r hr
  · simp only [Flt.withPolicy, Flt.kindRec, tabulate_get]
    exact decide_eq_true hp.1.2
  · simp only [Flt.withPolicy, Flt.kindRec, tabulate_get]
    exact decide_eq_true hp.2

theorem ownSetFaultPolicy_owned (p : List Byte) (s : State) : Owned s (ownSetFaultPolicy p s).state := by
  unfold ownSetFaultPolicy
  split
  · next hp => exact rejudge_owned (Flt.withPolicy_recordsOk hp)
  · exact .refl s

theorem takenInterval_mem (v : Nat) : takenInterval v = 0 ∨ 10 ≤ takenInterval v ∧ takenInterval v ≤ 600 := by
  unfold takenInterval
  split
  · exact .inl rfl
  · exact .inr (clampNat_mem (by omega))

theorem ownSetLink_owned (p : List Byte) (s : State) : Owned s (ownSetLink p s).state :=
  ⟨rfl, rfl, rfl, rfl, rfl, id, id, id, id, id, id, id, id, fun _ k => ⟨k, rfl⟩, fun _ => id, id,
    fun _ => takenInterval_mem _, id, State.servicesOk_still, .inl rfl, id⟩

/-! ### Action requests -/

theorem onSlot_owned {a : State → Answer} {b : SlotId → State → Answer} (ha : ∀ s, Owned s (a s).state)
    (hb : ∀ n s, Owned s (b n s).state) (p : List Byte) (s : State) : Owned s (onSlot a b p s).state := by
  refine withLength_owned (fun s => ?_) _ s
  rcases sourceOfCode (byteAt p 0) with _ | _ | n
  · exact .refl s
  · exact ha s
  · exact hb n s

theorem enableSlot_owned (n : SlotId) (s : State) : Owned s (enableSlot n s).state := by
  unfold enableSlot
  dsimp only
  split
  · exact .refl s
  · next hn =>
    simp only [not_or, not_not] at hn
    obtain ⟨h1, h2⟩ := hn
    split
    · next hd =>
      refine (Inner.trans (Inner.setSlotState (fun h => h.move ?_ ?_ ?_ ?_) (by rw [State.holder, h2]; rfl))
        (evaluateDiverter_inner ..)).owned
      · rw [hd]; decide
      · rw [h2]; simp
      · simp
      · exact fun _ => rfl
    · next hd =>
      refine Inner.owned (Inner.trans (t := s.setSlotState n (.hold (s.slot n).settings.minOff))
        (.setSlotState (fun h => h.heat ?_ ?_ ?_ ?_ ?_ ?_) (by rw [State.holder, h2]; rfl)) ?_)
      · cases hc : (s.slot n).cls <;> simp_all [SlotClass.heating]
      · rw [h2]; simp
      · simp
      · simp
      · simp
      · exact fun _ => rfl
      · simp only [accept]
        split
        · exact Sent.notify_inner (expireHold_within ..) (expireHold_drops ..)
        · exact .refl _

theorem enableSolar_owned (s : State) : Owned s (enableSolar s).state := by
  unfold enableSolar
  split
  · exact (solarSwitch_inner ..).owned
  · exact .refl s

theorem disableSolar_owned (s : State) : Owned s (disableSolar s).state := by
  unfold disableSolar
  simp only [accept]
  split
  · exact .refl s
  · exact (solarSwitch_inner ..).owned

theorem disableRequest_owned (n : SlotId) (s : State) : Owned s (accept [] (disableSlot n s).notify).state :=
  (Sent.notify_inner (disableSlot_within n s) (disableSlot_drops n s)).owned

theorem resetSlot_owned (n : SlotId) (s : State) : Owned s (resetSlot n s).state := by
  unfold resetSlot
  dsimp only
  split
  · next ht =>
    refine (Inner.setSlot (fun _ h => ?_) (by rw [State.holder, ht]; rfl)).owned
    have hh := h.heating (by rw [ht]; simp) (by rw [ht]; simp) (by rw [ht]; simp)
    exact ⟨SlotClass.admits_of_heating hh (by simp) (by simp), by simp, by simp, fun _ => rfl⟩
  · exact .refl s

theorem ownBoost_owned (p : List Byte) (s : State) : Owned s (ownBoost p s).state := by
  unfold ownBoost
  split
  · exact .refl s
  · exact ((Inner.setZone s _ _).trans (evaluateZones_inner ..)).owned

theorem ownBoostCancel_owned (p : List Byte) (s : State) : Owned s (ownBoostCancel p s).state := by
  unfold ownBoostCancel
  split
  · exact .refl s
  · exact (cancelBoosts_inner ..).owned

theorem ownSurplus_owned (p : List Byte) (s : State) : Owned s (ownSurplus p s).state := (setSurplus_inner ..).owned

theorem ownForceOutput_owned (p : List Byte) (s : State) : Owned s (ownForceOutput p s).state := by
  unfold ownForceOutput
  split
  · dsimp only
    split
    · next h => exact (Inner.drive _ _ _ _ (fun k => by rw [h] at k; cases k) .inl).owned
    · exact .refl s
  · exact .refl s

theorem ownReleaseOutput_owned (p : List Byte) (s : State) : Owned s (ownReleaseOutput p s).state := by
  unfold ownReleaseOutput
  split
  · exact (Inner.drive _ _ _ _ (fun _ _ => rfl) .inl).owned
  · exact .refl s

theorem ownHoldNow_owned (s : State) : Owned s (ownHoldNow s).state := by
  unfold ownHoldNow
  split
  · exact (holdNow_inner s).owned
  · exact .refl s

theorem allKinds_index (k : FaultKind) : allKinds.getD k.index.val .probeOpen = k := by cases k <;> rfl

theorem Flt.clearKinds_recordsOk {f : Flt} {l : FaultKind → Bool} (h : f.recordsOk) : (f.clearKinds l).recordsOk := by
  obtain ⟨h1, h2, h3, h4⟩ := h
  refine ⟨fun i => ?_, fun r hr => ?_, ?_, ?_⟩
  · simp only [Flt.clearKinds, tabulate_get]
    split
    · exact Nat.zero_le _
    · exact h1 i
  · simp only [Flt.clearKinds] at hr
    split at hr
    · next hf =>
      split at hr
      · cases hr
      · next hn =>
        cases hr
        simp only [Flt.clearKinds, Flt.kindRec, tabulate_get, allKinds_index]
        rw [if_neg hn]; exact h2 r hf
    · cases hr
  · simp only [Flt.clearKinds, Flt.kindRec, tabulate_get]
    split <;> exact h3
  · simp only [Flt.clearKinds, Flt.kindRec, tabulate_get]
    split <;> exact h4

theorem ownClearFaults_owned (p : List Byte) (s : State) : Owned s (ownClearFaults p s).state := by
  unfold ownClearFaults
  split
  · exact rejudge_owned Flt.clearKinds_recordsOk
  · exact .refl s

theorem ownRestart_owned (p : List Byte) (s : State) : Owned s (ownRestart p s).state := by
  unfold ownRestart
  split
  · exact ⟨rfl, rfl, rfl, rfl, rfl, id, id, id, id, id, id, id, id, fun _ k => ⟨k, rfl⟩, fun _ => id, id, id, id,
    State.servicesOk_still, .inl rfl, id⟩
  · exact .refl s

end Sys2Proof.Machine
end

