-- ==== Sys2Proof/Laws/Replies.lean ====
section
/-! SUPPORT. A request that is taken at its command (R189 to R191): which state it is judged in, and what its reply adds. -/

namespace Sys2Proof.Machine

/-- A taken request is judged in `State.taking` and answered by its owner. -/
theorem requestStep_taken {kind : Byte} {p : List Byte} {s : State} (h : s.Takes kind p) (owner : State → Answer) :
    requestStep kind p owner s =
      (owner (s.taking kind p)).state.replying kind (owner (s.taking kind p)).code (owner (s.taking kind p)).data := by
  obtain ⟨h1, h2⟩ := h
  unfold requestStep State.taking
  simp only [h1]
  cases hq : s.mpt.queue with
  | nil =>
    have : s.setMpt (s.mpt.arrive ⟨kind, p⟩) =
        { s with
          mpt :=
            { s.mpt with
              queue := [⟨kind, p⟩]
              supervision := if s.mpt.interval = 0 then none else some s.mpt.interval } } := by
      simp [State.setMpt, Mpt.arrive, Mpt.loadSupervision, hq, Config.queuePlaces]
    simp only [this, if_true, h1]
    rfl
  | cons f l =>
    rw [hq] at h2
    simp only [reduceCtorEq, List.head?_cons, Option.some.injEq, false_or] at h2
    simp only [h2, if_true, reduceCtorEq, if_false]
    rfl

/-- A request that cannot be taken is the arrival of its frame. -/
theorem requestStep_arrives {kind : Byte} {p : List Byte} {s : State}
    (h : s.mpt.reply ≠ none ∨ ∃ f l, s.mpt.queue = f :: l ∧ f ≠ ⟨kind, p⟩) (owner : State → Answer) :
    requestStep kind p owner s = s.setMpt (s.mpt.arrive ⟨kind, p⟩) := by
  unfold requestStep
  rcases h with h | ⟨f, l, hq, hf⟩
  · cases hr : s.mpt.reply with
    | none => exact absurd hr h
    | some r => rfl
  · cases hr : s.mpt.reply with
    | none => simp only [hq, hf, if_false]
    | some r => rfl

/-! `State.taking` leaves every part but the port. -/

theorem State.taking_eq (s : State) (k : Byte) (p : List Byte) : s.taking k p = { s with mpt := (s.taking k p).mpt } := by
  unfold State.taking; split <;> rfl

@[simp] theorem State.taking_clm (s : State) (k : Byte) (p : List Byte) : (s.taking k p).clm = s.clm := by rw [taking_eq]
@[simp] theorem State.taking_pfe (s : State) (k : Byte) (p : List Byte) : (s.taking k p).pfe = s.pfe := by rw [taking_eq]
@[simp] theorem State.taking_fmu (s : State) (k : Byte) (p : List Byte) : (s.taking k p).fmu = s.fmu := by rw [taking_eq]
@[simp] theorem State.taking_zdu (s : State) (k : Byte) (p : List Byte) : (s.taking k p).zdu = s.zdu := by rw [taking_eq]
@[simp] theorem State.taking_scu (s : State) (k : Byte) (p : List Byte) : (s.taking k p).scu = s.scu := by rw [taking_eq]
@[simp] theorem State.taking_sar (s : State) (k : Byte) (p : List Byte) : (s.taking k p).sar = s.sar := by rw [taking_eq]
@[simp] theorem State.taking_slc (s : State) (k : Byte) (p : List Byte) : (s.taking k p).slc = s.slc := by rw [taking_eq]
@[simp] theorem State.taking_ths (s : State) (k : Byte) (p : List Byte) : (s.taking k p).ths = s.ths := by rw [taking_eq]
@[simp] theorem State.taking_olu (s : State) (k : Byte) (p : List Byte) : (s.taking k p).olu = s.olu := by rw [taking_eq]
@[simp] theorem State.taking_flt (s : State) (k : Byte) (p : List Byte) : (s.taking k p).flt = s.flt := by rw [taking_eq]
@[simp] theorem State.taking_pins (s : State) (k : Byte) (p : List Byte) : (s.taking k p).pins = s.pins := by rw [taking_eq]
@[simp] theorem State.taking_pending (s : State) (k : Byte) (p : List Byte) : (s.taking k p).pending = s.pending := by
  rw [taking_eq]
@[simp] theorem State.taking_freeCount (s : State) (k : Byte) (p : List Byte) : (s.taking k p).freeCount = s.freeCount := by
  rw [taking_eq]
@[simp] theorem State.taking_interval (s : State) (k : Byte) (p : List Byte) :
    (s.taking k p).mpt.interval = s.mpt.interval := by unfold State.taking; split <;> rfl
@[simp] theorem State.taking_lock (s : State) (k : Byte) (p : List Byte) : (s.taking k p).mpt.lock = s.mpt.lock := by
  unfold State.taking; split <;> rfl
@[simp] theorem State.taking_slot (s : State) (k : Byte) (p : List Byte) (n : SlotId) : (s.taking k p).slot n = s.slot n := by
  simp [State.slot]
@[simp] theorem State.taking_zone (s : State) (k : Byte) (p : List Byte) (z : Zone) : (s.taking k p).zone z = s.zone z := by
  simp [State.zone]
@[simp] theorem State.taking_service (s : State) (k : Byte) (p : List Byte) (z : Zone) :
    (s.taking k p).service z = s.service z := by simp [State.service]
@[simp] theorem State.taking_settings (s : State) (k : Byte) (p : List Byte) : (s.taking k p).settings = s.settings := by
  simp [State.settings]

/-! `State.replying` adds the reply and nothing else. -/

@[simp] theorem State.replying_reply (s : State) (k : Byte) (c : ResultCode) (d : List Byte) :
    (s.replying k c d).mpt.reply = some (replyFrame k c d) := rfl
@[simp] theorem State.replying_clm (s : State) (k : Byte) (c : ResultCode) (d : List Byte) : (s.replying k c d).clm = s.clm := rfl
@[simp] theorem State.replying_pfe (s : State) (k : Byte) (c : ResultCode) (d : List Byte) : (s.replying k c d).pfe = s.pfe := rfl
@[simp] theorem State.replying_fmu (s : State) (k : Byte) (c : ResultCode) (d : List Byte) : (s.replying k c d).fmu = s.fmu := rfl
@[simp] theorem State.replying_zdu (s : State) (k : Byte) (c : ResultCode) (d : List Byte) : (s.replying k c d).zdu = s.zdu := rfl
@[simp] theorem State.replying_scu (s : State) (k : Byte) (c : ResultCode) (d : List Byte) : (s.replying k c d).scu = s.scu := rfl
@[simp] theorem State.replying_sar (s : State) (k : Byte) (c : ResultCode) (d : List Byte) : (s.replying k c d).sar = s.sar := rfl
@[simp] theorem State.replying_slc (s : State) (k : Byte) (c : ResultCode) (d : List Byte) : (s.replying k c d).slc = s.slc := rfl
@[simp] theorem State.replying_ths (s : State) (k : Byte) (c : ResultCode) (d : List Byte) : (s.replying k c d).ths = s.ths := rfl
@[simp] theorem State.replying_olu (s : State) (k : Byte) (c : ResultCode) (d : List Byte) : (s.replying k c d).olu = s.olu := rfl
@[simp] theorem State.replying_flt (s : State) (k : Byte) (c : ResultCode) (d : List Byte) : (s.replying k c d).flt = s.flt := rfl
@[simp] theorem State.replying_pins (s : State) (k : Byte) (c : ResultCode) (d : List Byte) : (s.replying k c d).pins = s.pins := rfl
@[simp] theorem State.replying_slot (s : State) (k : Byte) (c : ResultCode) (d : List Byte) (n : SlotId) :
    (s.replying k c d).slot n = s.slot n := rfl
@[simp] theorem State.replying_zone (s : State) (k : Byte) (c : ResultCode) (d : List Byte) (z : Zone) :
    (s.replying k c d).zone z = s.zone z := rfl
@[simp] theorem State.replying_temp (s : State) (k : Byte) (c : ResultCode) (d : List Byte) (i : Fin 16) :
    (s.replying k c d).temp i = s.temp i := rfl
@[simp] theorem State.replying_settings (s : State) (k : Byte) (c : ResultCode) (d : List Byte) :
    (s.replying k c d).settings = s.settings := rfl

end Sys2Proof.Machine
end

