-- ==== Sys2Proof/Laws/Restart.lean ====
section
/-! SUPPORT. What the receiver, the restarts and a second of time can do (chapters 9 to 11). -/

namespace Sys2Proof.Machine

/-! ### The receiver (R187, R188) -/

/-- A received byte leaves a reply and its restart alone, keeps the queue in its two places and the gap timer running
in every state but HUNT. -/
theorem Kept.receive (s : State) (b : Byte) (e : Bool) : Kept s (s.setMpt (s.mpt.receive b e)) := by
  unfold Mpt.receive
  generalize s.mpt.assembler.receive b e = x
  obtain ⟨a, o⟩ := x
  dsimp only
  generalize hm : ({ s.mpt with
    assembler := a, gapTimer := if a = .hunt then none else some Config.gapMilliseconds } : Mpt) = m
  have base : Kept s (s.setMpt m) := by
    subst hm
    refine .setMpt s _ ?_
    rintro ⟨h1, h2, h3, h4, _⟩
    refine ⟨h1, h2, h3, h4, ?_⟩
    show (if a = .hunt then none else some Config.gapMilliseconds) = none ↔ a = .hunt
    split
    · next h => simp [h]
    · next h => simp [h]
  rcases o with _ | _ | f
  · exact base
  · refine base.trans (.setMpt (s.setMpt m) _ ?_)
    rintro ⟨h1, _, h3⟩
    exact ⟨h1, Nat.min_le_left .., h3⟩
  · exact base.trans (.arrive (s.setMpt m) f)

/-! ### The lines at a restart (R175) -/

theorem Inner.setOlu {s : State} {l : Vector Line 8} (h : s.linesOk → ({ s with olu := l } : State).linesOk)
    (hf : lineFigures l = lineFigures s.olu) (ha : s.agreeOk → ({ s with olu := l } : State).agreeOk) :
    Inner s { s with olu := l } :=
  ⟨rfl, rfl, rfl, rfl, rfl, by simp [State.settings, hf], id, h, id, id, id, id, fun _ => ha,
    State.servicesOk_still⟩

/-- Lines that are all in AUTO and asked off agree with every state. -/
theorem State.agreeOk_of_off {s : State} (hm : ∀ i : Fin 8, s.olu[i].mode = .auto) (h : ∀ i : Fin 8, s.olu[i].auto = 0) :
    s.agreeOk := fun i => ⟨fun _ => hm i, fun k => absurd (h i) k⟩

theorem lineFigures_tabulate {l : Vector Line 8} {f : Fin 8 → Line} (h1 : ∀ i, (f i).function = l[i].function)
    (h2 : ∀ i, (f i).recoveryTime = l[i].recoveryTime) : lineFigures (tabulate f) = lineFigures l := by
  funext i
  simp only [lineFigures, tabulate_get, h1, h2]

@[simp] theorem Line.atRestart_recoveryTime (relay : Bool) (l : Line) : (l.atRestart relay).recoveryTime = l.recoveryTime := by
  unfold Line.atRestart Line.startRecovery; split <;> rfl

theorem Line.atRestart_ok (relay : Bool) (l : Line) : (l.atRestart relay).okFor relay := by
  cases relay
  · simp [Line.atRestart, Line.okFor, Line.pwmOk, Line.target]
  · unfold Line.atRestart Line.startRecovery Line.okFor
    simp [Line.relayOk, Line.target]

@[simp] theorem Line.atRestart_function (relay : Bool) (l : Line) : (l.atRestart relay).function = l.function := by
  unfold Line.atRestart Line.startRecovery; split <;> rfl

@[simp] theorem Line.atRestart_mode (relay : Bool) (l : Line) : (l.atRestart relay).mode = .auto := by
  unfold Line.atRestart Line.startRecovery; split <;> rfl

@[simp] theorem Line.atRestart_auto (relay : Bool) (l : Line) : (l.atRestart relay).auto = 0 := by
  unfold Line.atRestart Line.startRecovery; split <;> rfl

/-- New lines on the same functions, each as its driver requires. -/
theorem linesOk_tabulate {s : State} (h : s.linesOk) {f : Fin 8 → Line} (hf : ∀ i, (f i).function = s.olu[i].function)
    (ho : ∀ i, (f i).okFor (isRelay i)) : ({ s with olu := tabulate f } : State).linesOk := by
  refine ⟨fun i => ?_, fun i j => ?_⟩
  · have := ho i
    simp only [tabulate_get]
    exact this
  · simp only [tabulate_get]
    rw [hf i, hf j]
    exact h.2 i j

theorem releaseAllLines_inner (s : State) : Inner s (releaseAllLines s) :=
  .setOlu (fun h => linesOk_tabulate h (fun _ => Line.drive_function ..) fun i => Line.drive_ok (h.1 i) ..)
    (lineFigures_tabulate (fun _ => Line.drive_function ..) fun _ => Line.drive_recoveryTime ..)
    fun h i => by
      simp only [tabulate_get, Line.drive_function, Line.drive_mode, Line.drive_auto]
      exact ⟨fun _ => trivial, (h i).2⟩

theorem endRecovery_inner (i : Fin 8) (s : State) (hi : isRelay i = true) :
    Inner s (s.setLine i s.olu[i].endRecovery) := by
  have kept : s.olu[i].endRecovery.mode = s.olu[i].mode ∧ s.olu[i].endRecovery.auto = s.olu[i].auto := by
    unfold Line.endRecovery; split
    · exact ⟨rfl, rfl⟩
    · split <;> exact ⟨rfl, rfl⟩
  refine .setLine i ?_ (fun h => ?_) (fun _ h => kept.1.trans h) (fun h => .inl (kept.2 ▸ h)) ?_
  · unfold Line.endRecovery; split
    · rfl
    · split <;> rfl
  · rw [hi] at h ⊢
    simp only [Line.okFor, if_true, Line.relayOk] at h ⊢
    unfold Line.endRecovery
    split
    · exact h
    · next r hr =>
      split
      · next hd =>
        rcases h with h | h
        · exact absurd (h.2.2.1.symm.trans hr) (by simp)
        · refine .inl ⟨rfl, ?_, rfl, rfl⟩
          simpa [Line.target] using h.2.1.1 hd
      · next hd =>
        rcases h with h | h
        · exact absurd (h.2.2.1.symm.trans hr) (by simp)
        · refine .inr ⟨h.1, ?_, fun e => absurd e hd⟩
          simpa [Line.target] using h.2.1
  · unfold Line.endRecovery; split
    · rfl
    · split <;> rfl

/-! ### Restarts -/

theorem zeroSlc_solarOk {s : State} (h : s.solarOk) : ({ s with slc := s.slc.warmRestart } : State).solarOk :=
  ⟨Int.le_refl 0, (by decide : (0 : Int) ≤ 100), fun _ => rfl, h.2.2.2⟩

/-- A slot after a warm restart is in order (R108). -/
theorem Slot.warmRestart_ok {l : Latch} {x : Slot} (h : x.ok l) : (x.warmRestart).ok l := by
  obtain ⟨h1, h2, h3, h4⟩ := h
  have key : ∀ st : SlotState, x.cls.admits st = true → (x.state ≠ .tripped) → st ≠ .tripped → st.works = false →
      ({ x with state := st } : Slot).ok l := fun st k1 k2 k3 k4 =>
    ⟨k1, h2, by simp only [k3, iff_false]; exact fun e => k2 (h3.1 e), fun _ => k4⟩
  have heat : x.state ≠ .disabled → x.state ≠ .idle → x.state ≠ .diverting → x.cls.admits (.hold x.settings.minOff) = true :=
    fun k1 k2 k3 => SlotClass.admits_of_heating (SlotClass.heating_of_admits h1 k1 k2 k3) (by simp) (by simp)
  unfold Slot.warmRestart
  split
  · next hs => exact key _ (heat (by simp [hs]) (by simp [hs]) (by simp [hs])) (by simp [hs]) (by simp) rfl
  · next hs => exact key _ (heat (by simp [hs]) (by simp [hs]) (by simp [hs])) (by simp [hs]) (by simp) rfl
  · next hs =>
    split
    · exact key _ (SlotClass.admits_disabled _) (by simp [hs]) (by simp) rfl
    · exact key _ (heat (by simp [hs]) (by simp [hs]) (by simp [hs])) (by simp [hs]) (by simp) rfl
  · next hs =>
    refine key _ ?_ (by simp [hs]) (by simp) rfl
    rw [hs] at h1
    cases hc : x.cls <;> simp_all [SlotClass.admits]
  · next k1 k2 k3 k4 =>
    refine ⟨h1, h2, h3, fun _ => ?_⟩
    cases hs : x.state <;> simp_all [SlotState.works]

/-- A warm restart (R195, R196) keeps every promise. -/
theorem warmRestart_kept (s : State) : Kept s (warmRestart s) := by
  unfold warmRestart
  refine Kept.inner ?_ ((askLine_inner _ _ _ fun _ => rfl).trans (zduWarmRestart_inner _))
  have figs : s.scu.warmRestart.figures = s.scu.figures := by
    simp only [Scu.figures, Prod.mk.injEq, Scu.warmRestart, true_and]
    funext n; cases n <;> rfl
  have all : ∀ t : State, t.scu = s.scu.warmRestart → lineFigures t.olu = lineFigures s.olu → t.clm.figures = s.clm.figures →
      t.fmu.figures = s.fmu.figures → t.zdu = s.zdu → t.sar.holdoffTime = s.sar.holdoffTime →
      t.sar.threshold = s.sar.threshold → t.slc.settings = s.slc.settings → t.ths.settings = s.ths.settings →
      t.flt = s.flt → t.mpt.interval = s.mpt.interval → t.pfe = s.pfe → t.settings = s.settings := by
    intro t h1 h2 h3 h4 h5 h6 h7 h8 h9 h10 h11 h12
    simp only [State.settings, h1, h2, h3, h4, h5, h6, h7, h8, h9, h10, h11, h12, figs]
  have sets := all
    { s with
      clm := s.clm.warmRestart, fmu := s.fmu.warmRestart, scu := s.scu.warmRestart, sar := s.sar.warmRestart
      slc := s.slc.warmRestart, ths := s.ths.warmRestart, mpt := s.mpt.dropAll.loadSupervision
      olu := tabulate fun i => s.olu[i].atRestart (isRelay i) }
    rfl (lineFigures_tabulate (fun _ => Line.atRestart_function ..) fun _ => Line.atRestart_recoveryTime ..)
    rfl rfl rfl rfl rfl rfl rfl rfl rfl rfl
  refine ⟨rfl, id, fun h => linesOk_tabulate h (fun _ => Line.atRestart_function ..) fun _ => Line.atRestart_ok ..,
    fun h n => ?_, zeroSlc_solarOk, id, id, id, State.rangesOk_of_settings sets,
    fun _ k => ⟨k, State.limits_of_settings sets⟩, fun h => ?_,
    fun _ _ => State.agreeOk_of_off (fun i => by simp only [tabulate_get, Line.atRestart_mode])
      fun i => by simp only [tabulate_get, Line.atRestart_auto],
    State.rankingsOk_of_settings sets, id, id,
    fun _ => State.servicesOk_bare (fun z => by cases z <;> exact Service.idle_bare) rfl rfl fun n => ?_,
    .inl rfl, id⟩
  · have := Slot.warmRestart_ok (h n)
    cases n <;> exact this
  · have := h.2.1
    simpa [State.portOk, Mpt.loadSupervision, Mpt.dropAll] using this
  · have key : ∀ x : Slot, x.warmRestart.state.holder? = none := by
      intro x
      unfold Slot.warmRestart
      dsimp only
      split <;> try rfl
      · split <;> rfl
      · next h1 h2 _ _ =>
        cases hs : x.state <;> first | rfl | exact absurd hs (h1 _ _ _ _) | exact absurd hs (h2 _ _)
    cases n <;> exact key _

theorem Flt.defaultPolicy_recordsOk {f : Flt} (h : f.recordsOk) : f.defaultPolicy.recordsOk := by
  obtain ⟨h1, h2, _⟩ := h
  refine ⟨fun i => ?_, fun r hr => ?_, ?_, ?_⟩
  · simp only [Flt.defaultPolicy, tabulate_get]; exact h1 i
  · simp only [Flt.defaultPolicy, Flt.kindRec, tabulate_get]; exact h2 r hr
  · simp only [Flt.defaultPolicy, Flt.kindRec, tabulate_get]; rfl
  · simp only [Flt.defaultPolicy, Flt.kindRec, tabulate_get]; rfl

theorem Line.powerOn_ok (relay : Bool) : (Line.powerOn relay).okFor relay := by
  cases relay
  · simp [Line.powerOn, Line.okFor, Line.pwmOk, Line.target]
  · simp [Line.powerOn, Line.okFor, Line.relayOk, Line.target]

/-- Lines at power-on: no function is on two of them (R175). -/
theorem oluColdRestart_lines (s : State) : (oluColdRestart s).linesOk := by
  refine ⟨fun i => ?_, fun i j => ?_⟩
  · simp only [oluColdRestart, tabulate_get]
    exact Line.powerOn_ok (isRelay i)
  · simp only [oluColdRestart, tabulate_get]
    exact fun _ h => absurd rfl h

theorem ProbeMap.default_ok : ProbeMap.default.ok := (ProbeMap.valid_iff _).1 (by decide +kernel)

theorem Clm.default_figuresOk : State.reset.clm.figuresOk := by simp only [Clm.figuresOk]; decide
theorem Fmu.default_figuresOk : State.reset.fmu.figuresOk := by simp only [Fmu.figuresOk]; decide
theorem ZoneRec.default_figuresOk (z : Zone) : (State.reset.zone z).figuresOk := by
  simp only [ZoneRec.figuresOk]; cases z <;> decide
theorem SlotSettings.noSource_ok : SlotSettings.noSource.ok := by simp only [SlotSettings.ok]; decide
theorem SolarSettings.default_ok : SolarSettings.default.ok 900 := by simp only [SolarSettings.ok]; decide
theorem HoldSettings.default_ok : HoldSettings.default.ok := by simp only [HoldSettings.ok]; decide

theorem Slot.powerOn_ok : Slot.powerOn.ok .clear := ⟨rfl, Nat.zero_le _, by decide, fun _ => rfl⟩

/-- A cold restart (R195, R196) keeps every promise. -/
theorem coldRestart_kept (s : State) : Kept s (coldRestart s) := by
  unfold coldRestart
  dsimp only
  have policy : ∀ t : State, Kept t (rejudge t.flt.defaultPolicy t) := fun t =>
    have h : Owned t (rejudge t.flt.defaultPolicy t) := rejudge_owned Flt.defaultPolicy_recordsOk
    ⟨h.pending, h.faults, h.lines, h.slots, h.solar, h.layers, h.hold, h.probes, h.ranges, h.locked,
      by
        unfold State.portOk
        rw [rejudge_eq]; exact id,
      h.agree, h.rankings, h.link, h.trims, h.services, h.water, h.dry⟩
  refine Kept.inner (Kept.trans (Kept.inner ?_ (rewriteAnchors_inner _)) (policy _)) (.lostIf _ _)
  refine ⟨rfl, id, fun _ => oluColdRestart_lines _, fun _ n => ?_, fun h => ?_, fun h => ?_, fun _ => ?_, fun h => ?_,
    fun h => ?_, fun _ hl => ⟨hl, ?_⟩, fun h => ?_,
    fun _ _ => State.agreeOk_of_off (fun i => by simp only [oluColdRestart, tabulate_get]; rfl)
      fun i => by simp only [oluColdRestart, tabulate_get]; rfl,
    fun _ z => ?_, fun _ => .inl rfl, fun _ c => ?_,
    fun _ => State.servicesOk_bare (fun z => by cases z <;> exact Service.idle_bare) rfl rfl fun n => by cases n <;> rfl,
    .inr rfl, fun _ _ => rfl⟩
  · cases n <;> exact Slot.powerOn_ok
  · obtain ⟨_, _, _, _, _, h6, h7⟩ := h
    have low : (0 : Int) ≤ 0 ∧ (0 : Int) ≤ 100 ∧ (10 : Int) ≤ 30 ∧ (30 : Int) ≤ 100 := by decide
    have high : (750 : Int) ≤ 900 ∧ (800 : Int) ≤ 900 - 50 := by decide
    cases hl : s.mpt.lock
    · simp only [oluColdRestart, slcColdRestart, scuColdRestart]
      exact ⟨low.1, low.2.1, fun _ => rfl, low.2.2.1, low.2.2.2, high.1, high.2⟩
    · simp only [oluColdRestart, slcColdRestart, scuColdRestart]
      exact ⟨low.1, low.2.1, fun _ => rfl, low.2.2.1, low.2.2.2, h6, h7⟩
  · have hg : ({ s.clm with volume := 192, mainsDefault := 100 } : Clm).geometryOk :=
      ⟨(by decide : 64 ≤ 192), (by decide : 192 ≤ 512), (by decide : (0 : Int) ≤ 100), (by decide : (100 : Int) ≤ 300)⟩
    exact unseed_layersOk (c := { s.clm with volume := 192, mainsDefault := 100 }) rfl hg h
  · simp only [oluColdRestart, thsColdRestart, State.holdOk]
    split <;> exact Fin.zero_le _
  · refine ⟨fun c => ?_, ProbeMap.default_ok⟩
    simp only [oluColdRestart, Pfe.coldRestart, tabulate_get]
    exact ⟨(h.1 c).1, (by decide : (-20 : Int) ≤ 0), (by decide : (0 : Int) ≤ 20)⟩
  · obtain ⟨_, _, _, _, ⟨_, h1, h2, _⟩, _, _, h8, h9, _⟩ := h
    refine ⟨Clm.default_figuresOk, Fmu.default_figuresOk, (by decide : (1 : Fin 16) ≤ 6 ∧ (6 : Fin 16) < 12), fun z => ZoneRec.default_figuresOk z, ?_, fun n => ?_,
      (by decide : 20 ≤ 120 ∧ 300 ≤ 5000), ?_, ?_, fun i => ?_⟩
    · simp only [oluColdRestart, scuColdRestart]
      cases s.mpt.lock
      · exact ⟨(by decide : (0 : Fin 16) ≤ 2), (by decide : (750 : Int) ≤ 900), (by decide : (900 : Int) ≤ 950),
          (by decide : 5 ≤ 30), (by decide : 30 ≤ 120)⟩
      · exact ⟨(by decide : (0 : Fin 16) ≤ 2), h1, h2, (by decide : 5 ≤ 30), (by decide : 30 ≤ 120)⟩
    · cases n <;> exact SlotSettings.noSource_ok
    · simp only [oluColdRestart, scuColdRestart, slcColdRestart]
      cases s.mpt.lock
      · exact SolarSettings.default_ok
      · obtain ⟨d1, d2, d3, d4, _, _, d7⟩ := SolarSettings.default_ok
        exact ⟨d1, d2, d3, d4, h8.2.2.2.2.1, h8.2.2.2.2.2.1, d7⟩
    · simp only [oluColdRestart, thsColdRestart]
      cases s.mpt.lock
      · exact HoldSettings.default_ok
      · exact ⟨h9.1, h9.2.1, HoldSettings.default_ok.2.2⟩
    · simp only [oluColdRestart, tabulate_get]; show 5 ≤ 30; omega
  · simp only [oluColdRestart, State.limits, scuColdRestart, slcColdRestart, thsColdRestart, hl, if_true]
  · have := h.2.1
    simpa [oluColdRestart, State.portOk, Mpt.dropAll] using this
  · cases z <;> exact ⟨List.nodup_nil, fun n hn => by cases hn⟩
  · simp only [oluColdRestart, Pfe.coldRestart, tabulate_get]
    exact ⟨(by decide : (-20 : Int) ≤ 0), (by decide : (0 : Int) ≤ 20)⟩

/-! ### One second -/

theorem SlotState.tick_kind (x : SlotState) : (x.tick = .tripped ↔ x = .tripped) ∧ x.tick.works = x.works ∧
    ∀ c : SlotClass, c.admits x.tick = c.admits x := by
  cases x <;> refine ⟨by simp [SlotState.tick], rfl, fun c => ?_⟩ <;> cases c <;> simp [SlotState.tick, SlotClass.admits]

theorem Slot.tick_works (x : Slot) : (x.tick.calls = x.calls ∧ x.tick.pumps = x.pumps) ∧ x.tick.diverts = x.diverts := by
  unfold Slot.tick Slot.calls Slot.pumps Slot.diverts
  cases x.state <;> simp [SlotState.tick]

theorem Line.tick_ok {relay : Bool} {l : Line} (h : l.okFor relay) : l.tick.okFor relay := by
  cases relay <;> simp_all [Line.okFor, Line.pwmOk, Line.relayOk, Line.tick, Line.target]

/-- A second keeps every promise (log entry 2). -/
theorem tick_kept (s : State) : Kept s (tick s) := by
  have figs : (tick s).scu.figures = s.scu.figures := by
    simp only [Scu.figures, Prod.mk.injEq, tick, true_and]
    funext n; cases n <;> rfl
  have lines : lineFigures (tick s).olu = lineFigures s.olu := lineFigures_tabulate (fun _ => rfl) fun _ => rfl
  have all : (tick s).settings = s.settings := by
    simp only [State.settings, figs, lines]; rfl
  refine ⟨rfl, id, fun h => ?_, fun h n => ?_, id, id, id, id, State.rangesOk_of_settings all,
    fun _ k => ⟨k, State.limits_of_settings all⟩, fun h => ?_, fun _ h i => ?_, State.rankingsOk_of_settings all, id, id,
    State.servicesOk_tick (fun z => by cases z <;> rfl) rfl rfl (fun n => ?_) fun n => by cases n <;> rfl,
    .inl rfl, id⟩
  · exact linesOk_tabulate h (fun _ => rfl) fun i => Line.tick_ok (h.1 i)
  · have key : ∀ x : Slot, x.ok s.scu.latch → x.tick.ok s.scu.latch := by
      rintro x ⟨h1, h2, h3, h4⟩
      obtain ⟨k1, k2, k3⟩ := x.state.tick_kind
      exact ⟨(k3 x.cls).trans h1, h2, h3.trans k1.symm, fun e => k2.trans (h4 e)⟩
    cases n
    · exact key _ (h .s1)
    · exact key _ (h .s2)
    · exact key _ (h .s3)
    · exact key _ (h .s4)
  · obtain ⟨h1, h2, h3, h4, h5⟩ := h
    refine ⟨h1, h2, h3, h4, ?_⟩
    simp only [tick, Option.map_eq_none_iff]
    exact h5
  · have key : ∀ f, (tick s).warrants f = s.warrants f := by
      have slot : ∀ n, (tick s).slot n = (s.slot n).tick := fun n => by cases n <;> rfl
      intro f
      cases f <;> simp only [State.warrants, slot] <;> try rfl
      all_goals
        rename_i n
        obtain ⟨k1, k2⟩ := (s.slot n).tick_works
        simp only [k1, k2]
    have := h i
    rw [key]
    simpa only [tick, tabulate_get, Line.tick] using this
  · have key : ∀ x : Slot, x.tick.state.holder? = x.state.holder? := by
      intro x
      unfold Slot.tick
      cases x.state <;> rfl
    cases n <;> exact key _

end Sys2Proof.Machine
end

