-- ==== Sys2Proof/Tests/Slice0.lean ====
section
/-! SUPPORT. The model's own tests: ill-formed commands, the manual's worked cases (each named by its section), and for
every statement with hypotheses a state and operands that meet them. -/

namespace Sys2Proof.Tests

set_option Elab.async false

open Sys2Proof.Machine

/-! ### Small states -/

/-- The state after one command. -/
def after (c : Instr) (s : State) : State :=
  match exec c s with
  | .next t => t
  | .fault _ => s
  | .refused _ => s

/-- The state after a conversion when the scan has come to channel `c`. -/
def convert (c : Fin 12) (raw : Int) (s : State) : State :=
  after (.conversion c raw) { s with pfe := { s.pfe with scanNext := c } }

/-- A layer table with the given temperatures, bottom to top, and residues. -/
def tableOf (temps residues : List Int) : Vector Layer 16 :=
  tabulate fun i => { Layer.powerOn defaultAnchors[i] with temp := temps.getD i.val 0, residue := residues.getD i.val 0 }

/-- The column of 1.12.2. -/
def column : List Int := [152, 181, 210, 240, 275, 311, 347, 383, 419, 455, 476, 498, 520, 529, 538, 548]

/-- A seeded block with the given temperatures. -/
def seededAt (temps : List Int) : State :=
  { State.reset with
    clm :=
      { State.reset.clm with
        layers := tableOf temps [], model := .tracking
        zoneMin := ⟨temps[12]?, temps[6]?, temps[0]?⟩ } }

/-- A seeded block, with the column of 1.12.2. -/
def seeded : State := seededAt column

/-- A channel with a value. -/
def withValue (c : Fin 12) (v : Int) (s : State) : State :=
  { s with pfe := { s.pfe with channels := s.pfe.channels.set c ⟨.ok 0 (some v), 0⟩ } }

/-- A line with a function, at rest. -/
def withLine (i : Fin 8) (f : LineFunction) (s : State) : State :=
  { s with olu := s.olu.set i ⟨f, .auto, 0, 0, 5, none, false⟩ }

/-- The heat pump of 5.6.1. -/
def heatPump : SlotSettings := ⟨2, 5, 3000, 550, 900, 600, 120, 180, 30, 60, some 0, 60⟩

/-- The boiler of 5.6.2. -/
def boiler : SlotSettings := ⟨8, 10, 3000, 700, 0, 120, 30, 60, 20, 0, some 1, 60⟩

/-- The immersion of 8.8.3. -/
def immersion : SlotSettings := ⟨12, 13, 3000, 750, 60, 30, 0, 0, 0, 0, none, 60⟩

def withSlot (n : SlotId) (c : SlotClass) (x : SlotSettings) (st : SlotState) (s : State) : State :=
  s.setSlot n ⟨c, x, st, 0, false⟩

def withZone (z : Zone) (ranking : List SlotId) (demand : Bool) (s : State) : State :=
  s.setZone z { s.zone z with ranking := ranking, demand := demand }

/-- The stepper enabled. -/
def holding (s : State) : State :=
  { s with ths := { s.ths with settings := { s.ths.settings with enable := true }, interval := some 1260 } }

/-- Result code and data of the reply under way. -/
def answered (s : State) : List Byte := ((s.mpt.reply.getD []).drop 3).take (((s.mpt.reply.getD []).getD 1 0).toNat)

/-! ### Ill-formed commands -/

theorem test_long_payload_is_ill_formed :
    (Instr.setCylinder (List.replicate 65 0)).wellFormed = false ∧ (Instr.setCylinder (List.replicate 64 0)).wellFormed = true := by
  decide

theorem test_known_kind_is_ill_formed :
    (Instr.unknownKindRequest 0x10 []).wellFormed = false ∧ (Instr.unknownKindRequest 0x40 []).wellFormed = true := by
  decide

theorem test_recovery_of_a_pwm_line_is_ill_formed :
    (Instr.recoveryEnd 6).wellFormed = false ∧ (Instr.recoveryEnd 5).wellFormed = true := by decide

/-! ### Chapter 1 -/

/-- 1.12.1, second and third row. -/
theorem test_setCylinder_rounds_and_clamps :
    (after (.setCylinder [0, 200, 16, 0, 100, 0, 150, 1, 144, 2]) State.reset).clm.volume = 192 ∧
      answered (after (.setCylinder [0, 50, 16, 0, 100, 0, 150, 1, 144, 2]) State.reset) =
        [1, 0, 64, 16, 0, 100, 0, 150, 1, 144, 2] := by
  decide +kernel

/-- 1.12.2: seeding at the conversion of channel 11, with A4 lost. -/
theorem test_conversion_seeds :
    let s := [(3, 548), (4, 520), (5, 455), (7, 240), (8, 152), (9, 104)].foldl
      (fun s (x : Fin 12 × Int) => withValue x.1 x.2 s) State.reset
    let s : State :=
      { s with
        clm := { s.clm with scanned := (Vector.replicate 12 true).set 11 false }
        pfe := { s.pfe with channels := s.pfe.channels.set 6 ⟨.faulted .openCircuit 0, 0⟩, scanNext := 11 } }
    let t := convert 11 180 s
    temperatures t.clm.layers = column ∧ t.clm.model = .tracking ∧ t.clm.zoneMin = ⟨some 520, some 347, some 152⟩ ∧
      t.clm.usable = 96 := by
  decide +kernel

/-- 1.12.3: a model period with an immersion of 3000 W running in layers 12 and 13. -/
theorem test_modelPeriod_applies_loss_and_injection :
    let s := withSlot .s2 .immersion { immersion with ceiling := 900 } (.running 0 (some (.zone .top))) seeded
    let s := { s with clm := { s.clm with
      layers := tableOf [150, 150, 150, 150, 150, 150, 150, 150, 150, 150, 150, 470, 482, 488, 497, 503]
        [0, 0, 0, 0, 0, 0, 0, 0, 0, 0, 0, 10, 3000, 4500, 0, 100] } }
    let t := after .modelPeriodExpiry s
    (t.clm.layers.toList.drop 11).map (fun l => (l.temp, l.residue)) =
        [(469, 4994), (485, 2919), (491, 4419), (496, 4982), (503, 65)] ∧
      t.clm.injected.s2 = ⟨30, 0⟩ ∧ t.clm.loss = ⟨0, 167⟩ := by
  decide +kernel

/-- 1.12.4 and 1.12.5. -/
theorem test_energy_steps :
    ((⟨310, 20, none, 0, 0⟩ : Layer).applyEnergy 5016 (-40)).1 = ⟨309, 4996, none, 0, 0⟩ ∧
      (⟨999, 5000, none, 0, 0⟩ : Layer).applyEnergy 5016 20000 = (⟨1000, 0, none, 0, 0⟩, 19984) := by
  decide +kernel

/-- 1.12.6, and the mixing of 1.12.7. -/
theorem test_mixing :
    blend [495, 505, 500, 502] = [495, 502, 502, 503] ∧ order (blend [125, 100, 100, 100, 363]) = [103, 104, 106, 112, 363] := by
  decide +kernel

/-- 1.12.8: a solar gate into the coil layers; 3.4: the solar heat rate. -/
theorem test_loopGate_injects :
    let s := withValue 1 652 (withValue 10 482 (seededAt [200, 210, 220, 240, 275, 311, 347, 383, 419, 455, 476, 498, 520, 529, 538, 548]))
    let s : State :=
      { s with
        clm := { s.clm with layers := tableOf (temperatures s.clm.layers) [4000, 500, 0] }
        slc := { s.slc with state := .run, speed := 45 }
        fmu := { s.fmu with loop := { s.fmu.loop with mlPerPulse := 5, count := 40 } } }
    let t := after .loopGateExpiry s
    (t.clm.layers.toList.take 3).map (fun l => (l.temp, l.residue)) = [(201, 3721), (211, 221), (220, 4738)] ∧
      t.clm.solarYield = ⟨14, 212⟩ ∧ t.fmu.heatRate = 1421 := by
  decide +kernel

/-! ### Chapters 2 and 3 -/

/-- R32: the scan goes from channel 0 to channel 11, and begins again with channel 0. -/
theorem test_conversion_follows_the_scan :
    let t := after (.conversion 1 620) (after (.conversion 0 610) State.reset)
    t.pfe.channels[0].value = some 610 ∧ t.pfe.channels[1].value = some 620 ∧ t.pfe.scanNext = 2 ∧
      (convert 11 200 t).pfe.scanNext = 0 ∧ after (.conversion 5 400) t = t := by
  decide +kernel

/-- 2.5.1, scans 1 to 4: an anchor probe opens. -/
theorem test_conversion_debounces :
    let s := withValue 5 455 seeded
    let t := convert 5 (-980) (convert 5 (-980) (convert 5 (-980) s))
    t.pfe.channels[5] = ⟨.faulted .openCircuit 0, 0⟩ ∧
      t.flt.kindRec .probeOpen = ⟨true, false, false, 1, .channel 5⟩ ∧ t.pins.alertLow = true := by
  decide +kernel

/-- 2.5.2. -/
theorem test_bands :
    classify 9 1502 = some .shortCircuit ∧ classify 9 1500 = none ∧ classify 0 (-397) = none ∧
      classify 0 2501 = some .openCircuit ∧ classify 11 (-402) = some .openCircuit := by
  decide +kernel

/-- 3.7.1, gate 3: 1 slice and a report of a saturated meter. -/
theorem test_drawGate_forms_slices :
    let s : State :=
      { seeded with
        fmu :=
          { seeded.fmu with
            draw := { seeded.fmu.draw with mlPerPulse := 10, count := 255, saturated := true, total := 3, remainder := 50 }
            pendingVolume := 50 } }
    let t := after .drawGateExpiry s
    t.fmu.pendingVolume = 1100 ∧ t.fmu.draw.total = 5 ∧ t.fmu.draw.remainder = 600 ∧ t.fmu.draw.count = 0 ∧
      t.flt.kindRec .meterSaturated = ⟨true, false, false, 1, .meter .draw⟩ ∧ t.temp 0 = (7 * 152 + 100 + 4) / 8 := by
  decide +kernel

/-- 3.7.2: an overrun in a small cylinder. -/
theorem test_drawGate_overrun :
    let s : State :=
      { seeded with
        clm := { seeded.clm with volume := 64 }
        fmu :=
          { seeded.fmu with draw := { seeded.fmu.draw with mlPerPulse := 400, count := 200 }, pendingVolume := 320 } }
    let t := after .drawGateExpiry s
    t.fmu.pendingVolume = 320 ∧ t.fmu.draw.total = 80 ∧ (t.flt.kindRec .drawOverrun).count = 1 := by
  decide +kernel

/-- 3.7.4: a frost gate with return warmer than flow. -/
theorem test_loopGate_negative :
    let s := withValue 1 20 (withValue 10 210 seeded)
    let s : State :=
      { s with
        slc := { s.slc with state := .frost, speed := 30 }
        fmu := { s.fmu with loop := { s.fmu.loop with mlPerPulse := 5, count := 30 }, zeroGates := 2 } }
    let t := after .loopGateExpiry s
    t.fmu.heatRate = -1192 ∧ t.clm.solarYield = ⟨0, 0⟩ ∧ t.fmu.zeroGates = 0 ∧ t.fmu.loop.remainder = 150 := by
  decide +kernel

theorem test_pulse_saturates :
    let s : State := { State.reset with fmu := { State.reset.fmu with draw := { State.reset.fmu.draw with count := 254 } } }
    (after (.pulse .draw) s).fmu.draw.count = 255 ∧ (after (.pulse .draw) s).fmu.draw.saturated = true ∧
      (after (.pulse .loop) s).fmu.loop.count = 1 := by
  decide +kernel

/-! ### Chapter 4 -/

/-- The slots of 4.6.5. -/
def sources : State :=
  withSlot .s1 .heatPump heatPump .cold (withSlot .s2 .boiler boiler .cold (withSlot .s3 .immersion immersion .cold
    (withSlot .s4 .diverter { immersion with minRun := 0, ceiling := 700 } .idle seeded)))

/-- 4.6.5: the rankings taken and refused. -/
theorem test_setZone_checks_rankings :
    (answered (after (.setZone [0, 1, 244, 0, 50, 0, 50, 3, 3, 2, 1]) sources)).head? = some 0 ∧
      (answered (after (.setZone [1, 1, 194, 0, 50, 0, 50, 2, 2, 3]) sources)) = [4] ∧
      (answered (after (.setZone [0, 1, 244, 0, 50, 0, 50, 2, 1, 4]) sources)) = [4] ∧
      (answered (after (.setZone [2, 0, 0, 0, 50, 0, 50, 2, 1, 1]) sources)) = [4] ∧
      ((after (.setZone [2, 0, 0, 0, 50, 0, 50, 1, 1]) sources).zone .low).ranking = [.s1] := by
  decide +kernel

/-- 4.6.5: the rankings after a boundary change. -/
theorem test_setZoneBounds_prunes_rankings :
    let s := withZone .top [.s3, .s2, .s1] false (withZone .mid [.s2, .s1] false (withZone .low [.s1] false sources))
    answered (after (.setZoneBounds [2, 8]) s) = [0, 2, 8, 3, 3, 2, 1, 1, 1, 0] := by
  decide +kernel

/-- 4.6.3: a boost below the target. -/
theorem test_boost_below_the_target :
    let s := withZone .top [] true (seededAt [152, 181, 210, 240, 275, 311, 347, 383, 419, 455, 460, 465, 470, 529, 538, 548])
    let t := after (.boost [0, 1, 164]) s
    answered t = [0, 0, 0x80, 0, 1, 0] ∧ (t.zone .top).boost = none := by
  decide +kernel

/-- 4.6.4: a boost on the LOW zone. -/
theorem test_boost_on_low :
    let s := seededAt [180, 181, 210, 240, 275, 311, 347, 383, 419, 455, 460, 465, 470, 529, 538, 548]
    let t := after (.boost [2, 1, 194]) s
    answered t = [0, 1, 1, 194, 1, 1] ∧ t.service .low = .waiting ∧
      ((after (.boostCancel [2]) { t with mpt := State.reset.mpt }).zone .low).demand = false := by
  decide +kernel

/-! ### Chapter 5 -/

/-- The heat pump of 5.6.1 with its lines, in the given state. -/
def pumping (st : SlotState) : State :=
  withLine 0 (.sourceCall .s1) (withLine 1 (.sourcePump .s1) (withSlot .s1 .heatPump heatPump st sources))

/-- 5.6.1 at 300. -/
theorem test_dwellEnd_enters_running :
    let s := pumping (.starting .cold .dwell 0 (.zone .mid))
    let s := { s with scu := { s.scu with confirmLevel := s.scu.confirmLevel.set 0 true } }
    ((after (.dwellEnd .s1) s).slot .s1).state = .running 900 (some (.zone .mid)) := by
  decide +kernel

/-- 5.6.1 at 1200. -/
theorem test_minimumRunCompletion_goes_on :
    let t := after (.minimumRunCompletion .s1) (pumping (.running 1 (some (.zone .mid))))
    (t.slot .s1).state = .running 0 (some (.zone .mid)) ∧ (t.slot .s1).failures = 0 := by
  decide +kernel

/-- 5.6.1 at 1800, 2400 and 4200. -/
theorem test_overrun_hold_and_warm_end :
    ((after (.overrunExpiry .s1) (pumping (.overrun 1 600 false))).slot .s1).state = .hold 600 ∧
      ((after (.holdExpiry .s1) (pumping (.hold 1))).slot .s1).state = .warm 1800 ∧
      ((after (.warmExpiry .s1) (pumping (.warm 1))).slot .s1).state = .cold := by
  decide +kernel

/-- 5.6.2 at 570: the third failure trips. -/
theorem test_confirmWindow_trips :
    let s := (withSlot .s2 .boiler boiler (.starting .warm .confirm 1 (.zone .top)) sources)
    let s := s.setSlot .s2 { s.slot .s2 with failures := 2 }
    let t := after (.confirmWindowExpiry .s2) s
    (t.slot .s2).state = .tripped ∧ (t.slot .s2).failures = 3 ∧
      t.flt.kindRec .startFailure = ⟨true, false, false, 1, .slot .s2⟩ ∧
      t.flt.kindRec .sourceTripped = ⟨true, false, true, 1, .slot .s2⟩ := by
  decide +kernel

/-- 5.6.2: SOURCE_RESET, and its refusal in another state. -/
theorem test_sourceReset_rests :
    let s := sources.setSlot .s2 ⟨.boiler, boiler, .tripped, 3, false⟩
    ((after (.sourceReset [2]) s).slot .s2).state = .hold 120 ∧ answered (after (.sourceReset [2]) sources) = [7] := by
  decide +kernel

/-- 5.6.3: the latch sets during a run. -/
theorem test_latch_stops_the_slots :
    let s := withSlot .s3 .immersion immersion (.running 0 (some (.zone .mid))) (pumping (.running 700 (some (.zone .top))))
    let t := convert 2 903 (withValue 2 890 s)
    t.scu.latch = .overtemp ∧ (t.slot .s1).state = .overrun 60 940 false ∧ (t.slot .s3).state = .hold 30 ∧
      t.flt.kindRec .cylinderOvertemp = ⟨true, false, true, 1, .none⟩ ∧
      (convert 2 850 t).scu.latch = .overtemp ∧ (convert 2 849 t).scu.latch = .clear := by
  decide +kernel

/-- 5.6.4: the diverter's duty, and the end of the surplus. -/
theorem test_surplus_diverts :
    let s := withLine 6 (.diverterDrive .s4) sources
    let s := { s with clm := { s.clm with layers := tableOf [152, 181, 210] [] } }
    let t := after (.surplus [4, 176]) s
    (t.slot .s4).state = .diverting ∧ t.olu[6].output = 40 ∧ t.scu.surplusTimer = some 30 ∧
      ((after .surplusTimerExpiry t).slot .s4).state = .idle ∧ (after .surplusTimerExpiry t).olu[6].output = 0 := by
  decide +kernel

/-- 5.6.5: activity keeps a boiler warm. -/
theorem test_confirmInput_reloads_the_warm_time :
    let s := withSlot .s2 .boiler boiler (.warm 100) sources
    ((after (.confirmInputChange 1 true) s).slot .s2).state = .warm 1200 := by
  decide +kernel

/-- R86 and R87. -/
theorem test_enable_and_disable :
    let s := withSlot .s2 .boiler boiler .disabled sources
    ((after (.sourceEnable [2]) s).slot .s2).state = .hold 120 ∧ answered (after (.sourceEnable [1]) s) = [7] ∧
      ((after (.sourceDisable [1]) s).slot .s1).state = .disabled := by
  decide +kernel

/-- R82: class defaults of a boiler are resolved and echoed. -/
theorem test_setSource_resolves_defaults :
    let p : List Byte := [2, 2, 8, 10, 0, 50, 0xFF, 0xFF, 0xFF, 0xFF, 0xFF, 0xFF, 0xFF, 0xFF, 0xFF, 0xFF, 0xFF, 0xFF, 0xFF, 1, 0, 60]
    let t := after (.setSource p) State.reset
    let x := (t.slot .s2).settings
    (t.slot .s2).cls = .boiler ∧ x.rate = 100 ∧ x.confirm = some 1 ∧ x.startDwell = 30 ∧ x.coldExtra = 60 ∧
      x.minOff = 120 ∧ x.warmTime = 20 := by
  decide +kernel

/-! ### Chapter 6 -/

/-- 6.6.1, second variant: the holdoff expires and slot 1 begins a warm start. -/
theorem test_holdoff_expires_into_a_grant :
    let s := withZone .top [.s1, .s3] true (withSlot .s1 .heatPump heatPump (.warm 500) sources)
    let t := after (.holdoffTimerExpiry .top) (s.setService .top (.holdoff 1))
    t.service .top = .serving .s1 ∧ (t.slot .s1).state = .starting .warm .dwell 120 (.zone .top) := by
  decide +kernel

/-- 6.6.2 at 0: slot 1 becomes available; TOP takes it and MID stays WAITING. -/
theorem test_available_slot_is_granted :
    let s := withZone .top [.s1, .s3] true (withZone .mid [.s1, .s2] true (withSlot .s1 .heatPump heatPump (.hold 1)
      (withSlot .s2 .boiler boiler (.hold 100) (withSlot .s3 .immersion immersion .tripped sources))))
    let t := after (.holdExpiry .s1) ((s.setService .top .waiting).setService .mid .waiting)
    t.service .top = .serving .s1 ∧ t.service .mid = .waiting := by
  decide +kernel

/-- The stepper of 6.6.3, seeking for layers 14 and 15, with MID's boiler running. -/
def borrowing : State :=
  let s := withZone .mid [.s2] true (withSlot .s2 .boiler boiler (.running 0 (some (.zone .mid)))
    (withSlot .s1 .heatPump heatPump (.warm 500) (holding sources)))
  let s := s.setService .mid (.serving .s2)
  { s with
    ths :=
      { s.ths with
        settings := { s.ths.settings with ranking := [.s1, .s2] }
        step := .seeking ⟨15, 14, .two, 21, [], 0⟩, messages := [.holdRequest] } }

/-- 6.6.3 at 0: the hold request takes MID's boiler. -/
theorem test_holdRequest_borrows :
    let t := after .holdRequest borrowing
    t.sar.claim = .holding .s2 (some .mid) ∧ t.service .mid = .suspended .s2 ∧ t.sar.answers = [.taken .s2] ∧
      (t.slot .s2).state = .running 0 (some .holdStep) := by
  decide +kernel

/-- 6.6.3 at 2400: the step end gives it back. -/
theorem test_stepEnd_returns :
    let t := after .holdRequest borrowing
    let t := after .stepEnd { t with ths := { t.ths with messages := [.stepEnd] } }
    t.sar.claim = .none ∧ t.service .mid = .serving .s2 ∧ (t.slot .s2).state = .running 0 (some (.zone .mid)) := by
  decide +kernel

/-- 6.6.4 at 150: a failed start passes TOP to the next source. -/
theorem test_failed_start_passes_on :
    let s := withZone .top [.s2, .s3] true (withSlot .s2 .boiler boiler (.starting .cold .confirm 1 (.zone .top)) sources)
    let t := after (.confirmWindowExpiry .s2) (s.setService .top (.serving .s2))
    (t.slot .s2).state = .hold 120 ∧ (t.slot .s3).state = .running 60 (some (.zone .top)) ∧
      t.service .top = .serving .s3 := by
  decide +kernel

/-- R113: a further evaluation takes the oldest notice. -/
theorem test_furtherEvaluation_takes_the_oldest :
    let s : State := { sources with sar := { sources.sar with further := [.available .s1, .available .s2] } }
    (after .furtherEvaluation s).sar.further = [.available .s2] := by
  decide +kernel

/-! ### Chapter 7 -/

/-- 7.4.1 at 600, 3600 and 14401. -/
theorem test_collector_runs_the_pump :
    let s := withLine 6 .solarPump (withValue 0 420 (seededAt [380, 380, 380, 380, 380, 380, 380, 383, 419, 455, 476, 498, 520, 529, 538, 548]))
    let t := convert 0 455 s
    let u := convert 0 620 t
    t.slc.state = .run ∧ t.slc.speed = 32 ∧ t.olu[6].output = 32 ∧ u.slc.speed = 100 ∧
      (convert 0 409 u).slc.state = .off ∧ (convert 0 415 u).slc.speed = 30 := by
  decide +kernel

/-- 7.4.4: the collector probe opens. -/
theorem test_collector_opens :
    let s := withValue 0 610 (seededAt [420, 420, 420, 420, 420, 420, 420, 420, 420, 455, 476, 498, 520, 529, 538, 548])
    let s : State := { s with slc := { s.slc with state := .run, speed := 90 } }
    let t := convert 0 2600 (convert 0 2600 s)
    let u := convert 0 2600 t
    t.slc.state = .run ∧ t.slc.speed = 90 ∧ u.slc.state = .fault ∧ u.slc.speed = 0 ∧
      (convert 0 598 (convert 0 598 (convert 0 598 u))).slc.speed = 84 := by
  decide +kernel

theorem test_setSolar_keeps_the_order_of_clamping :
    let t := after (.setSolar [0, 20, 0, 30, 30, 5, 3, 132, 4, 176, 0, 30, 0, 0, 150, 20, 1, 44]) State.reset
    t.slc.settings.onDiff = 20 ∧ t.slc.settings.offDiff = 10 ∧ t.slc.settings.solarMax = 850 ∧
      (answered t).head? = some 1 := by
  decide +kernel

/-! ### Chapter 8 -/

/-- 8.8.1. -/
theorem test_intervals :
    let h := HoldSettings.default
    (h.steps, h.interval, h.creditAge) = (8, 1260, 21) ∧
      (let x := { h with width := .one }; (x.steps, x.interval, x.creditAge)) = (16, 630, 11) ∧
      (let x := { h with base := 3 }; (x.steps, x.interval, x.creditAge)) = (7, 1440, 24) ∧
      (let x := { h with width := .four, base := 3 }; (x.steps, x.interval, x.creditAge)) = (4, 2520, 42) ∧
      (let x := { h with period := 24, width := .one }; (x.steps, x.interval, x.creditAge)) = (16, 90, 2) ∧
      (let x := { h with period := 336, width := .four, base := 12 }; (x.steps, x.interval, x.creditAge)) = (1, 20160, 336) := by
  decide +kernel

/-- 8.8.2, minutes 8 and 28, and its variant in an hour minute. -/
theorem test_minutes_keep_the_dwell :
    let s := holding (seededAt [600, 600, 600, 600, 600, 600, 600, 600, 600, 600, 600, 600, 622, 622, 622, 622])
    let s : State := { s with clm := { s.clm with layers := s.clm.layers.set 12 ⟨622, 0, some 1, 19, 30⟩ |>.set 0 ⟨588, 0, none, 7, 30⟩ } }
    let t := after .minuteEvent s
    t.clm.layers[12] = ⟨622, 0, some 1, 20, 0⟩ ∧ t.clm.layers[0] = ⟨588, 0, none, 0, 30⟩ ∧ t.ths.hourCount = 1 ∧
      (after .hourCountWrap s).clm.layers[12].holdAge = 0 ∧ (after .hourCountWrap s).clm.layers[0].holdAge = 31 := by
  decide +kernel

/-- 8.8.3 at 0 and 1260: a credit, then a hold request. -/
theorem test_interval_credits_then_seeks :
    let s := holding seeded
    let s : State := { s with clm := { s.clm with layers := tabulate fun i => { s.clm.layers[i] with holdAge := if 14 ≤ i.val then 9 else 181 } } }
    let t := after .intervalExpiry s
    let u := after .intervalExpiry t
    t.ths.step = .idle ∧ t.ths.pointer = 13 ∧ t.ths.messages = [.stepEnd] ∧ t.ths.interval = some 1260 ∧
      u.ths.step = .seeking ⟨13, 12, .two, 21, [], 0⟩ ∧ u.ths.messages = [.stepEnd, .holdRequest] := by
  decide +kernel

/-- 8.8.4 at 240: the timeout, with a pending expiry. -/
theorem test_timeout_starts_again :
    let s := holding seeded
    let s : State :=
      { s with
        ths :=
          { s.ths with
            settings := { s.ths.settings with period := 24, width := .one }
            pointer := 6, step := .seeking ⟨6, 6, .one, 2, [], 239⟩, pendingFlag := true } }
    let t := after .stepTimeout s
    t.ths.step = .seeking ⟨6, 6, .one, 2, [], 0⟩ ∧ t.ths.failedSteps = 1 ∧ t.ths.pendingFlag = false ∧
      t.flt.kindRec .holdIncomplete = ⟨true, false, false, 1, .layer 6⟩ := by
  decide +kernel

/-- 8.8.5: a base raised mid-step. -/
theorem test_setHold_raises_the_base :
    let s := holding seeded
    let s : State := { s with ths := { s.ths with pointer := 5, step := .heating ⟨5, 4, .two, 21, [], 30⟩ .s3 } }
    let t := after (.setHold [1, 2, 88, 20, 0, 168, 2, 8, 0, 240, 0]) s
    t.ths.pointer = 15 ∧ t.ths.interval = some 2520 ∧ t.ths.step = s.ths.step ∧ (answered t).head? = some 0 := by
  decide +kernel

theorem test_answers_move_the_step :
    let s : State := { borrowing with sar := { borrowing.sar with answers := [.taken .s2, .lost, .noneEligible] } }
    let t := after .holdTaken s
    let u := after .holdLost t
    t.ths.step = .heating ⟨15, 14, .two, 21, [], 0⟩ .s2 ∧ u.ths.step = s.ths.step ∧
      (after .holdNone u).sar.answers = [] := by
  decide +kernel

/-- R160: a full pass from layer 15. -/
theorem test_holdNow_starts_a_pass :
    let s : State := { holding seeded with ths := { (holding seeded).ths with pointer := 7 } }
    let t := after (.holdNow []) s
    t.ths.pointer = 15 ∧ t.ths.fullPass = true ∧ answered (after (.holdNow []) seeded) = [7] := by
  decide +kernel

/-! ### Chapters 9 and 10 -/

/-- 9.8.1 at 102, 103 and 105: a deferred close, its cancel, and the end of the rest. -/
theorem test_relay_rests :
    let open3 : Line := ⟨.solarPump, .auto, 0, 0, 5, some 3, false⟩
    let asked := open3.drive true .auto 32
    asked = ⟨.solarPump, .auto, 32, 0, 5, some 3, true⟩ ∧ asked.drive true .auto 0 = open3 ∧
      (after (.recoveryEnd 3) { State.reset with olu := State.reset.olu.set 3 asked }).olu[3].output = 100 ∧
      (after (.recoveryEnd 3) { State.reset with olu := State.reset.olu.set 3 open3 }).olu[3].output = 0 := by
  decide +kernel

/-- 9.8.2: a pump forced by hand, a call line refused, and a link lapse. -/
theorem test_force_then_lapse :
    let s := withLine 2 (.sourcePump .s1) (withLine 0 (.sourceCall .s1) State.reset)
    let t := after (.forceOutput [2, 1]) s
    let u := after .linkLapse { t with mpt := { State.reset.mpt with interval := 60, supervision := some 1 } }
    t.olu[2].mode = .forcedOn ∧ t.olu[2].output = 100 ∧ answered (after (.forceOutput [0, 1]) s) = [7] ∧
      u.olu[2] = ⟨.sourcePump .s1, .auto, 0, 0, 5, some 5, false⟩ ∧ (u.flt.kindRec .linkLapse).status = true ∧
      (after (.releaseOutput [2]) { t with mpt := State.reset.mpt }).olu[2].mode = .auto := by
  decide +kernel

/-- 9.8.3: the alert relay across a warm restart. -/
theorem test_warm_restart_takes_up_the_alert :
    let s := report .sourceTripped (.slot .s2) (withLine 5 .alertRelay State.reset)
    let t := after .replySent (after (.restart [0]) s)
    s.olu[5].output = 100 ∧ t.olu[5] = ⟨.alertRelay, .auto, 100, 0, 5, some 5, true⟩ ∧ t.pins.alertLow = true ∧
      (after (.recoveryEnd 5) t).olu[5].output = 100 := by
  decide +kernel

/-- R170, R171: a pump line set, and a diverter drive refused on a relay. -/
theorem test_setOutput :
    (after (.setOutput [2, 0x21, 7]) sources).olu[2].function = .noFunction ∧
      (after (.setOutput [2, 0x21, 7]) State.reset).olu[2].recoveryTime = 7 ∧
      (after (.setOutput [2, 0x21, 7]) State.reset).olu[2].function = .sourcePump .s1 ∧
      answered (after (.setOutput [2, 0x31, 7]) State.reset) = [4] := by
  decide +kernel

/-- 10.7.1 at 40 and 60: a mask releases the pin, a clear removes the record. -/
theorem test_policy_and_clear :
    let s := report .probeOpen (.channel 11) State.reset
    let t := after (.setFaultPolicy [1, 0, 2, 2, 0, 0, 0, 0, 0, 2, 0, 0, 0, 0, 0, 0]) s
    let u := after (.clearFaults [1]) { t with mpt := State.reset.mpt }
    s.pins.alertLow = true ∧ t.pins.alertLow = false ∧ t.flt.first = some ⟨.probeOpen, .channel 11, 0⟩ ∧
      u.flt.kindRec .probeOpen = ⟨false, true, false, 0, .channel 11⟩ ∧ u.flt.first = none := by
  decide +kernel

/-- 10.7.2: a cold restart with a masked fault standing. -/
theorem test_cold_restart_unmasks :
    let s := { State.reset with flt := State.reset.flt.setRec .modelClipped ⟨true, true, false, 4, .layer 15⟩ }
    let t := after .replySent (after (.restart [1]) s)
    t.pins.alertLow = true ∧ t.flt.kindRec .modelClipped = ⟨true, false, false, 4, .layer 15⟩ ∧ t.flt.first = none := by
  decide +kernel

theorem test_uptime_wraps :
    (after .uptimeIncrement { State.reset with flt := { State.reset.flt with uptime := 4294967295 } }).flt.uptime = 0 := by
  decide +kernel

/-! ### Chapter 11 -/

/-- R186: the check of the nine digits. -/
theorem test_check_of_the_nine_digits : crc [0x31, 0x32, 0x33, 0x34, 0x35, 0x36, 0x37, 0x38, 0x39] = 0x29B1 := by
  decide +kernel

/-- 11.1.1: the IDENT frame, byte by byte, and its reply. -/
theorem test_ident_frame :
    let s := [0xC5, 0x00, 0x01, 0x0D, 0x2E].foldl (fun s b => after (.receiveByte b false) s) State.reset
    s.mpt.queue = [⟨0x01, []⟩] ∧ s.mpt.discards = 0 ∧ answered (after (.ident []) s) = [0, 2, 8, 1, 64] ∧
      (after .replySent (after (.ident []) s)).mpt.queue = [] := by
  decide +kernel

/-- 11.8: a queue under pressure; a STATUS reply is 36 bytes. -/
theorem test_queue_under_pressure :
    let s : State := { State.reset with mpt := { State.reset.mpt with interval := 30 } }
    let t := after (.boost [0, 2, 88]) (after (.surplus [5, 220]) (after (.status []) s))
    let u := after (.surplus [5, 220]) (after .replySent t)
    (t.mpt.reply.map List.length) = some 36 ∧ t.mpt.queue = [⟨0x02, []⟩, ⟨0x25, [5, 220]⟩] ∧ t.mpt.discards = 1 ∧
      t.mpt.supervision = some 30 ∧ u.scu.surplus = 1500 ∧ (after .replySent u).mpt.queue = [] := by
  decide +kernel

theorem test_gap_discards :
    let s := after (.receiveByte 0xC5 false) State.reset
    s.mpt.gapTimer = some 50 ∧ (after .gapTimerExpiry s).mpt.discards = 1 ∧
      (after .gapTimerExpiry s).mpt.assembler = .hunt := by
  decide +kernel

theorem test_unknown_kind : answered (after (.unknownKindRequest 0x40 [1, 2]) State.reset) = [2] := by decide +kernel

theorem test_setLink_clamps :
    answered (after (.setLink [0, 5]) State.reset) = [1, 0, 10] ∧ (after (.setLink [0, 5]) State.reset).mpt.supervision = some 10 := by
  decide +kernel

/-- R193: the locked values, and a changed one refused. -/
theorem test_lock :
    let t := after (.lockLimits []) State.reset
    let u : State := { t with mpt := { t.mpt with reply := none, queue := [] } }
    answered t = [0, 3, 132, 3, 32, 4, 176, 2, 88, 20] ∧
      answered (after (.setHold [0, 2, 89, 20, 0, 168, 2, 0, 0, 240, 0]) u) = [6] := by
  decide +kernel

/-- 11.4.3: lengths of the reads at power-on, by their layouts. -/
theorem test_read_lengths :
    ([.layers [3], .zones [0], .source [0], .source [1], .solar [], .hold [], .meters [], .energy [], .faults [], .probes [1],
      .outputs [], .config [0, 0], .config [5, 0], .config [6, 0], .config [7, 0]] : List Instr).map
        (fun c => (answered (after c State.reset)).length) =
      [1 + 34, 1 + 25, 1 + 10, 1 + 40, 1 + 18, 1 + 37, 1 + 31, 1 + 32, 1 + 60, 1 + 43, 1 + 56, 1 + 10, 1 + 30, 1 + 8, 1 + 16] := by
  decide +kernel

theorem test_meters_and_trims :
    answered (after (.setMeter [1, 3, 233, 10, 23, 112]) State.reset) = [1, 1, 3, 232, 10, 23, 112] ∧
      answered (after (.setMeter [2]) State.reset) = [4] ∧ answered (after (.setProbeTrim [3, 0x80]) State.reset) = [1, 3, 0xEC] := by
  decide +kernel

/-- 2.5.3: COLLECTOR and LOOP_FLOW exchanged. -/
theorem test_setProbeMap_exchanges :
    let t := after (.setProbeMap [3, 4, 5, 6, 7, 8, 1, 0, 10, 9, 11, 2, 15, 12, 9, 6, 3, 0]) State.reset
    t.pfe.map.roleOf 0 = some .loopFlow ∧ t.pfe.map.roleOf 1 = some .collector ∧
      answered (after (.setProbeMap [3, 4, 5, 6, 7, 8, 2, 0, 10, 9, 11, 1, 15, 12, 9, 6, 3, 0]) State.reset) = [4] := by
  decide +kernel

theorem test_resets_clear_the_port :
    (after .powerOn { State.reset with mpt := { State.reset.mpt with discards := 7, lock := true } }).mpt = State.reset.mpt ∧
      (after .resetPin seeded).clm.model = .unseeded := by
  decide +kernel

/-! ### Witnesses: for every statement with hypotheses, a state and operands that meet them -/

theorem takes_of_idle_port {s : State} (h : s.mpt = State.reset.mpt) (k : Byte) (p : List Byte) : s.Takes k p := by
  unfold State.Takes; rw [h]; exact ⟨rfl, .inl rfl⟩

/-- A block at work: a heat pump running for MID, the model seeded, a command waiting. -/
def busy : State :=
  { (pumping (.running 1 (some (.zone .mid)))).setService .mid (.serving .s1) with pending := [.minimumRunCompletion .s1] }

theorem of_allZones {p : Zone → Prop} (h : ∀ z ∈ allZones, p z) (z : Zone) : p z := h z (by cases z <;> decide)

theorem of_allSlots {p : SlotId → Prop} (h : ∀ n ∈ allSlots, p n) (n : SlotId) : p n := h n (by cases n <;> decide)

theorem witness_FaultMonitorPromiseIsKept : busy.faultsOk ∧ ∃ t, step busy = .next t :=
  ⟨by unfold State.faultsOk
      exact ⟨by decide +kernel, by decide +kernel, fun r h => absurd h (by rw [show busy.flt.first = none from rfl]; simp),
        by decide +kernel, by decide +kernel⟩, _, rfl⟩

theorem witness_LinePromiseIsKept : busy.linesOk ∧ busy.agreeOk ∧ ∃ t, step busy = .next t :=
  ⟨by unfold State.linesOk Line.relayOk Line.pwmOk; decide +kernel, by unfold State.agreeOk; decide +kernel, _, rfl⟩

theorem busy_servicesOk : busy.servicesOk where
  serving z n := by cases z <;> cases n <;> decide +kernel
  suspended z n := by cases z <;> cases n <;> decide +kernel
  once y z n := by cases y <;> cases z <;> cases n <;> decide +kernel
  claimed n := by cases n <;> decide +kernel
  noted n z := by cases n <;> cases z <;> decide +kernel
  held n z := by cases n <;> cases z <;> decide +kernel
  lent n := by cases n <;> decide +kernel
  left n h hm := by cases hm
  leftZone n z hm := by cases hm
  leftStep n hm := by cases hm
  distinct := by decide +kernel
  heating n := by cases n <;> decide +kernel

theorem witness_SlotPromiseIsKept : busy.slotsOk ∧ busy.servicesOk ∧ ∃ t, step busy = .next t :=
  ⟨by unfold State.slotsOk Slot.ok; intro n; cases n <;> decide +kernel, busy_servicesOk, _, rfl⟩

/-- At work, with a DRAW meter present and a pending volume one below a slice. -/
theorem witness_LayerPromiseIsKept :
    let s : State := { busy with fmu := { busy.fmu with draw := { busy.fmu.draw with mlPerPulse := 10 }, pendingVolume := 1499 } }
    s.layersOk ∧ (s.dryOk ∧ State.reset.dryOk) ∧ s.fmu.pendingVolume < s.clm.sliceVolume ∧
      ∃ t, step s = .next t ∧ s.clm.sliceVolume ≤ t.clm.sliceVolume :=
  ⟨by unfold State.layersOk; decide +kernel, by unfold State.dryOk; decide +kernel, by decide +kernel, _, rfl,
    by decide +kernel⟩

theorem witness_SolarPromiseIsKept : busy.solarOk ∧ ∃ t, step busy = .next t :=
  ⟨by unfold State.solarOk; decide +kernel, _, rfl⟩

theorem witness_ProbePromiseIsKept : busy.probesOk ∧ ∃ t, step busy = .next t := by
  refine ⟨⟨fun c => ?_, ProbeMap.default_ok⟩, _, rfl⟩
  have : busy.pfe.channels[c] = ⟨.ok 0 none, 0⟩ := by revert c; decide +kernel
  rw [this]
  exact ⟨⟨by decide, fun _ h => by cases h⟩, by decide, by decide⟩

theorem witness_HoldPointerPromiseIsKept : busy.holdOk ∧ ∃ t, step busy = .next t :=
  ⟨by unfold State.holdOk; decide +kernel, _, rfl⟩

theorem witness_PortPromiseIsKept : busy.portOk ∧ ∃ t, step busy = .next t :=
  ⟨by unfold State.portOk; decide +kernel, _, rfl⟩

theorem reset_settingsOk : State.reset.settingsOk := by
  refine ⟨⟨?_, ?_, by decide +kernel, fun z => ?_, by decide +kernel, fun n => ?_, by decide +kernel, ?_, ?_,
    by decide +kernel⟩, fun z => ⟨?_, fun n hn => ?_⟩, .inl rfl, by unfold State.trimsOk; decide +kernel⟩
  · unfold Clm.figuresOk; decide +kernel
  · unfold Fmu.figuresOk; decide +kernel
  · unfold ZoneRec.figuresOk; cases z <;> decide +kernel
  · unfold SlotSettings.ok; cases n <;> decide +kernel
  · unfold SolarSettings.ok; decide +kernel
  · unfold HoldSettings.ok; decide +kernel
  · cases z <;> exact List.nodup_nil
  · cases z <;> cases hn

theorem witness_SettingRangesAreKept : State.reset.settingsOk ∧ ∃ t, step State.reset = .next t := ⟨reset_settingsOk, _, rfl⟩

/-- A block whose limits are locked. -/
def locked : State := { State.reset with mpt := { State.reset.mpt with lock := true } }

theorem witness_LockedLimitsStand :
    Instr.setHold [] ≠ .powerOn ∧ Instr.setHold [] ≠ .resetPin ∧ locked.solarOk ∧ locked.mpt.lock = true ∧
      ∃ t, exec (.setHold []) locked = .next t :=
  ⟨by decide, by decide, by unfold State.solarOk; decide +kernel, rfl, _, rfl⟩

/-- A command that writes no setting, at the front of the queue too, and the empty queue. -/
theorem witness_OnlySettingRequestsMoveSettings :
    writesSettings busy (.boost [0, 2, 88]) = false ∧ (∃ t, exec (.boost [0, 2, 88]) busy = .next t) ∧
      (busy.pending.head?.any (writesSettings busy) = false ∧ ∃ t, step busy = .next t) ∧
      (State.reset.pending.head? = none ∧ ∃ t, step State.reset = .next t) :=
  ⟨rfl, ⟨_, rfl⟩, ⟨rfl, _, rfl⟩, rfl, _, rfl⟩

/-- The shortest and the longest payload. -/
theorem witness_EveryFrameIsJudgedByItsCheck :
    State.reset.mpt.assembler = .hunt ∧ State.reset.mpt.gapTimer = none ∧ ([] : List Byte).length ≤ 64 ∧
      (List.replicate 64 (0 : Byte)).length ≤ 64 := by
  decide +kernel

theorem witness_ReceiverBeginsAndDiscardsFrames :
    State.reset.mpt.assembler = .hunt ∧ State.reset.mpt.gapTimer = none ∧ (0 : Byte) ≠ 0xC5 ∧
      (after (.receiveByte 0xC5 false) State.reset).mpt.assembler = .length ∧ 64 < (65 : Byte).toNat ∧
      (after (.receiveByte 0xC5 false) State.reset).mpt.assembler ≠ .hunt := by
  decide +kernel

/-- Both disjuncts: a reply under way, and another request the oldest. -/
theorem witness_RequestWaitsInTheQueue :
    kindOf (.surplus [5, 220]) = some 0x25 ∧ (Instr.surplus [5, 220]).payload? = some [5, 220] ∧
      (Instr.surplus [5, 220]).wellFormed = true ∧ (after (.status []) State.reset).mpt.reply ≠ none ∧
      (after .replySent (after (.boost [0, 2, 88]) (after (.status []) State.reset))).mpt.queue = [⟨0x23, [0, 2, 88]⟩] ∧
      (⟨0x23, [0, 2, 88]⟩ : Frame) ≠ ⟨0x25, [5, 220]⟩ := by
  decide +kernel

/-- An unknown kind and a wrong length; and around each length that depends on the payload, one that is refused. -/
theorem witness_MalformedRequestIsRefused :
    knownKind 0x40 = false ∧ (∀ k p, State.reset.Takes k p) ∧ kindOf (.ident [1]) = some 0x01 ∧
      (Instr.ident [1]).payload? = some [1] ∧ fixedLength (.ident [1]) = some 0 ∧ [(1 : Byte)].length ≠ 0 ∧
      (∀ p ∈ ([[], [0, 1, 244, 0, 50, 0, 50], [0, 1, 244, 0, 50, 0, 50, 1], [0, 1, 244, 0, 50, 0, 50, 5, 1, 2, 3, 4, 1]] : List (List Byte)),
        ¬ (7 < p.length ∧ byteAt p 7 ≤ 4 ∧ p.length = 8 + byteAt p 7)) ∧
      (∀ p ∈ ([[], List.replicate 10 0, List.replicate 12 0] : List (List Byte)),
        ¬ (10 < p.length ∧ byteAt p 10 ≤ 4 ∧ p.length = 11 + byteAt p 10)) ∧
      (∀ p ∈ ([[], [0, 0, 2, 3, 132], 1 :: List.replicate 20 0, 4 :: List.replicate 22 0] : List (List Byte)),
        p = [] ∨ byteAt p 0 = 0 ∧ p.length ≠ 6 ∨ 1 ≤ byteAt p 0 ∧ byteAt p 0 ≤ 4 ∧ p.length ≠ 22) ∧
      16 < (List.replicate 17 (1 : Byte)).length :=
  ⟨by decide, takes_of_idle_port rfl, rfl, rfl, rfl, by decide, by decide +kernel, by decide +kernel, by decide +kernel,
    by decide⟩

/-- A read is taken from an empty queue and as the oldest request; each clause's hypothesis has this form. -/
theorem witness_ReadsAnswerAndChangeNothing :
    (∀ k p, State.reset.Takes k p) ∧
      (after .replySent (after (.layers [3]) (after (.status []) State.reset))).Takes 0x03 [3] :=
  ⟨takes_of_idle_port rfl, by unfold State.Takes; decide +kernel⟩

/-- The state with an interval at either end of its range. -/
def linked (v : Nat) : State := { State.reset with mpt := { State.reset.mpt with interval := v } }

theorem witness_SettingsReadBackAreTakenAsSent :
    State.reset.settingsOk ∧ State.reset.mpt.interval = 0 ∧ (10 ≤ (linked 10).mpt.interval ∧ (linked 10).mpt.interval ≤ 600) ∧
      (10 ≤ (linked 600).mpt.interval ∧ (linked 600).mpt.interval ≤ 600) ∧ (linked 600).settingsOk ∧ (linked 10).settingsOk ∧
      (∀ x : Fin 10, x.val = 0 ∨ x.val = 3 ∨ x.val = 4 ∨ x.val = 9 → ∃ p, configData x.val 0 State.reset = some p) ∧
      ∀ k p, State.reset.Takes k p := by
  refine ⟨reset_settingsOk, rfl, by decide, by decide,
    ⟨reset_settingsOk.1, reset_settingsOk.2.1, .inr (by decide), reset_settingsOk.2.2.2⟩,
    ⟨reset_settingsOk.1, reset_settingsOk.2.1, .inr (by decide), reset_settingsOk.2.2.2⟩, ?_, takes_of_idle_port rfl⟩
  rintro x (h | h | h | h) <;> rw [h] <;> exact ⟨_, rfl⟩

/-- The ends of the interval's clauses. -/
theorem witness_LinkAndLockRequestsAreTaken :
    (∀ x ∈ ([[0, 0], [0, 1], [0, 9], [0, 10], [2, 88], [2, 89]] : List (List Byte)), x.length = 2) ∧
      (∀ k p, State.reset.Takes k p) ∧ (∀ k p, (linked 60).mpt.reply = none → (linked 60).Takes k p) :=
  ⟨by decide, takes_of_idle_port rfl, fun _ _ _ => ⟨rfl, .inl rfl⟩⟩

theorem witness_LinkLapseReturnsTheBlockToItself :
    ({ linked 60 with mpt := { (linked 60).mpt with supervision := some 1 } } : State).mpt.supervision = some 1 := rfl

/-- A reply under way, without and with each restart due; each code of RESTART. -/
theorem witness_RepliesEndAndRestartsFollow :
    (∀ b : Byte, State.reset.Takes 0x2B [b]) ∧ (∃ r, (after (.ident []) State.reset).mpt.reply = some r) ∧
      (after (.ident []) State.reset).mpt.restartDue = none :=
  ⟨fun _ => takes_of_idle_port rfl _ _, ⟨_, rfl⟩, rfl⟩

/-- With a call line, a pump line and no alert relay; and with the alert relay under each of its conditions. -/
theorem witness_WarmRestartKeepsWhatItMust :
    ((∃ r, (after (.restart [0]) busy).mpt.reply = some r) ∧ (after (.restart [0]) busy).mpt.restartDue = some .warm) ∧
      (after (.restart [0]) busy).olu[0].function = .sourceCall .s1 ∧
      (let s := withLine 5 .alertRelay busy
       s.carrier .alertRelay = some 5 ∧ s.flt.relayCondition = false ∧
         (report .sourceTripped (.slot .s2) s).flt.relayCondition = true) :=
  ⟨⟨⟨_, rfl⟩, rfl⟩, rfl, by decide +kernel⟩

theorem witness_ColdRestartKeepsWhatItMust :
    (∃ r, (after (.restart [1]) busy).mpt.reply = some r) ∧ (after (.restart [1]) busy).mpt.restartDue = some .cold :=
  ⟨⟨_, rfl⟩, rfl⟩

/-! Witnesses of the requests: the port of `State.reset`, `sources` and `busy` is idle, so every request is taken there. -/

theorem witness_requests_are_taken :
    (∀ k p, State.reset.Takes k p) ∧ (∀ k p, seeded.Takes k p) ∧ (∀ k p, sources.Takes k p) ∧ ∀ k p, busy.Takes k p :=
  ⟨takes_of_idle_port rfl, takes_of_idle_port rfl, takes_of_idle_port rfl, takes_of_idle_port rfl⟩

/-- The volume kept, blocked, and taken. -/
theorem witness_SetCylinderIsJudgedByTheVolume :
    ([0, 192, 16, 0, 100, 0, 150, 1, 144, 2] : List Byte).length = 10 ∧ max 64 (min 512 (192 / 16 * 16)) = State.reset.clm.volume ∧
      max 64 (min 512 (64 / 16 * 16)) ≠ State.reset.clm.volume ∧ busy.volumeBlocked = true ∧ State.reset.volumeBlocked = false := by
  decide +kernel

/-- Each bound of the first clause, a service in progress, and the widest bounds taken. -/
theorem witness_SetZoneBoundsIsJudgedInOrder :
    (0 : Byte).toNat < 1 ∧ 15 < (16 : Byte).toNat ∧ ¬ (5 : Byte).toNat < (5 : Byte).toNat ∧
      (¬ ((1 : Byte).toNat < 1 ∨ 15 < (15 : Byte).toNat ∨ ¬ (1 : Byte).toNat < (15 : Byte).toNat)) ∧
      ((busy.setService .mid (.serving .s1)).service .mid).inProgress = true ∧
      ((sources.service .top).inProgress || (sources.service .mid).inProgress || (sources.service .low).inProgress) = false := by
  decide +kernel

/-- A ranking taken, one refused, an unknown zone, and minima absent and present. -/
theorem witness_SetZoneIsTakenWholeOrNotAtAll :
    rankingLength [1, 1, 194, 0, 50, 0, 50, 2, 2, 1] 7 = true ∧ rankingAt [1, 1, 194, 0, 50, 0, 50, 2, 2, 1] 7 = some [.s2, .s1] ∧
      (∀ n ∈ [SlotId.s2, SlotId.s1], (sources.slot n).cls.heating = true ∧ (sources.slot n).settings.coilLow.val ≤ sources.zdu.topLayer .mid) ∧
      ¬ (sources.slot .s3).settings.coilLow.val ≤ sources.zdu.topLayer .mid ∧ zoneOfCode 3 = none ∧ zoneOfCode 1 = some .mid ∧
      State.reset.zoneMinimum .mid = none ∧ sources.zoneMinimum .mid = some 347 ∧ (sources.zone .mid).boost = none := by
  decide +kernel

/-- A record for a DISABLED slot, taken; each form that is BAD_VALUE, at the bound of its range. -/
theorem witness_SetSourceConfiguresADisabledSlot :
    let p : List Byte := [2, 2, 8, 10, 0, 50, 2, 188, 0, 0, 0, 120, 0, 30, 0, 60, 20, 0, 0, 1, 0, 60]
    let bad (s : State) (p : List Byte) (n : SlotId) : Bool := decide <|
      p.length = 22 ∧ byteAt p 0 = slotNumber n ∧
        (4 < byteAt p 1 ∨ 15 < byteAt p 2 ∨ 15 < byteAt p 3 ∨ byteAt p 3 < byteAt p 2 ∨
          3 < byteAt p 19 ∧ byteAt p 19 < 0xFE ∨ byteAt p 19 ≤ 3 ∧ byteAt p 1 ≠ 1 ∧ byteAt p 1 ≠ 2 ∨
          (s.slot .s2).settings.confirm = some 1 ∧ n ≠ .s2 ∧ byteAt p 19 = 1 ∨
          s.carrier (.sourceCall n) ≠ none ∧ (byteAt p 1 = 0 ∨ byteAt p 1 = 4) ∨
          s.carrier (.diverterDrive n) ≠ none ∧ byteAt p 1 ≠ 4)
    (p.length = 22 ∧ byteAt p 0 = slotNumber .s2 ∧ classOfCode (byteAt p 1) = some .boiler ∧ byteAt p 2 = (8 : Fin 16).val ∧
      byteAt p 3 = (10 : Fin 16).val ∧ (8 : Fin 16) ≤ 10 ∧ confirmAsked .boiler (byteAt p 19) = some (some 1) ∧
      (∀ m ∈ allSlots, m ≠ SlotId.s2 → (State.reset.slot m).settings.confirm ≠ some 1) ∧
      State.reset.carrier (.sourceCall .s2) = none ∧ State.reset.carrier (.diverterDrive .s2) = none ∧
      (State.reset.slot .s2).state = .disabled) ∧
    4 < byteAt [5] 0 ∧ bad State.reset (p.set 1 5) .s2 ∧ bad State.reset (p.set 2 16) .s2 ∧ bad State.reset (p.set 3 16) .s2 ∧
    bad State.reset (p.set 3 7) .s2 ∧ bad State.reset (p.set 19 4) .s2 ∧ bad State.reset (p.set 19 0xFD) .s2 ∧
    bad State.reset (p.set 1 3) .s2 ∧ bad sources (p.set 0 3) .s3 ∧
    bad (withLine 0 (.sourceCall .s2) State.reset) ((p.set 1 4).set 19 0xFF) .s2 ∧
    bad (withLine 6 (.diverterDrive .s4) State.reset) (p.set 0 4) .s4 := by
  decide +kernel

/-- A COLD boiler asked for another ceiling, and for another minimum run; an IDLE diverter asked for another ceiling. -/
theorem witness_SetSource_of_a_slot_in_use :
    let p : List Byte := [2, 2, 8, 10, 11, 184, 2, 138, 0, 0, 0, 120, 0, 30, 0, 60, 20, 0, 0, 1, 0, 60]
    let d : List Byte := [4, 4, 12, 13, 11, 184, 2, 138, 0, 0, 0, 30, 0, 0, 0, 0, 0, 0, 0, 0xFE, 0, 60]
    (sources.slot .s2).state ≠ .disabled ∧ (sources.slot .s4).state ≠ .disabled ∧
      (let x := settingsAsked .boiler 8 10 (some 1) p
       x.ceiling = 650 ∧ (sources.slot .s2).cls = .boiler ∧
         { x with ceiling := (sources.slot .s2).settings.ceiling } = (sources.slot .s2).settings) ∧
      (let x := settingsAsked .boiler 8 10 (some 1) (p.set 9 1)
       { x with ceiling := (sources.slot .s2).settings.ceiling } ≠ (sources.slot .s2).settings) ∧
      confirmAsked .diverter (byteAt d 19) = some none ∧ classOfCode (byteAt d 1) = some .diverter ∧
      (let x := settingsAsked .diverter 12 13 none d
       x.ceiling = 650 ∧ { x with ceiling := (sources.slot .s4).settings.ceiling } = (sources.slot .s4).settings) := by
  decide +kernel

/-- Each branch of slot 0's request. -/
theorem witness_SetSourceOfSlotZeroIsJudgedInOrder :
    (([0, 0, 2, 3, 132, 30] : List Byte).length = 6 ∧ byteAt [0, 0, 2, 3, 132, 30] 0 = 0) ∧ (1 : Fin 16) < 2 ∧
      15 < byteAt [0, 16, 2, 3, 132, 30] 1 ∧ 15 < byteAt [0, 0, 16, 3, 132, 30] 2 ∧
      (locked.mpt.lock = true ∧ max 750 (min 950 (899 : Int)) ≠ locked.scu.hardMax) ∧ (1 : Fin 16) ≠ State.reset.scu.coil0Low ∧
      ({ State.reset with slc := { State.reset.slc with state := .run } } : State).slc.state.circulates = true := by
  decide +kernel

theorem witness_SetSolarIsJudgedInOrder :
    ([0, 70, 0, 30, 30, 5, 3, 32, 4, 176, 0, 30, 2, 0, 150, 20, 1, 44] : List Byte).length = 18 ∧
      1 < byteAt [0, 70, 0, 30, 30, 5, 3, 32, 4, 176, 0, 30, 2, 0, 150, 20, 1, 44] 12 ∧ locked.mpt.lock = true ∧
      max 600 (min (locked.scu.hardMax - 50) 801) ≠ locked.slc.settings.solarMax := by
  decide +kernel

theorem witness_SetHoldIsJudgedInOrder :
    let p : List Byte := [1, 2, 89, 20, 0, 168, 2, 8, 0, 240, 2, 2, 1]
    rankingLength p 10 = true ∧ widthOfNumber (byteAt p 6) = some .two ∧ rankingAt p 10 = some [.s2, .s1] ∧
      [SlotId.s2, SlotId.s1].Nodup ∧ ¬ [SlotId.s1, SlotId.s1].Nodup ∧ widthOfNumber 3 = none ∧
      (locked.mpt.lock = true ∧ max 550 (min 700 (signedWordAt p 1)) ≠ locked.ths.settings.temp) := by
  decide +kernel

/-- A map taken with its probe there, with none and with a FAULTED one, under each cause of the latch; and one map for each
form that is BAD_VALUE, at the bound of its range. -/
theorem witness_SetProbeMapReplacesTheMapWhole :
    let p : List Byte := [3, 4, 5, 6, 7, 8, 1, 0, 10, 9, 11, 2, 15, 12, 9, 6, 3, 0]
    let f := convert 2 1501 (convert 2 1501 (convert 2 1501 seeded))
    (p.length = 18 ∧ (∀ i : Fin 12, byteAt p i.val ≤ 11) ∧ (∀ i j : Fin 12, i ≠ j → byteAt p i.val ≠ byteAt p j.val) ∧
      (∀ a : Fin 6, byteAt p (12 + a.val) ≤ 15) ∧ (∀ a b : Fin 6, a ≠ b → byteAt p (12 + a.val) ≠ byteAt p (12 + b.val)) ∧
      byteAt p 6 ≤ 1 ∧ byteAt p 7 ≤ 1) ∧
    (byteAt (p.set 11 0xFF) 11 = 0xFF ∧ State.reset.pfe.channels[2].isFaulted = false ∧ f.pfe.channels[2].isFaulted = true ∧
      f.scu.latch = .probeLost ∧ State.reset.scu.latch ≠ .probeLost) ∧
    (byteAt (p.set 0 12) 0 = 12 ∧ byteAt (p.set 17 16) 17 = 16 ∧ byteAt (p.set 1 3) 1 = byteAt (p.set 1 3) 0 ∧
      byteAt (p.set 12 12) 12 = byteAt (p.set 12 12) 13 ∧ byteAt ((p.set 6 2).set 11 1) 6 = 2 ∧ byteAt ((p.set 7 2).set 11 0) 7 = 2) ∧
    answered (after (.setProbeMap (p.set 12 12)) State.reset) = [4] ∧
    (answered (after (.setProbeMap ((p.set 12 12).set 0 0xFF)) State.reset)).head? = some 0 := by
  decide +kernel

/-- The last channel and the first number that is none; each form of SET_METER. -/
theorem witness_TrimsAndMetersAreTakenAlone :
    (11 : Byte).toNat < 12 ∧ 12 ≤ (12 : Byte).toNat ∧
      (byteAt [0, 0, 10, 2] 0 = 0 ∧ ([0, 0, 10, 2] : List Byte).length = 4) ∧
      (byteAt [1, 0, 5, 10, 23, 112] 0 = 1 ∧ ([1, 0, 5, 10, 23, 112] : List Byte).length = 6) ∧
      (byteAt [0] 0 = 0 ∧ ([0] : List Byte) ≠ [] ∧ ([0] : List Byte).length ≠ 4) ∧
      (byteAt [1] 0 = 1 ∧ ([1] : List Byte).length ≠ 6) ∧ 1 < byteAt [2] 0 := by
  decide +kernel

/-- Each code that is none, each form the map does not allow, a slot in use, a function kept, and one taken; and lines in the
conditions a driver leaves, closed, resting and duty. -/
theorem witness_SetOutputIsJudgedInOrder :
    let pumped := withLine 3 (.sourcePump .s1) State.reset
    (7 < (8 : Byte).toNat ∧ (2 : Byte).toNat = (2 : Fin 8).val) ∧
      (∀ y ∈ ([0x01, 0x10, 0x15, 0x20, 0x35, 0x41, 0x51, 0xFF] : List Byte), functionOfCode y.toNat = none) ∧
      ((0x31 : Byte).toNat = 0x30 + slotNumber .s1 ∧ (0x21 : Byte).toNat = 0x20 + slotNumber .s1) ∧
      (pumped.olu[3].function = .sourcePump .s1 ∧ (3 : Fin 8) ≠ 2) ∧ (State.reset.slot .s1).cls = .noSource ∧
      ¬ 6 ≤ (2 : Fin 8).val ∧ (sources.slot .s4).cls = .diverter ∧ (sources.slot .s1).cls ≠ .diverter ∧
      (sources.slot .s1).state ≠ .disabled ∧ State.reset.slc.state ≠ .disabled ∧ (State.reset.slot .s1).state = .disabled ∧
      (∀ j : Fin 8, State.reset.olu[j].function ≠ .sourcePump .s1) ∧
      ((⟨.noFunction, .auto, 100, 100, 5, none, false⟩ : Line).relayOk ∧ (⟨.noFunction, .auto, 0, 0, 5, some 3, false⟩ : Line).relayOk ∧
        (⟨.noFunction, .auto, 40, 40, 5, none, false⟩ : Line).pwmOk) := by
  unfold Line.relayOk Line.pwmOk; decide +kernel

theorem witness_SetFaultPolicyIsTakenWholeOrNotAtAll :
    (List.replicate 16 (2 : Byte)).length = 16 ∧ 3 < byteAt (List.replicate 16 (4 : Byte)) 15 ∧
      byteAt (List.replicate 16 (1 : Byte)) 2 < 2 ∧ byteAt (List.replicate 16 (1 : Byte)) 3 < 2 ∧
      ¬ ((∃ i : Fin 16, 3 < byteAt (List.replicate 16 (2 : Byte)) i.val) ∨ byteAt (List.replicate 16 (2 : Byte)) 2 < 2 ∨
        byteAt (List.replicate 16 (2 : Byte)) 3 < 2) := by
  decide +kernel

/-- A slot without a source, a disabled diverter, boiler and one without minimum off; slot 0 in both states. -/
theorem witness_SourceEnableAndResetAreJudgedByTheState :
    (4 : Byte).toNat = slotNumber .s4 ∧ (State.reset.slot .s4).cls = .noSource ∧
      ((withSlot .s4 .diverter immersion .disabled sources).slot .s4).state = .disabled ∧
      0 < ((withSlot .s2 .boiler boiler .disabled sources).slot .s2).settings.minOff ∧
      ((withSlot .s2 .boiler { boiler with minOff := 0 } .disabled sources).slot .s2).settings.minOff = 0 ∧
      State.reset.slc.state ≠ .disabled ∧ 4 < (5 : Byte).toNat ∧
      ((withSlot .s2 .boiler boiler .tripped sources).slot .s2).state = .tripped := by
  decide +kernel

theorem witness_SourceDisableIsTakenInEveryState :
    (1 : Byte).toNat = slotNumber .s1 ∧ (4 : Byte).toNat = slotNumber .s4 ∧ State.reset.slc.state ≠ .disabled ∧ 4 < (5 : Byte).toNat := by
  decide

/-- A boost already reached, one that stands, and one under an UNSEEDED model; each zone code and the first that is none. -/
theorem witness_BoostIsSetAndCancelled :
    (([0, 2, 88] : List Byte).length = 3 ∧ ([3, 2, 88] : List Byte).length = 3 ∧ 2 < byteAt [3, 2, 88] 0) ∧
      zoneOfCode (byteAt [0, 2, 88] 0) = some .top ∧ zoneOfCode (2 : Byte).toNat = some .low ∧
      2 < (3 : Byte).toNat ∧ (seeded.zoneMinimum .top).any (fun m => decide (420 ≤ m)) = true ∧
      (seeded.zoneMinimum .top).any (fun m => decide (600 ≤ m)) = false ∧ State.reset.zoneMinimum .top = none := by
  decide +kernel

/-- Slots of another class, diverters DISABLED, IDLE and DIVERTING, and a drive line in AUTO. -/
theorem witness_SurplusIsHeldForItsTime :
    let s := withLine 6 (.diverterDrive .s4) sources
    let t := after (.surplus [4, 176]) { s with clm := { s.clm with layers := tableOf [152, 181, 210] [] } }
    ([117, 48] : List Byte).length = 2 ∧ (after (.surplus [117, 48]) sources).scu.surplusTimer ≠ none ∧
      (sources.slot .s1).cls ≠ .diverter ∧ (sources.slot .s4).cls = .diverter ∧ (sources.slot .s4).state ≠ .disabled ∧
      ((withSlot .s4 .diverter immersion .disabled sources).slot .s4).state = .disabled ∧
      s.carrier (.diverterDrive .s4) = some 6 ∧ s.olu[6].mode = .auto ∧ s.linesOk ∧
      (t.slot .s4).state = .diverting ∧ t.scu.surplusTimer ≠ none := by
  unfold State.linesOk Line.relayOk Line.pwmOk; decide +kernel

theorem witness_ForcingSetsTheModeOfOneLine :
    (7 : Byte).toNat = (7 : Fin 8).val ∧ (1 : Byte).toNat ≤ 1 ∧ (0 : Byte).toNat ≤ 1 ∧
      (withLine 7 .solarPump State.reset).olu[7].function = .solarPump ∧ State.reset.olu[7].function = .noFunction := by
  decide +kernel

/-- The stepper disabled, a step running, and idle above aged layers. -/
theorem witness_HoldNowAsksForAFullPass :
    State.reset.ths.settings.enable = false ∧ (holding seeded).ths.settings.enable = true ∧ (holding borrowing).ths.step ≠ .idle ∧
      (holding seeded).ths.step = .idle ∧
      (∃ i : Fin 16, 16 - (holding seeded).ths.settings.width.layers ≤ i.val ∧ (holding seeded).ths.settings.base ≤ i ∧
        (holding seeded).clm.layers[i].holdAge ≥ (holding seeded).ths.settings.creditAge ∧
        (holding seeded).clm.layers[i].hotDwell ≠ (holding seeded).ths.settings.dwell) := by
  decide +kernel

/-- The empty list, the longest, and codes at each side of their range. -/
theorem witness_ClearFaultsClearsTheNamedKinds :
    ([] : List Byte).length ≤ 16 ∧ (List.replicate 16 (16 : Byte)).length ≤ 16 ∧ (0 : Byte).toNat < 1 ∧ 16 < (17 : Byte).toNat ∧
      (1 : Byte).toNat = FaultKind.probeOpen.code ∧ (16 : Byte).toNat = FaultKind.linkLapse.code := by
  decide +kernel

/-! Witnesses of the events. -/

/-- A channel whose turn it is and one whose turn it is not; readings at both sides of a band's ends, on a channel that is
OK and one that is FAULTED; a scan that the conversion leaves open and one it completes, with anchors and without. -/
theorem witness_ConversionIsDebounced :
    let scanning (c : Fin 12) (s : State) : State := { s with pfe := { s.pfe with scanNext := c } }
    let s := scanning 5 (withValue 5 455 seeded)
    let last : State := { scanning 11 State.reset with clm := { State.reset.clm with scanned := (Vector.replicate 12 true).set 11 false } }
    let f := convert 5 1501 (convert 5 1501 (convert 5 1501 seeded))
    (s.pfe.scanNext = 5 ∧ s.pfe.scanNext ≠ 4) ∧ s.pfe.channels[5].status = .ok 0 (some 455) ∧
      (classify 5 (-400) = none ∧ classify 5 1500 = none ∧ classify 5 (-401) = some .openCircuit ∧
        classify 5 1501 = some .shortCircuit ∧ classify 0 2501 = some .openCircuit) ∧
      f.pfe.channels[5].status = .faulted .shortCircuit 0 ∧
      (convert 5 1501 (convert 5 1501 seeded)).pfe.channels[5].status = .ok 2 none ∧
      (State.reset.clm.model = .unseeded ∧ ¬ ∀ d : Fin 12, (State.reset.clm.scanned.set 0 true)[d] = true) ∧
      (last.pfe.scanNext = 11 ∧ last.clm.model = .unseeded ∧ (∀ d : Fin 12, (last.clm.scanned.set 11 true)[d] = true)) ∧
      ((convert 11 180 (withValue 3 548 last)).anchorValue 15 ≠ none ∧ ∀ k : Fin 16, (convert 11 180 last).anchorValue k = none) := by
  decide +kernel

/-- An anchor that a value corrects, up and down; a channel in no anchor role; the last anchor lost and not lost. -/
theorem witness_ConversionIsDebounced_of_anchors :
    let s := withValue 5 455 (withValue 4 520 seeded)
    let alone := convert 5 1501 (convert 5 1501 (convert 5 1501 seeded))
    s.clm.model = .tracking ∧ s.pfe.map.roleOf 5 = some (.anchor 2) ∧ s.pfe.map.layer[2] = 9 ∧ s.temp 9 = 455 ∧
      ((convert 5 461 s).temp 9 = 457 ∧ (convert 5 449 s).temp 9 = 453 ∧ (convert 5 461 s).pfe.channels[5].value = some 461) ∧
      (∀ a : Fin 6, s.pfe.map.roleOf 0 ≠ some (.anchor a)) ∧
      (alone.clm.model = .freeRunning ∧ alone.pfe.channels[5].value = none ∧ ∀ a : Fin 6, alone.pfe.roleValue (.anchor a) = none) ∧
      ((convert 5 1501 (convert 5 1501 (convert 5 1501 s))).clm.model = .tracking) := by
  decide +kernel

/-- Layers at, between, above and below the anchors with a value, and a table without one. -/
theorem witness_ConversionIsDebounced_of_seeds :
    let u := withValue 5 455 (withValue 7 240 seeded)
    u.pfe.map.valid = true ∧ u.pfe.map.layer[2] = 9 ∧ u.pfe.map.channelOf (.anchor 2) ≠ none ∧
      (u.anchorValue 3 = some 240 ∧ u.anchorValue 9 = some 455) ∧ (∀ k : Fin 16, 3 < k → k < 9 → u.anchorValue k = none) ∧
      (∀ k : Fin 16, k < 3 → u.anchorValue k = none) ∧ (∀ k : Fin 16, 9 < k → u.anchorValue k = none) ∧
      ∀ k : Fin 16, State.reset.anchorValue k = none := by
  decide +kernel

/-- The latch clear and set; values at 899, 900, 849 and 850 under the default hard maximum; a value held over a bad
reading, a channel that is OK without one, and a FAULTED one. -/
theorem witness_TopLimitSetsAndClearsTheLatch :
    let s : State := { withValue 2 890 busy with pfe := { (withValue 2 890 busy).pfe with scanNext := 2 } }
    let f := convert 2 1501 (convert 2 1501 (convert 2 1501 s))
    s.pfe.scanNext = 2 ∧ s.pfe.map.roleOf 2 = some .topLimit ∧ s.pfe.channels[2].status = .ok 0 (some 890) ∧
      (s.slotsOk ∧ busy.slotsOk ∧ (convert 2 900 s).slotsOk) ∧ s.scu.latch = .clear ∧ busy.scu.hardMax = 900 ∧
      (convert 2 900 s).scu.latch = .overtemp ∧ (849 : Int) < 900 - 50 ∧ (900 : Int) - 50 ≤ 850 ∧
      (convert 2 1501 s).pfe.channels[2].status = .ok 1 (some 890) ∧
      (convert 2 1501 busy).pfe.channels[2].status = .ok 1 none ∧
      f.pfe.channels[2].status = .faulted .shortCircuit 0 ∧ f.scu.latch = .probeLost := by
  refine ⟨by decide +kernel, by decide +kernel, by decide +kernel, ⟨?_, ?_, ?_⟩, by decide +kernel, by decide +kernel,
    by decide +kernel, by decide, by decide, by decide +kernel, by decide +kernel, by decide +kernel, by decide +kernel⟩
  all_goals unfold State.slotsOk Slot.ok; intro n; cases n <;> decide +kernel

/-- The collector good, absent and at its maximum, the loop DISABLED, the difference at each mark, and conversions that end
in each working state. -/
theorem witness_SolarLoopFollowsTheCollector :
    let s := withLine 6 .solarPump (withValue 0 420 (seededAt [160, 181, 210, 240, 275, 311, 347, 383, 419, 455, 476, 498, 520, 529, 538, 548]))
    let at_ (f : Slc → Slc) (s : State) : State := { s with slc := f s.slc }
    let cooling (s : State) : State := at_ (fun x => { x with settings := { x.settings with cooldownEnable := true, solarMax := 600 } }) s
    let hot : State := { s with clm := { s.clm with layers := s.clm.layers.set 15 ⟨600, 0, none, 0, 0⟩ } }
    s.pfe.scanNext = 0 ∧ s.pfe.map.roleOf 0 = some .collector ∧ s.slc.state = .off ∧ s.pfe.channels[0].status = .ok 0 (some 420) ∧
      s.slc.settings.collectorMax = 1200 ∧ s.clm.model ≠ .unseeded ∧ State.reset.clm.model = .unseeded ∧ s.carrier .solarPump = some 6 ∧
      (at_ (fun x => { x with state := .disabled }) s).slc.state = .disabled ∧
      (convert 0 2600 (convert 0 2600 (convert 0 2600 s))).slc.state = .fault ∧
      (convert 0 230 s).slc.state = .run ∧ (convert 0 229 s).slc.state = .off ∧
      (convert 0 1200 s).slc.state = .stagnant ∧ (convert 0 1199 s).slc.state = .run ∧
      (convert 0 30 s).slc.state = .frost ∧ (convert 0 31 s).slc.state = .off ∧
      (convert 0 500 (cooling hot)).slc.state = .limit ∧
      (convert 0 450 (convert 0 500 (cooling hot))).slc.state = .cooldown ∧
      (convert 0 451 (convert 0 500 (cooling hot))).slc.state = .limit := by
  decide +kernel

theorem witness_PulsesRecoveriesAndSecondsAreCounted : (5 : Fin 8).val < 6 ∧ State.reset.olu[5].recovery = some 5 := by decide +kernel

/-- A meter present and absent, saturated, slices formed and not, a gate of 128 slices and one of 129, the model seeded and
not. -/
theorem witness_DrawGateFormsSlices :
    let s : State := { seeded with fmu := { seeded.fmu with draw := { seeded.fmu.draw with mlPerPulse := 1000, count := 193, saturated := true } } }
    0 < State.reset.clm.sliceVolume ∧ State.reset.fmu.draw.mlPerPulse = 0 ∧ State.reset.clm.model = .unseeded ∧
      0 < s.fmu.draw.mlPerPulse ∧ s.clm.model ≠ .unseeded ∧ s.fmu.draw.saturated = true ∧ s.clm.sliceVolume = 1500 ∧
      128 * 1500 ≤ s.fmu.pendingVolume + s.fmu.draw.count * s.fmu.draw.mlPerPulse ∧
      s.fmu.pendingVolume + s.fmu.draw.count * s.fmu.draw.mlPerPulse < 129 * 1500 ∧ 129 * 1500 ≤ 499 + 193 * 1000 + 1 ∧
      (1499 : Nat) / 1500 = 0 := by
  decide +kernel

/-- The model in both conditions, the loop circulating and not, a flow value of each role and none, the third zero gate, and
energy that clips. -/
theorem witness_LoopGateFormsTheHeatRate :
    let s : State := { seeded with slc := { seeded.slc with state := .run } }
    let z : State := { s with fmu := { s.fmu with loop := { s.fmu.loop with mlPerPulse := 5 }, zeroGates := 2 } }
    s.clm.model ≠ .unseeded ∧ s.slc.state = .run ∧ State.reset.slc.state = .off ∧ State.reset.clm.model = .unseeded ∧
      ((withValue 1 652 s).pfe.map.channelOf .loopFlow = some 1 ∧ (withValue 1 652 s).pfe.channels[1].status = .ok 0 (some 652)) ∧
      ((withValue 0 652 s).pfe.channels[1].status = .ok 0 none ∧ (withValue 0 652 s).pfe.channels[0].status = .ok 0 (some 652)) ∧
      (0 < z.fmu.loop.mlPerPulse ∧ z.fmu.loop.count = 0 ∧ z.fmu.zeroGates < 3 ∧ min 3 (z.fmu.zeroGates + 1) = 3) ∧
      (Heating.split 5016 ⟨tableOf [1000, 1000, 1000] [], 0, none⟩ 0 2 30000).first = some 0 ∧
      (withLine 6 .solarPump s).carrier .solarPump = some 6 ∧ s.carrier .solarPump = none := by
  decide +kernel

/-- The model in both conditions, a slot of each working state, a layer that clips, and the widest coil. -/
theorem witness_ModelPeriodAppliesLossAndInjection :
    State.reset.clm.model = .unseeded ∧ busy.clm.model ≠ .unseeded ∧ (busy.slot .s1).state = .running 1 (some (.zone .mid)) ∧
      ((withSlot .s4 .diverter immersion .diverting sources).slot .s4).state = .diverting ∧ (sources.slot .s1).state = .cold ∧
      (0 : Fin 16) ≤ 15 ∧ (⟨1000, 0, none, 0, 0⟩ : Layer).temp + (0 + 5016) / 5016 = 1001 := by
  decide +kernel

/-- Energy that stands, that clips and that is more than the layer holds; a counter about to wrap. -/
theorem witness_HeatInTheTableIsAccountedFor :
    let l : Layer := ⟨999, 5000, none, 0, 0⟩
    0 ≤ l.temp ∧ l.temp ≤ 1000 ∧ 0 ≤ l.residue ∧ l.residue < 5016 ∧ (l.residue + 16) / 5016 = 1 ∧
      l.temp * 5016 + l.residue + (-5015984 - 1) < 0 ∧ (⟨0xFFFFFFFF, 999⟩ : EnergyCounter).remainder < 1000 ∧
      (⟨0xFFFFFFFF, 999⟩ : EnergyCounter).add 1 = ⟨0, 0⟩ := by
  decide +kernel

/-- Starts with the confirm active, inactive and unnamed; a minimum run of 0 below the ceiling and at it; WARM and COLD slots
with a warm time and without. -/
theorem witness_StartsFollowTheDwellAndTheConfirm :
    let s := pumping (.starting .cold .dwell 1 (.zone .mid))
    let b := withSlot .s3 .immersion { immersion with minRun := 0 } (.starting .cold .dwell 0 (.zone .top)) sources
    let w := pumping (.starting .cold .confirm 30 (.zone .mid))
    let h := withSlot .s3 .immersion { immersion with minRun := 0, ceiling := 529 } (.starting .cold .dwell 0 (.zone .top)) sources
    (s.slot .s1).state = .starting .cold .dwell 1 (.zone .mid) ∧ s.confirmActive .s1 = some false ∧
      ({ s with scu := { s.scu with confirmLevel := s.scu.confirmLevel.set 0 true } } : State).confirmActive .s1 ≠ some false ∧
      0 < (s.slot .s1).settings.minRun ∧ b.confirmActive .s3 ≠ some false ∧ (b.slot .s3).settings.minRun = 0 ∧
      b.temp (b.slot .s3).settings.coilHigh < (b.slot .s3).settings.ceiling ∧
      (h.slot .s3).settings.ceiling ≤ h.temp (h.slot .s3).settings.coilHigh ∧ (h.slot .s3).cls.heating = true ∧
      s.scu.confirmLevel[0] = false ∧ (w.slot .s1).state = .starting .cold .confirm 30 (.zone .mid) ∧
      (∀ m ∈ allSlots, (w.slot m).settings.confirm = some 0 ↔ m = .s1) ∧
      (∀ m ∈ allSlots, (w.slot m).settings.confirm ≠ some 3) ∧
      (((pumping (.warm 5)).slot .s1).state = .warm 5 ∧ ((pumping .cold).slot .s1).state = .cold ∧ heatPump.warmTime * 60 = 1800 ∧
        ((withSlot .s1 .heatPump { heatPump with warmTime := 0 } (.warm 5) sources).slot .s1).settings.warmTime * 60 = 0) := by
  decide +kernel

/-- Nothing waits and nothing seeks; and nothing can be granted. -/
theorem witness_noGrant : sources.noGrant ∧ (pumping (.warm 5)).noGrant ∧ State.reset.noGrant :=
  ⟨⟨rfl, .inr ⟨by decide, of_allZones (by decide +kernel)⟩⟩, ⟨rfl, .inr ⟨by decide, of_allZones (by decide +kernel)⟩⟩,
    ⟨rfl, .inl (by decide +kernel)⟩⟩

/-- A confirm window and a running slot, at no failure and at two. -/
theorem witness_FailuresCountToThree :
    let s := pumping (.starting .cold .confirm 1 (.zone .mid))
    let r := pumping (.running 700 (some (.zone .mid)))
    let r : State := { r with scu := { r.scu with confirmLevel := r.scu.confirmLevel.set 0 true } }
    (s.slot .s1).failures ≤ 2 ∧ ((s.setSlot .s1 { s.slot .s1 with failures := 2 }).slot .s1).failures ≤ 2 ∧
      (s.slot .s1).state = .starting .cold .confirm 1 (.zone .mid) ∧ (r.slot .s1).state = .running 700 (some (.zone .mid)) ∧
      (∀ m ∈ allSlots, (r.slot m).settings.confirm = some 0 ↔ m = .s1) ∧ r.scu.confirmLevel[0] = true := by
  decide +kernel

/-- A run's end in run-on, below the ceiling and at it; the ends of the rests (that nothing can be granted: above). -/
theorem witness_RunsAndRestsEnd :
    ((pumping (.running 1 none)).slot .s1).state = .running (0 + 1) none ∧
      ((pumping (.running 1 (some (.zone .mid)))).slot .s1).state = .running (0 + 1) (some (.zone .mid)) ∧
      sources.temp heatPump.coilHigh < heatPump.ceiling ∧
      (let l := withSlot .s2 .boiler { boiler with ceiling := 476 } (.running 1 (some (.zone .mid))) sources
       (l.slot .s2).settings.ceiling ≤ l.temp (l.slot .s2).settings.coilHigh ∧ (l.slot .s2).cls.heating = true ∧
         (l.slot .s2).state = .running (0 + 1) (some (.zone .mid))) ∧
      ((pumping (.overrun 60 600 true)).slot .s1).state = .overrun 60 600 true ∧
      ((pumping (.hold 600)).slot .s1).state = .hold 600 ∧ ((pumping (.warm 1800)).slot .s1).state = .warm 1800 := by
  decide +kernel

/-- Grants closed and open; a slot free in COLD, in WARM and in run-on; the solar loop carrying the demand and not. -/
theorem witness_ArbiterServesWaitingDemand :
    let s := withZone .mid [.s1] true (sources.setService .mid (.holdoff 1))
    let idle := withZone .mid [.s1] true sources
    State.reset.grantsOpen = false ∧ State.reset.sar.claim ≠ .seeking ∧
      s.grantsOpen = true ∧ s.sar.claim = .none ∧ (∀ y ∈ allZones, y ≠ .mid → s.service y ≠ .waiting) ∧
      (∀ y ∈ allZones, (s.service y).names .s1 = false) ∧ (s.zone .mid).ranking = [.s1] ∧ (s.slot .s1).cls.heating = true ∧
      (s.slot .s1).state = .cold ∧ 0 < (s.slot .s1).settings.startDwell + (s.slot .s1).settings.coldExtra ∧
      s.service .mid = .holdoff 1 ∧ s.sar.further = [] ∧ (s.setService .mid .waiting).service .mid = .waiting ∧
      ((State.reset.setService .top (.serving .s1)).service .top) = .serving .s1 ∧ idle.service .mid = .idle ∧
      (idle.zone .mid).urgent = false ∧ (idle.zone .mid).boost = none ∧ 0 < idle.sar.holdoffTime ∧
      (let sun : State := { idle with slc := { idle.slc with state := .run }, fmu := { idle.fmu with heatRate := 300 } }
       sun.slc.state = .run ∧ (sun.sar.threshold : Int) ≤ sun.fmu.heatRate) ∧ idle.slc.state ≠ .run := by
  decide +kernel

theorem witness_startsLater :
    (sources.slot .s1).startsLater ∧ ((pumping (.warm 5)).slot .s1).startsLater ∧ ((pumping (.running 7 none)).slot .s1).startsLater :=
  ⟨(by decide : 0 < 120 + 180), (by decide : 0 < 120), trivial⟩

/-- A service that a cleared demand leaves IDLE: WAITING, in HOLDOFF, and SERVING a start, a run and a complete run. -/
theorem witness_ArbiterServesWaitingDemand_cleared :
    let served (st : SlotState) : State := (pumping st).setService .mid (.serving .s1)
    (∀ y ∈ allZones, y ≠ .mid → (served .cold).service y ≠ .waiting) ∧ (served .cold).sar.claim ≠ .seeking ∧
      (served .cold).service .mid = .serving .s1 ∧ (served .cold).sar.further = [] ∧
      ((served (.starting .warm .dwell 9 (.zone .mid))).slot .s1).state = .starting .warm .dwell 9 (.zone .mid) ∧
      ((served (.running 8 (some (.zone .mid)))).slot .s1).state = .running (7 + 1) (some (.zone .mid)) ∧
      ((served (.running 0 (some (.zone .mid)))).slot .s1).state = .running 0 (some (.zone .mid)) ∧
      (sources.setService .mid (.holdoff 5)).service .mid = .holdoff 5 := by
  decide +kernel

/-- Each claim under which the messages of the stepper arrive, and each state of the slot that is taken or released. -/
theorem witness_HoldStepsBorrowAndReturnSlots :
    let s := borrowing
    let s : State := { s with ths := { s.ths with settings := { s.ths.settings with ranking := [.s2] } } }
    let on (st : SlotState) : State := s.setSlotState .s2 st
    let t := after .holdRequest s
    s.sar.further = [] ∧ (∀ y ∈ allZones, s.service y ≠ .waiting) ∧ s.ths.messages = .holdRequest :: [] ∧ s.sar.claim = .none ∧
      s.grantsOpen = true ∧ s.ths.step = .seeking ⟨15, 14, .two, 21, [], 0⟩ ∧ s.ths.settings.ranking = .s2 :: [] ∧
      (s.slot .s2).cls.heating = true ∧ (s.slot .s2).settings.coilLow ≤ 14 ∧
      s.ths.settings.temp + 50 ≤ (s.slot .s2).settings.ceiling ∧ (s.slot .s2).state = .running 0 (some (.zone .mid)) ∧
      ((on (.starting .warm .dwell 9 (.zone .mid))).slot .s2).state = .starting .warm .dwell 9 (.zone .mid) ∧
      ((on (.running 9 none)).slot .s2).state = .running 9 none ∧
      t.sar.claim = .holding .s2 (some .mid) ∧ (t.zone .mid).demand = true ∧ (t.slot .s2).state = .running 0 (some .holdStep) ∧
      t.sar.further = [] ∧ (∀ y ∈ allZones, t.service y ≠ .waiting) ∧ State.reset.grantsOpen = false ∧
      ((withZone .mid [.s2] false t).zone .mid).demand = false ∧
      (t.setClaim (.holding .s2 none)).sar.claim = .holding .s2 none ∧ (t.setClaim .seeking).sar.claim = .seeking ∧
      ((t.setSlotState .s2 (.hold 5)).slot .s2).state = .hold 5 ∧
      ((t.setSlotState .s2 (.running 8 (some .holdStep))).slot .s2).state = .running (7 + 1) (some .holdStep) := by
  decide +kernel

/-- Answers on their way to a step that seeks and one that heats; an interval in both conditions of the step. -/
theorem witness_AnswersAndTheIntervalMoveTheStep :
    let s := holding seeded
    ({ borrowing with sar := { borrowing.sar with answers := [.taken .s2] } } : State).sar.answers = .taken .s2 :: [] ∧
      borrowing.ths.step = .seeking ⟨15, 14, .two, 21, [], 0⟩ ∧
      (after .holdTaken { borrowing with sar := { borrowing.sar with answers := [.taken .s2] } }).ths.step =
        .heating ⟨15, 14, .two, 21, [], 0⟩ .s2 ∧
      s.ths.interval ≠ none ∧ borrowing.ths.interval ≠ none ∧
      borrowing.ths.step ≠ .idle ∧ s.ths.step = .idle ∧
      (∃ i : Fin 16, s.ths.settings.base ≤ i ∧ s.ths.pointer.val < i.val + s.ths.settings.width.layers ∧ i ≤ s.ths.pointer ∧
        s.ths.settings.creditAge ≤ s.clm.layers[i].holdAge ∧ s.clm.layers[i].hotDwell ≠ s.ths.settings.dwell) := by
  decide +kernel

/-- The model in both conditions; a step running with a layer to do and with none, before and at its timeout, above its base
and at it; and an idle stepper with an overdue layer. -/
theorem witness_MinutesKeepTheBooksOfTheHold :
    State.reset.clm.model = .unseeded ∧ seeded.clm.model ≠ .unseeded ∧
      borrowing.ths.step = .seeking ⟨15, 14, .two, 21, [], 0⟩ ∧ borrowing.ths.pendingFlag = false ∧ borrowing.ths.fullPass = false ∧
      (∀ m, borrowing.ths.interval = some m → 1 < m) ∧ (0 + 1 < borrowing.ths.settings.timeout ∧ borrowing.ths.settings.timeout ≤ 239 + 1) ∧
      (∃ i : Fin 16, ((14 : Fin 16) ≤ i ∧ i ≤ 15) ∧ i ∉ ([] : List (Fin 16)) ∧
        ¬ (seeded.ths.settings.temp ≤ seeded.clm.layers[i].temp)) ∧
      (∀ i : Fin 16, (14 : Fin 16) ≤ i ∧ i ≤ 15 → i ∈ ([14, 15] : List (Fin 16))) ∧
      ((15 : Int) - 2 ≥ (0 : Fin 16).val ∧ (1 : Int) - 2 < (0 : Fin 16).val) ∧
      (let h : State := { holding seeded with ths := { (holding seeded).ths with hourCount := 59 } }
       59 ≤ h.ths.hourCount ∧ h.ths.settings.enable = true ∧ h.ths.overdue = false ∧ h.ths.step = .idle ∧
         h.ths.settings.base ≤ (15 : Fin 16) ∧ h.ths.settings.period + 24 ≤ min 65535 (h.clm.layers[15].holdAge + 1)) := by
  refine ⟨by decide, by decide +kernel, by decide +kernel, by decide +kernel, by decide +kernel, fun m h => ?_, by decide +kernel,
    by decide +kernel, by decide +kernel, by decide, by decide +kernel⟩
  have : borrowing.ths.interval = some 1260 := by decide +kernel
  rw [this] at h; cases h; decide

end Sys2Proof.Tests
end

section
/-! PROOFS. SET_SOLAR is judged in order (R131): what its owner answers in each of the three cases, and what the CLAMPED
result says of the eleven values. -/

namespace Sys2Proof.Machine

/-- The on/off codes are 0 and 1 (11.4.1). -/
theorem onOffCode_eq (b : Nat) : onOffCode b = if 1 < b then none else some (decide (b = 1)) := by
  match b with
  | 0 => rfl
  | 1 => rfl
  | n + 2 => simp [onOffCode]

/-- The nine settings of a SET_SOLAR payload as sent, before any is clamped; the on/off code, which no clamping touches,
stands at on. -/
def solarSent (p : List Byte) : SolarSettings :=
  ⟨signedWordAt p 0, signedWordAt p 2, byteAt p 4, byteAt p 5, signedWordAt p 6, signedWordAt p 8, signedWordAt p 10, true,
    signedWordAt p 13⟩

/-- A value was clamped exactly when one of the ten clamped fields differs from the one sent (R131). -/
theorem takenCode_solarClamped (p : List Byte) (x : SolarSettings) (holdoff threshold : Nat) :
    takenCode (solarClamped p x holdoff threshold) =
      if { x with cooldownEnable := true } = solarSent p ∧ holdoff = byteAt p 15 ∧ threshold = wordAt p 16 then .ok
      else .clamped := by
  have unclamped : solarClamped p x holdoff threshold = false ↔
      { x with cooldownEnable := true } = solarSent p ∧ holdoff = byteAt p 15 ∧ threshold = wordAt p 16 := by
    simp [solarClamped, solarSent, and_assoc]
  by_cases h : solarClamped p x holdoff threshold = false
  · rw [if_pos (unclamped.1 h), h]; rfl
  · rw [if_neg (mt unclamped.2 h), Bool.eq_true_of_not_eq_false h]; rfl

/-! The owner's three answers. -/

theorem ownSetSolar_badValue {p : List Byte} {s : State} (code : 1 < byteAt p 12) :
    ownSetSolar p s = refuse .badValue s := by
  simp only [ownSetSolar, onOffCode_eq, if_pos code]

/-- The limit lock refuses the settings asked: one of the two lockable ones would change (R130, R131, step 3). -/
def State.solarLocked (s : State) (x : SolarSettings) : Prop :=
  s.mpt.lock = true ∧ (x.solarMax ≠ s.slc.settings.solarMax ∨ x.collectorMax ≠ s.slc.settings.collectorMax)

theorem ownSetSolar_locked {p : List Byte} {s : State} (code : ¬ 1 < byteAt p 12)
    (lock : s.solarLocked (solarAsked s.scu.hardMax true p)) : ownSetSolar p s = refuse .locked s := by
  simp only [ownSetSolar, onOffCode_eq, if_neg code]
  exact if_pos lock

theorem ownSetSolar_taken {p : List Byte} {s : State} (code : ¬ 1 < byteAt p 12)
    (lock : ¬ s.solarLocked (solarAsked s.scu.hardMax true p)) :
    ownSetSolar p s =
      let x := solarAsked s.scu.hardMax (decide (byteAt p 12 = 1)) p
      let holdoff := clampNat 0 120 (byteAt p 15)
      let threshold := clampNat 0 5000 (wordAt p 16)
      let slc := { s.slc with settings := x }
      let sar := { s.sar with holdoffTime := holdoff, threshold := threshold }
      taken (solarClamped p x holdoff threshold) (solarBytes slc sar) { s with slc := slc, sar := sar } := by
  simp only [ownSetSolar, onOffCode_eq, if_neg code]
  exact if_neg lock

/-- A SET_SOLAR of the right length that is taken is answered by its owner (R189 to R191). -/
theorem exec_setSolar_of_takes {p : List Byte} {s : State} (length : p.length = 18) (takes : s.Takes 0x14 p) :
    exec (.setSolar p) s =
      let a := ownSetSolar p (s.taking 0x14 p)
      .next (a.state.replying 0x14 a.code a.data) := by
  have owner : withLength (p.length == 18) (ownSetSolar p) = ownSetSolar p := by
    funext t; simp [withLength, length]
  change Host.Outcome.next (requestStep 0x14 p (withLength (p.length == 18) (ownSetSolar p)) s) = _
  rw [owner, requestStep_taken takes]

/-- Settles O32: the owner's three answers, in the order in which it judges. -/
theorem setSolarIsJudgedInOrder : Obligations.SetSolarIsJudgedInOrder := by
  intro s p length takes
  have hardMax : (s.taking 0x14 p).scu.hardMax = s.scu.hardMax := by rw [State.taking_scu]
  have locked_iff (x : SolarSettings) : (s.taking 0x14 p).solarLocked x ↔ s.solarLocked x := by
    simp only [State.solarLocked, State.taking_lock, State.taking_slc]
  dsimp only
  rw [exec_setSolar_of_takes length takes]
  split
  next code => rw [ownSetSolar_badValue code]; rfl
  next code =>
    split
    next lock => rw [ownSetSolar_locked code ((locked_iff _).2 (hardMax ▸ lock))]; rfl
    next lock =>
      rw [ownSetSolar_taken code (fun h => lock (hardMax ▸ (locked_iff _).1 h)), hardMax]
      simp only [taken, takenCode_solarClamped]
      rfl

end Sys2Proof.Machine
end

section
/-! PROOFS. The Fault Monitor (chapter 10): a report is recorded (R178 to R181), and SET_FAULT_POLICY is refused whole or
taken and both conditions re-judged (R182). -/

namespace Sys2Proof.Machine

/-! What re-judging writes. -/

@[simp] theorem rejudge_flt (f : Flt) (s : State) : (rejudge f s).flt = f := by rw [rejudge_eq]

@[simp] theorem rejudge_pins (f : Flt) (s : State) :
    (rejudge f s).pins = { s.pins with alertLow := f.pinCondition } := by rw [rejudge_eq]

/-- The alert relay is asked for exactly when its condition changed (R181). -/
theorem rejudge_olu (f : Flt) (s : State) :
    (rejudge f s).olu =
      if f.relayCondition = s.flt.relayCondition then s.olu
      else (askLine .alertRelay (onOff f.relayCondition) s).olu := by
  unfold rejudge
  split
  · rfl
  · exact askLine_olu_congr _ _ rfl

/-! What a report writes, by the mask of its kind. -/

/-- The records after a report, before the first-fault record is looked at (R178, steps 1 to 3). -/
def Flt.counted (f : Flt) (k : FaultKind) (x : Subject) : Flt := f.setRec k ((f.kindRec k).report x)

theorem report_of_masked {k : FaultKind} {s : State} (x : Subject) (h : (s.flt.kindRec k).masked = true) :
    report k x s = { s with flt := s.flt.counted k x } := if_pos h

theorem report_of_unmasked {k : FaultKind} {s : State} (x : Subject) (h : (s.flt.kindRec k).masked = false) :
    report k x s = rejudge ((s.flt.counted k x).fillFirst k x) s := if_neg (by simp [h])

@[simp] theorem Flt.fillFirst_uptime (f : Flt) (k : FaultKind) (x : Subject) : (f.fillFirst k x).uptime = f.uptime := by
  unfold Flt.fillFirst; split <;> rfl

/-- A first-fault record that stands is kept, and an absent one is filled (R179). -/
theorem Flt.fillFirst_first (f : Flt) (k : FaultKind) (x : Subject) :
    (f.fillFirst k x).first = if f.first.isSome then f.first else some ⟨k, x, f.uptime⟩ := by
  unfold Flt.fillFirst
  cases h : f.first with
  | none => rfl
  | some r => exact h

theorem report_first (k : FaultKind) (x : Subject) (s : State) :
    (report k x s).flt.first =
      if (s.flt.kindRec k).masked ∨ s.flt.first.isSome then s.flt.first else some ⟨k, x, s.flt.uptime⟩ := by
  cases h : (s.flt.kindRec k).masked with
  | true => rw [report_of_masked x h]; simp [Flt.counted, Flt.setRec]
  | false =>
    rw [report_of_unmasked x h, rejudge_flt, Flt.fillFirst_first]
    exact if_congr (by simp [Flt.counted, Flt.setRec]) rfl rfl

theorem report_uptime (k : FaultKind) (x : Subject) (s : State) : (report k x s).flt.uptime = s.flt.uptime := by
  cases h : (s.flt.kindRec k).masked with
  | true => rw [report_of_masked x h]; rfl
  | false => rw [report_of_unmasked x h, rejudge_flt, Flt.fillFirst_uptime]; rfl

theorem report_confirm (k : FaultKind) (x : Subject) (s : State) : (report k x s).pins.confirm = s.pins.confirm := by
  cases h : (s.flt.kindRec k).masked with
  | true => rw [report_of_masked x h]
  | false => rw [report_of_unmasked x h, rejudge_pins]

/-- One unmasked kind whose status is set makes the alert pin condition (R180). -/
theorem Flt.pinCondition_of_kindRec {f : Flt} {k : FaultKind} (status : (f.kindRec k).status = true)
    (unmasked : (f.kindRec k).masked = false) : f.pinCondition = true := by
  have mem : f.kindRec k ∈ f.kinds.toList := by simp [Flt.kindRec]
  exact List.any_eq_true.2 ⟨_, mem, by simp [status, unmasked]⟩

/-- A report of an unmasked kind drives ALERT low, whatever stood before (R180). -/
theorem report_alertLow {k : FaultKind} {s : State} (x : Subject) (h : (s.flt.kindRec k).masked = false) :
    (report k x s).pins.alertLow = true := by
  have reported : (report k x s).flt.kindRec k = (s.flt.kindRec k).report x := by rw [report_kindRec, if_pos rfl]
  have condition : (report k x s).flt.pinCondition = true :=
    Flt.pinCondition_of_kindRec (k := k) (by rw [reported]; rfl) (by rw [reported]; exact h)
  rw [report_of_unmasked x h, rejudge_flt] at condition
  rwa [report_of_unmasked x h, rejudge_pins]

/-- Settles O53: the records, the first-fault record and the two signals, each by the mask of the reported kind. -/
theorem reportIsRecorded : Obligations.ReportIsRecorded := by
  intro k x s t
  refine ⟨?kind, fun j other => ?others, report_first k x s, fun masked => ?masked, fun unmasked => ?unmasked,
    report_uptime k x s, report_eq k x s, report_confirm k x s⟩
  case kind => exact (report_kindRec k k x s).trans (if_pos rfl)
  case others => exact (report_kindRec k j x s).trans (if_neg other)
  case masked =>
    have eq : t = { s with flt := s.flt.counted k x } := report_of_masked x masked
    rw [eq]
    exact ⟨rfl, rfl⟩
  case unmasked =>
    have eq : t = rejudge ((s.flt.counted k x).fillFirst k x) s := report_of_unmasked x unmasked
    refine ⟨report_alertLow x unmasked, ?_⟩
    rw [eq, rejudge_flt, rejudge_olu]

/-! SET_FAULT_POLICY. -/

/-- The policies R182, steps 1 and 2, refuse: a code above 3, or ADVISORY for TOP_PROBE_LOST or CYLINDER_OVERTEMP. -/
theorem policyValid_iff (p : List Byte) :
    policyValid p = true ↔ ¬ ((∃ i : Fin 16, 3 < byteAt p i.val) ∨ byteAt p 2 < 2 ∨ byteAt p 3 < 2) := by
  have codes : (∀ i < 16, byteAt p i ≤ 3) ↔ ¬ ∃ i : Fin 16, 3 < byteAt p i.val := by
    simp [Fin.forall_iff]
  simp only [policyValid, Bool.and_eq_true, List.all_eq_true, List.mem_range, decide_eq_true_eq, codes, not_or, not_lt,
    and_assoc]

/-- A record under a valid policy takes its mask and severity from its code, and keeps the rest (R182, step 3). -/
theorem Flt.withPolicy_kinds {p : List Byte} (valid : policyValid p = true) (f : Flt) (i : Fin 16) :
    (f.withPolicy p).kinds[i] =
      { f.kinds[i] with
        masked := decide (byteAt p i.val = 1 ∨ byteAt p i.val = 3), trip := decide (2 ≤ byteAt p i.val) } := by
  have code : byteAt p i.val ≤ 3 := not_lt.1 fun above => (policyValid_iff p).1 valid (.inl ⟨i, above⟩)
  have odd : byteAt p i.val % 2 = 1 ↔ byteAt p i.val = 1 ∨ byteAt p i.val = 3 := by omega
  simp only [Flt.withPolicy, tabulate_get, odd]

/-! The owner's two answers. -/

theorem ownSetFaultPolicy_badValue {p : List Byte} (s : State) (invalid : ¬ policyValid p = true) :
    ownSetFaultPolicy p s = refuse .badValue s := if_neg invalid

theorem ownSetFaultPolicy_taken {p : List Byte} (s : State) (valid : policyValid p = true) :
    ownSetFaultPolicy p s = accept (policyBytes (s.flt.withPolicy p)) (rejudge (s.flt.withPolicy p) s) := if_pos valid

/-- A SET_FAULT_POLICY of the right length that is taken is answered by its owner (R189 to R191). -/
theorem exec_setFaultPolicy_of_takes {p : List Byte} {s : State} (length : p.length = 16) (takes : s.Takes 0x1A p) :
    exec (.setFaultPolicy p) s =
      let a := ownSetFaultPolicy p (s.taking 0x1A p)
      .next (a.state.replying 0x1A a.code a.data) := by
  have owner : withLength (p.length == 16) (ownSetFaultPolicy p) = ownSetFaultPolicy p := by
    funext t; simp [withLength, length]
  change Host.Outcome.next (requestStep 0x1A p (withLength (p.length == 16) (ownSetFaultPolicy p)) s) = _
  rw [owner, requestStep_taken takes]

/-- Settles O37: an invalid policy is refused as it stands, and a valid one is written and re-judged. -/
theorem setFaultPolicyIsTakenWholeOrNotAtAll : Obligations.SetFaultPolicyIsTakenWholeOrNotAtAll := by
  intro s p length takes u
  rw [exec_setFaultPolicy_of_takes length takes]
  split
  next bad => rw [ownSetFaultPolicy_badValue _ fun valid => (policyValid_iff p).1 valid bad]; rfl
  next good =>
    have valid : policyValid p = true := (policyValid_iff p).2 good
    have relay (v : Nat) : (askLine .alertRelay v u).olu = (askLine .alertRelay v s).olu :=
      askLine_olu_congr _ _ (State.taking_olu ..)
    rw [ownSetFaultPolicy_taken _ valid, State.taking_flt]
    refine ⟨_, rfl, ?_⟩
    rw [State.replying_flt, accept, rejudge_flt]
    refine ⟨Flt.withPolicy_kinds valid s.flt, rfl, rfl, ?pin, ?lines, rfl, ?frame⟩
    case pin => rw [State.replying_pins, rejudge_pins]
    case lines => rw [State.replying_olu, rejudge_olu, relay, State.taking_flt, State.taking_olu]
    case frame =>
      rw [rejudge_eq]
      exact ⟨State.taking_clm .., State.taking_pfe .., State.taking_fmu .., State.taking_zdu .., State.taking_scu ..,
        State.taking_sar .., State.taking_slc .., State.taking_ths ..⟩

end Sys2Proof.Machine
end

section
/-! PROOFS. Each request command is one step of the port with its owner's answer (R189 to R191), and what every command
does to the promises of Safety.lean. -/

namespace Sys2Proof.Machine

/-! ### Requests and their owners -/

/-- Who answers a request, its length test included; a command that is no request has no owner, and stands here with
the answer that changes nothing. -/
def ownerOf : Instr → State → Answer
  | .unknownKindRequest _ _ => refuse .unknownKind
  | .setCylinder p => withLength (p.length == 10) (ownSetCylinder p)
  | .setZoneBounds p => withLength (p.length == 2) (ownSetZoneBounds p)
  | .setZone p => withLength (rankingLength p 7) (ownSetZone p)
  | .setSource p => ownSetSource p
  | .setSolar p => withLength (p.length == 18) (ownSetSolar p)
  | .setHold p => withLength (rankingLength p 10) (ownSetHold p)
  | .setProbeMap p => withLength (p.length == 18) (ownSetProbeMap p)
  | .setProbeTrim p => withLength (p.length == 2) (ownSetProbeTrim p)
  | .setMeter p => ownSetMeter p
  | .setOutput p => withLength (p.length == 3) (ownSetOutput p)
  | .setFaultPolicy p => withLength (p.length == 16) (ownSetFaultPolicy p)
  | .setLink p => withLength (p.length == 2) (ownSetLink p)
  | .sourceEnable p => onSlot enableSolar enableSlot p
  | .sourceDisable p => onSlot disableSolar (fun n s => accept [] (disableSlot n s).notify) p
  | .sourceReset p => onSlot (refuse .refused) resetSlot p
  | .boost p => withLength (p.length == 3) (ownBoost p)
  | .boostCancel p => withLength (p.length == 1) (ownBoostCancel p)
  | .surplus p => withLength (p.length == 2) (ownSurplus p)
  | .forceOutput p => withLength (p.length == 2) (ownForceOutput p)
  | .releaseOutput p => withLength (p.length == 1) (ownReleaseOutput p)
  | .holdNow p => withLength (p.length == 0) ownHoldNow
  | .clearFaults p => withLength (decide (p.length ≤ 16)) (ownClearFaults p)
  | .lockLimits p => withLength (p.length == 0) fun s => accept (lockedBytes s) (s.setMpt { s.mpt with lock := true })
  | .restart p => withLength (p.length == 1) (ownRestart p)
  | .ident p => plainRead identData p
  | .status p => plainRead statusData p
  | .layers p => indexedRead 1 (fun s => if byteAt p 0 ≤ 3 then some (layersData (byteAt p 0) s) else none) p
  | .zones p => indexedRead 1 (fun s => (zoneOfCode (byteAt p 0)).map fun z => zonesData z s) p
  | .source p => indexedRead 1 (fun s => (sourceOfCode (byteAt p 0)).map fun n => sourceData n s) p
  | .solar p => plainRead solarData p
  | .hold p => plainRead holdData p
  | .meters p => plainRead metersData p
  | .energy p => plainRead energyData p
  | .faults p => plainRead faultsData p
  | .probes p => indexedRead 1 (fun s => if byteAt p 0 ≤ 1 then some (probesData (byteAt p 0) s) else none) p
  | .outputs p => plainRead outputsData p
  | .config p => indexedRead 2 (configData (byteAt p 0) (byteAt p 1)) p
  | _ => accept []

/-- A request command that the port can receive is the port's step with its owner. -/
theorem exec_request {c : Instr} {k : Byte} {p : List Byte} (kind : kindOf c = some k) (payload : c.payload? = some p)
    (wf : ∀ j q, c = .unknownKindRequest j q → knownKind j = false) (s : State) :
    exec c s = .next (requestStep k p (ownerOf c) s) := by
  cases c
  case unknownKindRequest j q =>
    cases kind; cases payload
    exact congrArg Host.Outcome.next (if_neg (by simp [wf _ _ rfl]))
  all_goals cases kind
  all_goals cases payload
  all_goals rfl

/-- A command with a KIND is the port's step with its owner, or an unknown-kind request of a known kind, which is none. -/
theorem exec_of_kind {c : Instr} {k : Byte} (kind : kindOf c = some k) :
    (∀ s, exec c s = .next s) ∨ ∃ p, ∀ s, exec c s = .next (requestStep k p (ownerOf c) s) := by
  by_cases unknown : ∃ j q, c = .unknownKindRequest j q ∧ knownKind j = true
  · obtain ⟨j, q, rfl, known⟩ := unknown
    exact .inl fun s => congrArg Host.Outcome.next (if_pos known)
  · obtain ⟨p, payload⟩ : ∃ p, c.payload? = some p := by
      cases c
      all_goals cases kind
      all_goals exact ⟨_, rfl⟩
    exact .inr ⟨p, exec_request kind payload fun j q e => Bool.eq_false_iff.2 fun known => unknown ⟨j, q, e, known⟩⟩

/-- A taken request: the owner judges it in `State.taking`, and its reply begins (R189 to R191). -/
theorem exec_of_takes {c : Instr} {k : Byte} {p : List Byte} {s : State} (kind : kindOf c = some k)
    (payload : c.payload? = some p) (takes : s.Takes k p)
    (wf : ∀ j q, c = .unknownKindRequest j q → knownKind j = false := by intro _ _ h; cases h) :
    exec c s =
      let a := ownerOf c (s.taking k p)
      .next (a.state.replying k a.code a.data) := by
  rw [exec_request kind payload wf, requestStep_taken takes]

/-- A request whose owner refuses it changes nothing but the reply. -/
theorem exec_of_refused {c : Instr} {k : Byte} {p : List Byte} {s : State} {code : ResultCode} (kind : kindOf c = some k)
    (payload : c.payload? = some p) (takes : s.Takes k p)
    (refused : ownerOf c (s.taking k p) = refuse code (s.taking k p))
    (wf : ∀ j q, c = .unknownKindRequest j q → knownKind j = false := by intro _ _ h; cases h) :
    exec c s = .next ((s.taking k p).replying k code []) := by
  rw [exec_of_takes kind payload takes wf, refused]; rfl

theorem withLength_of {b : Bool} (owner : State → Answer) (h : b = true) : withLength b owner = owner := by
  funext s; simp [withLength, h]

theorem withLength_refused {b : Bool} (owner : State → Answer) (h : b = false) :
    withLength b owner = refuse .badLength := by
  funext s; simp [withLength, h]

theorem lockLimits_owned (s : State) : Owned s (s.setMpt { s.mpt with lock := true }) :=
  { Owned.refl s with
    locked := fun _ _ => ⟨rfl, rfl⟩
    services := State.servicesOk_still }

/-- Every owner keeps every promise. -/
theorem ownerOf_owned (c : Instr) (s : State) : Owned s (ownerOf c s).state := by
  cases c
  case setCylinder p => exact withLength_owned (ownSetCylinder_owned p) _ s
  case setZoneBounds p => exact withLength_owned (ownSetZoneBounds_owned p) _ s
  case setZone p => exact withLength_owned (ownSetZone_owned p) _ s
  case setSource p => exact ownSetSource_owned p s
  case setSolar p => exact withLength_owned (ownSetSolar_owned p) _ s
  case setHold p => exact withLength_owned (ownSetHold_owned p) _ s
  case setProbeMap p => exact withLength_owned (ownSetProbeMap_owned p) _ s
  case setProbeTrim p => exact withLength_owned (ownSetProbeTrim_owned p) _ s
  case setMeter p => exact ownSetMeter_owned p s
  case setOutput p => exact withLength_owned (ownSetOutput_owned p) _ s
  case setFaultPolicy p => exact withLength_owned (ownSetFaultPolicy_owned p) _ s
  case setLink p => exact withLength_owned (ownSetLink_owned p) _ s
  case sourceEnable p => exact onSlot_owned enableSolar_owned enableSlot_owned p s
  case sourceDisable p => exact onSlot_owned disableSolar_owned disableRequest_owned p s
  case sourceReset p => exact onSlot_owned (fun s => .refl s) resetSlot_owned p s
  case boost p => exact withLength_owned (ownBoost_owned p) _ s
  case boostCancel p => exact withLength_owned (ownBoostCancel_owned p) _ s
  case surplus p => exact withLength_owned (ownSurplus_owned p) _ s
  case forceOutput p => exact withLength_owned (ownForceOutput_owned p) _ s
  case releaseOutput p => exact withLength_owned (ownReleaseOutput_owned p) _ s
  case holdNow p => exact withLength_owned ownHoldNow_owned _ s
  case clearFaults p => exact withLength_owned (ownClearFaults_owned p) _ s
  case lockLimits p => exact withLength_owned lockLimits_owned _ s
  case restart p => exact withLength_owned (ownRestart_owned p) _ s
  case ident p | status p | solar p | hold p | meters p | energy p | faults p | outputs p => exact plainRead_owned _ p s
  case layers p | zones p | source p | probes p | config p => exact indexedRead_owned _ _ p s
  all_goals exact .refl s

/-! ### Events -/

/-- The probe front end after the reading of a conversion (R34 to R39). -/
def State.converted (s : State) (c : Fin 12) (raw : Int) : Pfe :=
  let ch := s.pfe.channels[c]
  let reading := raw + ch.trim
  { s.pfe.setChannel c { ch with status := (ch.status.debounce reading (classify c reading)).1 } with scanNext := c + 1 }

/-- The fault the reading of a conversion reports (R37, R38). -/
def State.faultAt (s : State) (c : Fin 12) (raw : Int) : Option ProbeFault :=
  let ch := s.pfe.channels[c]
  let reading := raw + ch.trim
  (ch.status.debounce reading (classify c reading)).2

theorem pfeConvert_eq (c : Fin 12) (raw : Int) (s : State) :
    pfeConvert c raw s =
      match s.faultAt c raw with
      | none => { s with pfe := s.converted c raw }
      | some k => report k.report (.channel c) { s with pfe := s.converted c raw } := rfl

theorem State.converted_channel (s : State) (c d : Fin 12) (raw : Int) :
    (s.converted c raw).channels[d] =
      if c = d then
        { s.pfe.channels[c] with
          status := (s.pfe.channels[c].status.debounce (raw + s.pfe.channels[c].trim)
            (classify c (raw + s.pfe.channels[c].trim))).1 }
      else s.pfe.channels[d] :=
  Pfe.setChannel_get ..

theorem State.converted_map (s : State) (c : Fin 12) (raw : Int) : (s.converted c raw).map = s.pfe.map := rfl

theorem State.converted_trims (s : State) (c : Fin 12) (raw : Int) : (s.converted c raw).trims = s.pfe.trims := by
  funext d
  simp only [Pfe.trims, State.converted_channel]
  split
  next e => rw [e]
  next => rfl

theorem State.converted_settings (s : State) (c : Fin 12) (raw : Int) :
    ({ s with pfe := s.converted c raw } : State).settings = s.settings := by
  simp only [State.settings, State.converted_map, State.converted_trims]

/-- The reading alone: the records stay in their bounds. -/
theorem State.converted_kept (s : State) (c : Fin 12) (raw : Int) : Kept s { s with pfe := s.converted c raw } where
  pending := rfl
  faults := id
  lines := id
  slots := id
  solar := id
  layers := id
  hold := id
  probes h := by
    refine ⟨fun d => ?_, h.2⟩
    rw [State.converted_channel]
    split
    next e => subst e; exact ChannelStatus.debounce_ok (h.1 c) _
    next => exact h.1 d
  ranges := State.rangesOk_of_settings (s.converted_settings c raw)
  locked _ lock := ⟨lock, State.limits_of_settings (s.converted_settings c raw)⟩
  port := id
  agree _ := id
  rankings := State.rankingsOk_of_settings (s.converted_settings c raw)
  link := id
  trims h d := by
    have e : (s.converted c raw).channels[d].trim = s.pfe.channels[d].trim := congrFun (s.converted_trims c raw) d
    rw [e]; exact h d
  services := State.servicesOk_still
  water := .inl rfl
  dry := id

theorem pfeConvert_kept (c : Fin 12) (raw : Int) (s : State) :
    Kept s (pfeConvert c raw s) ∧ (pfeConvert c raw s).settings = s.settings := by
  rw [pfeConvert_eq]
  cases s.faultAt c raw with
  | none => exact ⟨s.converted_kept c raw, s.converted_settings c raw⟩
  | some k =>
    have reported := report_inner k.report (.channel c) { s with pfe := s.converted c raw }
    exact ⟨(s.converted_kept c raw).inner reported, reported.settings.trans (s.converted_settings c raw)⟩

/-- What a conversion hands on keeps the promises as an operation inside the block (R44 to R48). -/
theorem convertChannel_inner (c : Fin 12) (raw : Int) (s : State) :
    Inner (pfeConvert c raw s) (convertChannel c raw s) :=
  ((clmReceive_inner _ _ _).trans (deliverRole_inner _ _ _ _)).trans (deliverNoCollector_inner _ _)

theorem execConversion_kept (c : Fin 12) (raw : Int) {s t : State} (h : execConversion c raw s = .next t) :
    Kept s t ∧ t.settings = s.settings := by
  unfold execConversion at h
  cases h
  split
  · obtain ⟨kept, settings⟩ := pfeConvert_kept c raw s
    have handed := convertChannel_inner c raw s
    exact ⟨kept.inner handed, handed.settings.trans settings⟩
  · exact ⟨(Inner.refl s).kept, rfl⟩

theorem execConfirmInputChange_kept (i : Fin 4) (a : Bool) {s t : State}
    (h : execConfirmInputChange i a s = .next t) : Kept s t ∧ t.settings = s.settings := by
  let level : State :=
    { s with
      scu := { s.scu with confirmLevel := s.scu.confirmLevel.set i a }
      pins := { s.pins with confirm := s.pins.confirm.set i a } }
  have kept : Kept s level :=
    { (Inner.refl s).kept with services := State.servicesOk_still }
  unfold execConfirmInputChange at h
  cases h
  dsimp only
  split
  · exact ⟨kept, rfl⟩
  · split
    next n _ =>
      have notified : Inner level (confirmChanged n a level).notify :=
        Sent.notify_inner (confirmChanged_within n a level) (confirmChanged_drops n a level)
      exact ⟨kept.inner notified, notified.settings⟩
    next => exact ⟨kept, rfl⟩

/-- An event that keeps the promises as an operation inside the block does so as a command, and moves no setting. -/
theorem Inner.command {s t : State} (h : Inner s t) : Kept s t ∧ t.settings = s.settings := ⟨h.kept, h.settings⟩

theorem setMpt_settings (s : State) (m : Mpt) (h : m.interval = s.mpt.interval) : (s.setMpt m).settings = s.settings := by
  simp only [State.settings, State.setMpt, h]

theorem Mpt.receive_interval (b : Byte) (e : Bool) (m : Mpt) : (m.receive b e).interval = m.interval := by
  unfold Mpt.receive
  rcases m.assembler.receive b e with ⟨a, _ | _ | f⟩
  · rfl
  · rfl
  · exact Mpt.arrive_interval _ f

theorem execGapTimerExpiry_kept {s t : State} (h : execGapTimerExpiry s = .next t) : Kept s t ∧ t.settings = s.settings := by
  unfold execGapTimerExpiry at h
  cases h
  split
  · exact (Inner.refl s).command
  · refine ⟨.setMpt s _ fun ⟨queue, _, reply, restart, _⟩ => ⟨queue, Nat.min_le_left .., reply, restart, ?_⟩,
      setMpt_settings s _ rfl⟩
    simp [Mpt.countDiscard]

/-- The four parts of a link lapse, once its timer is stopped (R194). -/
theorem linkLapse_inner (s : State) :
    Inner s (setSurplus 0 none (cancelBoosts allZones (releaseAllLines (report .linkLapse .none s)))) :=
  (((report_inner .linkLapse .none s).trans (releaseAllLines_inner _)).trans (cancelBoosts_inner allZones _)).trans
    (setSurplus_inner 0 none _)

theorem execLinkLapse_kept {s t : State} (h : execLinkLapse s = .next t) : Kept s t ∧ t.settings = s.settings := by
  unfold execLinkLapse at h
  cases h
  split
  · exact (Inner.refl s).command
  · have lapsed := linkLapse_inner (s.setMpt { s.mpt with supervision := none })
    exact ⟨(Kept.setMpt s { s.mpt with supervision := none } id).inner lapsed, lapsed.settings.trans (setMpt_settings s _ rfl)⟩

/-- The end of a reply with no restart due takes its entry from the queue (R189). -/
theorem replySent_kept {s : State} (due : s.mpt.restartDue = none) :
    Kept s (s.setMpt { s.mpt with reply := none, queue := s.mpt.queue.tail }) := by
  refine .setMpt s _ fun ⟨queue, discards, _, _, gap⟩ => ⟨?_, discards, fun h => absurd rfl h, fun h => absurd due h, gap⟩
  have tail : s.mpt.queue.tail.length ≤ s.mpt.queue.length := by simp
  exact tail.trans queue

theorem warmRestart_settings (s : State) : (warmRestart s).settings = s.settings := by
  have lines : lineFigures (tabulate fun i => s.olu[i].atRestart (isRelay i)) = lineFigures s.olu :=
    lineFigures_tabulate (fun _ => Line.atRestart_function ..) fun _ => Line.atRestart_recoveryTime ..
  have slots : s.scu.warmRestart.figures = s.scu.figures := by
    simp only [Scu.figures, Prod.mk.injEq, Scu.warmRestart, true_and]
    funext n; cases n <;> rfl
  unfold warmRestart
  refine (zduWarmRestart_inner _).settings.trans ((askLine_inner _ _ _ fun _ => rfl).settings.trans ?_)
  simp only [State.settings, lines, slots]
  rfl

/-- What an event does to the promises and the settings: all commands but the requests, power-on, the RESET pin and the
DRAW gate. -/
theorem exec_event_kept {c : Instr} {s t : State} (event : kindOf c = none) (on : c ≠ .powerOn) (pin : c ≠ .resetPin)
    (gate : c ≠ .drawGateExpiry) (h : exec c s = .next t) :
    Kept s t ∧ (writesSettings s c = false → t.settings = s.settings) := by
  have command {t : State} (k : Kept s t ∧ t.settings = s.settings) :
      Kept s t ∧ (writesSettings s c = false → t.settings = s.settings) := ⟨k.1, fun _ => k.2⟩
  cases c
  case powerOn => exact absurd rfl on
  case resetPin => exact absurd rfl pin
  case drawGateExpiry => exact absurd rfl gate
  case receiveByte b e =>
    cases h
    exact command ⟨.receive s b e, setMpt_settings s _ (Mpt.receive_interval ..)⟩
  case gapTimerExpiry => exact command (execGapTimerExpiry_kept h)
  case replySent =>
    change execReplySent s = .next t at h
    unfold execReplySent at h
    cases h
    split
    · exact command (Inner.refl s).command
    next due => exact command ⟨replySent_kept due, setMpt_settings s _ rfl⟩
    · exact command ⟨warmRestart_kept s, warmRestart_settings s⟩
    next due => exact ⟨coldRestart_kept s, fun w => by simp [writesSettings, due] at w⟩
  case linkLapse => exact command (execLinkLapse_kept h)
  case conversion c raw => exact command (execConversion_kept c raw h)
  case pulse m => cases h; exact command (State.setMeter_inner m _ s).command
  case loopGateExpiry => exact command (execLoopGateExpiry_inner h).command
  case modelPeriodExpiry => exact command (execModelPeriodExpiry_inner h).command
  case surplusTimerExpiry =>
    cases h
    split
    · exact command (setSurplus_inner ..).command
    · exact command (Inner.refl s).command
  case furtherEvaluation => cases h; exact command (takeFurther_inner s).command
  case holdoffTimerExpiry z =>
    cases h
    split
    · exact command (evaluate_inner _ s (by simp)).command
    · exact command (Inner.refl s).command
  case holdRequest =>
    cases h
    split
    next rest _ =>
      have taken : Inner s { s with ths := { s.ths with messages := rest } } := Inner.setThs' s rfl rfl
      exact command (taken.trans (evaluate_inner _ _ (by simp))).command
    next => exact command (Inner.refl s).command
  case stepEnd =>
    cases h
    split
    next rest _ =>
      have taken : Inner s { s with ths := { s.ths with messages := rest } } := Inner.setThs' s rfl rfl
      exact command (taken.trans (evaluate_inner _ _ (by simp))).command
    next => exact command (Inner.refl s).command
  case holdTaken | holdNone | holdLost => cases h; exact command (takeAnswer_inner _ s).command
  case confirmInputChange i a => exact command (execConfirmInputChange_kept i a h)
  case dwellEnd n => cases h; exact command (Sent.notify_inner (endDwell_within n s) (endDwell_drops n s)).command
  case confirmWindowExpiry n =>
    cases h; exact command (Sent.notify_inner (startFailure_within n s) (startFailure_drops n s)).command
  case minimumRunCompletion n =>
    cases h
    split
    · exact command (Sent.notify_inner (completeRun_within n s) (completeRun_drops n s)).command
    · exact command (Inner.refl s).command
  case overrunExpiry n => cases h; exact command (expireOverrun_inner n s).command
  case holdExpiry n => cases h; exact command (Sent.notify_inner (expireHold_within n s) (expireHold_drops n s)).command
  case warmExpiry n => cases h; exact command (Sent.notify_inner (expireWarm_within n s) (expireWarm_drops n s)).command
  case minuteEvent => cases h; exact command (minuteEvent_inner s).command
  case hourCountWrap =>
    cases h
    exact command ((Inner.setThs' s (t := { s.ths with hourCount := 59 }) rfl rfl).trans (minuteEvent_inner _)).command
  case stepTimeout =>
    cases h
    split
    · exact command (Inner.refl s).command
    · exact command (timeOut_inner _ s).command
  case intervalExpiry =>
    cases h
    split
    · exact command (expireInterval_inner s).command
    · exact command (Inner.refl s).command
  case recoveryEnd i =>
    cases h
    split
    next relay => exact command (endRecovery_inner i s relay).command
    next => exact command (Inner.refl s).command
  case uptimeIncrement =>
    cases h
    exact command (Inner.command
      { Inner.refl s with services := State.servicesOk_still })
  all_goals simp [kindOf] at event

/-! ### Every command -/

/-- The state in which a DRAW gate's pending volume is already what the gate leaves (R54, R55). -/
def State.drawn (s : State) : State := { s with fmu := { s.fmu with pendingVolume := s.pendingAfter } }

/-- A command resets the block, or ends a DRAW gate, or keeps every promise. -/
theorem exec_cases {c : Instr} {s t : State} (h : exec c s = .next t) :
    (c = .powerOn ∨ c = .resetPin) ∧ t = powerOn s ∨ c = .drawGateExpiry ∧ Inner s.drawn t ∨
      c ≠ .powerOn ∧ c ≠ .resetPin ∧ Kept s t := by
  by_cases on : c = .powerOn
  · subst on; cases h; exact .inl ⟨.inl rfl, rfl⟩
  by_cases pin : c = .resetPin
  · subst pin; cases h; exact .inl ⟨.inr rfl, rfl⟩
  by_cases gate : c = .drawGateExpiry
  · subst gate; exact .inr (.inl ⟨rfl, execDrawGateExpiry_inner h⟩)
  refine .inr (.inr ⟨on, pin, ?_⟩)
  cases kind : kindOf c with
  | none => exact (exec_event_kept kind on pin gate h).1
  | some k =>
    rcases exec_of_kind kind with still | ⟨p, request⟩
    · cases (still s).symm.trans h
      exact (Inner.refl s).kept
    · cases (request s).symm.trans h
      exact requestStep_kept (ownerOf_owned c) k p s

/-! ### Every step -/

/-- A step resets the block, or ends a DRAW gate, or keeps every promise; but for the queue of waiting commands, which no
promise speaks of. -/
theorem step_cases {s t : State} (h : step s = .next t) :
    ∃ rest, let u : State := { s with pending := rest }; t = powerOn u ∨ Inner u.drawn t ∨ Kept u t := by
  unfold step at h
  split at h
  next none =>
    cases h
    exact ⟨s.pending, .inr (.inr (tick_kept s))⟩
  next c rest _ =>
    refine ⟨rest, ?_⟩
    rcases exec_cases h with ⟨_, e⟩ | ⟨_, e⟩ | ⟨_, _, e⟩
    · exact .inl e
    · exact .inr (.inl e)
    · exact .inr (.inr e)

/-- A promise that power-on sets up, that a DRAW gate's pending volume does not touch, and that every other command keeps,
is kept by every step. -/
theorem step_keeps {P : State → Prop} (queue : ∀ s rest, P s → P { s with pending := rest }) (on : ∀ s, P (powerOn s))
    (gate : ∀ s t, Inner s.drawn t → P s → P t) (kept : ∀ s t, Kept s t → P s → P t) :
    ∀ s t, P s → step s = .next t → P t := by
  intro s t promise h
  obtain ⟨rest, e | e | e⟩ := step_cases h
  · rw [e]; exact on _
  · exact gate _ _ e (queue s rest promise)
  · exact kept _ _ e (queue s rest promise)

/-! ### The promises after power-on -/

theorem reset_faultsOk : State.reset.faultsOk := by
  refine ⟨?_, ?_, ?_, ?_, ?_⟩
  case refine_3 => intro r h; cases h
  all_goals decide +kernel

theorem reset_linesOk : State.reset.linesOk := oluColdRestart_lines State.reset

theorem reset_agreeOk : State.reset.agreeOk :=
  State.agreeOk_of_off (by decide +kernel) (by decide +kernel)

theorem reset_slotsOk : State.reset.slotsOk := fun n => by cases n <;> exact Slot.powerOn_ok

theorem reset_layersOk : State.reset.layersOk := by
  refine ⟨by decide +kernel, by decide +kernel, by decide +kernel, by decide, by decide, by decide, by decide⟩

theorem reset_solarOk : State.reset.solarOk := by
  refine ⟨by decide, by decide, fun _ => rfl, by decide, by decide, by decide, by decide⟩

theorem reset_probesOk : State.reset.probesOk := by
  refine ⟨fun c => ?_, ProbeMap.default_ok⟩
  have channel : State.reset.pfe.channels[c] = ⟨.ok 0 none, 0⟩ := by revert c; decide +kernel
  rw [channel]
  exact ⟨⟨by decide, fun t h => by cases h⟩, by decide, by decide⟩

theorem reset_settingsOk : State.reset.settingsOk := by
  refine ⟨⟨Clm.default_figuresOk, Fmu.default_figuresOk, by decide +kernel, ZoneRec.default_figuresOk, by decide +kernel,
    fun n => ?slots, by decide, SolarSettings.default_ok, HoldSettings.default_ok, by decide +kernel⟩, fun z => ?rankings,
    .inl rfl, ?trims⟩
  case slots => cases n <;> exact SlotSettings.noSource_ok
  case rankings => cases z <;> exact ⟨List.nodup_nil, fun n h => by cases h⟩
  case trims => unfold State.trimsOk; decide +kernel

theorem reset_portOk : State.reset.portOk :=
  ⟨by decide, by decide, fun h => absurd rfl h, fun h => absurd rfl h, iff_of_true rfl rfl⟩

theorem powerOn_servicesOk (s : State) : (powerOn s).servicesOk :=
  State.servicesOk_bare (fun z => by cases z <;> exact Service.idle_bare) rfl rfl fun n => by cases n <;> rfl

/-- Settles O4, promise by promise. -/
theorem promisesHoldAtReset : Obligations.PromisesHoldAtReset :=
  ⟨reset_faultsOk, reset_linesOk, reset_slotsOk, reset_layersOk, reset_solarOk, reset_probesOk, Fin.zero_le _,
    reset_portOk, reset_settingsOk, reset_agreeOk, powerOn_servicesOk State.reset, fun _ => rfl⟩

/-! ### The promises of every step -/

/-- Settles O5. -/
theorem faultMonitorPromiseIsKept : Obligations.FaultMonitorPromiseIsKept :=
  step_keeps (fun _ _ => id) (fun _ => reset_faultsOk) (fun _ _ e => e.faults) fun _ _ e => e.faults

/-- Settles O6; the agreement with the owners leans on the lines' own promise. -/
theorem linePromiseIsKept : Obligations.LinePromiseIsKept := by
  refine ⟨step_keeps (fun _ _ => id) (fun _ => reset_linesOk) (fun _ _ e => e.lines) fun _ _ e => e.lines, ?_⟩
  intro s t lines agree h
  have both : ∀ s t : State, s.linesOk ∧ s.agreeOk → step s = .next t → t.linesOk ∧ t.agreeOk :=
    step_keeps (fun _ _ => id) (fun _ => ⟨reset_linesOk, reset_agreeOk⟩)
      (fun _ _ e k => ⟨e.lines k.1, e.agree k.1 k.2⟩) fun _ _ e k => ⟨e.lines k.1, e.agree k.1 k.2⟩
  exact (both s t ⟨lines, agree⟩ h).2

/-- Settles O7. -/
theorem slotPromiseIsKept : Obligations.SlotPromiseIsKept :=
  ⟨step_keeps (fun _ _ => id) (fun _ => reset_slotsOk) (fun _ _ e => e.slots) fun _ _ e => e.slots,
    step_keeps (fun _ _ => State.servicesOk_still) powerOn_servicesOk
      (fun s _ e k => e.services (State.servicesOk_still (s := s) rfl (fun _ => rfl) k)) fun _ _ e => e.services⟩

/-- The pending volume a DRAW gate leaves lies below a slice when it did before (R54, R55). -/
theorem State.pendingAfter_below {s : State} (h : s.fmu.pendingVolume < s.clm.sliceVolume) :
    s.pendingAfter < s.clm.sliceVolume := by
  by_cases present : 0 < s.fmu.draw.mlPerPulse
  · exact s.pendingAfter_lt present (by omega)
  · unfold State.pendingAfter
    rwa [if_neg (by simpa [MeterRec.present] using present)]

/-- With the DRAW meter absent a gate leaves the pending volume alone (R53). -/
theorem State.drawn_dryOk {s : State} (h : s.dryOk) : s.drawn.dryOk := by
  intro absent
  have absent' : s.fmu.draw.mlPerPulse = 0 := absent
  change s.pendingAfter = 0
  unfold State.pendingAfter
  rw [if_neg (by simp [MeterRec.present, absent'])]
  exact h absent

/-- Settles O8. -/
theorem layerPromiseIsKept : Obligations.LayerPromiseIsKept := by
  refine ⟨step_keeps (fun _ _ => id) (fun _ => reset_layersOk) (fun _ _ e => e.layers) fun _ _ e => e.layers,
    step_keeps (fun _ _ => id) (fun _ _ => rfl) (fun _ _ e k => e.kept.dry (State.drawn_dryOk k)) fun _ _ e => e.dry, ?_⟩
  intro s t below slice h
  obtain ⟨rest, e | e | e⟩ := step_cases h
  · have : t.fmu.pendingVolume = 0 := by rw [e]; rfl
    omega
  · have left : t.fmu.pendingVolume = s.pendingAfter := e.water
    have := s.pendingAfter_below below
    omega
  · have water : t.fmu.pendingVolume = s.fmu.pendingVolume ∨ t.fmu.pendingVolume = 0 := e.water
    omega

/-- Settles O9. -/
theorem solarPromiseIsKept : Obligations.SolarPromiseIsKept :=
  step_keeps (fun _ _ => id) (fun _ => reset_solarOk) (fun _ _ e => e.solar) fun _ _ e => e.solar

/-- Settles O10. -/
theorem probePromiseIsKept : Obligations.ProbePromiseIsKept :=
  step_keeps (fun _ _ => id) (fun _ => reset_probesOk) (fun _ _ e => e.kept.probes) fun _ _ e => e.probes

/-- Settles O11. -/
theorem holdPointerPromiseIsKept : Obligations.HoldPointerPromiseIsKept :=
  step_keeps (fun _ _ => id) (fun _ => Fin.zero_le _) (fun _ _ e => e.hold) fun _ _ e => e.hold

/-- Settles O12. -/
theorem portPromiseIsKept : Obligations.PortPromiseIsKept :=
  step_keeps (fun _ _ => id) (fun _ => reset_portOk) (fun _ _ e => e.kept.port) fun _ _ e => e.port

/-- Settles O13. -/
theorem settingRangesAreKept : Obligations.SettingRangesAreKept :=
  step_keeps (fun _ _ => id) (fun _ => reset_settingsOk) (fun _ _ e => e.kept.settings) fun _ _ e => e.settings

/-- Settles O14. -/
theorem lockedLimitsStand : Obligations.LockedLimitsStand := by
  intro c s t on pin solar lock h
  rcases exec_cases h with ⟨e | e, _⟩ | ⟨_, e⟩ | ⟨_, _, e⟩
  · exact absurd e on
  · exact absurd e pin
  · exact e.kept.locked solar lock
  · exact e.locked solar lock

/-! ### Settings that stand -/

theorem setSlotState_settings (s : State) (n : SlotId) (x : SlotState) : (s.setSlotState n x).settings = s.settings := by
  have slots : (s.setSlotState n x).scu.figures = s.scu.figures := by
    simp only [State.setSlotState, State.setSlot, State.slot, Scu.figures, Prod.mk.injEq, true_and]
    funext m
    rw [PerSlot.get_set]
    split
    next e => rw [e]; rfl
    next => rfl
  simp only [State.settings, slots]
  rfl

theorem enableSlot_settings (n : SlotId) (s : State) : (enableSlot n s).state.settings = s.settings := by
  unfold enableSlot
  dsimp only
  split
  · rfl
  · split
    · exact (evaluateDiverter_within n _).settings.trans (setSlotState_settings ..)
    · refine Eq.trans ?_ (setSlotState_settings s n (.hold (s.slot n).settings.minOff))
      split
      · exact (Sent.notify_within (expireHold_within n _)).settings
      · rfl

theorem resetSlot_settings (n : SlotId) (s : State) : (resetSlot n s).state.settings = s.settings := by
  unfold resetSlot
  dsimp only
  split
  · have slots : (s.setSlot n { s.slot n with failures := 0, state := .hold (s.slot n).settings.minOff }).scu.figures =
        s.scu.figures := by
      simp only [State.setSlot, State.slot, Scu.figures, Prod.mk.injEq, true_and]
      funext m
      rw [PerSlot.get_set]
      split
      next e => rw [e]; rfl
      next => rfl
    simp only [accept, State.settings, slots]
    rfl
  · rfl

theorem enableSolar_settings (s : State) : (enableSolar s).state.settings = s.settings := by
  unfold enableSolar
  split
  · exact (solarSwitch_inner _ s).settings
  · rfl

theorem disableSolar_settings (s : State) : (disableSolar s).state.settings = s.settings := by
  unfold disableSolar accept
  dsimp only
  split
  · rfl
  · exact (solarSwitch_inner _ s).settings

theorem onSlot_settings {a : State → Answer} {b : SlotId → State → Answer} {s : State}
    (solar : (a s).state.settings = s.settings) (slot : ∀ n, (b n s).state.settings = s.settings) (p : List Byte) :
    (onSlot a b p s).state.settings = s.settings := by
  unfold onSlot withLength
  split
  · rcases sourceOfCode (byteAt p 0) with _ | _ | n
    · rfl
    · exact solar
    · exact slot n
  · rfl

theorem withLength_settings {b : Bool} {owner : State → Answer} {s : State}
    (h : (owner s).state.settings = s.settings) : (withLength b owner s).state.settings = s.settings := by
  unfold withLength
  split
  · exact h
  · rfl

theorem ownBoost_settings (p : List Byte) (s : State) : (ownBoost p s).state.settings = s.settings := by
  unfold ownBoost
  split
  · rfl
  next z _ =>
    have boosted : Inner s (s.setZone z { s.zone z with boost := some (clamp 400 750 (signedWordAt p 1)) }) :=
      Inner.setZone s z _
    exact (boosted.trans (evaluateZones_inner _ _ _ _)).settings

theorem ownBoostCancel_settings (p : List Byte) (s : State) : (ownBoostCancel p s).state.settings = s.settings := by
  unfold ownBoostCancel
  split
  · rfl
  · exact (cancelBoosts_inner _ s).settings

theorem setLine_settings (s : State) (i : Fin 8) (l : Line) (function : l.function = s.olu[i].function)
    (time : l.recoveryTime = s.olu[i].recoveryTime) : (s.setLine i l).settings = s.settings := by
  have lines : lineFigures (s.setLine i l).olu = lineFigures s.olu := by
    funext j
    simp only [lineFigures, State.olu_setLine]
    split
    next e => rw [← e, function, time]
    next => rfl
  simp only [State.settings, lines]
  rfl

theorem ownForceOutput_settings (p : List Byte) (s : State) : (ownForceOutput p s).state.settings = s.settings := by
  unfold ownForceOutput
  split
  · dsimp only
    split
    · exact setLine_settings s _ _ (Line.drive_function ..) (Line.drive_recoveryTime ..)
    · rfl
  · rfl

theorem ownReleaseOutput_settings (p : List Byte) (s : State) : (ownReleaseOutput p s).state.settings = s.settings := by
  unfold ownReleaseOutput
  split
  · exact setLine_settings s _ _ (Line.drive_function ..) (Line.drive_recoveryTime ..)
  · rfl

theorem ownHoldNow_settings (s : State) : (ownHoldNow s).state.settings = s.settings := by
  unfold ownHoldNow
  split
  · exact (holdNow_inner s).settings
  · rfl

theorem Flt.clearKinds_policy (f : Flt) (l : FaultKind → Bool) : (f.clearKinds l).policy = f.policy := by
  funext i
  simp only [Flt.policy, Flt.clearKinds, tabulate_get]
  split <;> rfl

theorem rejudge_settings {f : Flt} {s : State} (h : f.policy = s.flt.policy) : (rejudge f s).settings = s.settings := by
  unfold rejudge
  dsimp only
  have moved : ({ s with flt := f, pins := { s.pins with alertLow := f.pinCondition } } : State).settings = s.settings := by
    simp only [State.settings, h]
  split
  · exact moved
  · exact (askLine_inner .alertRelay _ _ fun _ => rfl).settings.trans moved

theorem ownClearFaults_settings (p : List Byte) (s : State) : (ownClearFaults p s).state.settings = s.settings := by
  unfold ownClearFaults
  split
  · exact rejudge_settings (Flt.clearKinds_policy ..)
  · rfl

theorem ownRestart_settings (p : List Byte) (s : State) : (ownRestart p s).state.settings = s.settings := by
  unfold ownRestart
  split
  · exact setMpt_settings s _ rfl
  · rfl

theorem plainRead_settings (data : State → List Byte) (p : List Byte) (s : State) :
    (plainRead data p s).state.settings = s.settings := withLength_settings rfl

theorem indexedRead_settings (n : Nat) (data : State → Option (List Byte)) (p : List Byte) (s : State) :
    (indexedRead n data p s).state.settings = s.settings := by
  refine withLength_settings ?_
  split <;> rfl

/-- No owner moves a setting but those of the setting requests. -/
theorem ownerOf_settings {c : Instr} (s : State) (h : writesSettings s c = false) :
    (ownerOf c s).state.settings = s.settings := by
  cases c
  case sourceEnable p => exact onSlot_settings (enableSolar_settings s) (enableSlot_settings · s) p
  case sourceDisable p =>
    exact onSlot_settings (disableSolar_settings s) (fun n => (Sent.notify_within (disableSlot_within n s)).settings) p
  case sourceReset p => exact onSlot_settings rfl (resetSlot_settings · s) p
  case boost p => exact withLength_settings (ownBoost_settings p s)
  case boostCancel p => exact withLength_settings (ownBoostCancel_settings p s)
  case surplus p => exact withLength_settings (setSurplus_inner _ _ s).settings
  case forceOutput p => exact withLength_settings (ownForceOutput_settings p s)
  case releaseOutput p => exact withLength_settings (ownReleaseOutput_settings p s)
  case holdNow p => exact withLength_settings (ownHoldNow_settings s)
  case clearFaults p => exact withLength_settings (ownClearFaults_settings p s)
  case lockLimits p => exact withLength_settings (setMpt_settings s _ rfl)
  case restart p => exact withLength_settings (ownRestart_settings p s)
  case ident p | status p | solar p | hold p | meters p | energy p | faults p | outputs p => exact plainRead_settings _ p s
  case layers p | zones p | source p | probes p | config p => exact indexedRead_settings _ _ p s
  case powerOn | resetPin => cases h
  case setCylinder p | setZoneBounds p | setZone p | setSource p | setSolar p | setHold p | setProbeMap p => cases h
  case setProbeTrim p | setMeter p | setOutput p | setFaultPolicy p | setLink p => cases h
  all_goals rfl

theorem requestStep_settings {owner : State → Answer} (h : ∀ s, (owner s).state.settings = s.settings) (k : Byte)
    (p : List Byte) (s : State) : (requestStep k p owner s).settings = s.settings := by
  have arrives (f : Frame) : (s.setMpt (s.mpt.arrive f)).settings = s.settings :=
    setMpt_settings s _ (Mpt.arrive_interval ..)
  have answers (u : State) : (answerRequest k owner u).settings = u.settings := h u
  unfold requestStep
  dsimp only
  split
  · exact (answers _).trans (arrives _)
  · split
    · exact answers s
    · exact arrives _
  · exact arrives _

theorem tick_settings (s : State) : (tick s).settings = s.settings := by
  have lines : lineFigures (tabulate fun i => s.olu[i].tick) = lineFigures s.olu :=
    lineFigures_tabulate (fun _ => rfl) fun _ => rfl
  have slots : (tick s).scu.figures = s.scu.figures := by
    simp only [Scu.figures, Prod.mk.injEq, tick, true_and]
    funext n; cases n <;> rfl
  simp only [State.settings, slots]
  simp only [tick, lines]
  rfl

/-- A command that writes no setting moves none. -/
theorem exec_settings {c : Instr} {s t : State} (still : writesSettings s c = false) (h : exec c s = .next t) :
    t.settings = s.settings := by
  by_cases gate : c = .drawGateExpiry
  · subst gate; exact (execDrawGateExpiry_inner h).settings
  cases kind : kindOf c with
  | none =>
    exact (exec_event_kept kind (fun e => by rw [e] at still; cases still) (fun e => by rw [e] at still; cases still)
      gate h).2 still
  | some k =>
    rcases exec_of_kind kind with nothing | ⟨p, request⟩
    · cases (nothing s).symm.trans h
      rfl
    · have unmoved (u : State) : writesSettings u c = false := by
        cases c
        all_goals cases kind
        all_goals exact still
      cases (request s).symm.trans h
      exact requestStep_settings (fun u => ownerOf_settings u (unmoved u)) k p s

/-- Settles O15. -/
theorem onlySettingRequestsMoveSettings : Obligations.OnlySettingRequestsMoveSettings := by
  refine ⟨fun c s t => exec_settings, fun s t front h => ?_⟩
  unfold step at h
  split at h
  next none => cases h; exact tick_settings s
  next c rest queue =>
    have still : writesSettings { s with pending := rest } c = false := front c (by rw [queue]; rfl)
    have moved := exec_settings still h
    exact moved

/-- Settles O2. -/
theorem everyCommandCompletes : Obligations.EveryCommandCompletes := by
  intro c s
  obtain ⟨t, h⟩ : ∃ t, exec c s = .next t := by cases c <;> exact ⟨_, rfl⟩
  refine ⟨t, h, ?_⟩
  rcases exec_cases h with ⟨_, e⟩ | ⟨_, e⟩ | ⟨_, _, e⟩
  · rw [e]; rfl
  · exact e.pending
  · exact e.pending

/-- Settles O1, as the definition of a step has it. -/
theorem stepRunsTheOldestCommand : Obligations.StepRunsTheOldestCommand := fun _ _ _ => rfl

end Sys2Proof.Machine
end

section
/-! PROOFS. The Message Port (chapter 11): the receiver, the queue, malformed requests, reads, the link and the lock. -/

namespace Sys2Proof.Machine

/-! ### The receiver (R187) -/

/-- A byte that goes on with a frame loads the gap timer. -/
theorem Mpt.receive_more {m : Mpt} {b : Byte} {a : Assembler} (take : m.assembler.take b = (a, none)) (begun : a ≠ .hunt) :
    m.receive b false = { m with assembler := a, gapTimer := some 50 } := by
  simp [Mpt.receive, Assembler.receive, take, begun, Config.gapMilliseconds]

/-- A byte that ends a frame leaves the assembler in HUNT. -/
theorem Mpt.receive_last {m : Mpt} {b : Byte} {o : Option Frame} (take : m.assembler.take b = (.hunt, some o)) :
    m.receive b false =
      let idle := { m with assembler := .hunt, gapTimer := none }
      match o with
      | none => idle.countDiscard
      | some f => idle.arrive f := by
  cases o <;> simp [Mpt.receive, Assembler.receive, take]

theorem Mpt.receive_ignored {m : Mpt} {b : Byte} {e : Bool} (hunt : m.assembler = .hunt) (still : m.gapTimer = none)
    (h : e = true ∨ b ≠ 0xC5#8) : m.receive b e = m := by
  obtain ⟨_, _, _, _, _, _, _, _, _⟩ := m
  dsimp only at hunt still
  subst hunt still
  rcases h with rfl | h
  · rfl
  · cases e
    · simp [Mpt.receive, Assembler.receive, Assembler.take, h]
    · rfl

theorem Mpt.receive_framingError {m : Mpt} (b : Byte) (begun : m.assembler ≠ .hunt) :
    m.receive b true = { m with assembler := .hunt, gapTimer := none, discards := min 65535 (m.discards + 1) } := by
  simp [Mpt.receive, Assembler.receive, begun, Mpt.countDiscard]

/-- Settles O17. -/
theorem receiverBeginsAndDiscardsFrames : Obligations.ReceiverBeginsAndDiscardsFrames := by
  intro s b
  refine ⟨fun hunt still => ⟨fun other => ?ignored, ?error, ?start⟩, fun length long => ?long, fun begun => ⟨?broken, ?gap⟩⟩
  case ignored => exact congrArg (fun m => Host.Outcome.next (s.setMpt m)) (Mpt.receive_ignored hunt still (.inr other))
  case error => exact congrArg (fun m => Host.Outcome.next (s.setMpt m)) (Mpt.receive_ignored hunt still (.inl rfl))
  case start =>
    exact congrArg (fun m => Host.Outcome.next (s.setMpt m))
      (Mpt.receive_more (a := .length) (by rw [hunt]; rfl) (by simp))
  case long =>
    refine congrArg (fun m => Host.Outcome.next (s.setMpt m)) (Mpt.receive_last (o := none) ?_)
    rw [length]
    exact if_neg (by simpa [Config.largestPayload] using long)
  case broken => exact congrArg (fun m => Host.Outcome.next (s.setMpt m)) (Mpt.receive_framingError b begun)
  case gap => exact congrArg Host.Outcome.next (if_neg begun)

/-- The bytes of a payload, from the first to the last, with `held` collected before. -/
theorem Mpt.receive_payload (code : Byte) (len : Nat) (l held : List Byte) {m : Mpt}
    (h : m.assembler = .payload len code held) (some_left : l ≠ []) (all : held.length + l.length = len) :
    l.foldl (fun m b => m.receive b false) m =
      { m with assembler := .check len code (held ++ l) none, gapTimer := some 50 } := by
  induction l generalizing held m with
  | nil => exact absurd rfl some_left
  | cons b rest ih =>
    have length : held.length + (rest.length + 1) = len := all
    rw [List.foldl_cons]
    cases rest with
    | nil =>
      have take : m.assembler.take b = (.check len code (held ++ [b]) none, none) := by
        rw [h]
        simp only [Assembler.take, List.length_append, List.length_singleton]
        rw [if_pos (by simp at length; omega)]
      exact Mpt.receive_more take (by simp)
    | cons c rest =>
      have take : m.assembler.take b = (.payload len code (held ++ [b]), none) := by
        rw [h]
        simp only [Assembler.take, List.length_append, List.length_singleton]
        rw [if_neg (by simp at length; omega)]
      rw [Mpt.receive_more take (by simp), ih (held ++ [b]) rfl (by simp) (by simpa [Nat.add_assoc, Nat.add_comm 1] using length)]
      simp

/-- LEN, KIND and payload of a frame bring the receiver to its check. -/
theorem Mpt.receive_body {m : Mpt} (kind : Byte) {p : List Byte} (h : m.assembler = .length) (short : p.length ≤ 64) :
    (checkedBytes kind p).foldl (fun m b => m.receive b false) m =
      { m with assembler := .check p.length kind p none, gapTimer := some 50 } := by
  have len : (BitVec.ofInt 8 (p.length : Int)).toNat = p.length := by
    simp only [BitVec.ofInt_natCast, BitVec.toNat_ofNat]; omega
  have first : m.receive (BitVec.ofInt 8 (p.length : Int)) false =
      { m with assembler := .kind p.length, gapTimer := some 50 } := by
    refine Mpt.receive_more ?_ (by simp)
    rw [h]
    simp only [Assembler.take, len, Config.largestPayload]
    rw [if_pos short]
  rw [checkedBytes, byteOf, List.singleton_append, List.foldl_cons, List.foldl_cons, first]
  cases p with
  | nil => exact Mpt.receive_more rfl (by simp)
  | cons b rest =>
    rw [Mpt.receive_more (a := .payload (b :: rest).length kind []) rfl (by simp),
      Mpt.receive_payload kind (b :: rest).length (b :: rest) [] rfl (by simp) (by simp)]
    rfl

/-- The two bytes of a 2-byte field are the field. -/
theorem wordOf_toNat_append (c : BitVec 16) :
    BitVec.ofInt 8 ((c.toNat : Int) / 256) ++ BitVec.ofInt 8 (c.toNat : Int) = c := by
  apply BitVec.eq_of_toNat_eq
  have high : BitVec.ofInt 8 ((c.toNat : Int) / 256) = BitVec.ofNat 8 (c.toNat / 256) := by
    rw [← BitVec.ofInt_natCast]; rfl
  have := c.isLt
  rw [BitVec.toNat_append, high, BitVec.ofInt_natCast, BitVec.toNat_ofNat, BitVec.toNat_ofNat,
    ← Nat.shiftLeft_add_eq_or_of_lt (Nat.mod_lt _ (by decide)), Nat.shiftLeft_eq]
  omega

/-- Settles O16: the bytes bring the receiver to the check, and its two bytes decide. -/
theorem everyFrameIsJudgedByItsCheck : Obligations.EveryFrameIsJudgedByItsCheck := by
  intro m kind x y p hunt still short
  have judged (x y : Byte) : (0xC5#8 :: checkedBytes kind p ++ [x, y]).foldl (fun m b => m.receive b false) m =
      if x ++ y = frameCheck kind p then m.arrive ⟨kind, p⟩
      else { m with discards := min 65535 (m.discards + 1) } := by
    have idle : m = { m with assembler := .hunt, gapTimer := none } := by rw [← hunt, ← still]
    rw [List.cons_append, List.foldl_cons, List.foldl_append,
      Mpt.receive_more (a := .length) (by rw [hunt]; rfl) (by simp), Mpt.receive_body kind rfl short, List.foldl_cons,
      Mpt.receive_more (a := .check p.length kind p (some x)) rfl (by simp), List.foldl_cons, List.foldl_nil]
    split
    next good =>
      rw [Mpt.receive_last (o := some ⟨kind, p⟩) (by simp only [Assembler.take, if_pos good])]
      exact congrArg (fun m => Mpt.arrive m ⟨kind, p⟩) idle.symm
    next bad =>
      rw [Mpt.receive_last (o := none) (by simp only [Assembler.take, if_neg bad])]
      exact congrArg Mpt.countDiscard idle.symm
  refine ⟨?_, judged x y⟩
  have whole := judged (BitVec.ofInt 8 (((frameCheck kind p).toNat : Int) / 256)) (BitVec.ofInt 8 ((frameCheck kind p).toNat : Int))
  rw [wordOf_toNat_append, if_pos rfl] at whole
  exact whole

/-! ### Requests that wait and requests that are malformed (R189, R190) -/

/-- An arriving frame loads the supervision timer, and joins the queue or is counted as discarded (R189, R194). -/
theorem Mpt.arrive_eq (m : Mpt) (f : Frame) :
    m.arrive f =
      { m with
        queue := if m.queue.length < 2 then m.queue ++ [f] else m.queue
        discards := if m.queue.length < 2 then m.discards else min 65535 (m.discards + 1)
        supervision := if m.interval = 0 then none else some m.interval } := by
  by_cases room : m.queue.length < 2
  · simp [Mpt.arrive, Mpt.loadSupervision, Config.queuePlaces, room]
  · simp [Mpt.arrive, Mpt.loadSupervision, Config.queuePlaces, Mpt.countDiscard, room]

/-- Settles O18. -/
theorem requestWaitsInTheQueue : Obligations.RequestWaitsInTheQueue := by
  intro c k p s kind payload wf waits
  have unknown (j : Byte) (q : List Byte) (e : c = .unknownKindRequest j q) : knownKind j = false := by
    subst e
    simp only [Instr.wellFormed, Bool.and_eq_true, Bool.not_eq_true'] at wf
    exact wf.2
  rw [exec_request kind payload unknown, requestStep_arrives waits]
  rw [Mpt.arrive_eq]
  rfl

theorem ownerOf_badLength {c : Instr} {p : List Byte} {n : Nat} (payload : c.payload? = some p)
    (length : fixedLength c = some n) (wrong : p.length ≠ n) (s : State) : ownerOf c s = refuse .badLength s := by
  have differs : (p.length == n) = false := by simpa using wrong
  cases c
  all_goals cases length
  all_goals cases payload
  all_goals simp only [ownerOf, plainRead, indexedRead, onSlot, withLength, differs, Bool.false_eq_true, if_false]

theorem rankingLength_iff (p : List Byte) (i : Nat) :
    rankingLength p i = true ↔ i < p.length ∧ byteAt p i ≤ 4 ∧ p.length = i + 1 + byteAt p i := by
  simp [rankingLength, and_assoc]

theorem sourceOfCode_zero : sourceOfCode 0 = some none := rfl

theorem sourceOfCode_slot {n : Nat} (low : 1 ≤ n) (high : n ≤ 4) : ∃ m, sourceOfCode n = some (some m) := by
  match n, low, high with
  | 1, _, _ => exact ⟨_, rfl⟩
  | 2, _, _ => exact ⟨_, rfl⟩
  | 3, _, _ => exact ⟨_, rfl⟩
  | 4, _, _ => exact ⟨_, rfl⟩

theorem ownSetSource_badLength {p : List Byte}
    (h : p = [] ∨ byteAt p 0 = 0 ∧ p.length ≠ 6 ∨ 1 ≤ byteAt p 0 ∧ byteAt p 0 ≤ 4 ∧ p.length ≠ 22) (s : State) :
    ownSetSource p s = refuse .badLength s := by
  cases p with
  | nil => rfl
  | cons b rest =>
    rcases h with h | ⟨zero, wrong⟩ | ⟨low, high, wrong⟩
    · cases h
    · simp only [ownSetSource, List.isEmpty_cons, Bool.false_eq_true, if_false, zero, sourceOfCode_zero]
      rw [withLength_refused _ (by simpa using wrong)]
    · obtain ⟨m, slot⟩ := sourceOfCode_slot low high
      simp only [ownSetSource, List.isEmpty_cons, Bool.false_eq_true, if_false, slot]
      rw [withLength_refused _ (by simpa using wrong)]

/-- Settles O19. -/
theorem malformedRequestIsRefused : Obligations.MalformedRequestIsRefused := by
  refine ⟨fun k p s unknown takes => ?_, fun c k p n s kind payload length wrong takes => ?_, fun p s =>
    ⟨fun wrong takes => ?_, fun wrong takes => ?_, fun wrong takes => ?_, fun wrong takes => ?_⟩⟩
  · exact exec_of_refused rfl rfl takes rfl fun j q e => by cases e; exact unknown
  · exact exec_of_refused kind payload takes (ownerOf_badLength payload length wrong _) fun j q e => by
      rw [e] at length; cases length
  · have refused : rankingLength p 7 = false := Bool.eq_false_iff.2 (mt (rankingLength_iff p 7).1 wrong)
    exact exec_of_refused rfl rfl takes (congrFun (withLength_refused _ refused) _)
  · have refused : rankingLength p 10 = false := Bool.eq_false_iff.2 (mt (rankingLength_iff p 10).1 wrong)
    exact exec_of_refused rfl rfl takes (congrFun (withLength_refused _ refused) _)
  · exact exec_of_refused rfl rfl takes (ownSetSource_badLength wrong _)
  · exact exec_of_refused rfl rfl takes (congrFun (withLength_refused _ (by simpa using wrong)) _)

/-! ### Reads (R192) -/

/-- The zone, the source and the part that a code of one byte names. -/
theorem zoneOfCode_byte (b : Byte) :
    zoneOfCode b.toNat = if b = 0 then some .top else if b = 1 then some .mid else if b = 2 then some .low else none := by
  simp only [BitVec.toNat_eq]
  match b.toNat with
  | 0 | 1 | 2 => rfl
  | n + 3 => simp [zoneOfCode]

theorem sourceOfCode_byte (b : Byte) :
    sourceOfCode b.toNat =
      if b = 0 then some none
      else if b = 1 then some (some .s1)
      else if b = 2 then some (some .s2)
      else if b = 3 then some (some .s3)
      else if b = 4 then some (some .s4)
      else none := by
  simp only [BitVec.toNat_eq]
  match b.toNat with
  | 0 | 1 | 2 | 3 | 4 => rfl
  | n + 5 => simp [sourceOfCode, slotOfNumber]

/-- CONFIG has ten sections; zones and sources have a part for each, the other sections one part (R192). -/
theorem configData_isNone (sec index : Nat) (s : State) :
    (configData sec index s).isNone ↔
      9 < sec ∨ (sec ≠ 1 ∧ sec ≠ 2 ∧ index ≠ 0) ∨ (sec = 1 ∧ 2 < index) ∨ (sec = 2 ∧ 4 < index) := by
  match sec with
  | 0 | 3 | 4 | 5 | 6 | 7 | 8 | 9 => cases index <;> simp [configData]
  | 1 =>
    match index with
    | 0 | 1 | 2 => simp [configData, zoneOfCode]
    | n + 3 => simp [configData, zoneOfCode]
  | 2 =>
    match index with
    | 0 | 1 | 2 | 3 | 4 => simp [configData, sourceOfCode, slotOfNumber]
    | n + 5 => simp [configData, sourceOfCode, slotOfNumber]
  | n + 10 => simp [configData]

/-- The reply of a read: its part, or BAD_VALUE where the index names none. -/
def State.reading (s : State) (k : Byte) : Option (List Byte) → State
  | some d => s.replying k .ok d
  | none => s.replying k .badValue []

/-- A read answers the part it names. -/
theorem exec_read {c : Instr} {k : Byte} {p : List Byte} {s : State} {d : Option (List Byte)} (kind : kindOf c = some k)
    (payload : c.payload? = some p) (takes : s.Takes k p)
    (read : ownerOf c (s.taking k p) = match d with
      | some d => accept d (s.taking k p)
      | none => refuse .badValue (s.taking k p))
    (known : ∀ j q, c = .unknownKindRequest j q → knownKind j = false := by intro _ _ h; cases h) :
    exec c s = .next ((s.taking k p).reading k d) := by
  rw [exec_of_takes kind payload takes known]
  cases d with
  | none => dsimp only at read ⊢; rw [read]; rfl
  | some d => dsimp only at read ⊢; rw [read]; rfl

/-- Settles O20. -/
theorem readsAnswerAndChangeNothing : Obligations.ReadsAnswerAndChangeNothing := by
  intro s b x y
  have plain {c : Instr} {k : Byte} {d : List Byte} (kind : kindOf c = some k) (payload : c.payload? = some [])
      (known : ∀ j q, c = .unknownKindRequest j q → knownKind j = false)
      (read : ownerOf c (s.taking k []) = accept d (s.taking k [])) (takes : s.Takes k []) :
      exec c s = .next ((s.taking k []).replying k .ok d) := exec_read (d := some d) kind payload takes read known
  refine ⟨plain rfl rfl (by simp) rfl, plain rfl rfl (by simp) rfl, plain rfl rfl (by simp) rfl, plain rfl rfl (by simp) rfl,
    plain rfl rfl (by simp) rfl, plain rfl rfl (by simp) rfl, plain rfl rfl (by simp) rfl, plain rfl rfl (by simp) rfl,
    fun takes => ?layers, fun takes => ?zones, fun takes => ?source, fun takes => ?probes, fun takes => ⟨?config, ?range⟩⟩
  case layers =>
    rw [exec_read (d := if b.toNat ≤ 3 then some (layersData b.toNat (s.taking 0x03 [b])) else none) rfl rfl takes rfl]
    split <;> rfl
  case zones =>
    rw [exec_read (d := (zoneOfCode b.toNat).map fun z => zonesData z (s.taking 0x04 [b])) rfl rfl takes rfl, zoneOfCode_byte]
    split_ifs <;> rfl
  case source =>
    rw [exec_read (d := (sourceOfCode b.toNat).map fun n => sourceData n (s.taking 0x05 [b])) rfl rfl takes rfl,
      sourceOfCode_byte]
    split_ifs <;> rfl
  case probes =>
    rw [exec_read (d := if b.toNat ≤ 1 then some (probesData b.toNat (s.taking 0x0B [b])) else none) rfl rfl takes rfl]
    split <;> rfl
  case config =>
    rw [exec_read (d := configData x.toNat y.toNat (s.taking 0x0D [x, y])) rfl rfl takes rfl]
    rfl
  case range =>
    rw [configData_isNone]
    simp only [ne_eq, BitVec.toNat_eq]
    rfl

/-! ### The link, the lock and restarts (R193 to R195) -/

/-- A reply is CLAMPED exactly when the value taken is not the one asked for (R191). -/
theorem takenCode_bne {α : Type} [BEq α] [LawfulBEq α] [DecidableEq α] (a b : α) :
    takenCode (a != b) = if a = b then .ok else .clamped := by
  by_cases h : a = b
  · subst h; simp [takenCode]
  · simp [takenCode, h]

theorem takenInterval_eq (w : Nat) :
    takenInterval w = if w = 0 then 0 else if w < 10 then 10 else if 600 < w then 600 else w := by
  unfold takenInterval clampNat
  split_ifs <;> omega

/-- Settles O22. -/
theorem linkAndLockRequestsAreTaken : Obligations.LinkAndLockRequestsAreTaken := by
  refine ⟨fun s p length takes => ?_, fun s takes => ?_⟩
  swap
  · have same : lockedBytes (s.taking 0x2A []) = lockedBytes s := by simp [lockedBytes]
    refine (exec_of_takes (c := .lockLimits []) rfl rfl takes).trans ?_
    exact congrArg (fun d => Host.Outcome.next (State.replying _ 0x2A .ok d)) same
  dsimp only
  have owner : ownerOf (.setLink p) = ownSetLink p := withLength_of _ (by simp [length])
  rw [exec_of_takes rfl rfl takes, owner, ← takenInterval_eq]
  simp only [ownSetLink, taken, takenCode_bne]
  rfl

/-- Settles O24. -/
theorem repliesEndAndRestartsFollow : Obligations.RepliesEndAndRestartsFollow := by
  intro s b r
  refine ⟨fun takes => ?_, fun reply due => ?_⟩
  · have code : restartOfCode b.toNat = if b = 0 then some .warm else if b = 1 then some .cold else none := by
      simp only [BitVec.toNat_eq]
      match b.toNat with
      | 0 | 1 => rfl
      | n + 2 => simp [restartOfCode]
    have owner : ownerOf (.restart [b]) (s.taking 0x2B [b]) =
        match restartOfCode b.toNat with
        | some k => accept [] ((s.taking 0x2B [b]).setMpt { (s.taking 0x2B [b]).mpt with restartDue := some k })
        | none => refuse .badValue (s.taking 0x2B [b]) := rfl
    dsimp only
    rw [exec_of_takes rfl rfl takes, owner, code]
    split_ifs <;> rfl
  · have sent : exec .replySent s =
        .next (match s.mpt.reply, s.mpt.restartDue with
          | none, _ => s
          | some _, none => s.setMpt { s.mpt with reply := none, queue := s.mpt.queue.tail }
          | some _, some .warm => warmRestart s
          | some _, some .cold => coldRestart s) := rfl
    rw [sent, reply, due, List.drop_one]
    rfl

/-! ### Counts and resets -/

/-- Settles O48. -/
theorem pulsesRecoveriesAndSecondsAreCounted : Obligations.PulsesRecoveriesAndSecondsAreCounted := by
  refine fun s => ⟨rfl, rfl, fun i r relay rests => ?_, rfl⟩
  have ended : execRecoveryEnd i s = .next (s.setLine i s.olu[i].endRecovery) :=
    congrArg _ (if_pos (by simpa [isRelay] using relay))
  refine ended.trans ?_
  unfold Line.endRecovery
  rw [rests]
  rfl

/-- Settles O3: every value is the one `State.reset` is written with. -/
theorem powerOnLeavesTheStatedValues : Obligations.PowerOnLeavesTheStatedValues := by
  refine ⟨fun s => ⟨rfl, rfl⟩, ⟨rfl, rfl, by decide +kernel, by decide +kernel, ⟨rfl, ?injected, rfl, rfl, rfl⟩, rfl⟩,
    ⟨by decide +kernel, rfl, rfl, rfl⟩, ⟨rfl, ⟨rfl, rfl, rfl, rfl, rfl, rfl⟩, ⟨rfl, rfl, rfl, rfl, rfl, rfl⟩, rfl, rfl, rfl⟩,
    ⟨rfl, ?zones⟩, ⟨rfl, rfl, rfl, rfl, rfl, rfl, rfl, ?slots⟩, ⟨?services, rfl, rfl, rfl⟩, ⟨rfl, rfl, rfl⟩,
    ⟨rfl, rfl, rfl, rfl, rfl⟩, by decide +kernel, ⟨rfl, rfl, by decide +kernel⟩, ⟨rfl, rfl, rfl, rfl, rfl, rfl⟩⟩
  case injected => intro n; cases n <;> rfl
  case zones => intro z; cases z <;> exact ⟨rfl, rfl, rfl, rfl⟩
  case slots => intro n; cases n <;> exact ⟨rfl, rfl, rfl⟩
  case services => intro z; cases z <;> rfl

end Sys2Proof.Machine
end

section
/-! PROOFS. The setting requests (section 11.4.2, codes 0x10 to 0x1B). -/

namespace Sys2Proof.Machine

/-! ### Shared facts -/

/-- A taken request answers what its owner answers. -/
theorem exec_owned {c : Instr} {k : Byte} {p : List Byte} {s : State} {a : Answer} (kind : kindOf c = some k)
    (payload : c.payload? = some p) (takes : s.Takes k p) (owner : ownerOf c (s.taking k p) = a)
    (known : ∀ j q, c = .unknownKindRequest j q → knownKind j = false := by intro _ _ h; cases h) :
    exec c s = .next (a.state.replying k a.code a.data) := by
  subst owner
  exact exec_of_takes kind payload takes known

/-- A taken request is CLAMPED unless the values taken are those asked for (R191). -/
theorem takenCode_not {b : Bool} {p : Prop} [Decidable p] (same : b = true ↔ p) :
    takenCode (!b) = if p then .ok else .clamped := by
  by_cases h : p
  · rw [same.2 h, if_pos h]; rfl
  · rw [Bool.eq_false_iff.2 (mt same.1 h), if_neg h]; rfl

theorem mem_allSlots (n : SlotId) : n ∈ allSlots := by cases n <;> decide

theorem mem_allZones (z : Zone) : z ∈ allZones := by cases z <;> decide

theorem layerOfNumber_val (i : Fin 16) : layerOfNumber i.val = some i := dif_pos i.isLt

theorem layerOfNumber_none {n : Nat} (h : 15 < n) : layerOfNumber n = none := dif_neg (by omega)

/-- A zone of the list is judged once, and the others stand. -/
theorem judgeZones_zone {zs : List Zone} (once : zs.Nodup) (z : Zone) (s : State) :
    (judgeZones zs s).zone z = if z ∈ zs then (s.zone z).judge (s.zoneMinimum z) else s.zone z := by
  have key (least : Zone → Option Int) : ∀ (zs : List Zone) (t : State), zs.Nodup →
      (zs.foldl (fun t z => t.setZone z ((t.zone z).judge (least z))) t).zone z =
        if z ∈ zs then (t.zone z).judge (least z) else t.zone z := by
    intro zs
    induction zs with
    | nil => intro t _; rfl
    | cons y rest ih =>
      intro t once
      obtain ⟨fresh, once⟩ := List.nodup_cons.1 once
      rw [List.foldl_cons, ih _ once]
      by_cases h : z = y
      · subst h; simp [fresh]
      · simp [h]
  exact key s.zoneMinimum zs s once

theorem evaluateZones_zone {zs : List Zone} (once : zs.Nodup) (b : PerZone ZoneRec) (y : Option Zone) (z : Zone) (s : State) :
    (evaluateZones b zs y s).zone z = if z ∈ zs then (s.zone z).judge (s.zoneMinimum z) else s.zone z :=
  (congrArg (fun u : Zdu => u.zones.get z) (evaluateZones_governed b zs y s).zdu).trans (judgeZones_zone once z s)

theorem evaluateDiverters_zdu (s : State) : (evaluateDiverters s).zdu = s.zdu := by
  have one (n : SlotId) (s : State) : (evaluateDiverter n s).zdu = s.zdu := by
    unfold evaluateDiverter
    dsimp only
    split
    · exact (askLine_governed ..).zdu
    · rfl
  have all : ∀ (l : List SlotId) (s : State), (l.foldl (fun s n => evaluateDiverter n s) s).zdu = s.zdu := by
    intro l
    induction l with
    | nil => exact fun s => rfl
    | cons n l ih => exact fun s => (ih _).trans (one n s)
  exact all allSlots s

/-! ### SET_CYLINDER (R1, R2, R8) -/

theorem volumeBlocked_iff (s : State) :
    s.volumeBlocked = true ↔ (∃ n, (s.slot n).state.atRest = false) ∨ s.slc.state.circulates = true := by
  simp [State.volumeBlocked, mem_allSlots]

theorem State.taking_volumeBlocked (s : State) (k : Byte) (p : List Byte) : (s.taking k p).volumeBlocked = s.volumeBlocked := by
  simp [State.volumeBlocked]

theorem takenCode_cylinder (c : Clm) (p : List Byte) :
    takenCode (cylinderClamped c p) =
      if c.figures = (wordAt p 0, byteAt p 2, signedWordAt p 3, signedWordAt p 5, signedWordAt p 7, byteAt p 9) then .ok
      else .clamped :=
  takenCode_not (by simp [Clm.figures, and_assoc])

/-- The entry to UNSEEDED (R8): the layer table unseeded, the zones and the diverters evaluated. -/
theorem enterUnseeded_quiet (s : State) : Quiet { s with clm := unseed s.clm } (enterUnseeded s) :=
  (evaluateAllZones_quiet _).trans (evaluateDiverters_quiet _)

theorem enterUnseeded_demand (s : State) (z : Zone) : ((enterUnseeded s).zone z).demand = false := by
  have zone : (enterUnseeded s).zone z = (s.zone z).judge none := by
    refine (congrArg (fun u : Zdu => u.zones.get z) (evaluateDiverters_zdu _)).trans ?_
    exact (evaluateZones_zone (by decide) _ _ z _).trans (if_pos (mem_allZones z))
  rw [zone]
  rfl

/-- Settles O27. -/
theorem setCylinderIsJudgedByTheVolume : Obligations.SetCylinderIsJudgedByTheVolume := by
  refine ⟨volumeBlocked_iff, fun s p length takes => ?_⟩
  intro u v c code
  have owner : ownerOf (.setCylinder p) u = ownSetCylinder p u := congrFun (withLength_of _ (by simp [length])) u
  have taken_eq : u.clm.withCylinder p = c := rfl
  have code_eq : takenCode (cylinderClamped c p) = code := takenCode_cylinder c p
  have volume : u.clm.volume = s.clm.volume := congrArg Clm.volume (State.taking_clm s 0x10 p)
  have blocked : u.volumeBlocked = s.volumeBlocked := State.taking_volumeBlocked s 0x10 p
  have answer : ownSetCylinder p u =
      if v ≠ s.clm.volume ∧ s.volumeBlocked = true then refuse .busy u
      else ⟨code, cylinderBytes c, if v ≠ s.clm.volume then enterUnseeded { u with clm := c } else { u with clm := c }⟩ := by
    simp only [ownSetCylinder, taken_eq, taken, code_eq, volume, blocked]
    rfl
  rw [answer] at owner
  split_ifs with same busy
  · rw [if_neg (by simp [same]), if_neg (by simp [same])] at owner
    exact exec_owned rfl rfl takes owner
  · rw [if_pos ⟨same, busy⟩] at owner
    exact exec_owned rfl rfl takes owner
  · rw [if_neg (by simp [busy]), if_pos same] at owner
    have quiet := enterUnseeded_quiet { u with clm := c }
    have demand := enterUnseeded_demand { u with clm := c }
    generalize enterUnseeded { u with clm := c } = t at owner quiet demand
    have clm : t.clm = unseed c := quiet.clm
    have layer (i : Fin 16) : t.clm.layers[i] = { s.clm.layers[i] with residue := 0 } := by
      have same : u.clm.layers = s.clm.layers := congrArg Clm.layers (State.taking_clm s 0x10 p)
      rw [clm, ← same]
      exact tabulate_get ..
    refine ⟨_, exec_owned rfl rfl takes owner, rfl, (congrArg Clm.figures clm :), congrArg Clm.model clm, congrArg Clm.usable clm,
      congrArg Clm.storedKj clm, fun i => ⟨(congrArg Layer.temp (layer i) :), congrArg Layer.residue (layer i)⟩, fun k => ?_, demand,
      quiet.pfe.trans (State.taking_pfe s 0x10 p), quiet.flt.trans (State.taking_flt s 0x10 p)⟩
    have scanned : t.clm.scanned = Vector.replicate 12 false := congrArg Clm.scanned clm
    exact (congrArg (fun v : Vector Bool 12 => v[k]) scanned).trans (by simp)

/-! ### SET_ZONE_BOUNDS (R66, R68) -/

theorem prunedRanking_taking (s : State) (k : Byte) (p : List Byte) (b1 b2 : Fin 16) (z : Zone) :
    ({ s.taking k p with zdu := { (s.taking k p).zdu with b1 := b1, b2 := b2 } } : State).prunedRanking z =
      (s.zone z).ranking.filter fun n =>
        (s.slot n).cls.heating && decide ((s.slot n).settings.coilLow.val ≤ ({ s.zdu with b1 := b1, b2 := b2 } : Zdu).topLayer z) := by
  simp [State.prunedRanking, State.zone, State.slot, rankable]
  rfl

/-- Settles O28. -/
theorem setZoneBoundsIsJudgedInOrder : Obligations.SetZoneBoundsIsJudgedInOrder := by
  intro s x y takes u
  have owner : ownerOf (.setZoneBounds [x, y]) u = ownSetZoneBounds [x, y] u := congrFun (withLength_of _ rfl) u
  have progress : (allZones.any fun z => (u.service z).inProgress) =
      ((s.service .top).inProgress || (s.service .mid).inProgress || (s.service .low).inProgress) := by
    simp [u, allZones, Bool.or_assoc]
  have read : ownSetZoneBounds [x, y] u = match layerOfNumber x.toNat, layerOfNumber y.toNat with
      | some b1, some b2 =>
        if b1.val < 1 ∨ ¬ b1 < b2 then refuse .badValue u
        else if ((s.service .top).inProgress || (s.service .mid).inProgress || (s.service .low).inProgress) = true then
          refuse .busy u
        else
          let t := pruneAfterBounds { u with zdu := { u.zdu with b1 := b1, b2 := b2 } }
          accept (byteOf b1.val ++ byteOf b2.val ++ rankingOf (t.zone .top).ranking ++ rankingOf (t.zone .mid).ranking ++
            rankingOf (t.zone .low).ranking) t
      | _, _ => refuse .badValue u := by
    rw [← progress]; rfl
  by_cases high : 15 < x.toNat ∨ 15 < y.toNat
  · have refused : ownSetZoneBounds [x, y] u = refuse .badValue u := by
      rw [read]
      rcases high with h | h
      · rw [layerOfNumber_none h]
      · rw [layerOfNumber_none h]; split <;> trivial
    rw [if_pos (by omega)]
    exact exec_owned rfl rfl takes (owner.trans refused)
  obtain ⟨xlow, ylow⟩ : x.toNat < 16 ∧ y.toNat < 16 := by omega
  have b1 : layerOfNumber x.toNat = some ⟨x.toNat, xlow⟩ := dif_pos xlow
  have b2 : layerOfNumber y.toNat = some ⟨y.toNat, ylow⟩ := dif_pos ylow
  rw [read, b1, b2] at owner
  dsimp only at owner
  split_ifs with bad busy
  · rw [if_pos (by rw [Fin.mk_lt_mk]; omega)] at owner
    exact exec_owned rfl rfl takes owner
  · rw [if_neg (by rw [Fin.mk_lt_mk]; omega), if_pos busy] at owner
    exact exec_owned rfl rfl takes owner
  · rw [if_neg (by rw [Fin.mk_lt_mk]; omega), if_neg busy, pruneAfterBounds_eq] at owner
    have zdu : u.zdu = s.zdu := State.taking_zdu ..
    refine ⟨_, _, exec_owned rfl rfl takes owner, rfl, rfl, ?_, ?_, ?_, rfl⟩
    · exact (congrArg (fun r : Zdu => r.zones.top) zdu :)
    · exact (congrArg₂ (fun (r : ZoneRec) l => { r with ranking := l }) (congrArg (fun r : Zdu => r.zones.mid) zdu)
        (prunedRanking_taking s 0x11 [x, y] ⟨x.toNat, xlow⟩ ⟨y.toNat, ylow⟩ .mid) :)
    · exact (congrArg₂ (fun (r : ZoneRec) l => { r with ranking := l }) (congrArg (fun r : Zdu => r.zones.low) zdu)
        (prunedRanking_taking s 0x11 [x, y] ⟨x.toNat, xlow⟩ ⟨y.toNat, ylow⟩ .low) :)

/-! ### SET_ZONE (R67 to R69, R71 to R74) -/

theorem rankingValid_iff (s : State) (z : Zone) (r : List SlotId) :
    s.rankingValid z r = true ↔
      r.Nodup ∧ ∀ n ∈ r, (s.slot n).cls.heating = true ∧ (s.slot n).settings.coilLow.val ≤ s.zdu.topLayer z := by
  simp [State.rankingValid, rankable_iff]

theorem judge_settings (m : Option Int) (x : ZoneRec) :
    (x.judge m).target = x.target ∧ (x.judge m).hysteresis = x.hysteresis ∧ (x.judge m).urgentMargin = x.urgentMargin ∧
      (x.judge m).ranking = x.ranking := by
  cases m <;> exact ⟨rfl, rfl, rfl, rfl⟩

theorem zoneBytes_judge (z : Zone) (m : Option Int) (x : ZoneRec) : zoneBytes z (x.judge m) = zoneBytes z x := by
  cases m <;> rfl

/-- A zone without a boost is judged against its target (R72, R73). -/
theorem judge_of_no_boost {x : ZoneRec} (m : Int) (boost : x.boost = none) :
    (x.judge (some m)).demand =
        (if x.target = 0 then false else if m < x.target - x.hysteresis then true else if x.target ≤ m then false else x.demand) ∧
      ((x.judge (some m)).urgent = true ↔ 0 < x.target ∧ m < x.target - x.hysteresis - x.urgentMargin) := by
  simp [ZoneRec.judge, boost]

/-- The state of the zones once one zone's settings are taken and it is judged. -/
theorem setZone_evaluated (z y : Zone) (r : ZoneRec) (s : State) :
    (evaluate .zoneSet (evaluateZones (s.setZone z r).zdu.zones [z] none (s.setZone z r))).zone y =
      if y = z then r.judge (s.zoneMinimum z) else s.zone y := by
  have kept := congrArg (fun u : Zdu => u.zones.get y)
    (evaluate_governed .zoneSet (evaluateZones (s.setZone z r).zdu.zones [z] none (s.setZone z r))).zdu
  refine kept.trans ((evaluateZones_zone (List.nodup_singleton z) _ _ y _).trans ?_)
  by_cases h : y = z
  · subst h
    simp [State.zoneMinimum]
    rfl
  · simp [h]

/-- Settles O29. -/
theorem setZoneIsTakenWholeOrNotAtAll : Obligations.SetZoneIsTakenWholeOrNotAtAll := by
  intro s p length takes u
  have owner : ownerOf (.setZone p) u = ownSetZone p u := congrFun (withLength_of _ length) u
  unfold ownSetZone at owner
  split
  next z r zone ranking =>
    rw [zone, ranking] at owner
    dsimp only at owner
    have valid : u.rankingValid z r = true ↔
        r.Nodup ∧ ∀ n ∈ r, (s.slot n).cls.heating = true ∧ (s.slot n).settings.coilLow.val ≤ s.zdu.topLayer z := by
      rw [rankingValid_iff]; simp [u]
    by_cases good : r.Nodup ∧ ∀ n ∈ r, (s.slot n).cls.heating = true ∧ (s.slot n).settings.coilLow.val ≤ s.zdu.topLayer z
    case neg =>
      rw [if_neg (mt valid.1 good)] at owner
      rw [if_neg good]
      exact exec_owned rfl rfl takes owner
    case pos =>
      rw [if_pos (valid.2 good)] at owner
      rw [if_pos good]
      set x : ZoneRec := { u.zone z with
        target := takenTarget (signedWordAt p 1), hysteresis := clamp 10 150 (signedWordAt p 3)
        urgentMargin := clamp 0 200 (signedWordAt p 5), ranking := r }
      have zones (y : Zone) := setZone_evaluated z y x u
      have quiet := (evaluateZones_quiet (u.setZone z x).zdu.zones [z] none (u.setZone z x)).trans
        (evaluate_governed .zoneSet _).quiet
      generalize evaluate .zoneSet (evaluateZones (u.setZone z x).zdu.zones [z] none (u.setZone z x)) = t at owner zones quiet
      have zone : t.zone z = x.judge (s.zoneMinimum z) := by
        rw [zones, if_pos rfl]; simp [u, State.zoneMinimum]
      obtain ⟨target, hysteresis, margin, rank⟩ := judge_settings (s.zoneMinimum z) x
      have bytes : zoneBytes z (t.zone z) = zoneBytes z x := by rw [zone, zoneBytes_judge]
      rw [← zone] at target hysteresis margin rank
      have code : takenCode (!(x.target == signedWordAt p 1 && x.hysteresis == signedWordAt p 3 &&
          x.urgentMargin == signedWordAt p 5)) =
          if (t.zone z).figures = (signedWordAt p 1, signedWordAt p 3, signedWordAt p 5) then .ok else .clamped :=
        takenCode_not (by simp [ZoneRec.figures, target, hysteresis, margin, and_assoc])
      rw [taken, code, ← bytes] at owner
      refine ⟨_, if (t.zone z).figures = (signedWordAt p 1, signedWordAt p 3, signedWordAt p 5) then .ok else .clamped,
        exec_owned rfl rfl takes owner, target, hysteresis, margin, rank, ?_, ?_, rfl, fun absent => ?_,
        fun m least boost => ?_, fun y other => ?_, ?_, ?_⟩
      · show _ ↔ (t.zone z).figures = _
        split_ifs with same <;> simp [same]
      · split_ifs <;> simp
      · show (t.zone z).demand = false ∧ (t.zone z).urgent = false
        rw [zone, absent]
        exact ⟨rfl, rfl⟩
      · have judged := judge_of_no_boost (x := x) m (by simpa [x, u] using boost)
        rw [least] at zone
        have demand : x.demand = (s.zone z).demand := by simp [x, u]
        rw [← zone, ← target, ← hysteresis, ← margin, demand] at judged
        exact judged
      · show t.zone y = _
        rw [zones, if_neg other, State.taking_zone]
      · exact quiet.clm.trans (by simp [u])
      · exact quiet.pfe.trans (by simp [u])
  next bad =>
    refine exec_owned (a := refuse .badValue u) rfl rfl takes (owner.trans ?_)
    split
    · next zone ranking => exact absurd ranking (bad _ _ zone)
    · rfl

/-! ### SET_SOURCE of slots 1 to 4 (R80 to R83, R102) -/

theorem carrier_function {s : State} {f : LineFunction} {i : Fin 8} (h : s.carrier f = some i) : s.olu[i].function = f := by
  simpa using List.find?_some h

/-- A request reaches the line of its function alone. -/
theorem askLine_other {s : State} {f : LineFunction} {i : Fin 8} (v : Nat) (h : s.olu[i].function ≠ f) :
    (askLine f v s).olu[i] = s.olu[i] := by
  unfold askLine
  split
  · rfl
  next j carries =>
    have other : j ≠ i := by rintro rfl; exact h (carrier_function carries)
    rw [State.olu_setLine, if_neg other]

/-- A diverter's evaluation changes the slots and the lines only. -/
theorem evaluateDiverter_eq (n : SlotId) (s : State) :
    evaluateDiverter n s =
      { s with scu := { s.scu with slots := (evaluateDiverter n s).scu.slots }, olu := (evaluateDiverter n s).olu } := by
  unfold evaluateDiverter
  dsimp only
  split
  · rw [askLine_eq]; rfl
  · rfl

theorem evaluateDiverter_still {n : SlotId} {s : State} (h : (s.slot n).cls = .diverter → (s.slot n).state = .disabled) :
    evaluateDiverter n s = s := if_neg fun ⟨cls, state⟩ => state (h cls)

theorem evaluateDiverter_other {n : SlotId} {s : State} {i : Fin 8} (h : s.olu[i].function ≠ .diverterDrive n) :
    (evaluateDiverter n s).olu[i] = s.olu[i] := by
  unfold evaluateDiverter
  dsimp only
  split
  · exact (askLine_other _ (s := s.setSlot n _) h).trans rfl
  · rfl

theorem sourceOfCode_slotNumber (n : SlotId) : sourceOfCode (slotNumber n) = some (some n) := by cases n <;> rfl

theorem sourceOfCode_none {n : Nat} (h : 4 < n) : sourceOfCode n = none := by
  match n, h with
  | n + 5, _ => simp [sourceOfCode, slotOfNumber]

theorem nonempty_of_byteAt {p : List Byte} {i : Nat} (h : byteAt p i ≠ 0) : p.isEmpty = false := by
  cases p with
  | nil => exact absurd rfl h
  | cons b rest => rfl

theorem ownSetSource_slot {p : List Byte} {n : SlotId} (length : p.length = 22) (slot : byteAt p 0 = slotNumber n) :
    ownSetSource p = ownSetSlot n p := by
  have nonempty : p.isEmpty = false := nonempty_of_byteAt (i := 0) (by cases n <;> simp [slot, slotNumber])
  unfold ownSetSource
  rw [nonempty, slot, sourceOfCode_slotNumber]
  exact withLength_of _ (by simp [length])

/-- A record of SET_SOURCE is refused, or it names class, coil layers and confirm input. -/
theorem ownSetSlot_cases (n : SlotId) (p : List Byte) (s : State) :
    ownSetSlot n p s = refuse .badValue s ∨
      ∃ cls lo hi c, classOfCode (byteAt p 1) = some cls ∧ layerOfNumber (byteAt p 2) = some lo ∧
        layerOfNumber (byteAt p 3) = some hi ∧ confirmAsked cls (byteAt p 19) = some c ∧
        ownSetSlot n p s = takeSource n cls lo hi c p s := by
  unfold ownSetSlot
  split
  next cls lo hi class_eq lo_eq hi_eq =>
    split
    next c confirm => exact .inr ⟨cls, lo, hi, c, class_eq, lo_eq, hi_eq, confirm, rfl⟩
    next => exact .inl rfl
  next => exact .inl rfl

/-- What R82, steps 1 and 2, ask of a record. -/
def State.sourceAllowed (s : State) (n : SlotId) (cls : SlotClass) (lo hi : Fin 16) (c : Option (Fin 4)) : Prop :=
  lo ≤ hi ∧ (∀ i, c = some i → (cls = .heatPump ∨ cls = .boiler) ∧ ∀ m, m ≠ n → (s.slot m).settings.confirm ≠ some i) ∧
    (cls.heating = false → s.carrier (.sourceCall n) = none) ∧ (cls ≠ .diverter → s.carrier (.diverterDrive n) = none)

theorem confirmAllowed_iff (s : State) (n : SlotId) (cls : SlotClass) (c : Option (Fin 4)) :
    s.confirmAllowed n cls c = true ↔
      ∀ i, c = some i → (cls = .heatPump ∨ cls = .boiler) ∧ ∀ m, m ≠ n → (s.slot m).settings.confirm ≠ some i := by
  cases c with
  | none => simp [State.confirmAllowed]
  | some i =>
    have kind : cls.takesConfirm = true ↔ cls = .heatPump ∨ cls = .boiler := by cases cls <;> simp [SlotClass.takesConfirm]
    simp [State.confirmAllowed, State.confirmTaken, kind, mem_allSlots]

theorem linesAllow_iff (s : State) (n : SlotId) (cls : SlotClass) :
    s.linesAllow n cls = true ↔
      (cls.heating = false → s.carrier (.sourceCall n) = none) ∧ (cls ≠ .diverter → s.carrier (.diverterDrive n) = none) := by
  cases h : s.carrier (.sourceCall n) <;> cases k : s.carrier (.diverterDrive n) <;> simp [State.linesAllow, h, k]

theorem takeSource_refused {s : State} {n : SlotId} {cls : SlotClass} {lo hi : Fin 16} {c : Option (Fin 4)} {p : List Byte}
    (bad : ¬ s.sourceAllowed n cls lo hi c) : takeSource n cls lo hi c p s = refuse .badValue s := by
  unfold takeSource
  dsimp only
  by_cases order : lo > hi ∨ (!s.confirmAllowed n cls c) = true
  · exact if_pos order
  · obtain ⟨rising, confirm⟩ : lo ≤ hi ∧ s.confirmAllowed n cls c = true := by simpa using order
    rw [if_neg order]
    refine if_pos ?_
    rw [Bool.not_eq_true', Bool.eq_false_iff]
    exact fun lines => bad ⟨rising, (confirmAllowed_iff ..).1 confirm, (linesAllow_iff ..).1 lines⟩

/-- A record that R82 allows is BUSY or taken. -/
theorem takeSource_allowed {s : State} {n : SlotId} {cls : SlotClass} {lo hi : Fin 16} {c : Option (Fin 4)} (p : List Byte)
    (good : s.sourceAllowed n cls lo hi c) :
    takeSource n cls lo hi c p s =
      let old := s.slot n
      let x := settingsAsked cls lo hi c p
      let new : Slot := { old with cls := cls, settings := x, rearm := decide (cls = old.cls) && old.rearm }
      if old.state ≠ .disabled ∧ ¬(cls = old.cls ∧ { x with ceiling := old.settings.ceiling } = old.settings) then
        refuse .busy s
      else
        ⟨takenCode (settingsClamped cls p x), slotBytes n new,
          evaluateDiverter n
            (if cls ≠ old.cls ∨ lo ≠ old.settings.coilLow ∨ hi ≠ old.settings.coilHigh then pruneSlot n (s.setSlot n new)
              else s.setSlot n new)⟩ := by
  obtain ⟨rising, confirm, lines⟩ := good
  have order : ¬(lo > hi ∨ (!s.confirmAllowed n cls c) = true) := by
    simp [rising, (confirmAllowed_iff ..).2 confirm]
  unfold takeSource
  dsimp only
  rw [if_neg order, if_neg (by simp [(linesAllow_iff ..).2 lines])]
  split
  next => rfl
  next free =>
    by_cases same : cls = (s.slot n).cls
    · simp only [if_pos same, taken]
      simp [same]
    · have rests : (s.slot n).state = .disabled := by
        by_contra busy
        exact free ⟨busy, fun h => same h.1⟩
      simp only [if_neg same, taken]
      simp [same, rests]

theorem sourceAllowed_taking (s : State) (k : Byte) (p : List Byte) (n : SlotId) (cls : SlotClass) (lo hi : Fin 16)
    (c : Option (Fin 4)) : (s.taking k p).sourceAllowed n cls lo hi c ↔ s.sourceAllowed n cls lo hi c := by
  simp [State.sourceAllowed, State.carrier]

theorem layerOfNumber_some {b : Nat} {i : Fin 16} (h : layerOfNumber b = some i) : b = i.val := by
  unfold layerOfNumber at h
  split at h
  · cases h; rfl
  · cases h

theorem classOfCode_some {b : Nat} {cls : SlotClass} (h : classOfCode b = some cls) : b = cls.code := by
  unfold classOfCode at h
  split at h <;> cases h <;> rfl

theorem confirmAsked_some {cls : SlotClass} {b : Nat} {c : Option (Fin 4)} (h : confirmAsked cls b = some c) :
    (∃ i : Fin 4, c = some i ∧ b = i.val) ∨ 0xFE ≤ b := by
  unfold confirmAsked at h
  split_ifs at h with input none class_default
  · cases h; exact .inl ⟨_, rfl, rfl⟩
  · exact .inr (by omega)
  · exact .inr (by omega)

theorem takenCode_settings (cls : SlotClass) (p : List Byte) (x : SlotSettings) :
    takenCode (settingsClamped cls p x) =
      let d := cls.defaults
      if x.rate = wordAt p 4 ∧ x.ceiling = ceilingAsked cls p ∧ x.minRun = wordOrDefault p 8 d.minRun ∧
          x.minOff = wordOrDefault p 10 d.minOff ∧ x.startDwell = wordOrDefault p 12 d.startDwell ∧
          x.coldExtra = wordOrDefault p 14 d.coldExtra ∧ x.warmTime = warmAsked cls p ∧
          x.overrun = wordOrDefault p 17 d.overrun ∧ x.confirmWindow = wordOrDefault p 20 d.confirmWindow then .ok
      else .clamped :=
  takenCode_not (by simp [and_assoc])

/-- A record with one of the faults of R82, steps 1 and 2, is not allowed. -/
theorem not_sourceAllowed {s : State} {p : List Byte} {n : SlotId} {cls : SlotClass} {lo hi : Fin 16} {c : Option (Fin 4)}
    (class_eq : byteAt p 1 = cls.code) (lo_eq : byteAt p 2 = lo.val) (hi_eq : byteAt p 3 = hi.val)
    (confirm : (∃ i : Fin 4, c = some i ∧ byteAt p 19 = i.val) ∨ 0xFE ≤ byteAt p 19)
    (bad : 4 < byteAt p 1 ∨ 15 < byteAt p 2 ∨ 15 < byteAt p 3 ∨ byteAt p 3 < byteAt p 2 ∨
      3 < byteAt p 19 ∧ byteAt p 19 < 0xFE ∨ byteAt p 19 ≤ 3 ∧ byteAt p 1 ≠ 1 ∧ byteAt p 1 ≠ 2 ∨
      (∃ m i, m ≠ n ∧ (s.slot m).settings.confirm = some i ∧ byteAt p 19 = i.val) ∨
      s.carrier (.sourceCall n) ≠ none ∧ (byteAt p 1 = 0 ∨ byteAt p 1 = 4) ∨
      s.carrier (.diverterDrive n) ≠ none ∧ byteAt p 1 ≠ 4) : ¬ s.sourceAllowed n cls lo hi c := by
  rintro ⟨rising, input, call, drive⟩
  rw [Fin.le_def] at rising
  rcases bad with h | h | h | h | h | ⟨low, h⟩ | ⟨m, i, other, names, h⟩ | ⟨call_line, h⟩ | ⟨drive_line, h⟩
  · cases cls <;> simp [class_eq, SlotClass.code] at h
  · omega
  · omega
  · omega
  · obtain ⟨i, rfl, value⟩ | h' := confirm <;> omega
  · obtain ⟨i, rfl, value⟩ | h' := confirm
    · rcases (input i rfl).1 with rfl | rfl <;> simp [class_eq, SlotClass.code] at h
    · omega
  · obtain ⟨j, rfl, value⟩ | h' := confirm
    · obtain rfl : i = j := Fin.ext (h.symm.trans value)
      exact (input i rfl).2 m other names
    · omega
  · refine call_line (call ?_)
    cases cls <;> simp [class_eq, SlotClass.code] at h <;> rfl
  · refine drive_line (drive ?_)
    rintro rfl
    exact h class_eq

theorem pruneSlot_zone (n : SlotId) (s : State) (z : Zone) :
    (pruneSlot n s).zdu.zones.get z =
      { s.zone z with
        ranking :=
          if rankable (s.slot n).cls (s.slot n).settings.coilLow (s.zdu.topLayer z) = true then (s.zone z).ranking
          else (s.zone z).ranking.filter fun m => decide (m ≠ n) } := by
  have zone : (pruneSlot n s).zdu.zones.get z = { s.zone z with
      ranking := (s.zone z).ranking.filter fun m =>
        rankable (s.slot n).cls (s.slot n).settings.coilLow (s.zdu.topLayer z) || decide (m ≠ n) } := by
    rw [pruneSlot_eq]; cases z <;> rfl
  rw [zone]
  split
  next ranks => simp [ranks]
  next fails => simp [Bool.eq_false_iff.2 fails]

/-- Settles O30. -/
theorem setSourceConfiguresADisabledSlot : Obligations.SetSourceConfiguresADisabledSlot := by
  refine ⟨fun s p high takes => ?_, fun s p n length slot takes bad => ?_, ?_⟩
  · have owner : ownerOf (.setSource p) = refuse .badValue := by
      show ownSetSource p = _
      rw [ownSetSource, nonempty_of_byteAt (i := 0) (by omega), sourceOfCode_none high]
      rfl
    exact exec_owned rfl rfl takes (congrFun owner _)
  · have owner : ownSetSource p (s.taking 0x13 p) = refuse .badValue (s.taking 0x13 p) := by
      rw [ownSetSource_slot length slot]
      obtain refused | ⟨cls, lo, hi, c, class_eq, lo_eq, hi_eq, confirm, eq⟩ := ownSetSlot_cases n p (s.taking 0x13 p)
      · exact refused
      · rw [eq]
        refine takeSource_refused (mt (sourceAllowed_taking ..).1 ?_)
        exact not_sourceAllowed (classOfCode_some class_eq) (layerOfNumber_some lo_eq) (layerOfNumber_some hi_eq)
          (confirmAsked_some confirm) bad
    exact exec_owned (c := .setSource p) rfl rfl takes owner
  · intro s p n cls lo hi c length slot class_eq lo_eq hi_eq rising confirm input call drive takes u old x d code
      same new
    have good : u.sourceAllowed n cls lo hi c := (sourceAllowed_taking ..).2 ⟨rising, input, call, drive⟩
    have code_eq : takenCode (settingsClamped cls p x) = code := takenCode_settings cls p x
    have old_eq : u.slot n = old := State.taking_slot ..
    have owner : ownerOf (.setSource p) u =
        if old.state ≠ .disabled ∧ ¬ same then refuse .busy u
        else ⟨code, slotBytes n new, evaluateDiverter n
          (if cls ≠ old.cls ∨ lo ≠ old.settings.coilLow ∨ hi ≠ old.settings.coilHigh then pruneSlot n (u.setSlot n new)
            else u.setSlot n new)⟩ := by
      show ownSetSource p u = _
      rw [ownSetSource_slot length slot, ownSetSlot, class_eq, lo_eq, hi_eq, layerOfNumber_val, layerOfNumber_val]
      dsimp only
      rw [confirm]
      dsimp only
      rw [takeSource_allowed p good, old_eq, ← code_eq]
    have coil (alike : same) : ¬(cls ≠ old.cls ∨ lo ≠ old.settings.coilLow ∨ hi ≠ old.settings.coilHigh) := by
      obtain ⟨class_same, figures_same⟩ := alike
      have low : lo = old.settings.coilLow := congrArg SlotSettings.coilLow figures_same
      have high : hi = old.settings.coilHigh := congrArg SlotSettings.coilHigh figures_same
      simp [class_same, low, high]
    have new_eq : (u.setSlot n new).slot n = new := by simp
    refine ⟨fun works differs => ?_, fun rests => ?_, fun _ alike other => ?_, fun _ alike diverter => ?_⟩
    · rw [if_pos ⟨works, differs⟩] at owner
      exact exec_owned rfl rfl takes owner
    · rw [if_neg fun h => h.1 rests] at owner
      have zdu : u.zdu = s.zdu := State.taking_zdu ..
      by_cases changed : cls ≠ old.cls ∨ lo ≠ old.settings.coilLow ∨ hi ≠ old.settings.coilHigh
      · rw [if_pos changed] at owner
        have pruned : pruneSlot n (u.setSlot n new) = { u.setSlot n new with zdu := (pruneSlot n (u.setSlot n new)).zdu } := by
          rw [pruneSlot_eq]
        rw [evaluateDiverter_still fun _ => by rw [pruned]; exact (congrArg Slot.state new_eq).trans rests, pruned] at owner
        refine ⟨_, exec_owned rfl rfl takes owner, ?_, ?_, fun z => ?_⟩
        · rw [pruneSlot_eq]; exact (congrArg Zdu.b1 zdu :)
        · rw [pruneSlot_eq]; exact (congrArg Zdu.b2 zdu :)
        · have zone : (u.setSlot n new).zone z = s.zone z := State.taking_zone ..
          have top : (u.setSlot n new).zdu.topLayer z = s.zdu.topLayer z := congrArg (Zdu.topLayer · z) zdu
          rw [pruneSlot_zone, zone, top, new_eq]
          simp only [rankable_iff, changed, true_and, ite_not]
          rfl
      · rw [if_neg changed, evaluateDiverter_still fun _ => (congrArg Slot.state new_eq).trans rests] at owner
        refine ⟨u.zdu, exec_owned rfl rfl takes owner, congrArg Zdu.b1 zdu, congrArg Zdu.b2 zdu, fun z => ?_⟩
        rw [if_neg fun h => changed h.1, zdu]
        rfl
    · rw [if_neg fun h => h.2 alike, if_neg (coil alike),
        evaluateDiverter_still fun h => absurd ((congrArg Slot.cls new_eq).symm.trans h) other] at owner
      exact exec_owned rfl rfl takes owner
    · rw [if_neg fun h => h.2 alike, if_neg (coil alike)] at owner
      have others (m : SlotId) (h : m ≠ n) : (u.setSlot n new).slot m = s.slot m := by simp [h, u]
      have lines : u.olu = s.olu := State.taking_olu ..
      have shape : evaluateDiverter n (u.setSlot n new) =
          { u with
            scu := { u.scu with slots := (evaluateDiverter n (u.setSlot n new)).scu.slots }
            olu := (evaluateDiverter n (u.setSlot n new)).olu } := evaluateDiverter_eq ..
      have slots := fun m => evaluateDiverter_slot n m (u.setSlot n new)
      have olu := fun i (h : s.olu[i].function ≠ .diverterDrive n) =>
        (evaluateDiverter_other (n := n) (s := u.setSlot n new) (i := i) (lines ▸ h)).trans
          (congrArg (fun l : Vector Line 8 => l[i]) lines)
      generalize evaluateDiverter n (u.setSlot n new) = t at owner shape slots olu
      have own : (t.slot n).settings = x ∧ (t.slot n).cls = cls := by
        obtain h | ⟨-, -, -, r, st, h, -⟩ := slots n
        · rw [h, new_eq]; exact ⟨rfl, rfl⟩
        · rw [h, new_eq]; exact ⟨rfl, rfl⟩
      refine ⟨t, exec_owned rfl rfl takes owner, own.1, own.2.trans diverter, fun m h => ?_, olu, shape⟩
      obtain k | ⟨rfl, -⟩ := slots m
      · exact k.trans (others m h)
      · exact absurd rfl h

/-! ### SET_SOURCE of slot 0 (R83) -/

theorem ownSetSource_solar {p : List Byte} (length : p.length = 6) (slot : byteAt p 0 = 0) :
    ownSetSource p = ownSetSolarSlot p := by
  have nonempty : p.isEmpty = false := by cases p with
    | nil => cases length
    | cons b rest => rfl
  unfold ownSetSource
  rw [nonempty, slot, sourceOfCode_zero]
  exact withLength_of _ (by simp [length])

/-- The solar maximum is lowered to 50 dd below the hard maximum where it lies above (R83). -/
theorem lowered_eq_min (solar hard : Int) :
    (if decide (solar > hard - 50) = true then hard - 50 else solar) = min solar (hard - 50) := by
  rcases le_or_gt solar (hard - 50) with h | h
  · simp [h, not_lt.2 h]
  · simp [h, h.le]

theorem takenCode_solarSlot (solar hard asked : Int) (time wanted : Nat) :
    takenCode (decide (solar > hard - 50) || hard != asked || time != wanted) =
      if hard = asked ∧ time = wanted ∧ solar ≤ hard - 50 then .ok else .clamped := by
  have same : (decide (solar > hard - 50) || hard != asked || time != wanted) =
      !(decide (solar ≤ hard - 50) && hard == asked && time == wanted) := by
    have low : decide (solar > hard - 50) = !decide (solar ≤ hard - 50) := by simp [← decide_not]
    simp only [low, bne, Bool.not_and]
  rw [same]
  exact takenCode_not (by simp only [Bool.and_eq_true, decide_eq_true_eq, beq_iff_eq]; tauto)

/-- Settles O31. -/
theorem setSourceOfSlotZeroIsJudgedInOrder : Obligations.SetSourceOfSlotZeroIsJudgedInOrder := by
  refine ⟨fun s p length slot high takes => ?_, fun s p lo hi length slot low high takes => ?_⟩
  · have owner : ownSetSource p (s.taking 0x13 p) = refuse .badValue (s.taking 0x13 p) := by
      rw [ownSetSource_solar length slot, ownSetSolarSlot]
      rcases high with h | h
      · rw [layerOfNumber_none h]
      · rw [layerOfNumber_none h]; split <;> trivial
    exact exec_owned (c := .setSource p) rfl rfl takes owner
  · intro u h time
    have owner : ownerOf (.setSource p) u = ownSetSolarSlot p u := congrFun (ownSetSource_solar length slot) u
    have scu : u.scu = s.scu := State.taking_scu ..
    have slc : u.slc = s.slc := State.taking_slc ..
    have lock : u.mpt.lock = s.mpt.lock := State.taking_lock ..
    rw [ownSetSolarSlot, low, high, layerOfNumber_val, layerOfNumber_val] at owner
    dsimp only at owner
    simp only [taken, lowered_eq_min, takenCode_solarSlot, scu, slc, lock] at owner
    simp only [scu, slc]
    split
    next order => exact exec_owned rfl rfl takes (owner.trans (if_pos order))
    next order =>
    split
    next locked => exact exec_owned rfl rfl takes (owner.trans ((if_neg order).trans (if_pos locked)))
    next free =>
    split
    next busy => exact exec_owned rfl rfl takes (owner.trans ((if_neg order).trans ((if_neg free).trans (if_pos busy))))
    next still => exact exec_owned rfl rfl takes (owner.trans ((if_neg order).trans ((if_neg free).trans (if_neg still))))

/-! ### SET_HOLD (R148, R151, R152, R161) -/

theorem baseAsked_eq (b : Nat) : baseAsked b = Fin.ofNat 16 (min 15 b) := by
  apply Fin.ext
  simp only [baseAsked, Fin.ofNat]
  omega

theorem takenCode_cases (b : Bool) : takenCode b = .ok ∨ takenCode b = .clamped := by cases b <;> simp [takenCode]

theorem takeSettings_interval (t : Ths) (h : HoldSettings) :
    (t.takeSettings h).interval =
      if h.enable = false then none
      else if t.settings.enable = false ∨ h.period ≠ t.settings.period ∨ h.width ≠ t.settings.width ∨
          h.base ≠ t.settings.base then some h.interval
      else t.interval := by
  simp [Ths.takeSettings]

/-- Settles O33. -/
theorem setHoldIsJudgedInOrder : Obligations.SetHoldIsJudgedInOrder := by
  intro s p length takes u
  have owner : ownerOf (.setHold p) u = ownSetHold p u := congrFun (withLength_of _ length) u
  have ths : u.ths = s.ths := State.taking_ths ..
  have lock : u.mpt.lock = s.mpt.lock := State.taking_lock ..
  simp only [ownSetHold, onOffCode_eq, ths, lock] at owner
  split
  next w r width ranking =>
    intro h
    have asked : holdAsked (decide (byteAt p 0 = 1)) w r p = h := by
      simp only [holdAsked, baseAsked_eq]; rfl
    rw [width, ranking] at owner
    by_cases code : 1 < byteAt p 0
    · rw [if_pos code] at owner
      rw [if_pos (.inl code)]
      exact exec_owned rfl rfl takes owner
    rw [if_neg code] at owner
    dsimp only at owner
    rw [asked] at owner
    by_cases twice : ¬ r.Nodup
    · rw [if_pos twice] at owner
      rw [if_pos (.inr twice)]
      exact exec_owned rfl rfl takes owner
    rw [if_neg twice] at owner
    rw [if_neg (not_or.2 ⟨code, twice⟩)]
    split
    next locked => exact exec_owned rfl rfl takes (owner.trans (if_pos locked))
    next free =>
      exact ⟨_, _, exec_owned rfl rfl takes (owner.trans (if_neg free)), takenCode_cases _, rfl, rfl,
        takeSettings_interval .., rfl, rfl, rfl⟩
  next bad =>
    refine exec_owned (a := refuse .badValue u) rfl rfl takes (owner.trans ?_)
    split
    · next width ranking => exact absurd ranking (bad _ _ width)
    · rfl

end Sys2Proof.Machine
end

section
/-! PROOFS. The probe map, trims, meters and the output map (chapters 2, 3 and 9). -/

namespace Sys2Proof.Machine

/-! ### What stops and the cylinder limit latch leave unchanged -/

theorem Quiet.setSlotState (s : State) (n : SlotId) (x : SlotState) : Quiet s (s.setSlotState n x) := Quiet.setSlot ..

theorem stopSlot_quiet (n : SlotId) (off : Nat) (s : State) : Quiet s (stopSlot n off s) := by
  unfold stopSlot
  dsimp only
  split
  · exact (askCall_governed ..).quiet.trans (.setSlotState ..)
  · exact ((askCall_governed ..).quiet.trans (askPump_governed ..).quiet).trans (.setSlotState ..)

theorem latchStop_quiet (n : SlotId) (s : State) : Quiet s (latchStop n s).1 := by
  unfold latchStop
  dsimp only
  split
  · exact (linesOff_governed ..).quiet.trans (.setSlotState ..)
  · exact stopSlot_quiet ..
  · exact .refl s

theorem Quiet.foldSent {f : SlotId → State → Sent} (h : ∀ n s, Quiet s (f n s).1) (l : List SlotId) (x : Sent) :
    Quiet x.1 (l.foldl (fun (x : Sent) n => x.andThen (f n)) x).1 := by
  induction l generalizing x with
  | nil => exact .refl _
  | cons n l ih => exact (h n x.1).trans (ih (x.andThen (f n)))

/-- The setting of the latch (R105, R106): the latch and the report, then the slots stop. -/
theorem setLatch_quiet (c : Latch) (k : FaultKind) (j : Subject) (s : State) :
    Quiet (report k j { s with scu := { s.scu with latch := c } }) (setLatch c k j s).1 := by
  have stops := Quiet.foldSent latchStop_quiet allSlots (report k j { s with scu := { s.scu with latch := c } }, [])
  unfold setLatch
  dsimp only at stops ⊢
  generalize allSlots.foldl (fun (x : Sent) n => x.andThen (latchStop n)) (_, []) = x at stops ⊢
  exact stops.trans (evaluateDiverters_quiet _)

theorem Quiet.latch {s t : State} (h : Quiet s t) : t.scu.latch = s.scu.latch := by rw [h.scu]

/-- A top-probe-lost indication (R105): the latch and, unless it stood at PROBE_LOST, the report. -/
theorem topProbeIsLost_quiet (s : State) :
    Quiet (if s.scu.latch = .probeLost then s
      else report .topProbeLost s.pfe.topSubject { s with scu := { s.scu with latch := .probeLost } })
      (topProbeIsLost s).1 := by
  unfold topProbeIsLost
  cases latch : s.scu.latch with
  | clear => exact setLatch_quiet ..
  | overtemp => exact .refl _
  | probeLost => exact .refl _

theorem report_status (k : FaultKind) (x : Subject) (s : State) : (report k x s).flt.kindRec k = s.reported k x := by
  rw [report_kindRec, if_pos rfl]; rfl

/-! ### SET_PROBE_MAP (R41, R42, R47) -/

theorem mapM_of_some {α β : Type} {f : α → Option β} {g : α → β} {l : List α} (h : ∀ a ∈ l, f a = some (g a)) :
    l.mapM f = some (l.map g) := by
  induction l with
  | nil => rfl
  | cons a l ih =>
    rw [List.mapM_cons, h a List.mem_cons_self, ih fun b hb => h b (List.mem_cons_of_mem a hb)]
    rfl

theorem mapM_of_none {α β : Type} {f : α → Option β} {l : List α} {a : α} (ha : a ∈ l) (h : f a = none) :
    l.mapM f = none := by
  induction l with
  | nil => cases ha
  | cons b l ih =>
    rw [List.mapM_cons]
    rcases List.mem_cons.1 ha with rfl | ha
    · rw [h]; rfl
    · rw [ih ha]; cases f b <;> rfl

/-- The channel a map code names (R41). -/
def channelNamed (b : Nat) : Option (Fin 12) := if b = 0xFF then none else channelOfNumber b

/-- The map that a payload whose codes are in range carries. -/
def mapCarried (p : List Byte) : ProbeMap :=
  ⟨tabulate fun i => channelNamed (byteAt p i.val), tabulate fun a => Fin.ofNat 16 (byteAt p (12 + a.val))⟩

/-- Every code of the payload is in range. -/
def mapCodes (p : List Byte) : Prop :=
  (∀ i : Fin 12, byteAt p i.val = 0xFF ∨ byteAt p i.val ≤ 11) ∧ ∀ a : Fin 6, byteAt p (12 + a.val) ≤ 15

theorem mapAsked_of_codes {p : List Byte} (codes : mapCodes p) : mapAsked p = some (mapCarried p) := by
  have channels : ((List.range 12).mapM fun i => channelAsked (byteAt p i)) =
      some ((List.range 12).map fun i => channelNamed (byteAt p i)) := by
    refine mapM_of_some fun i hi => ?_
    have := codes.1 ⟨i, List.mem_range.1 hi⟩
    dsimp only at this
    unfold channelAsked channelNamed channelOfNumber
    split
    · rfl
    · rw [dif_pos (by omega)]; rfl
  have layers : ((List.range 6).mapM fun i => layerOfNumber (byteAt p (12 + i))) =
      some ((List.range 6).map fun i => Fin.ofNat 16 (byteAt p (12 + i))) := by
    refine mapM_of_some fun i hi => ?_
    have := codes.2 ⟨i, List.mem_range.1 hi⟩
    dsimp only at this
    unfold layerOfNumber
    rw [dif_pos (by omega)]
    exact congrArg some (Fin.ext (by simp only [Fin.ofNat]; omega))
  unfold mapAsked
  dsimp only
  rw [channels, layers]
  dsimp only
  simp [mapCarried]

theorem mapAsked_of_no_codes {p : List Byte} (codes : ¬ mapCodes p) : mapAsked p = none := by
  rw [mapCodes, not_and_or] at codes
  push Not at codes
  unfold mapAsked
  dsimp only
  rcases codes with ⟨i, other, high⟩ | ⟨a, high⟩
  · rw [mapM_of_none (a := i.val) (by simp) (by simp [channelAsked, other, channelOfNumber]; omega)]
  · rw [mapM_of_none (l := List.range 6) (a := a.val) (by simp) (by simp [layerOfNumber]; omega)]
    split
    · next l => cases l
    · rfl

theorem index_surjective (i : Fin 12) : ∃ r : Role, r.index = i := by
  have listed : ∀ i : Fin 12, ∃ r ∈ allRoles, r.index = i := by decide
  obtain ⟨r, -, h⟩ := listed i
  exact ⟨r, h⟩

theorem mapCarried_channel (p : List Byte) (r : Role) : (mapCarried p).channelOf r = channelNamed (byteAt p r.index.val) :=
  tabulate_get ..

theorem mapCarried_layer (p : List Byte) (a : Fin 6) :
    ((mapCarried p).layer[a]).val = byteAt p (12 + a.val) % 16 :=
  congrArg Fin.val (tabulate_get ..)

theorem channelNamed_val {b : Nat} (code : b = 0xFF ∨ b ≤ 11) :
    (channelNamed b).map Fin.val = if b = 0xFF then none else some b := by
  unfold channelNamed channelOfNumber
  split
  · rfl
  · rw [dif_pos (by omega)]; rfl

theorem channelNamed_ne_none {b : Nat} (code : b = 0xFF ∨ b ≤ 11) : channelNamed b ≠ none ↔ b ≠ 0xFF := by
  have := channelNamed_val code
  split_ifs at this with absent
  · simp [channelNamed, absent]
  · obtain ⟨c, named, -⟩ := Option.map_eq_some_iff.1 this
    simp [named, absent]

theorem channelNamed_some {b : Nat} {c : Fin 12} : channelNamed b = some c ↔ b = c.val := by
  unfold channelNamed channelOfNumber
  split_ifs with none h
  · simp only [false_iff]; omega
  · simp [Fin.ext_iff]
  · simp only [false_iff]; omega

/-- The map a payload carries is in order exactly when no condition of R41 fails. -/
theorem mapCarried_ok_iff {p : List Byte} (codes : mapCodes p) :
    (mapCarried p).ok ↔
      (∀ q r : Role, byteAt p q.index.val ≠ 0xFF → byteAt p r.index.val = byteAt p q.index.val → q = r) ∧
      (∀ a b : Fin 6, byteAt p a.val ≠ 0xFF → byteAt p b.val ≠ 0xFF → byteAt p (12 + a.val) = byteAt p (12 + b.val) → a = b) ∧
      (byteAt p 6 ≠ 0xFF → byteAt p 6 ≤ 1) ∧ (byteAt p 7 ≠ 0xFF → byteAt p 7 ≤ 1) := by
  obtain ⟨channels, layers⟩ := codes
  have named (r : Role) : (mapCarried p).channelOf r ≠ none ↔ byteAt p r.index.val ≠ 0xFF := by
    rw [mapCarried_channel]; exact channelNamed_ne_none (channels r.index)
  have names (r : Role) (c : Fin 12) : (mapCarried p).channelOf r = some c ↔ byteAt p r.index.val = c.val := by
    rw [mapCarried_channel]; exact channelNamed_some
  have layer (a b : Fin 6) : (mapCarried p).layer[a] = (mapCarried p).layer[b] ↔ byteAt p (12 + a.val) = byteAt p (12 + b.val) := by
    have := layers a
    have := layers b
    rw [Fin.ext_iff, mapCarried_layer, mapCarried_layer]
    omega
  have low (r : Role) : (∀ c, (mapCarried p).channelOf r = some c → c.val < 2) ↔
      (byteAt p r.index.val ≠ 0xFF → byteAt p r.index.val ≤ 1) := by
    have := channels r.index
    constructor
    · intro h code
      have := h ⟨byteAt p r.index.val, by omega⟩ ((names ..).2 rfl)
      dsimp only at this
      omega
    · intro h c code
      have := (names ..).1 code
      have := c.isLt
      omega
  have twice : (∀ q r c, (mapCarried p).channelOf q = some c → (mapCarried p).channelOf r = some c → q = r) ↔
      ∀ q r : Role, byteAt p q.index.val ≠ 0xFF → byteAt p r.index.val = byteAt p q.index.val → q = r := by
    constructor
    · intro h q r code same
      have := channels q.index
      exact h q r ⟨byteAt p q.index.val, by omega⟩ ((names ..).2 rfl) ((names ..).2 same)
    · intro h q r c hq hr
      have hq := (names ..).1 hq
      have hr := (names ..).1 hr
      have := c.isLt
      exact h q r (by omega) (by omega)
  have collector := low .collector
  have loopFlow := low .loopFlow
  unfold ProbeMap.ok
  rw [twice]
  simp only [or_imp, forall_and, collector, loopFlow, named, layer]
  rfl

/-- The conditions under which R41 refuses a payload. -/
theorem mapRefused_iff (p : List Byte) :
    ((∃ r : Role, byteAt p r.index.val ≠ 0xFF ∧ 11 < byteAt p r.index.val) ∨ (∃ a : Fin 6, 15 < byteAt p (12 + a.val)) ∨
        (∃ q r : Role, q ≠ r ∧ byteAt p q.index.val ≠ 0xFF ∧ byteAt p q.index.val = byteAt p r.index.val) ∨
        (∃ a b : Fin 6, a ≠ b ∧ byteAt p a.val ≠ 0xFF ∧ byteAt p b.val ≠ 0xFF ∧ byteAt p (12 + a.val) = byteAt p (12 + b.val)) ∨
        (byteAt p 6 ≠ 0xFF ∧ 1 < byteAt p 6) ∨ (byteAt p 7 ≠ 0xFF ∧ 1 < byteAt p 7)) ↔
      ¬(mapCodes p ∧ (mapCarried p).ok) := by
  constructor
  · rintro bad ⟨codes, ok⟩
    obtain ⟨twice, layers, collector, loopFlow⟩ := (mapCarried_ok_iff codes).1 ok
    rcases bad with ⟨r, named, high⟩ | ⟨a, high⟩ | ⟨q, r, other, named, same⟩ | ⟨a, b, other, ha, hb, same⟩ | ⟨named, high⟩ |
      ⟨named, high⟩
    · rcases codes.1 r.index with h | h <;> omega
    · have := codes.2 a; omega
    · exact other (twice q r named same.symm)
    · exact other (layers a b ha hb same)
    · have := collector named; omega
    · have := loopFlow named; omega
  · intro bad
    by_contra good
    simp only [not_or, not_exists, not_and, not_lt] at good
    obtain ⟨channels, layers, twice, anchors, collector, loopFlow⟩ := good
    have codes : mapCodes p := by
      refine ⟨fun i => ?_, layers⟩
      obtain ⟨r, rfl⟩ := index_surjective i
      exact or_iff_not_imp_left.2 (channels r)
    refine bad ⟨codes, (mapCarried_ok_iff codes).2 ⟨fun q r named same => ?_, fun a b ha hb same => ?_, collector, loopFlow⟩⟩
    · by_contra other
      exact twice q r other named same.symm
    · by_contra other
      exact anchors a b other ha hb same

theorem ownSetProbeMap_eq (p : List Byte) (s : State) :
    (¬(mapCodes p ∧ (mapCarried p).ok) → ownSetProbeMap p s = refuse .badValue s) ∧
      ((mapCodes p ∧ (mapCarried p).ok) →
        ownSetProbeMap p s =
          let t := rewriteAnchors { s with pfe := { s.pfe with map := mapCarried p } }
          accept (mapBytes (mapCarried p)) (if t.pfe.topProbeLost then (topProbeIsLost t).notify else t)) := by
  unfold ownSetProbeMap
  by_cases codes : mapCodes p
  · rw [mapAsked_of_codes codes]
    refine ⟨fun bad => if_neg fun valid => bad ⟨codes, (ProbeMap.valid_iff _).1 valid⟩, fun good => ?_⟩
    exact if_pos ((ProbeMap.valid_iff _).2 good.2)
  · rw [mapAsked_of_no_codes codes]
    exact ⟨fun _ => rfl, fun good => absurd good.1 codes⟩

theorem channelByteOf_named {p : List Byte} {i : Nat} (code : byteAt p i = 0xFF ∨ byteAt p i ≤ 11) :
    channelByteOf (channelNamed (byteAt p i)) = [p.getD i 0] := by
  have value : BitVec.ofInt 8 (byteAt p i : Int) = p.getD i 0 := by simp [byteAt]
  cases named : channelNamed (byteAt p i) with
  | none =>
    have absent : byteAt p i = 0xFF := by
      by_contra h
      exact (channelNamed_ne_none code).2 h named
    rw [absent] at value
    exact congrArg (fun b => [b]) value
  | some c =>
    rw [channelNamed_some.1 named] at value
    exact congrArg (fun b => [b]) value

theorem flatMap_ofFn {α β : Type} {n : Nat} {f : Fin n → α} {g : α → List β} {h : Fin n → β} (single : ∀ i, g (f i) = [h i]) :
    (tabulate f).toList.flatMap g = List.ofFn h := by
  have list : (tabulate f).toList = List.ofFn f := by simp [tabulate]
  rw [list, List.ofFn_eq_map, List.flatMap_map, List.ofFn_eq_map]
  simp only [single]
  exact List.flatMap_pure_eq_map h _

/-- A map in force is echoed as it was sent (R41). -/
theorem mapBytes_carried {p : List Byte} (length : p.length = 18) (codes : mapCodes p) : mapBytes (mapCarried p) = p := by
  have channels : (mapCarried p).channel.toList.flatMap channelByteOf = List.ofFn fun i : Fin 12 => p.getD i.val 0 :=
    flatMap_ofFn fun i => channelByteOf_named (codes.1 i)
  have layers : ((mapCarried p).layer.toList.flatMap fun k => byteOf k.val) = List.ofFn fun a : Fin 6 => p.getD (12 + a.val) 0 := by
    refine flatMap_ofFn fun a => ?_
    have := codes.2 a
    have low : (Fin.ofNat 16 (byteAt p (12 + a.val))).val = byteAt p (12 + a.val) := by simp only [Fin.ofNat]; omega
    rw [low]
    simp [byteOf, byteAt]
  rw [mapBytes, channels, layers]
  refine List.ext_getElem (by simp [length]) fun i h k => ?_
  rw [List.getElem_append]
  split
  next low => rw [List.getElem_ofFn]; exact List.getD_eq_getElem _ _ k
  next high =>
    rw [List.length_ofFn] at high
    rw [List.getElem_ofFn]
    simp only [List.length_ofFn, show 12 + (i - 12) = i by omega]
    exact List.getD_eq_getElem _ _ k

/-- The anchor of a layer (R5), where no layer stands under two anchors. -/
theorem anchorAt_iff {m : ProbeMap} (ok : m.ok) (k : Fin 16) (a : Fin 6) :
    m.anchorAt k = some a ↔ m.channelOf (.anchor a) ≠ none ∧ m.layer[a] = k := by
  have holds (b : Fin 6) : ((m.channelOf (.anchor b)).isSome && decide (m.layer[b] = k)) = true ↔
      m.channelOf (.anchor b) ≠ none ∧ m.layer[b] = k := by
    simp [Option.isSome_iff_ne_none]
  constructor
  · intro found
    exact (holds a).1 (List.find?_some (p := fun b : Fin 6 => (m.channelOf (.anchor b)).isSome && decide (m.layer[b] = k)) found)
  · rintro ⟨named, layer⟩
    cases found : m.anchorAt k with
    | none =>
      have none_at := List.find?_eq_none.1 found a (List.mem_finRange a)
      exact absurd ((holds a).2 ⟨named, layer⟩) none_at
    | some b =>
      obtain ⟨hb, lb⟩ := (holds b).1 (List.find?_some (p := fun b : Fin 6 => (m.channelOf (.anchor b)).isSome && decide (m.layer[b] = k)) found)
      rw [ok.2.1 b a hb named (lb.trans layer.symm)]

theorem topProbeLost_iff (f : Pfe) :
    f.topProbeLost = true ↔ ∀ c, f.map.channelOf .topLimit = some c → f.channels[c].isFaulted = true := by
  unfold Pfe.topProbeLost
  cases h : f.map.channelOf .topLimit <;> simp

/-- A top-probe-lost indication told to the arbiter (R105, R119). -/
theorem lost_quiet (s : State) :
    Quiet (if s.scu.latch = .probeLost then s
      else report .topProbeLost s.pfe.topSubject { s with scu := { s.scu with latch := .probeLost } })
      (topProbeIsLost s).notify :=
  (topProbeIsLost_quiet s).trans (Sent.notify_governed _).quiet

theorem lost_again {s : State} (latch : s.scu.latch = .probeLost) : (topProbeIsLost s).notify = s := by
  unfold topProbeIsLost
  rw [latch]
  rfl

/-- Settles O34. -/
theorem setProbeMapReplacesTheMapWhole : Obligations.SetProbeMapReplacesTheMapWhole := by
  intro s p length takes u code layer named bad
  have code_eq (r : Role) : code r = byteAt p r.index.val := by cases r <;> rfl
  have owner : ownerOf (.setProbeMap p) u = ownSetProbeMap p u := congrFun (withLength_of _ (by simp [length])) u
  have bad_iff : bad ↔ ¬(mapCodes p ∧ (mapCarried p).ok) := by
    rw [← mapRefused_iff]
    simp only [bad, named, code_eq]
    rfl
  refine ⟨fun refused => ?_, fun good => ?_⟩
  · exact exec_owned rfl rfl takes (owner.trans ((ownSetProbeMap_eq p u).1 (bad_iff.1 refused)))
  have sound : mapCodes p ∧ (mapCarried p).ok := by
    by_contra h; exact good (bad_iff.2 h)
  obtain ⟨codes, ok⟩ := sound
  have answer := owner.trans ((ownSetProbeMap_eq p u).2 ⟨codes, ok⟩)
  rw [mapBytes_carried length codes] at answer
  have clm : u.clm.layers = s.clm.layers := congrArg Clm.layers (State.taking_clm ..)
  have channels : u.pfe.channels = s.pfe.channels := congrArg Pfe.channels (State.taking_pfe ..)
  refine ⟨mapCarried p, tabulate fun k => { u.clm.layers[k] with anchor := (mapCarried p).anchorAt k }, fun r => ?_, fun a => ?_,
    fun k => ⟨?_, fun a => ?_⟩, ?_⟩
  · rw [mapCarried_channel, code_eq]
    exact channelNamed_val (codes.1 r.index)
  · have := codes.2 a
    rw [mapCarried_layer]
    show _ = byteAt p (12 + a.val)
    omega
  · rw [tabulate_get, clm]
  · rw [tabulate_get]
    refine (anchorAt_iff ok k a).trans (and_congr ?_ ?_)
    · rw [mapCarried_channel, channelNamed_ne_none (codes.1 _)]; rfl
    · have := codes.2 a
      rw [Fin.ext_iff, mapCarried_layer, Nat.mod_eq_of_lt (by omega)]
  intro mapped lost
  have rewritten : rewriteAnchors { u with pfe := { u.pfe with map := mapCarried p } } = mapped := rfl
  dsimp only at answer
  rw [rewritten] at answer
  have lost_iff : mapped.pfe.topProbeLost = true ↔ lost := by
    rw [topProbeLost_iff]
    simp only [lost, ← channels]
    rfl
  refine ⟨fun held => ?_, fun gone => ?_⟩
  · rw [if_neg (mt lost_iff.1 held)] at answer
    exact exec_owned rfl rfl takes answer
  · rw [if_pos (lost_iff.2 gone)] at answer
    have quiet := lost_quiet mapped
    have again := lost_again (s := mapped)
    have latch : mapped.scu.latch = s.scu.latch := congrArg Scu.latch (State.taking_scu ..)
    have flt : mapped.flt = s.flt := State.taking_flt ..
    generalize (topProbeIsLost mapped).notify = t at answer quiet again
    by_cases stood : s.scu.latch = .probeLost
    · rw [latch] at again
      rw [again stood] at answer
      exact ⟨mapped, exec_owned rfl rfl takes answer, rfl, rfl, rfl, latch.trans stood, fun _ => rfl, fun h => absurd stood h⟩
    · rw [latch, if_neg stood] at quiet
      refine ⟨t, exec_owned rfl rfl takes answer, quiet.pfe.trans (report_pfe ..), quiet.clm.trans (report_clm ..),
        quiet.mpt.trans (report_mpt ..), quiet.latch.trans (by rw [report_scu]), fun h => absurd h stood, fun _ => ?_⟩
      refine (congrArg (Flt.kindRec · .topProbeLost) quiet.flt).trans ((report_status ..).trans ?_)
      simp only [State.reported, flt]
      rfl

/-! ### SET_PROBE_TRIM (R33) and SET_METER (R52) -/

theorem ownSetProbeTrim_taken (x y : Byte) (s : State) (h : x.toNat < 12) :
    ownSetProbeTrim [x, y] s =
      taken (clamp (-20) 20 y.toInt != y.toInt) (byteOf x.toNat ++ byteOf (clamp (-20) 20 y.toInt))
        { s with
          pfe :=
            { s.pfe with
              channels := s.pfe.channels.set x.toNat { s.pfe.channels[x.toNat] with trim := clamp (-20) 20 y.toInt } } } := by
  have channel : channelOfNumber (byteAt [x, y] 0) = some ⟨x.toNat, h⟩ := dif_pos h
  unfold ownSetProbeTrim
  rw [channel]
  rfl

theorem ownSetProbeTrim_refused (x y : Byte) (s : State) (h : 12 ≤ x.toNat) :
    ownSetProbeTrim [x, y] s = refuse .badValue s := by
  have channel : channelOfNumber (byteAt [x, y] 0) = none := dif_neg (Nat.not_lt.2 h)
  unfold ownSetProbeTrim
  rw [channel]

theorem takenCode_draw (r : MeterRec) (p : List Byte) :
    takenCode (meterClamped r p) = if r.mlPerPulse = wordAt p 1 ∧ r.gate = byteAt p 3 then .ok else .clamped :=
  takenCode_not (by simp)

theorem takenCode_loop (r : MeterRec) (nominal : Nat) (p : List Byte) :
    takenCode (meterClamped r p || nominal != wordAt p 4) =
      if r.mlPerPulse = wordAt p 1 ∧ r.gate = byteAt p 3 ∧ nominal = wordAt p 4 then .ok else .clamped := by
  have same : (meterClamped r p || nominal != wordAt p 4) =
      !(r.mlPerPulse == wordAt p 1 && r.gate == byteAt p 3 && nominal == wordAt p 4) := by
    simp [meterClamped, bne, Bool.not_and]
  rw [same]
  exact takenCode_not (by simp [and_assoc])

theorem ownSetMeter_of {p : List Byte} (some_byte : p.isEmpty = false) :
    ownSetMeter p = match byteAt p 0 with
      | 0 => withLength (p.length == 4) (ownSetDraw p)
      | 1 => withLength (p.length == 6) (ownSetLoop p)
      | _ => refuse .badValue := by
  unfold ownSetMeter
  rw [some_byte]
  rfl

/-- Settles O35. -/
theorem trimsAndMetersAreTakenAlone : Obligations.TrimsAndMetersAreTakenAlone := by
  refine ⟨fun s x y takes => ⟨fun h => ?_, fun h => ?_⟩, fun s p takes => ?_⟩
  · refine exec_owned (c := .setProbeTrim [x, y]) (a := ⟨_, _, _⟩) rfl rfl takes ?_
    refine (congrFun (withLength_of _ rfl) _).trans ((ownSetProbeTrim_taken x y _ h).trans ?_)
    rw [taken, takenCode_bne]
    rfl
  · exact exec_owned (c := .setProbeTrim [x, y]) rfl rfl takes
      ((congrFun (withLength_of _ rfl) _).trans (ownSetProbeTrim_refused x y _ h))
  intro u ml gate nominal
  have fmu : u.fmu = s.fmu := State.taking_fmu ..
  have long {n : Nat} (h : p.length = n + 1) : p.isEmpty = false := by cases p with
    | nil => cases h
    | cons b rest => rfl
  refine ⟨fun meter length => ?_, fun meter length => ?_, fun meter nonempty length => ?_, fun meter length => ?_, fun meter => ?_⟩
  · have owner : ownerOf (.setMeter p) u = ownSetDraw p u := by
      show ownSetMeter p u = _
      rw [ownSetMeter_of (long length), meter]
      exact congrFun (withLength_of _ (by simp [length])) u
    simp only [ownSetDraw, taken, takenCode_draw, ← Bool.decide_and, decide_eq_true_eq, fmu] at owner
    simp only [fmu]
    exact exec_owned rfl rfl takes owner
  · have owner : ownerOf (.setMeter p) u = ownSetLoop p u := by
      show ownSetMeter p u = _
      rw [ownSetMeter_of (long length), meter]
      exact congrFun (withLength_of _ (by simp [length])) u
    simp only [ownSetLoop, taken, takenCode_loop, fmu] at owner
    simp only [fmu]
    exact exec_owned rfl rfl takes owner
  · have owner : ownSetMeter p u = refuse .badLength u := by
      rw [ownSetMeter_of (by simpa using nonempty), meter]
      exact congrFun (withLength_refused _ (by simpa using length)) u
    exact exec_owned (c := .setMeter p) rfl rfl takes owner
  · have owner : ownSetMeter p u = refuse .badLength u := by
      rw [ownSetMeter_of (nonempty_of_byteAt (i := 0) (by omega)), meter]
      exact congrFun (withLength_refused _ (by simpa using length)) u
    exact exec_owned (c := .setMeter p) rfl rfl takes owner
  · have owner : ownSetMeter p u = refuse .badValue u := by
      rw [ownSetMeter_of (nonempty_of_byteAt (i := 0) (by omega))]
      split
      · omega
      · omega
      · rfl
    exact exec_owned (c := .setMeter p) rfl rfl takes owner

/-! ### SET_OUTPUT (R165, R167 to R171) -/

theorem functionOfCode_code (f : LineFunction) : functionOfCode f.code = some f := by
  cases f with
  | sourceCall n => cases n <;> rfl
  | sourcePump n => cases n <;> rfl
  | diverterDrive n => cases n <;> rfl
  | _ => rfl

theorem slotOfNumber_some {b : Nat} {n : SlotId} (h : slotOfNumber b = some n) : b = slotNumber n := by
  unfold slotOfNumber at h
  split at h <;> cases h <;> rfl

theorem functionOfCode_some {b : Nat} {f : LineFunction} (h : functionOfCode b = some f) : b = f.code := by
  unfold functionOfCode at h
  split_ifs at h with none solar alert
  · cases h; exact none
  · cases h; exact solar
  · cases h; exact alert
  · split at h
    next high low => cases h; have := slotOfNumber_some low; simp only [LineFunction.code]; omega
    next high low => cases h; have := slotOfNumber_some low; simp only [LineFunction.code]; omega
    next high low => cases h; have := slotOfNumber_some low; simp only [LineFunction.code]; omega
    next => cases h

/-- The output map allows a function on a line (R170, step 2). -/
theorem mapAllows_iff (s : State) (i : Fin 8) (f : LineFunction) :
    s.mapAllows i f = true ↔
      (f = .noFunction ∨ ∀ j : Fin 8, j ≠ i → s.olu[j].function ≠ f) ∧
        match f with
        | .sourceCall n => (s.slot n).cls ≠ .noSource ∧ (s.slot n).cls ≠ .diverter
        | .diverterDrive n => 6 ≤ i.val ∧ (s.slot n).cls = .diverter
        | .noFunction | .sourcePump _ | .solarPump | .alertRelay => True := by
  have carried : s.carriedElsewhere i f = false ↔ f = .noFunction ∨ ∀ j : Fin 8, j ≠ i → s.olu[j].function ≠ f := by
    by_cases h : f = .noFunction
    · simp [State.carriedElsewhere, h]
    · simp [State.carriedElsewhere, h]
  have heating (c : SlotClass) : c.heating = true ↔ c ≠ .noSource ∧ c ≠ .diverter := by cases c <;> simp [SlotClass.heating]
  unfold State.mapAllows
  rw [Bool.and_eq_true, Bool.not_eq_true', carried]
  refine and_congr_right' ?_
  cases f <;> simp [heating, isRelay]

/-- What makes a change of function BUSY (R170, step 3). -/
theorem functionBusy_iff (s : State) (f : LineFunction) :
    s.functionBusy f = true ↔
      match f with
      | .sourceCall n | .sourcePump n | .diverterDrive n => (s.slot n).state ≠ .disabled
      | .solarPump => s.slc.state ≠ .disabled
      | .noFunction | .alertRelay => False := by
  cases f <;> simp [State.functionBusy]

/-- L6 and L7 follow a new request at once (R167). -/
theorem Line.drive_auto_pwm {l : Line} (h : l.pwmOk) (a : Nat) :
    let m := l.drive false .auto a
    m.output = a ∧ m.recovery = none ∧ m.deferred = false := by
  obtain ⟨output, recovery, deferred⟩ := h
  unfold Line.drive Line.follow
  split
  next same => exact ⟨output.trans same.symm, recovery, deferred⟩
  next => exact ⟨rfl, recovery, deferred⟩

/-- A relay contact under a new request (R168): it opens and rests, closes at once, or closes at the end of its rest. -/
theorem Line.drive_auto_relay {l : Line} (h : l.relayOk) (a : Nat) :
    let m := l.drive true .auto a
    let closes := a ≠ 0 ∧ (l.output = 100 ∨ l.recovery = none)
    m.output = (if closes then 100 else 0) ∧ (m.deferred = true ↔ a ≠ 0 ∧ ¬ closes) ∧
      m.recovery = if l.output = 100 ∧ a = 0 then (if l.recoveryTime = 0 then none else some l.recoveryTime) else l.recovery := by
  rcases h with ⟨closed, on, still, prompt⟩ | ⟨opened, deferred, rests⟩
  · unfold Line.drive Line.follow
    split
    next same =>
      have : a ≠ 0 := fun h => on (same.symm.trans h)
      simp [closed, prompt, this]
    next changed =>
      by_cases off : a = 0
      · simp [off, closed, Line.target, Line.startRecovery]
      · simp [off, closed, prompt, Line.target]
  · unfold Line.drive Line.follow
    split
    next same =>
      have same : a = l.target := same
      by_cases off : a = 0
      · simp [off, opened, deferred, ← same]
      · have waits : l.deferred = true := deferred.2 (same ▸ off)
        simp [off, opened, waits, rests waits]
    next changed =>
      by_cases off : a = 0
      · simp [off, opened, Line.target]
      · cases recovery : l.recovery with
        | none =>
          have prompt : l.deferred = false := Bool.eq_false_iff.2 fun h => rests h recovery
          simp [off, opened, prompt, Line.target]
        | some r => simp [off, opened, Line.target]

/-- The request of a line at its new function (R171). -/
theorem newRequest_eq (f : LineFunction) (c : Bool) :
    (if f = LineFunction.alertRelay then onOff c else 0) = if f = .alertRelay ∧ c = true then 100 else 0 := by
  by_cases h : f = .alertRelay
  · cases c <;> simp [h, onOff]
  · simp [h]

/-- Settles O36. -/
theorem setOutputIsJudgedInOrder : Obligations.SetOutputIsJudgedInOrder := by
  intro s x y z takes u code inUse allowed
  have owner : ownerOf (.setOutput [x, y, z]) u = ownSetOutput [x, y, z] u := congrFun (withLength_of _ rfl) u
  have code_eq (f : LineFunction) : code f = f.code := by cases f <;> rfl
  have olu : u.olu = s.olu := State.taking_olu ..
  have flt : u.flt = s.flt := State.taking_flt ..
  have allows (i : Fin 8) (f : LineFunction) : u.mapAllows i f = true ↔ allowed i f := by
    have same : u.mapAllows i f = s.mapAllows i f := by
      cases f <;> simp [State.mapAllows, State.carriedElsewhere, u]
    rw [same]
    exact (mapAllows_iff s i f).trans (by cases f <;> rfl)
  have busy (f : LineFunction) : u.functionBusy f = true ↔ inUse f := by
    have same : u.functionBusy f = s.functionBusy f := by cases f <;> simp [State.functionBusy, u]
    rw [same]
    exact (functionBusy_iff s f).trans (by cases f <;> rfl)
  refine ⟨fun bad => ?_, fun i f line function => ?_⟩
  · refine exec_owned (a := refuse .badValue u) rfl rfl takes (owner.trans ?_)
    unfold ownSetOutput
    split
    next i f line function =>
      rcases bad with high | unknown
      · have none_at : lineOfNumber (byteAt [x, y, z] 0) = none := dif_neg (show ¬ x.toNat < 8 by omega)
        cases none_at.symm.trans line
      · exact absurd ((functionOfCode_some function).trans (code_eq f).symm) (unknown f)
    next => rfl
  intro time l
  have line_eq : lineOfNumber (byteAt [x, y, z] 0) = some i := by
    have : byteAt [x, y, z] 0 = i.val := line
    rw [this]
    exact dif_pos i.isLt
  have function_eq : functionOfCode (byteAt [x, y, z] 1) = some f := by
    have : byteAt [x, y, z] 1 = f.code := function.trans (code_eq f)
    rw [this, functionOfCode_code]
  have time_eq : clampNat 0 30 (byteAt [x, y, z] 2) = time := Nat.max_eq_right (Nat.zero_le _)
  have line_of : u.olu[i] = l := congrArg (fun v : Vector Line 8 => v[i]) olu
  unfold ownSetOutput at owner
  rw [line_eq, function_eq] at owner
  dsimp only at owner
  rw [time_eq, line_of, flt, taken, takenCode_bne] at owner
  refine ⟨fun bad => ?_, fun good differs works => ?_, fun good free => ?_⟩
  · rw [if_pos (by rw [Bool.not_eq_true', Bool.eq_false_iff]; exact mt (allows i f).1 bad)] at owner
    exact exec_owned rfl rfl takes owner
  · rw [if_neg (by simpa [allows] using good), if_pos ⟨differs, by simpa [busy] using works⟩] at owner
    exact exec_owned rfl rfl takes owner
  · rw [if_neg (by simpa [allows] using good), if_neg (by
      rintro ⟨differs, works⟩
      rw [Bool.or_eq_true, busy, busy] at works
      exact free.elim differs fun h => h works)] at owner
    rw [← code_eq] at owner
    by_cases same : f = l.function
    · rw [if_pos same] at owner
      exact ⟨_, exec_owned rfl rfl takes owner, same.symm, rfl, fun _ => rfl, fun differs => absurd same differs⟩
    · rw [if_neg same] at owner
      have request := newRequest_eq f s.flt.relayCondition
      have taken_eq : Line.takeFunction (isRelay i) f s.flt.relayCondition { l with recoveryTime := time } =
          { l with recoveryTime := time, function := f }.drive (isRelay i) .auto
            (if f = LineFunction.alertRelay then onOff s.flt.relayCondition else 0) := rfl
      rw [taken_eq] at owner
      generalize (if f = LineFunction.alertRelay then onOff s.flt.relayCondition else 0) = a at owner request
      refine ⟨_, exec_owned rfl rfl takes owner, Line.drive_function .., Line.drive_recoveryTime .., fun h => absurd h same,
        fun _ => ⟨⟨Line.drive_mode .., ?_⟩, fun pwm sound => ?_, fun relay sound => ?_⟩⟩
      · exact (Line.drive_auto ..).trans request
      · have kind : isRelay i = false := decide_eq_false (by omega)
        rw [Line.drive_auto, kind]
        exact Line.drive_auto_pwm (l := { l with recoveryTime := time, function := f }) sound a
      · have kind : isRelay i = true := decide_eq_true relay
        rw [Line.drive_auto, kind]
        exact Line.drive_auto_relay (l := { l with recoveryTime := time, function := f }) sound a

end Sys2Proof.Machine
end

section
/-! PROOFS. The settings that CONFIG reads, sent back (section 11.4.3). -/

namespace Sys2Proof.Machine

/-! ### Reading what was written -/

theorem byteAt_of {p : List Byte} {i : Nat} {x : Int} (h : p.getD i 0 = BitVec.ofInt 8 x) (low : 0 ≤ x) (high : x < 256) :
    (byteAt p i : Int) = x := by
  rw [byteAt, h, BitVec.toNat_ofInt]
  omega

theorem byteAt_of_nat {p : List Byte} {i n : Nat} (h : p.getD i 0 = BitVec.ofInt 8 n) (high : n < 256) : byteAt p i = n := by
  have := byteAt_of h (by omega) (by omega)
  omega

/-- The 2-byte field of a value is the value modulo 2^16 (R186). -/
theorem wordAt_of {p : List Byte} {i : Nat} {x : Int} (h : p.getD i 0 = BitVec.ofInt 8 (x / 256))
    (k : p.getD (i + 1) 0 = BitVec.ofInt 8 x) : (wordAt p i : Int) = x % 65536 := by
  rw [wordAt, byteAt, byteAt, h, k, BitVec.toNat_ofInt, BitVec.toNat_ofInt]
  omega

theorem wordAt_of_nat {p : List Byte} {i n : Nat} (h : p.getD i 0 = BitVec.ofInt 8 ((n : Int) / 256))
    (k : p.getD (i + 1) 0 = BitVec.ofInt 8 n) (high : n < 65536) : wordAt p i = n := by
  have := wordAt_of h k
  omega

theorem signedWordAt_of {p : List Byte} {i : Nat} {x : Int} (h : p.getD i 0 = BitVec.ofInt 8 (x / 256))
    (k : p.getD (i + 1) 0 = BitVec.ofInt 8 x) (low : -32768 ≤ x) (high : x < 32768) : signedWordAt p i = x := by
  have := wordAt_of h k
  unfold signedWordAt
  split <;> omega

theorem clamp_of_mem {lo hi x : Int} (low : lo ≤ x) (high : x ≤ hi) : clamp lo hi x = x := by
  rw [clamp, min_eq_right high, max_eq_right low]

theorem clampNat_of_mem {lo hi x : Nat} (low : lo ≤ x) (high : x ≤ hi) : clampNat lo hi x = x := by
  rw [clampNat, min_eq_right high, max_eq_right low]

/-! ### The sections -/

/-- The cylinder settings as read are taken as they stand (R1, R2). -/
theorem cylinder_read_back {c : Clm} (ok : c.figuresOk) :
    c.withCylinder (cylinderBytes c) = c ∧ cylinderClamped c (cylinderBytes c) = false := by
  obtain ⟨⟨v1, v2, v3⟩, ⟨u1, u2⟩, ⟨m1, m2⟩, ⟨a1, a2⟩, ⟨t1, t2⟩, w⟩ := ok
  have volume : wordAt (cylinderBytes c) 0 = c.volume := wordAt_of_nat rfl rfl (by omega)
  have ua : byteAt (cylinderBytes c) 2 = c.uaTenths := byteAt_of_nat rfl (by omega)
  have mains : signedWordAt (cylinderBytes c) 3 = c.mainsDefault := signedWordAt_of rfl rfl (by omega) (by omega)
  have ambient : signedWordAt (cylinderBytes c) 5 = c.ambientDefault := signedWordAt_of rfl rfl (by omega) (by omega)
  have usable : signedWordAt (cylinderBytes c) 7 = c.usableThreshold := signedWordAt_of rfl rfl (by omega) (by omega)
  have weight : byteAt (cylinderBytes c) 9 = c.anchorWeight := byteAt_of_nat rfl (by omega)
  constructor
  · unfold Clm.withCylinder takenVolume
    rw [volume, ua, mains, ambient, usable, weight, show c.volume / 16 * 16 = c.volume by omega, clampNat_of_mem v1 v2,
      clampNat_of_mem u1 u2, clamp_of_mem m1 m2, clamp_of_mem a1 a2, clamp_of_mem t1 t2, clampNat_of_mem (Nat.zero_le _) w]
  · simp [cylinderClamped, volume, ua, mains, ambient, usable, weight]

/-- The solar settings as read are taken as they stand (R112, R131). -/
theorem solar_read_back {c : Slc} {a : Sar} {hard : Int} (ok : c.settings.ok hard) (top : hard ≤ 950)
    (times : a.holdoffTime ≤ 120 ∧ a.threshold ≤ 5000) :
    onOffCode (byteAt (solarBytes c a) 12) = some c.settings.cooldownEnable ∧
      solarAsked hard c.settings.cooldownEnable (solarBytes c a) = c.settings ∧
      clampNat 0 120 (byteAt (solarBytes c a) 15) = a.holdoffTime ∧ clampNat 0 5000 (wordAt (solarBytes c a) 16) = a.threshold ∧
      solarClamped (solarBytes c a) c.settings a.holdoffTime a.threshold = false := by
  obtain ⟨⟨n1, n2⟩, ⟨f1, f2⟩, ⟨s1, s2⟩, ⟨g1, g2⟩, ⟨m1, m2⟩, ⟨c1, c2⟩, ⟨r1, r2⟩, ⟨d1, d2⟩⟩ := ok
  obtain ⟨time, level⟩ := times
  have on : signedWordAt (solarBytes c a) 0 = c.settings.onDiff := signedWordAt_of rfl rfl (by omega) (by omega)
  have off : signedWordAt (solarBytes c a) 2 = c.settings.offDiff := signedWordAt_of rfl rfl (by omega) (by omega)
  have speed : (byteAt (solarBytes c a) 4 : Int) = c.settings.minSpeed := byteAt_of rfl (by omega) (by omega)
  have gain : (byteAt (solarBytes c a) 5 : Int) = c.settings.gain := byteAt_of rfl (by omega) (by omega)
  have most : signedWordAt (solarBytes c a) 6 = c.settings.solarMax := signedWordAt_of rfl rfl (by omega) (by omega)
  have collector : signedWordAt (solarBytes c a) 8 = c.settings.collectorMax := signedWordAt_of rfl rfl (by omega) (by omega)
  have frost : signedWordAt (solarBytes c a) 10 = c.settings.frost := signedWordAt_of rfl rfl (by omega) (by omega)
  have flag : byteAt (solarBytes c a) 12 = if c.settings.cooldownEnable then 1 else 0 := by
    refine byteAt_of_nat ?_ (by split <;> omega)
    show BitVec.ofInt 8 _ = _
    cases c.settings.cooldownEnable <;> rfl
  have diff : signedWordAt (solarBytes c a) 13 = c.settings.cooldownDiff := signedWordAt_of rfl rfl (by omega) (by omega)
  have holdoff : byteAt (solarBytes c a) 15 = a.holdoffTime := byteAt_of_nat rfl (by omega)
  have threshold : wordAt (solarBytes c a) 16 = a.threshold := wordAt_of_nat rfl rfl (by omega)
  refine ⟨?_, ?_, ?_, ?_, ?_⟩
  · rw [flag]; cases c.settings.cooldownEnable <;> rfl
  · unfold solarAsked
    dsimp only
    rw [on, off, speed, gain, most, collector, frost, diff, clamp_of_mem n1 n2, clamp_of_mem f1 f2, clamp_of_mem s1 s2,
      clamp_of_mem g1 g2, clamp_of_mem m1 m2, clamp_of_mem c1 c2, clamp_of_mem r1 r2, clamp_of_mem d1 d2]
  · rw [holdoff, clampNat_of_mem (Nat.zero_le _) time]
  · rw [threshold, clampNat_of_mem (Nat.zero_le _) level]
  · simp [solarClamped, on, off, speed, gain, most, collector, frost, diff, holdoff, threshold]

theorem ranking_length {r : List SlotId} (once : r.Nodup) : r.length ≤ 4 :=
  (List.subperm_of_subset once fun n _ => mem_allSlots n).length_le

/-- The entries of a ranking as they are written. -/
theorem ranking_entries (r : List SlotId) :
    ((r.flatMap fun n => byteOf (slotNumber n)).mapM fun b => slotOfNumber b.toNat) = some r := by
  induction r with
  | nil => rfl
  | cons n r ih =>
    have slot : slotOfNumber (BitVec.ofInt 8 (slotNumber n : Int)).toNat = some n := by cases n <;> rfl
    rw [List.flatMap_cons, byteOf, List.singleton_append, List.mapM_cons, slot, ih]
    rfl

/-- The stepper's settings as read are taken as they stand (R148). -/
theorem hold_read_back {h : HoldSettings} (ok : h.ok) :
    onOffCode (byteAt (holdBytes h) 0) = some h.enable ∧ widthOfNumber (byteAt (holdBytes h) 6) = some h.width ∧
      rankingAt (holdBytes h) 10 = some h.ranking ∧ rankingLength (holdBytes h) 10 = true ∧
      holdAsked h.enable h.width h.ranking (holdBytes h) = h ∧ holdClamped (holdBytes h) h = false := by
  obtain ⟨⟨t1, t2⟩, ⟨d1, d2⟩, ⟨p1, p2⟩, ⟨o1, o2⟩, once⟩ := ok
  have places := ranking_length once
  have base := h.base.isLt
  have flag : byteAt (holdBytes h) 0 = if h.enable then 1 else 0 := by
    refine byteAt_of_nat ?_ (by split <;> omega)
    show BitVec.ofInt 8 _ = _
    cases h.enable <;> rfl
  have temp : signedWordAt (holdBytes h) 1 = h.temp := signedWordAt_of rfl rfl (by omega) (by omega)
  have dwell : byteAt (holdBytes h) 3 = h.dwell := byteAt_of_nat rfl (by omega)
  have period : wordAt (holdBytes h) 4 = h.period := wordAt_of_nat rfl rfl (by omega)
  have width : byteAt (holdBytes h) 6 = h.width.layers := byteAt_of_nat rfl (by cases h.width <;> decide)
  have layer : byteAt (holdBytes h) 7 = h.base.val := byteAt_of_nat rfl (by omega)
  have timeout : wordAt (holdBytes h) 8 = h.timeout := wordAt_of_nat rfl rfl (by omega)
  have count : byteAt (holdBytes h) 10 = h.ranking.length := byteAt_of_nat rfl (by omega)
  have entries : (h.ranking.flatMap fun n => byteOf (slotNumber n)).length = h.ranking.length := by
    simp [byteOf, List.length_flatMap]
  have rest : (holdBytes h).drop 11 = h.ranking.flatMap fun n => byteOf (slotNumber n) := rfl
  refine ⟨?_, ?_, ?_, ?_, ?_, ?_⟩
  · rw [flag]; cases h.enable <;> rfl
  · rw [width]; cases h.width <;> rfl
  · rw [rankingAt, rest, count, ← entries, List.take_length, ranking_entries]
  · rw [rankingLength_iff, count]
    have length : (holdBytes h).length = 11 + (h.ranking.flatMap fun n => byteOf (slotNumber n)).length := by
      simp only [holdBytes, rankingOf, flagOf, byteOf, wordOf, List.length_append, List.length_cons, List.length_nil]
      omega
    rw [entries] at length
    omega
  · unfold holdAsked
    rw [temp, dwell, period, timeout, layer, clamp_of_mem t1 t2, clampNat_of_mem d1 d2, clampNat_of_mem p1 p2, clampNat_of_mem o1 o2]
    have base_eq : baseAsked h.base.val = h.base := Fin.ext (Nat.min_eq_right (by omega))
    rw [base_eq]
  · simp [holdClamped, temp, dwell, period, layer, timeout]

/-- The interval as read is taken as it stands (R194). -/
theorem link_read_back {m : Mpt} (ok : m.interval = 0 ∨ 10 ≤ m.interval ∧ m.interval ≤ 600) :
    wordAt (linkBytes m) 0 = m.interval ∧ takenInterval m.interval = m.interval := by
  refine ⟨wordAt_of_nat rfl rfl (by omega), ?_⟩
  rw [takenInterval_eq]
  split_ifs <;> omega

/-- A request that is taken as sent is answered OK with its payload. -/
theorem exec_as_sent {c : Instr} {k : Byte} {p : List Byte} {s t : State} (kind : kindOf c = some k)
    (payload : c.payload? = some p) (takes : s.Takes k p) (owner : ownerOf c (s.taking k p) = ⟨.ok, p, t⟩)
    (settings : t.settings = s.settings) (known : ∀ j q, c = .unknownKindRequest j q → knownKind j = false := by intro _ _ h; cases h) :
    ∃ t, exec c s = .next t ∧ t.mpt.reply = some (replyFrame k .ok p) ∧ t.settings = s.settings :=
  ⟨_, exec_owned kind payload takes owner known, rfl, settings⟩

/-- Settles O21. -/
theorem settingsReadBackAreTakenAsSent : Obligations.SettingsReadBackAreTakenAsSent := by
  intro s ok
  obtain ⟨⟨cylinder, -, -, -, ⟨-, -, hard, -, -⟩, -, times, solar, hold, -⟩, -, link, -⟩ := ok
  refine ⟨fun p read takes => ?_, fun p read takes => ?_, fun p read takes => ?_, fun d read takes => ?_⟩
  · cases read
    obtain ⟨same, exact_values⟩ := cylinder_read_back cylinder
    have owner : ownerOf (.setCylinder (cylinderBytes s.clm)) (s.taking 0x10 (cylinderBytes s.clm)) =
        ⟨.ok, cylinderBytes s.clm, { s.taking 0x10 (cylinderBytes s.clm) with clm := s.clm }⟩ := by
      refine (congrFun (withLength_of _ (by simp [cylinderBytes, wordOf, byteOf])) _).trans ?_
      unfold ownSetCylinder
      rw [State.taking_clm, same]
      dsimp only
      rw [if_neg (by simp), if_neg (by simp), exact_values]
      rfl
    exact exec_as_sent rfl rfl takes owner (by simp [State.settings])
  · cases read
    obtain ⟨code, same, holdoff, threshold, exact_values⟩ := solar_read_back solar hard times
    have owner : ownerOf (.setSolar (solarBytes s.slc s.sar)) (s.taking 0x14 (solarBytes s.slc s.sar)) =
        ⟨.ok, solarBytes s.slc s.sar, { s.taking 0x14 (solarBytes s.slc s.sar) with slc := s.slc, sar := s.sar }⟩ := by
      refine (congrFun (withLength_of _ (by simp [solarBytes, wordOf, byteOf, flagOf])) _).trans ?_
      unfold ownSetSolar
      rw [code]
      dsimp only
      rw [State.taking_scu, State.taking_slc, State.taking_sar, same, holdoff, threshold, exact_values, if_neg (by simp)]
      rfl
    exact exec_as_sent rfl rfl takes owner (by simp [State.settings])
  · cases read
    obtain ⟨code, width, ranking, length, same, exact_values⟩ := hold_read_back hold
    have owner : ownerOf (.setHold (holdBytes s.ths.settings)) (s.taking 0x15 (holdBytes s.ths.settings)) =
        ⟨.ok, holdBytes s.ths.settings,
          (s.taking 0x15 (holdBytes s.ths.settings)).setThs (s.ths.takeSettings s.ths.settings)⟩ := by
      refine (congrFun (withLength_of _ length) _).trans ?_
      unfold ownSetHold
      rw [code, width, ranking]
      dsimp only
      rw [State.taking_ths, same, exact_values, if_neg (by simpa using hold.2.2.2.2), if_neg (by simp)]
      rfl
    exact exec_as_sent rfl rfl takes owner (by simp [State.settings, State.setThs, Ths.takeSettings])
  · cases read
    have bytes : (linkBytes s.mpt ++ flagOf s.mpt.lock).take 2 = linkBytes s.mpt := rfl
    rw [bytes] at takes ⊢
    obtain ⟨interval, same⟩ := link_read_back link
    have owner : ownSetLink (linkBytes s.mpt) (s.taking 0x1B (linkBytes s.mpt)) =
        ⟨.ok, linkBytes s.mpt,
          (s.taking 0x1B (linkBytes s.mpt)).setMpt
            ({ (s.taking 0x1B (linkBytes s.mpt)).mpt with interval := s.mpt.interval } : Mpt).loadSupervision⟩ := by
      unfold ownSetLink
      dsimp only
      rw [interval, same, taken, takenCode_bne, if_pos rfl]
      rfl
    exact exec_as_sent (c := .setLink _) rfl rfl takes owner (by simp [State.settings, State.setMpt, Mpt.loadSupervision])

end Sys2Proof.Machine
end

section
/-! PROOFS. The action requests (section 11.4.2, codes 0x20 to 0x2B). -/

namespace Sys2Proof.Machine

/-! ### Requests that name a slot (R80) -/

theorem onSlot_slot {solar : State → Answer} {slot : SlotId → State → Answer} {b : Byte} {n : SlotId}
    (h : b.toNat = slotNumber n) : onSlot solar slot [b] = slot n := by
  refine (withLength_of _ rfl).trans ?_
  have code : byteAt [b] 0 = slotNumber n := h
  rw [code, sourceOfCode_slotNumber]

theorem onSlot_unknown {solar : State → Answer} {slot : SlotId → State → Answer} {b : Byte} (h : 4 < b.toNat) :
    onSlot solar slot [b] = refuse .badValue := by
  refine (withLength_of _ rfl).trans ?_
  have code : sourceOfCode (byteAt [b] 0) = none := sourceOfCode_none h
  rw [code]

/-- A slot that works for nobody stands while the arbiter takes a notice. -/
theorem notify_rests {x : Sent} {n : SlotId} (h : (x.1.slot n).state.lendable = false) : x.notify.slot n = x.1.slot n :=
  (Sent.notify_governed x).rests n h

/-! ### SOURCE_DISABLE (R87, R102, R144) -/

theorem Quiet.useFree (s : State) : Quiet s s.useFree := (Governed.useFree s).quiet

/-- What SOURCE_DISABLE leaves unchanged. -/
theorem disableSlot_quiet (n : SlotId) (s : State) : Quiet s (disableSlot n s).1 := by
  unfold disableSlot
  dsimp only
  have stop (h : Option Holder) : Quiet s
      (if (askCall n false s).hasPumpLine n && decide ((s.slot n).settings.overrun > 0) then
        (((askCall n false s).setSlotState n (.overrun (s.slot n).settings.overrun
          (Config.freeOffTime (askCall n false s).freeCount).toNat true)).useFree, leave n h .disable)
      else ((askPump n false (askCall n false s)).setSlotState n .disabled, leave n h .disable)).1 := by
    split
    · exact ((askCall_governed ..).quiet.trans (.setSlotState ..)).trans (.useFree _)
    · exact ((askCall_governed ..).quiet.trans (askPump_governed ..).quiet).trans (.setSlotState ..)
  split
  · exact stop _
  · exact stop _
  · exact .setSlotState ..
  · exact (askPump_governed ..).quiet.trans (.setSlotState ..)
  · exact (askPump_governed ..).quiet.trans (.setSlotState ..)
  · exact (askPump_governed ..).quiet.trans (.setSlotState ..)
  · exact (askPump_governed ..).quiet.trans (.setSlot ..)
  · exact (Quiet.setSlot ..).trans (askLine_governed ..).quiet
  · exact (Quiet.setSlot ..).trans (askLine_governed ..).quiet
  · exact .refl s

@[simp] theorem State.useFree_slot (s : State) (n : SlotId) : s.useFree.slot n = s.slot n := rfl

/-- A disabled slot is DISABLED, or its pump runs on and it is DISABLED after that; the failures are kept unless it was
TRIPPED. -/
theorem disableSlot_slot (n : SlotId) (s : State) :
    (((disableSlot n s).1.slot n).state = .disabled ∨ ∃ r d, ((disableSlot n s).1.slot n).state = .overrun r d true) ∧
      ((disableSlot n s).1.slot n).failures = if (s.slot n).state = .tripped then 0 else (s.slot n).failures := by
  unfold disableSlot
  dsimp only
  split
  next state => rw [state]; split <;> simp
  next state => rw [state]; split <;> simp
  next state => simp [state]
  next state => simp [state]
  next state => simp [state]
  next state => simp [state]
  next state => simp [state]
  next state => simp [state]
  next state => simp [state]
  next state => simp [state]

theorem askSolarPump_governed (v : Int) (s : State) : Governed s (askSolarPump v s) := by
  unfold askSolarPump
  split
  · exact .refl s
  · exact askLine_governed ..

theorem fmuSolarChange_eq (w : SolarState) (s : State) : fmuSolarChange w s = { s with fmu := (fmuSolarChange w s).fmu } := by
  unfold fmuSolarChange
  split <;> rfl

/-- A change of the solar loop is told to the FMU and the arbiter (R115, R128, R133): a frame but for the FMU. -/
theorem tellSolarChange_governed (b : Slc) (s : State) : ∃ f : Fmu, Governed { s with fmu := f } (tellSolarChange b s) := by
  have pump : Governed s (if s.slc.state = b.state ∧ s.slc.speed = b.speed then s else askSolarPump s.slc.speed s) := by
    split
    · exact .refl s
    · exact askSolarPump_governed ..
  unfold tellSolarChange
  dsimp only
  generalize (if s.slc.state = b.state ∧ s.slc.speed = b.speed then s else askSolarPump s.slc.speed s) = t at pump ⊢
  split
  · exact ⟨s.fmu, pump⟩
  · refine ⟨(fmuSolarChange s.slc.state t).fmu, Governed.trans ?_ (evaluate_governed ..)⟩
    rw [fmuSolarChange_eq]
    exact ⟨pump.pending, pump.clm, pump.pfe, rfl, pump.zdu, pump.slc, pump.ths, pump.flt, pump.mpt, pump.pins, pump.scu, pump.sar,
      pump.figures, pump.rests, pump.lines⟩

/-- SOURCE_ENABLE and SOURCE_DISABLE of slot 0 (R144): the loop takes the state at speed 0. -/
theorem solarSwitch_slc (w : SolarState) (s : State) : (solarSwitch w s).slc = { s.slc with state := w, speed := 0 } := by
  obtain ⟨f, told⟩ := tellSolarChange_governed s.slc { s with slc := { s.slc with state := w, speed := 0 } }
  exact told.slc

/-- Settles O39. -/
theorem sourceDisableIsTakenInEveryState : Obligations.SourceDisableIsTakenInEveryState := by
  intro s n b
  refine ⟨fun slot takes => ?_, fun takes => ?_, fun unknown takes => ?_⟩
  · set u := s.taking 0x21 [b] with hu
    have owner : ownerOf (.sourceDisable [b]) u = accept [] (disableSlot n u).notify := congrFun (onSlot_slot slot) u
    have run := exec_owned (c := .sourceDisable [b]) rfl rfl takes owner
    have slot_eq := disableSlot_slot n u
    have quiet := (disableSlot_quiet n u).trans (Sent.notify_governed _).quiet
    have rests : ((disableSlot n u).notify).slot n = (disableSlot n u).1.slot n := notify_rests <| by
      obtain h | ⟨r, d, h⟩ := slot_eq.1 <;> rw [h] <;> rfl
    rw [← rests, hu, State.taking_slot, ← hu] at slot_eq
    refine ⟨_, run, rfl, slot_eq.1, slot_eq.2, quiet.clm.trans (State.taking_clm ..), quiet.pfe.trans (State.taking_pfe ..),
      quiet.flt.trans (State.taking_flt ..), exec_settings rfl run⟩
  · have owner : ownerOf (.sourceDisable [0]) (s.taking 0x21 [0]) = disableSolar (s.taking 0x21 [0]) := rfl
    have slc : (s.taking 0x21 [0]).slc = s.slc := State.taking_slc ..
    unfold disableSolar at owner
    rw [slc] at owner
    by_cases off : s.slc.state = .disabled
    · rw [if_pos off] at owner
      have run := exec_owned (c := .sourceDisable [0]) rfl rfl takes owner
      exact ⟨_, run, (congrArg Slc.state slc).trans off, fun h => absurd off h, rfl, exec_settings rfl run⟩
    · rw [if_neg off] at owner
      have run := exec_owned (c := .sourceDisable [0]) rfl rfl takes owner
      have switched := solarSwitch_slc .disabled (s.taking 0x21 [0])
      exact ⟨_, run, congrArg Slc.state switched, fun _ => congrArg Slc.speed switched, rfl, exec_settings rfl run⟩
  · exact exec_owned (c := .sourceDisable [b]) rfl rfl takes (congrFun (onSlot_unknown unknown) _)

/-! ### BOOST and BOOST_CANCEL (R76, R77) -/

theorem judge_boost (m : Option Int) (x : ZoneRec) :
    (x.judge m).boost = if m.any (fun m => x.boost.any fun b => decide (m ≥ b)) then none else x.boost := by
  cases m <;> rfl

theorem zoneOfCode_none {n : Nat} (h : 2 < n) : zoneOfCode n = none := by
  match n, h with
  | n + 3, _ => rfl

theorem boosted_zone (z y : Zone) (v : Int) (s : State) :
    (evaluateZones s.zdu.zones [z] (some z) (s.setZone z { s.zone z with boost := some v })).zone y =
      if y = z then ZoneRec.judge (s.zoneMinimum z) { s.zone z with boost := some v } else s.zone y := by
  refine (evaluateZones_zone (List.nodup_singleton z) _ _ y _).trans ?_
  by_cases h : y = z
  · subst h
    simp [State.zoneMinimum]
    rfl
  · simp [h]

theorem cancelled_zone (z y : Zone) (s : State) :
    ((cancelBoosts [z] s).zone y).boost = (if y = z then none else (s.zone y).boost) ∧
      (y ≠ z → (cancelBoosts [z] s).zone y = s.zone y) := by
  cases boost : (s.zone z).boost with
  | none =>
    have same : cancelBoosts [z] s = s := by simp [cancelBoosts, boost]
    rw [same]
    refine ⟨?_, fun _ => rfl⟩
    split
    next h => rw [h, boost]
    next => rfl
  | some v =>
    have judged : cancelBoosts [z] s = evaluateZones s.zdu.zones [z] none (s.setZone z { s.zone z with boost := none }) := by
      simp [cancelBoosts, boost]
    have zone := evaluateZones_zone (List.nodup_singleton z) s.zdu.zones none y (s.setZone z { s.zone z with boost := none })
    rw [judged, zone]
    by_cases h : y = z
    · subst h
      simp [judge_boost]
    · simp [h]

theorem State.taking_zoneMinimum (s : State) (k : Byte) (p : List Byte) (z : Zone) :
    (s.taking k p).zoneMinimum z = s.zoneMinimum z := by simp [State.zoneMinimum]

/-- Settles O40. -/
theorem boostIsSetAndCancelled : Obligations.BoostIsSetAndCancelled := by
  intro s p z b
  refine ⟨fun length zone takes => ?_, fun length unknown takes => ?_, fun zone takes => ?_, fun unknown takes => ?_⟩
  · intro v
    set u := s.taking 0x23 p with hu
    set t := evaluateZones u.zdu.zones [z] (some z) (u.setZone z { u.zone z with boost := some v }) with ht
    have owner : ownerOf (.boost p) u =
        taken (v != signedWordAt p 1)
          (flagOf (t.zone z).boost.isSome ++ tempOf (t.zone z).boost ++ flagOf (t.zone z).demand ++ flagOf (t.zone z).urgent) t := by
      refine (congrFun (withLength_of _ (by simp [length])) u).trans ?_
      rw [ownBoost, zone]
      rfl
    rw [taken, takenCode_bne] at owner
    have run := exec_owned rfl rfl takes owner
    have zones (y : Zone) := boosted_zone z y v u
    have quiet : Quiet u t := (Quiet.setZone ..).trans (evaluateZones_quiet ..)
    refine ⟨_, run, ?_, fun y other => ?_, quiet.clm.trans (State.taking_clm ..), quiet.pfe.trans (State.taking_pfe ..),
      exec_settings rfl run, rfl⟩
    · refine (congrArg ZoneRec.boost ((zones z).trans (if_pos rfl))).trans ((judge_boost ..).trans ?_)
      rw [hu, State.taking_zoneMinimum]
      rfl
    · exact (zones y).trans ((if_neg other).trans (State.taking_zone ..))
  · have owner : ownBoost p (s.taking 0x23 p) = refuse .badValue (s.taking 0x23 p) := by
      rw [ownBoost, zoneOfCode_none unknown]
    exact exec_owned (c := .boost p) rfl rfl takes ((congrFun (withLength_of _ (by simp [length])) _).trans owner)
  · set u := s.taking 0x24 [b] with hu
    have owner : ownerOf (.boostCancel [b]) u = accept [] (cancelBoosts [z] u) := by
      refine (congrFun (withLength_of _ rfl) u).trans ?_
      have code : zoneOfCode (byteAt [b] 0) = some z := zone
      rw [ownBoostCancel, code]
    have run := exec_owned (c := .boostCancel [b]) rfl rfl takes owner
    refine ⟨_, run, ?_, fun y other => ?_, (cancelBoosts_quiet ..).clm.trans (State.taking_clm ..), exec_settings rfl run, rfl⟩
    · exact (cancelled_zone z z u).1.trans (if_pos rfl)
    · exact ((cancelled_zone z y u).2 other).trans (State.taking_zone ..)
  · have owner : ownBoostCancel [b] (s.taking 0x24 [b]) = refuse .badValue (s.taking 0x24 [b]) := by
      have code : zoneOfCode (byteAt [b] 0) = none := zoneOfCode_none unknown
      rw [ownBoostCancel, code]
    exact exec_owned (c := .boostCancel [b]) rfl rfl takes ((congrFun (withLength_of _ rfl) _).trans owner)

/-! ### FORCE_OUTPUT and RELEASE_OUTPUT (R172, R173) -/

/-- Settles O42. -/
theorem forcingSetsTheModeOfOneLine : Obligations.ForcingSetsTheModeOfOneLine := by
  intro s x y i line
  have line_eq (p : List Byte) (h : byteAt p 0 = x.toNat) : lineOfNumber (byteAt p 0) = some i := by
    rw [h, line]; exact dif_pos i.isLt
  refine ⟨fun takes mode => ?_, fun takes => ?_⟩
  · intro u
    have line_of : u.olu[i] = s.olu[i] := congrArg (fun v : Vector Line 8 => v[i]) (State.taking_olu ..)
    have owner : ownerOf (.forceOutput [x, y]) u =
        if s.olu[i].function.forcible = true then
          accept [] (u.setLine i (s.olu[i].drive (isRelay i) (if y = 1 then .forcedOn else .forcedOff) s.olu[i].auto))
        else refuse .refused u := by
      refine (congrFun (withLength_of _ rfl) u).trans ?_
      have code : onOffCode (byteAt [x, y] 1) = some (decide (y = 1)) := by
        have : byteAt [x, y] 1 = y.toNat := rfl
        rw [this, onOffCode_eq, if_neg (by omega)]
        simp only [BitVec.toNat_eq]
        rfl
      rw [ownForceOutput, line_eq [x, y] rfl, code]
      dsimp only
      rw [line_of]
      simp only [decide_eq_true_eq]
    split
    next n h => rw [h] at owner; exact exec_owned (c := .forceOutput [x, y]) rfl rfl takes owner
    next n h => rw [h] at owner; exact exec_owned (c := .forceOutput [x, y]) rfl rfl takes owner
    next h => rw [h] at owner; exact exec_owned (c := .forceOutput [x, y]) rfl rfl takes owner
    all_goals
      rw [if_pos (by simp_all [LineFunction.forcible])] at owner
      exact ⟨_, exec_owned (c := .forceOutput [x, y]) rfl rfl takes owner, Line.drive_mode .., Line.drive_auto .., Line.drive_function ..,
        Line.drive_recoveryTime ..⟩
  · have line_of : (s.taking 0x27 [x]).olu[i] = s.olu[i] :=
      congrArg (fun v : Vector Line 8 => v[i]) (State.taking_olu ..)
    have owner : ownerOf (.releaseOutput [x]) (s.taking 0x27 [x]) =
        accept [] ((s.taking 0x27 [x]).setLine i (s.olu[i].drive (isRelay i) .auto s.olu[i].auto)) := by
      refine (congrFun (withLength_of _ rfl) _).trans ?_
      rw [ownReleaseOutput, line_eq [x] rfl]
      dsimp only
      rw [line_of]
    exact ⟨_, exec_owned (c := .releaseOutput [x]) rfl rfl takes owner, Line.drive_mode .., Line.drive_auto .., Line.drive_function ..⟩

/-! ### HOLD_NOW (R160) -/

theorem finishStep_eq (r : StepRec) (s : State) : finishStep r s = s.setThs (finishStep r s).ths := by
  unfold finishStep
  dsimp only
  split <;> rfl

/-- A start changes the stepper alone (R154, R158). -/
theorem startStep_eq (k : Nat) (s : State) : startStep k s = s.setThs (startStep k s).ths := by
  induction k generalizing s with
  | zero => rfl
  | succ k ih =>
    unfold startStep
    dsimp only
    split
    · unfold nextStep
      split
      · split
        · rw [ih, finishStep_eq]; rfl
        · exact finishStep_eq ..
      · rw [finishStep_eq]; rfl
    · rfl

theorem mem_section {r : StepRec} {i : Fin 16} : i ∈ r.section ↔ r.low ≤ i ∧ i ≤ r.top := by
  simp [StepRec.section, coilLayers]

/-- A step with a layer neither credited nor held starts and seeks a slot (R154). -/
theorem startStep_seeks {s : State} {i : Fin 16} (k : Nat) (within : i ∈ s.ths.newStep.section)
    (old : s.ths.settings.creditAge ≤ s.clm.layers[i].holdAge) (cold : s.clm.layers[i].hotDwell ≠ s.ths.settings.dwell) :
    startStep (k + 1) s =
      (s.setThs { s.ths with step := .seeking { s.ths.newStep with done := s.heldLayers s.ths.newStep } }).tellArbiter
        .holdRequest := by
  have credit : s.credited { s.ths.newStep with done := s.heldLayers s.ths.newStep } = false := by
    refine List.all_eq_false.2 ⟨i, within, ?_⟩
    exact fun young => absurd old (Nat.not_le.2 (of_decide_eq_true young))
  have filled : ({ s.ths.newStep with done := s.heldLayers s.ths.newStep } : StepRec).filled = false := by
    refine List.all_eq_false.2 ⟨i, within, ?_⟩
    simpa [State.heldLayers] using fun _ => cold
  rw [startStep]
  dsimp only
  rw [credit, filled]
  rfl

/-- Settles O43. -/
theorem holdNowAsksForAFullPass : Obligations.HoldNowAsksForAFullPass := by
  intro s takes u
  have ths : u.ths = s.ths := State.taking_ths ..
  have clm : u.clm = s.clm := State.taking_clm ..
  have owner : ownerOf (.holdNow []) u =
      if s.ths.settings.enable = true then accept [] (holdNow u) else refuse .refused u := by
    refine (congrFun (withLength_of _ rfl) u).trans ?_
    rw [ownHoldNow, ths]
  by_cases off : s.ths.settings.enable = false
  · rw [if_pos off]
    rw [if_neg (by simp [off])] at owner
    exact exec_owned rfl rfl takes owner
  rw [if_neg off]
  rw [if_pos (by simpa using off)] at owner
  by_cases idle : s.ths.step = .idle
  · rw [if_neg (not_not.2 idle)]
    have started : holdNow u = startStep chainBound (u.setThs { u.ths with pointer := 15, fullPass := true }) := by
      rw [holdNow, ths, idle]
    rw [started, startStep_eq] at owner
    refine ⟨_, exec_owned rfl rfl takes owner, ?_⟩
    rintro ⟨i, high, base, old, cold⟩
    have seeks := startStep_seeks (s := u.setThs { u.ths with pointer := 15, fullPass := true }) (i := i) 19
      (by
        rw [mem_section, Fin.le_def, Fin.le_def]
        simp only [Ths.newStep, State.ths_setThs, ths]
        have := i.isLt
        rw [Fin.le_def] at base
        exact ⟨by omega, by omega⟩)
      (by simpa [ths, clm] using old) (by simpa [ths, clm] using cold)
    have chain : chainBound = 19 + 1 := rfl
    rw [chain, seeks]
    exact ⟨rfl, rfl, _, rfl, rfl, rfl⟩
  · rw [if_pos idle]
    have goes_on : holdNow u = u.setThs { u.ths with fullPass := true } := by
      rw [holdNow, ths]
      split
      · contradiction
      · rfl
    rw [goes_on] at owner
    exact exec_owned rfl rfl takes owner

/-! ### CLEAR_FAULTS (R183) -/

theorem Flt.clearKinds_kindRec (f : Flt) (listed : FaultKind → Bool) (k : FaultKind) :
    (f.clearKinds listed).kindRec k = if listed k = true then (f.kindRec k).clear else f.kindRec k := by
  simp only [Flt.clearKinds, Flt.kindRec, tabulate_get, allKinds_index]

theorem Flt.clearKinds_first (f : Flt) (listed : FaultKind → Bool) (r : FirstFault) :
    (f.clearKinds listed).first = some r ↔ f.first = some r ∧ listed r.kind = false := by
  simp only [Flt.clearKinds]
  cases first : f.first with
  | none => simp
  | some q =>
    by_cases same : q = r
    · subst same; cases named : listed q.kind <;> simp [named]
    · cases listed q.kind <;> simp [same]

/-- Settles O44. -/
theorem clearFaultsClearsTheNamedKinds : Obligations.ClearFaultsClearsTheNamedKinds := by
  intro s p length takes u
  have owner : ownerOf (.clearFaults p) u = ownClearFaults p u := congrFun (withLength_of _ (by simpa using length)) u
  have codes : (p.all fun b => decide (1 ≤ b.toNat ∧ b.toNat ≤ 16)) = true ↔ ¬ ∃ b ∈ p, b.toNat < 1 ∨ 16 < b.toNat := by
    simp only [List.all_eq_true, decide_eq_true_eq, not_exists, not_and, not_or, not_lt]
  have flt : u.flt = s.flt := State.taking_flt ..
  unfold ownClearFaults at owner
  by_cases bad : ∃ b ∈ p, b.toNat < 1 ∨ 16 < b.toNat
  · rw [if_pos bad]
    rw [if_neg (mt codes.1 (not_not.2 bad))] at owner
    exact exec_owned rfl rfl takes owner
  · rw [if_neg bad]
    rw [if_pos (codes.2 bad), flt] at owner
    set listed : FaultKind → Bool := fun k => p.any fun b => decide (b.toNat = k.code) with hlisted
    have names (k : FaultKind) : listed k = true ↔ ∃ b ∈ p, b.toNat = k.code := by simp [hlisted]
    have cleared : (rejudge (s.flt.clearKinds listed) u).flt = s.flt.clearKinds listed := rejudge_flt ..
    have frame := rejudge_eq (s.flt.clearKinds listed) u
    have alert : (rejudge (s.flt.clearKinds listed) u).pins.alertLow = (s.flt.clearKinds listed).pinCondition := by
      rw [rejudge_pins]
    generalize rejudge (s.flt.clearKinds listed) u = t at owner cleared frame alert
    dsimp only at owner
    refine ⟨_, _, exec_owned rfl rfl takes owner, rfl, fun k => ?_, fun r => ?_, ?_, ?_, ?_, ?_, ?_, ?_, ?_, ?_⟩
    · refine (congrArg (Flt.kindRec · k) cleared).trans ((Flt.clearKinds_kindRec ..).trans ?_)
      simp only [names]
      rfl
    · refine (Eq.congr_left (congrArg Flt.first cleared)).trans ((Flt.clearKinds_first ..).trans ?_)
      rw [← Bool.not_eq_true, names]
      simp only [not_exists, not_and, ne_eq]
    · show t.pins.alertLow = t.flt.pinCondition
      rw [alert, cleared]
    · exact (congrArg Flt.uptime cleared).trans rfl
    all_goals
      rw [frame]
    · exact State.taking_clm ..
    · exact State.taking_pfe ..
    · exact State.taking_scu ..
    · exact State.taking_sar ..
    · exact State.taking_slc ..
    · exact State.taking_ths ..

/-! ### SURPLUS and the diverters (R102 to R104) -/

/-- The rearm flag of a diverter once it is evaluated (R102). -/
def State.rearmed (s : State) (n : SlotId) : Bool := (s.slot n).rearmAfter (s.temp (s.slot n).settings.coilHigh)

/-- An evaluated diverter diverts (R102). -/
def State.diverts (s : State) (n : SlotId) : Bool :=
  s.grantsOpen && decide (s.scu.surplus > 0) && !s.rearmed n &&
    decide (s.temp (s.slot n).settings.coilHigh < (s.slot n).settings.ceiling) && (s.carrier (.diverterDrive n)).isSome

/-- The duty an evaluated diverter asks for (R103). -/
def State.dutyAsked (s : State) (n : SlotId) : Nat :=
  if s.diverts n then diverterDuty s.scu.surplus (s.slot n).settings.rate else 0

/-- One diverter's evaluation at its own slot and line (R102, R103). -/
theorem evaluateDiverter_own {n : SlotId} {s : State} (works : (s.slot n).cls = .diverter ∧ (s.slot n).state ≠ .disabled) :
    (evaluateDiverter n s).slot n =
        { s.slot n with rearm := s.rearmed n, state := if s.diverts n then .diverting else .idle } ∧
      ∀ i, s.carrier (.diverterDrive n) = some i → (evaluateDiverter n s).olu[i].auto = s.dutyAsked n := by
  have asked : evaluateDiverter n s = askLine (.diverterDrive n) (s.dutyAsked n)
      (s.setSlot n { s.slot n with rearm := s.rearmed n, state := if s.diverts n then .diverting else .idle }) := if_pos works
  rw [asked]
  refine ⟨(askLine_slot ..).trans (by simp), fun i carries => ?_⟩
  have carries : (s.setSlot n { s.slot n with rearm := s.rearmed n, state := if s.diverts n then .diverting else .idle }).carrier
      (.diverterDrive n) = some i := carries
  unfold askLine
  rw [carries]
  exact (congrArg Line.auto (State.olu_setLine ..)).trans ((congrArg Line.auto (if_pos rfl)).trans (Line.drive_auto ..))

/-- Two states in which the diverters of a list are evaluated alike. -/
structure Alike (l : List SlotId) (s t : State) : Prop where
  clm : t.clm = s.clm
  scu : t.scu = { s.scu with slots := t.scu.slots }
  functions : ∀ i : Fin 8, t.olu[i].function = s.olu[i].function
  slots : ∀ n ∈ l, t.slot n = s.slot n

theorem Alike.evaluated {l : List SlotId} {s t : State} (h : Alike l s t) {n : SlotId} (listed : n ∈ l) :
    t.carrier (.diverterDrive n) = s.carrier (.diverterDrive n) ∧ t.rearmed n = s.rearmed n ∧ t.diverts n = s.diverts n ∧
      t.dutyAsked n = s.dutyAsked n := by
  have slot := h.slots n listed
  have carrier : t.carrier (.diverterDrive n) = s.carrier (.diverterDrive n) := by simp only [State.carrier, h.functions]
  have temp (i : Fin 16) : t.temp i = s.temp i := by simp only [State.temp, h.clm]
  have rearmed : t.rearmed n = s.rearmed n := by simp only [State.rearmed, slot, temp]
  have latch : t.scu.latch = s.scu.latch := by rw [h.scu]
  have surplus : t.scu.surplus = s.scu.surplus := by rw [h.scu]
  have diverts : t.diverts n = s.diverts n := by
    simp only [State.diverts, State.grantsOpen, latch, h.clm, surplus, rearmed, slot, temp, carrier]
  exact ⟨carrier, rearmed, diverts, by simp only [State.dutyAsked, diverts, surplus, slot]⟩

/-- The diverters of a list evaluated one after another: each as in the state before, the other slots and lines stand. -/
theorem evaluateDiverters_list {l : List SlotId} (once : l.Nodup) {s t : State} (alike : Alike l s t) :
    let r := l.foldl (fun s n => evaluateDiverter n s) t
    (∀ n, (n ∉ l ∨ ¬((t.slot n).cls = .diverter ∧ (t.slot n).state ≠ .disabled)) → r.slot n = t.slot n) ∧
      (∀ i : Fin 8, (∀ n ∈ l, t.olu[i].function ≠ .diverterDrive n) → r.olu[i] = t.olu[i]) ∧
      ∀ n ∈ l, (s.slot n).cls = .diverter ∧ (s.slot n).state ≠ .disabled →
        r.slot n = { s.slot n with rearm := s.rearmed n, state := if s.diverts n then .diverting else .idle } ∧
          ∀ i, s.carrier (.diverterDrive n) = some i → r.olu[i].auto = s.dutyAsked n := by
  induction l generalizing t with
  | nil => exact ⟨fun _ _ => rfl, fun _ _ => rfl, fun n h => absurd h List.not_mem_nil⟩
  | cons m l ih =>
    obtain ⟨fresh, once⟩ := List.nodup_cons.1 once
    intro r
    have others (n : SlotId) (h : n ≠ m) : (evaluateDiverter m t).slot n = t.slot n := by
      obtain k | ⟨k, -⟩ := evaluateDiverter_slot m n t
      · exact k
      · exact absurd k h
    have quiet := evaluateDiverter_quiet m t
    have functions (i : Fin 8) : (evaluateDiverter m t).olu[i].function = t.olu[i].function := by
      unfold evaluateDiverter
      dsimp only
      split
      · exact ((askLine_governed ..).lines i).1
      · rfl
    have next : Alike l s (evaluateDiverter m t) := by
      refine ⟨quiet.clm.trans alike.clm, ?_, fun i => (functions i).trans (alike.functions i), fun n h => ?_⟩
      · rw [quiet.scu, alike.scu]
      · rw [others n fun e => fresh (e ▸ h)]
        exact alike.slots n (List.mem_cons_of_mem m h)
    obtain ⟨stand, lines, own⟩ := ih once next
    refine ⟨fun n h => ?_, fun i h => ?_, fun n listed works => ?_⟩
    · by_cases same : n = m
      · subst same
        have still : ¬((t.slot n).cls = .diverter ∧ (t.slot n).state ≠ .disabled) := h.resolve_left fun k => k List.mem_cons_self
        refine (stand n (.inl fresh)).trans ?_
        rw [evaluateDiverter_still fun cls => by_contra fun state => still ⟨cls, state⟩]
      · refine (stand n ?_).trans (others n same)
        rw [others n same]
        exact h.imp_left fun k listed => k (List.mem_cons_of_mem m listed)
    · refine (lines i fun n listed => ?_).trans (evaluateDiverter_other (h m List.mem_cons_self))
      rw [functions]
      exact h n (List.mem_cons_of_mem m listed)
    · rcases List.mem_cons.1 listed with rfl | listed
      · obtain ⟨carrier, rearmed, diverts, duty⟩ := alike.evaluated List.mem_cons_self
        have slot := alike.slots n List.mem_cons_self
        obtain ⟨own_slot, own_line⟩ := evaluateDiverter_own (s := t) (n := n) (slot ▸ works)
        refine ⟨?_, fun i carries => ?_⟩
        · rw [← slot, ← rearmed, ← diverts]
          exact (stand n (.inl fresh)).trans own_slot
        · have carries := carrier.trans carries
          have function : (evaluateDiverter n t).olu[i].function = .diverterDrive n := (functions i).trans (carrier_function carries)
          refine (congrArg Line.auto (lines i fun k listed same => ?_)).trans ((own_line i carries).trans duty)
          rw [function] at same
          cases same
          exact fresh listed
      · exact own n listed works

/-- Every diverter evaluated (R102, R103): each as in the state before, and the other slots stand. -/
theorem evaluateDiverters_all (s : State) :
    (∀ n, ¬((s.slot n).cls = .diverter ∧ (s.slot n).state ≠ .disabled) → (evaluateDiverters s).slot n = s.slot n) ∧
      ∀ n, (s.slot n).cls = .diverter ∧ (s.slot n).state ≠ .disabled →
        (evaluateDiverters s).slot n =
            { s.slot n with rearm := s.rearmed n, state := if s.diverts n then .diverting else .idle } ∧
          ∀ i, s.carrier (.diverterDrive n) = some i → (evaluateDiverters s).olu[i].auto = s.dutyAsked n := by
  have alike : Alike allSlots s s := ⟨rfl, rfl, fun _ => rfl, fun _ _ => rfl⟩
  obtain ⟨stand, -, own⟩ := evaluateDiverters_list (by decide : allSlots.Nodup) alike
  exact ⟨fun n still => stand n (.inr still), fun n => own n (mem_allSlots n)⟩

theorem evaluateDiverters_sar (s : State) : (evaluateDiverters s).sar = s.sar := (evaluateDiverters_drops s).sar

/-- The rearm flag as R102 puts it: set at the ceiling, cleared 20 dd below it. -/
theorem rearmed_eq (s : State) (n : SlotId) :
    s.rearmed n =
      (((s.slot n).rearm || decide ((s.slot n).state = .diverting ∧ (s.slot n).settings.ceiling ≤ s.temp (s.slot n).settings.coilHigh)) &&
        decide ((s.slot n).settings.ceiling - 20 ≤ s.temp (s.slot n).settings.coilHigh)) := by
  simp [State.rearmed, Slot.rearmAfter, ← decide_not]

theorem diverts_eq (s : State) (n : SlotId) :
    s.diverts n = decide (s.scu.latch = .clear ∧ s.clm.model ≠ .unseeded ∧ 0 < s.scu.surplus ∧ s.rearmed n = false ∧
      s.temp (s.slot n).settings.coilHigh < (s.slot n).settings.ceiling ∧ s.carrier (.diverterDrive n) ≠ none) := by
  have seeded : s.clm.model.seeded = decide (s.clm.model ≠ .unseeded) := by cases s.clm.model <;> rfl
  rw [Bool.eq_iff_iff]
  simp only [State.diverts, State.grantsOpen, seeded, Bool.and_eq_true, Bool.not_eq_true', decide_eq_true_eq,
    Option.isSome_iff_ne_none, and_assoc, gt_iff_lt]

theorem carrier_congr {s u : State} (h : u.olu = s.olu) (f : LineFunction) : u.carrier f = s.carrier f := by
  simp only [State.carrier, h]

theorem linesOk_congr {s u : State} (h : u.olu = s.olu) (sound : s.linesOk) : u.linesOk := by
  simpa only [State.linesOk, h] using sound

theorem setSurplus_scu (w : Nat) (timer : Option Nat) (s : State) :
    (setSurplus w timer s).scu.surplus = w ∧ (setSurplus w timer s).scu.surplusTimer = timer ∧ (setSurplus w timer s).mpt = s.mpt := by
  have quiet := evaluateDiverters_quiet { s with scu := { s.scu with surplus := w, surplusTimer := timer } }
  unfold setSurplus
  generalize evaluateDiverters { s with scu := { s.scu with surplus := w, surplusTimer := timer } } = t at quiet ⊢
  rw [quiet.scu]
  exact ⟨rfl, rfl, quiet.mpt⟩

/-- Settles O41. -/
theorem surplusIsHeldForItsTime : Obligations.SurplusIsHeldForItsTime := by
  intro s p hot rearm diverts evaluated
  have key {b : State} (w : Nat) (timer : Option Nat) (scu : b.scu = s.scu) (clm : b.clm = s.clm) (olu : b.olu = s.olu)
      (zdu : b.zdu = s.zdu) (sar : b.sar = s.sar) (flt : b.flt = s.flt) (settings : (setSurplus w timer b).settings = s.settings) :
      evaluated w (setSurplus w timer b) := by
    set a : State := { b with scu := { b.scu with surplus := w, surplusTimer := timer } } with ha
    have slots (n : SlotId) : a.slot n = s.slot n := (congrArg (fun c : Scu => c.slots.get n) scu :)
    have temp (i : Fin 16) : a.temp i = s.temp i := (congrArg (fun c : Clm => c.layers[i].temp) clm :)
    have carrier (f : LineFunction) : a.carrier f = s.carrier f := carrier_congr olu f
    have rearmed (n : SlotId) : a.rearmed n = rearm n := by rw [rearmed_eq]; simp only [slots, temp]; rfl
    have latch : a.scu.latch = s.scu.latch := (congrArg Scu.latch scu :)
    have model : a.clm.model = s.clm.model := (congrArg Clm.model clm :)
    have diverts_a (n : SlotId) : a.diverts n = diverts w n := by
      rw [diverts_eq]; simp only [rearmed, slots, temp, carrier, latch, model]; rfl
    have duty (n : SlotId) : a.dutyAsked n = if diverts w n then min 100 (w * 100 / (s.slot n).settings.rate) else 0 := by
      rw [State.dutyAsked, diverts_a, slots]; rfl
    obtain ⟨stand, own⟩ := evaluateDiverters_all a
    have quiet := evaluateDiverters_quiet a
    have lines := (evaluateDiverters_within a).lines ∘ linesOk_congr (u := a) olu
    have demand := evaluateDiverters_zdu a
    have services := evaluateDiverters_sar a
    have shape : setSurplus w timer b = evaluateDiverters a := rfl
    rw [shape] at settings ⊢
    generalize evaluateDiverters a = t at stand own quiet lines demand services settings ⊢
    refine ⟨fun n other => ?_, fun n cls off => ?_, fun n cls works => ?_, quiet.clm.trans clm, demand.trans zdu,
      services.trans sar, quiet.flt.trans flt, settings⟩
    · exact (stand n (by rw [slots]; exact fun h => other h.1)).trans (slots n)
    · exact (stand n (by rw [slots]; exact fun h => h.2 off)).trans (slots n)
    · obtain ⟨slot, line⟩ := own n (by rw [slots]; exact ⟨cls, works⟩)
      rw [slots, rearmed, diverts_a] at slot
      refine ⟨slot, fun i carries => ⟨(line i ((carrier _).trans carries)).trans (duty n), fun sound pwm auto => ?_⟩⟩
      have mode : t.olu[i].mode = .auto := (quiet.modes i).trans ((congrArg (fun l : Vector Line 8 => l[i].mode) olu).trans auto)
      have line := (lines sound).1 i
      rw [if_neg (by simp [isRelay]; omega)] at line
      exact line.1.trans (by rw [Line.target, mode])
  refine ⟨fun length takes => ?_, fun runs => ?_⟩
  · intro w
    set u := s.taking 0x25 p with hu
    have owner : ownerOf (.surplus p) u =
        ⟨if w = wordAt p 0 then .ok else .clamped, wordOf w, setSurplus w (some s.scu.surplusTimeout) u⟩ := by
      refine (congrFun (withLength_of _ (by simp [length])) u).trans ?_
      have w_eq : clampNat 0 30000 (wordAt p 0) = w := Nat.max_eq_right (Nat.zero_le _)
      rw [ownSurplus, w_eq, taken, takenCode_bne, hu, State.taking_scu]
    have run := exec_owned rfl rfl takes owner
    have settings : (setSurplus w (some s.scu.surplusTimeout) u).settings = s.settings :=
      (State.replying_settings ..).symm.trans (exec_settings rfl run)
    obtain ⟨surplus, timer, -⟩ := setSurplus_scu w (some s.scu.surplusTimeout) u
    have evaluation := key w (some s.scu.surplusTimeout) (State.taking_scu ..) (State.taking_clm ..) (State.taking_olu ..)
      (State.taking_zdu ..) (State.taking_sar ..) (State.taking_flt ..) settings
    generalize setSurplus w (some s.scu.surplusTimeout) u = t at run surplus timer evaluation
    exact ⟨_, run, surplus, timer, evaluation, rfl⟩
  · have run : exec .surplusTimerExpiry s = .next (setSurplus 0 none s) := by
      refine congrArg Host.Outcome.next ?_
      cases timer : s.scu.surplusTimer with
      | none => exact absurd timer runs
      | some r => rfl
    obtain ⟨surplus, timer, port⟩ := setSurplus_scu 0 none s
    exact ⟨_, run, surplus, timer, key 0 none rfl rfl rfl rfl rfl rfl (exec_settings rfl run), port⟩

end Sys2Proof.Machine
end

section
/-! PROOFS. An evaluation of the arbiter disables no slot, and SOURCE_ENABLE and SOURCE_RESET (R86, R101, R113). -/

namespace Sys2Proof.Machine

/-! ### No evaluation disables a slot (R113) -/

/-- From `s` to `t` no slot becomes DISABLED, and no line moves but the call and pump lines of the slots. -/
structure Awake (s t : State) : Prop where
  keep : ∀ n, (s.slot n).state ≠ .disabled → (t.slot n).state ≠ .disabled
  functions : ∀ i : Fin 8, t.olu[i].function = s.olu[i].function
  lines : ∀ i : Fin 8, (∀ n, s.olu[i].function ≠ .sourceCall n ∧ s.olu[i].function ≠ .sourcePump n) → t.olu[i] = s.olu[i]

theorem Awake.refl (s : State) : Awake s s := ⟨fun _ => id, fun _ => rfl, fun _ _ => rfl⟩

theorem Awake.trans {s t u : State} (h : Awake s t) (k : Awake t u) : Awake s u :=
  ⟨fun n => k.keep n ∘ h.keep n, fun i => (k.functions i).trans (h.functions i), fun i own =>
    (k.lines i fun n => by rw [h.functions]; exact own n).trans (h.lines i own)⟩

theorem Awake.of_scu {s t : State} (h : t.scu = s.scu) (olu : t.olu = s.olu := by rfl) : Awake s t := by
  refine ⟨fun n => ?_, fun i => by rw [olu], fun i _ => by rw [olu]⟩
  have slot : t.slot n = s.slot n := congrArg (fun c : Scu => c.slots.get n) h
  rw [slot]; exact id

/-- The slots and the lines are all that counts, at either end. -/
theorem Awake.between {s s' t t' : State} (h : Awake s' t) (before : s'.scu = s.scu := by rfl) (lines : s'.olu = s.olu := by rfl)
    (after : t'.scu = t.scu := by rfl) (lines' : t'.olu = t.olu := by rfl) : Awake s t' :=
  ((Awake.of_scu before lines).trans h).trans (.of_scu after lines')

theorem Awake.setSlot {s : State} {n : SlotId} {x : Slot} (h : x.state ≠ .disabled) : Awake s (s.setSlot n x) := by
  refine ⟨fun m k => ?_, fun _ => rfl, fun _ _ => rfl⟩
  rw [State.slot_setSlot]
  split
  · exact h
  · exact k

theorem Awake.setSlotState {s : State} {n : SlotId} {st : SlotState} (h : st ≠ .disabled) : Awake s (s.setSlotState n st) := .setSlot h

theorem askCall_awake (n : SlotId) (b : Bool) (s : State) : Awake s (askCall n b s) :=
  ⟨fun m => by rw [askCall, askLine_slot]; exact id, fun i => ((askLine_governed ..).lines i).1, fun _ own => askLine_other _ (own n).1⟩

theorem askPump_awake (n : SlotId) (b : Bool) (s : State) : Awake s (askPump n b s) :=
  ⟨fun m => by rw [askPump, askLine_slot]; exact id, fun i => ((askLine_governed ..).lines i).1, fun _ own => askLine_other _ (own n).2⟩

theorem linesOff_awake (n : SlotId) (s : State) : Awake s (linesOff n s) := (askCall_awake n false s).trans (askPump_awake n false _)

theorem stopSlot_awake (n : SlotId) (off : Nat) (s : State) : Awake s (stopSlot n off s) := by
  unfold stopSlot
  dsimp only
  split
  · exact (askCall_awake n false s).trans (.setSlotState (by simp))
  · exact ((askCall_awake n false s).trans (askPump_awake n false _)).trans (.setSlotState (by simp))

theorem ceilingTest_awake (n : SlotId) (s : State) : Awake s (ceilingTest n s).1 := by
  unfold ceilingTest
  dsimp only
  split
  · split
    · exact stopSlot_awake ..
    · exact .refl s
  · exact .refl s

theorem completeRun_awake (n : SlotId) (s : State) : Awake s (completeRun n s).1 := by
  unfold completeRun
  dsimp only
  split
  next state => exact (Awake.setSlot (by simp [state])).trans (stopSlot_awake ..)
  next state => exact (Awake.setSlot (by simp)).trans (ceilingTest_awake ..)
  next => exact .refl s

theorem enterRunning_awake (n : SlotId) (h : Holder) (s : State) : Awake s (enterRunning n h s).1 := by
  unfold enterRunning
  dsimp only
  split
  · exact (Awake.setSlotState (by simp)).trans (completeRun_awake ..)
  · exact .setSlotState (by simp)

theorem endDwell_awake (n : SlotId) (s : State) : Awake s (endDwell n s).1 := by
  unfold endDwell
  split
  · split
    · exact .setSlotState (by simp)
    · exact enterRunning_awake ..
  · exact .refl s

theorem startSlot_awake (n : SlotId) (o : StartOrigin) (h : Holder) (s : State) : Awake s (startSlot n o h s).1 := by
  unfold startSlot
  dsimp only
  generalize (s.slot n).settings.startDwell + (if o = .cold then (s.slot n).settings.coldExtra else 0) = d
  have started : Awake s (askPump n true (askCall n true (s.setSlotState n (.starting o .dwell d h)))) :=
    (Awake.setSlotState (by simp)).trans ((askCall_awake n true _).trans (askPump_awake n true _))
  split
  · exact started.trans (endDwell_awake ..)
  · exact started

theorem grantSlot_awake {n : SlotId} {z : Zone} {s : State} {x : Sent} (h : grantSlot n z s = some x) : Awake s x.1 := by
  unfold grantSlot at h
  split at h
  · split at h
    · cases h; exact startSlot_awake ..
    · cases h; exact startSlot_awake ..
    · cases h; exact .setSlotState (by simp)
    · cases h
  · cases h

theorem takeForHold_awake {n : SlotId} {s : State} {x : Sent} (h : takeForHold n s = some x) : Awake s x.1 := by
  unfold takeForHold at h
  split at h
  · split at h
    · cases h; exact startSlot_awake ..
    · cases h; exact startSlot_awake ..
    · cases h; exact .setSlotState (by simp)
    · cases h; exact .setSlotState (by simp)
    · cases h
  · cases h

theorem returnToZone_awake {n : SlotId} {z : Zone} {s : State} {x : Sent} (h : returnToZone n z s = some x) : Awake s x.1 := by
  unfold returnToZone at h
  split at h
  · cases h; exact .setSlotState (by simp)
  · cases h; exact .setSlotState (by simp)
  · cases h

theorem releaseSlot_awake (n : SlotId) (s : State) : Awake s (releaseSlot n s).1 := by
  unfold releaseSlot
  split
  · exact (linesOff_awake ..).trans (.setSlotState (by simp))
  · exact stopSlot_awake ..
  · exact .setSlotState (by simp)
  · exact .refl s

theorem applyZoneChange_awake (z : Zone) (c : ZoneChange) (s : State) : Awake s (applyZoneChange z c s) := by
  unfold applyZoneChange
  split
  · split <;> exact .of_scu rfl
  · (repeat' split) <;> exact .of_scu rfl
  · split <;> exact .of_scu rfl
  · split
    · exact (releaseSlot_awake _ (s.setService z .idle)).between
    · exact .refl s
  · exact .refl s

theorem applyLeftService_awake (n : SlotId) (h : Holder) (s : State) : Awake s (applyLeftService n h s) := by
  unfold applyLeftService
  (repeat' split) <;> exact .of_scu rfl

theorem endHoldoff_awake (z : Zone) (s : State) : Awake s (endHoldoff z s) := by
  unfold endHoldoff
  split <;> exact .of_scu rfl

theorem applyStepEnd_awake (s : State) : Awake s (applyStepEnd s) := by
  unfold applyStepEnd
  split
  next => exact .refl s
  next => exact .of_scu rfl
  next n _ => exact (releaseSlot_awake n (s.setClaim .none)).between
  next n z _ =>
    dsimp only
    split
    · split
      next x given => exact (returnToZone_awake (s := s.setClaim .none) given).between
      next => exact .of_scu rfl
    · exact (releaseSlot_awake n ((s.setClaim .none).setService z .idle)).between

theorem applyEvent_awake (e : SarEvent) (s : State) : Awake s (applyEvent e s) := by
  unfold applyEvent
  split
  · exact ((applyZoneChange_awake ..).trans (applyZoneChange_awake ..)).trans (applyZoneChange_awake ..)
  · exact .refl s
  · exact applyLeftService_awake ..
  · exact endHoldoff_awake ..
  · split
    · exact ((endHoldoff_awake ..).trans (endHoldoff_awake ..)).trans (endHoldoff_awake ..)
    · exact .refl s
  · unfold applyHoldRequest
    split <;> exact .of_scu rfl
  · exact applyStepEnd_awake s
  · exact .refl s

theorem recordTake_awake (n : SlotId) (b : SlotState) (s : State) : Awake s (recordTake n b s) := by
  unfold recordTake
  dsimp only
  split <;> exact .of_scu rfl

theorem scanEntries_awake (low : Fin 16) (l : List SlotId) (s : State) : Awake s (scanEntries low l s) := by
  induction l with
  | nil => exact .of_scu rfl
  | cons n l ih =>
    rw [scanEntries]
    split
    · split
      next x taken => exact (takeForHold_awake taken).trans (recordTake_awake n (s.slot n).state x.1).between
      next => exact ih
    · exact ih

theorem holdScan_awake (s : State) : Awake s (holdScan s) := by
  unfold holdScan
  split
  · split
    · exact scanEntries_awake ..
    · exact scanEntries_awake ..
    · exact (scanEntries_awake _ _ s.useFree).between
  · exact .of_scu rfl

theorem grantEntries_awake (z : Zone) (l : List SlotId) (s : State) : Awake s (grantEntries z l s) := by
  induction l with
  | nil => exact .refl s
  | cons n l ih =>
    rw [grantEntries]
    split
    · split
      next x granted => exact (grantSlot_awake granted).trans (.of_scu rfl)
      next => exact ih
    · exact ih

theorem selectGrant_awake (z : Zone) (s : State) : Awake s (selectGrant z s) := by
  unfold selectGrant
  split
  · exact grantEntries_awake ..
  · exact .refl s

theorem evaluateOne_awake (e : SarEvent) (s : State) : Awake s (evaluateOne e s) := by
  have grants (t : State) : Awake t (selectGrant .low (selectGrant .mid (selectGrant .top t))) :=
    ((selectGrant_awake ..).trans (selectGrant_awake ..)).trans (selectGrant_awake ..)
  have applied := applyEvent_awake e s
  unfold evaluateOne
  dsimp only
  split
  · exact (applied.trans (holdScan_awake _)).trans (grants _)
  · exact applied.trans (grants _)

theorem settle_awake (k : Nat) (s : State) : Awake s (settle k s) := by
  have further (s : State) : Awake s (takeFurther s) := by
    unfold takeFurther
    split
    next => exact .refl s
    next n rest _ => exact (evaluateOne_awake _ { s with sar := { s.sar with further := rest } }).between
  induction k generalizing s with
  | zero => exact .refl s
  | succ k ih => exact (further s).trans (ih _)

theorem evaluate_awake (e : SarEvent) (s : State) : Awake s (evaluate e s) := (settle_awake _ s).trans (evaluateOne_awake ..)

theorem Sent.notify_awake (x : Sent) : Awake x.1 x.notify := by
  have each : ∀ (l : List ScuNotice) (s : State), Awake s (l.foldl (fun s n => evaluate (.scuNotice n) s) s) := by
    intro l
    induction l with
    | nil => exact fun s => .refl s
    | cons n l ih => exact fun s => (evaluate_awake _ s).trans (ih _)
  exact each x.2 x.1

/-! ### SOURCE_ENABLE and SOURCE_RESET (R86, R101, R144) -/

/-- Settles O38. -/
theorem sourceEnableAndResetAreJudgedByTheState : Obligations.SourceEnableAndResetAreJudgedByTheState := by
  refine ⟨fun s n b => ⟨fun slot takes => ?_, fun takes off => ?_, fun takes on => ?_, fun unknown takes => ?_⟩,
    fun s n b slot takes => ?_⟩
  · intro u
    have owner : ownerOf (.sourceEnable [b]) u = enableSlot n u := congrFun (onSlot_slot slot) u
    have slot_eq : u.slot n = s.slot n := State.taking_slot ..
    unfold enableSlot at owner
    dsimp only at owner
    rw [slot_eq] at owner
    split
    next refused => exact exec_owned rfl rfl takes (owner.trans (if_pos refused))
    next enables =>
    rw [if_neg enables] at owner
    split
    next diverter =>
      rw [if_pos diverter] at owner
      have slots := fun m => evaluateDiverter_slot n m (u.setSlotState n .idle)
      have quiet := (Quiet.setSlotState u n .idle).trans (evaluateDiverter_quiet n _)
      generalize evaluateDiverter n (u.setSlotState n .idle) = t at owner slots quiet
      refine ⟨_, exec_owned rfl rfl takes owner, rfl, ?_, fun m other => ?_, quiet.clm.trans (State.taking_clm ..)⟩
      · show (t.slot n).state = .idle ∨ (t.slot n).state = .diverting
        obtain h | ⟨-, -, -, r, st, h, idle | ⟨diverting, -⟩⟩ := slots n
        · rw [h]; simp
        · rw [h]; exact .inl idle
        · rw [h]; exact .inr diverting
      · obtain h | ⟨h, -⟩ := slots m
        · exact h.trans (by simp [other, u])
        · exact absurd h other
    next heating =>
    rw [if_neg heating] at owner
    split
    next rests =>
      rw [if_neg rests.ne'] at owner
      exact exec_owned rfl rfl takes owner
    next instant =>
      rw [if_pos (Nat.eq_zero_of_not_pos instant)] at owner
      have held : ((u.setSlotState n (.hold (s.slot n).settings.minOff)).slot n).state = .hold (s.slot n).settings.minOff := by simp
      have expired : Awake (u.setSlotState n (.hold (s.slot n).settings.minOff))
          (expireHold n (u.setSlotState n (.hold (s.slot n).settings.minOff))).1 := by
        unfold expireHold
        split
        · exact .setSlotState (by split <;> simp)
        · exact .refl _
      have quiet : Quiet u (expireHold n (u.setSlotState n (.hold (s.slot n).settings.minOff))).1 := by
        refine (Quiet.setSlotState u n (.hold (s.slot n).settings.minOff)).trans ?_
        unfold expireHold
        split
        · exact .setSlotState ..
        · exact .refl _
      refine ⟨_, exec_owned rfl rfl takes owner, rfl, ?_, ?_⟩
      · exact (expired.trans (Sent.notify_awake _)).keep n (by rw [held]; simp)
      · exact (quiet.trans (Sent.notify_governed _).quiet).clm.trans (State.taking_clm ..)
  · have owner : ownerOf (.sourceEnable [0]) (s.taking 0x20 [0]) = accept [] (solarSwitch .off (s.taking 0x20 [0])) :=
      if_pos ((congrArg Slc.state (State.taking_slc ..)).trans off)
    have switched := solarSwitch_slc .off (s.taking 0x20 [0])
    refine ⟨_, exec_owned (c := .sourceEnable [0]) rfl rfl takes owner, congrArg Slc.state switched, congrArg Slc.speed switched, ?_, rfl⟩
    exact (congrArg Slc.settings switched).trans (congrArg Slc.settings (State.taking_slc s 0x20 [0]) :)
  · have owner : ownerOf (.sourceEnable [0]) (s.taking 0x20 [0]) = refuse .refused (s.taking 0x20 [0]) :=
      if_neg (fun h => on ((congrArg Slc.state (State.taking_slc ..)).symm.trans h))
    exact exec_owned (c := .sourceEnable [0]) rfl rfl takes owner
  · exact exec_owned (c := .sourceEnable [b]) rfl rfl takes (congrFun (onSlot_unknown unknown) _)
  · have owner : ownerOf (.sourceReset [b]) (s.taking 0x22 [b]) = resetSlot n (s.taking 0x22 [b]) := congrFun (onSlot_slot slot) _
    unfold resetSlot at owner
    dsimp only at owner
    rw [State.taking_slot] at owner
    split
    next tripped => exact exec_owned (c := .sourceReset [b]) rfl rfl takes (owner.trans (if_pos tripped))
    next other => exact exec_owned (c := .sourceReset [b]) rfl rfl takes (owner.trans (if_neg other))

end Sys2Proof.Machine
end

section
/-! PROOFS. LINK_LAPSE and the restarts: the obligations of chapter 11, sections 11.6 and 11.7. -/

namespace Sys2Proof.Machine

/-! ### LINK_LAPSE (R194) -/

theorem unboosted_zone (l : List Zone) (s : State) (z : Zone) :
    ((l.foldl (fun t z => t.setZone z { t.zone z with boost := none }) s).zone z).boost =
      if z ∈ l then none else (s.zone z).boost := by
  induction l generalizing s with
  | nil => simp
  | cons y l ih =>
    rw [List.foldl_cons, ih]
    by_cases later : z ∈ l
    · simp [later]
    · by_cases here : z = y <;> simp [later, here]

/-- With all zones named no boost is left (R77). -/
theorem cancelBoosts_boost (s : State) (z : Zone) : ((cancelBoosts allZones s).zone z).boost = none := by
  unfold cancelBoosts
  split
  next idle =>
    have absent := List.filter_eq_nil_iff.1 idle z (mem_allZones z)
    simpa using absent
  next =>
    have once : (allZones.filter fun z => (s.zone z).boost.isSome).Nodup := (by decide : allZones.Nodup).filter _
    rw [evaluateZones_zone once]
    have gone := unboosted_zone (allZones.filter fun z => (s.zone z).boost.isSome) s z
    split
    · rw [judge_boost, gone]; simp_all
    next out =>
      rw [gone, if_neg out]
      simpa [mem_allZones] using out

/-- Settles O23. -/
theorem linkLapseReturnsTheBlockToItself : Obligations.LinkLapseReturnsTheBlockToItself := by
  intro s r running
  set u := s.setMpt { s.mpt with supervision := none } with hu
  set v := releaseAllLines (report .linkLapse .none u) with hv
  set w := cancelBoosts allZones v with hw
  have lapse : exec .linkLapse s = .next (setSurplus 0 none w) := by
    show execLinkLapse s = _
    unfold execLinkLapse
    rw [running]
  have inner : Inner u (setSurplus 0 none w) := linkLapse_inner u
  have cancelled : Quiet v w := cancelBoosts_quiet allZones v
  have judged := evaluateDiverters_quiet { w with scu := { w.scu with surplus := 0, surplusTimer := none } }
  obtain ⟨figure, timer, port⟩ := setSurplus_scu 0 none w
  refine ⟨_, lapse, ?_, ?_, fun i => ?_, fun z => ?_, figure, timer, inner.pfe, inner.confirm, ?_⟩
  · exact (port.trans cancelled.mpt).trans (report_mpt .linkLapse .none u)
  · have flt : (setSurplus 0 none w).flt = (report .linkLapse .none u).flt := judged.flt.trans cancelled.flt
    rw [flt, report_status]
    rfl
  · refine (judged.modes i).trans ((cancelled.modes i).trans ?_)
    exact (congrArg Line.mode (tabulate_get ..)).trans (Line.drive_mode ..)
  · have zones : (setSurplus 0 none w).zdu = w.zdu := evaluateDiverters_zdu _
    have zone : (setSurplus 0 none w).zone z = w.zone z := congrArg (fun u : Zdu => u.zones.get z) zones
    rw [zone]
    exact cancelBoosts_boost v z
  · exact inner.settings.trans (setMpt_settings s _ rfl)

/-! ### What one slot's start or stop moves (R90, R98)

One slot, its call line and its pump line. -/

/-- From `s` to `t` slot `n` and the lines of slot `n` are all that moved. -/
structure OneSlot (n : SlotId) (s t : State) : Prop where
  quiet : Quiet s t
  zdu : t.zdu = s.zdu
  sar : t.sar = s.sar
  others : ∀ m, m ≠ n → t.slot m = s.slot m
  functions : ∀ i : Fin 8, t.olu[i].function = s.olu[i].function
  lines : ∀ i : Fin 8, s.olu[i].function ≠ .sourceCall n → s.olu[i].function ≠ .sourcePump n → t.olu[i] = s.olu[i]

theorem OneSlot.refl (n : SlotId) (s : State) : OneSlot n s s :=
  ⟨.refl s, rfl, rfl, fun _ _ => rfl, fun _ => rfl, fun _ _ _ => rfl⟩

theorem OneSlot.trans {n : SlotId} {s t u : State} (h : OneSlot n s t) (k : OneSlot n t u) : OneSlot n s u :=
  ⟨h.quiet.trans k.quiet, k.zdu.trans h.zdu, k.sar.trans h.sar, fun m other => (k.others m other).trans (h.others m other),
    fun i => (k.functions i).trans (h.functions i), fun i call pump =>
      (k.lines i (by rwa [h.functions]) (by rwa [h.functions])).trans (h.lines i call pump)⟩

theorem OneSlot.setSlot (n : SlotId) (x : Slot) (s : State) : OneSlot n s (s.setSlot n x) :=
  ⟨.setSlot s n x, rfl, rfl, fun m other => by simp [other], fun _ => rfl, fun _ _ _ => rfl⟩

theorem OneSlot.setSlotState (n : SlotId) (x : SlotState) (s : State) : OneSlot n s (s.setSlotState n x) := .setSlot ..

theorem askLine_oneSlot {n : SlotId} {f : LineFunction} (own : f = .sourceCall n ∨ f = .sourcePump n) (v : Nat) (s : State) :
    OneSlot n s (askLine f v s) where
  quiet := (askLine_governed f v s).quiet
  zdu := (askLine_governed f v s).zdu
  sar := askLine_sar f v s
  others m _ := askLine_slot f v s m
  functions i := ((askLine_governed f v s).lines i).1
  lines i call pump := askLine_other v (by rcases own with rfl | rfl <;> assumption)

theorem askCall_oneSlot (n : SlotId) (b : Bool) (s : State) : OneSlot n s (askCall n b s) := askLine_oneSlot (.inl rfl) ..
theorem askPump_oneSlot (n : SlotId) (b : Bool) (s : State) : OneSlot n s (askPump n b s) := askLine_oneSlot (.inr rfl) ..

theorem linesOff_oneSlot (n : SlotId) (s : State) : OneSlot n s (linesOff n s) :=
  (askCall_oneSlot n false s).trans (askPump_oneSlot n false _)

theorem stopSlot_oneSlot (n : SlotId) (off : Nat) (s : State) : OneSlot n s (stopSlot n off s) := by
  unfold stopSlot
  dsimp only
  split
  · exact (askCall_oneSlot n false s).trans (.setSlotState ..)
  · exact ((askCall_oneSlot n false s).trans (askPump_oneSlot n false _)).trans (.setSlotState ..)

theorem ceilingTest_oneSlot (n : SlotId) (s : State) : OneSlot n s (ceilingTest n s).1 := by
  unfold ceilingTest
  dsimp only
  split
  · split
    · exact stopSlot_oneSlot ..
    · exact .refl n s
  · exact .refl n s

theorem completeRun_oneSlot (n : SlotId) (s : State) : OneSlot n s (completeRun n s).1 := by
  unfold completeRun
  dsimp only
  split
  · exact (OneSlot.setSlot ..).trans (stopSlot_oneSlot ..)
  · exact (OneSlot.setSlot ..).trans (ceilingTest_oneSlot ..)
  · exact .refl n s

theorem enterRunning_oneSlot (n : SlotId) (h : Holder) (s : State) : OneSlot n s (enterRunning n h s).1 := by
  unfold enterRunning
  dsimp only
  split
  · exact (OneSlot.setSlotState ..).trans (completeRun_oneSlot ..)
  · exact .setSlotState ..

theorem endDwell_oneSlot (n : SlotId) (s : State) : OneSlot n s (endDwell n s).1 := by
  unfold endDwell
  split
  · split
    · exact .setSlotState ..
    · exact enterRunning_oneSlot ..
  · exact .refl n s

theorem startSlot_oneSlot (n : SlotId) (o : StartOrigin) (h : Holder) (s : State) : OneSlot n s (startSlot n o h s).1 := by
  unfold startSlot
  dsimp only
  generalize (s.slot n).settings.startDwell + (if o = .cold then (s.slot n).settings.coldExtra else 0) = d
  have started : OneSlot n s (askPump n true (askCall n true (s.setSlotState n (.starting o .dwell d h)))) :=
    (OneSlot.setSlotState ..).trans ((askCall_oneSlot ..).trans (askPump_oneSlot ..))
  split
  · exact started.trans (endDwell_oneSlot ..)
  · exact started

theorem grantSlot_oneSlot {n : SlotId} {z : Zone} {s : State} {x : Sent} (h : grantSlot n z s = some x) :
    OneSlot n s x.1 ∧ (s.slot n).cls.heating = true ∧
      ((s.slot n).state = .cold ∨ (∃ w, (s.slot n).state = .warm w) ∨ ∃ r, (s.slot n).state = .running r none) := by
  unfold grantSlot at h
  split at h
  next opens =>
    have heating : (s.slot n).cls.heating = true := by simp_all
    split at h
    next w warm => cases h; exact ⟨startSlot_oneSlot .., heating, .inr (.inl ⟨w, warm⟩)⟩
    next cold => cases h; exact ⟨startSlot_oneSlot .., heating, .inl cold⟩
    next r runs => cases h; exact ⟨.setSlotState .., heating, .inr (.inr ⟨r, runs⟩)⟩
    next => cases h
  next => cases h

/-! ### Grants to services that waited (R116)

With no slot RUNNING, each service that waited waits on or is SERVING a slot that was COLD or WARM; a slot no service was
granted stands, and so do its lines. -/

/-- What grants make of `b`, whose slots are none of them RUNNING. -/
structure Granting (b t : State) : Prop where
  governed : Governed b t
  claim : t.sar.claim = b.sar.claim
  answers : t.sar.answers = b.sar.answers
  services : ∀ z, t.service z = b.service z ∨ b.service z = .waiting ∧ ∃ n, t.service z = .serving n ∧
    (b.slot n).cls.heating = true ∧ ((b.slot n).state = .cold ∨ ∃ w, (b.slot n).state = .warm w)
  slots : ∀ n, (∀ z, t.service z ≠ .serving n) → t.slot n = b.slot n
  lines : ∀ i : Fin 8, (∀ n, b.olu[i].function = .sourceCall n ∨ b.olu[i].function = .sourcePump n →
    ∀ z, t.service z ≠ .serving n) → t.olu[i] = b.olu[i]

theorem Granting.refl (b : State) : Granting b b :=
  ⟨.refl b, rfl, rfl, fun _ => .inl rfl, fun _ _ => rfl, fun _ _ => rfl⟩

theorem Granting.grantEntries {b t : State} (h : Granting b t) (calm : ∀ n r x, (b.slot n).state ≠ .running r x) {z : Zone}
    (waits : t.service z = .waiting) (l : List SlotId) : Granting b (grantEntries z l t) := by
  induction l with
  | nil => exact h
  | cons n l ih =>
    have governed := h.governed.trans (grantEntries_governed z (n :: l) t)
    rw [Machine.grantEntries] at governed ⊢
    split
    next candidate =>
      rw [if_pos candidate] at governed
      split
      next x granted =>
        rw [granted] at governed
        have unnamed (y : Zone) : t.service y ≠ .serving n := by
          intro serves
          simp only [State.candidate, Bool.and_eq_true, Bool.not_eq_true', List.any_eq_false] at candidate
          exact candidate.1.2 y (mem_allZones y) (by simp [serves, Service.names])
        have stood : t.slot n = b.slot n := h.slots n unnamed
        obtain ⟨moved, heating, rested⟩ := grantSlot_oneSlot granted
        rw [stood] at heating rested
        have rested : (b.slot n).state = .cold ∨ ∃ w, (b.slot n).state = .warm w := by
          rcases rested with cold | warm | ⟨r, runs⟩
          · exact .inl cold
          · exact .inr warm
          · exact absurd runs (calm n r _)
        have waited : b.service z = .waiting := by
          rcases h.services z with same | ⟨waited, -⟩
          · exact same ▸ waits
          · exact waited
        have service (y : Zone) : ((x.1.setService z (.serving n)).deferNotices x.2).service y =
            if y = z then .serving n else t.service y := by
          have kept : x.1.service y = t.service y := congrArg (fun a : Sar => a.services.get y) moved.sar
          exact (State.service_setService ..).trans (by rw [kept])
        have unserved {m : SlotId} (free : ∀ y, (if y = z then .serving n else t.service y) ≠ Service.serving m) :
            m ≠ n ∧ ∀ y, t.service y ≠ .serving m := by
          refine ⟨fun same => free z (by simp [same]), fun y serves => ?_⟩
          by_cases here : y = z
          · rw [here, waits] at serves; cases serves
          · exact free y (by rw [if_neg here]; exact serves)
        refine ⟨governed, ?_, ?_, fun y => ?_, fun m free => ?_, fun i free => ?_⟩
        · exact (congrArg Sar.claim moved.sar).trans h.claim
        · exact (congrArg Sar.answers moved.sar).trans h.answers
        · rw [service]
          split
          next here => exact .inr ⟨here ▸ waited, n, rfl, heating, rested⟩
          next => exact h.services y
        · obtain ⟨other, before⟩ := unserved fun y => service y ▸ free y
          exact (moved.others m other).trans (h.slots m before)
        · have functions : t.olu[i].function = b.olu[i].function := (h.governed.lines i).1
          have none_of (m : SlotId) (carries : b.olu[i].function = .sourceCall m ∨ b.olu[i].function = .sourcePump m) :=
            unserved fun y => service y ▸ free m carries y
          refine (moved.lines i (fun call => ?_) fun pump => ?_).trans (h.lines i fun m carries => (none_of m carries).2)
          · exact (none_of n (.inl (functions ▸ call))).1 rfl
          · exact (none_of n (.inr (functions ▸ pump))).1 rfl
      next => exact ih
    next => exact ih

theorem Granting.selectGrant {b t : State} (h : Granting b t) (calm : ∀ n r x, (b.slot n).state ≠ .running r x) (z : Zone) :
    Granting b (selectGrant z t) := by
  unfold Machine.selectGrant
  split
  next waits => exact h.grantEntries calm waits.1 _
  next => exact h

/-! ### The demand raised afresh after a restart (R78, R114) -/

theorem State.setService_same (s : State) (z : Zone) : s.setService z (s.service z) = s := by cases z <;> rfl

/-- An IDLE service and a loop that is not in RUN: what a raised demand makes is WAITING (R114). -/
theorem applyZoneChange_idle {z : Zone} {s : State} (idle : s.service z = .idle) (sun : s.slc.state ≠ .run) (c : ZoneChange) :
    applyZoneChange z c s = s.setService z (if c.raised then .waiting else .idle) := by
  have open_ : s.solarPriority z = false := by simp [State.solarPriority, sun]
  unfold applyZoneChange
  rw [idle]
  cases c.raised with
  | true => simp [raiseDemand, open_]
  | false => exact ((congrArg (s.setService z) idle.symm).trans (s.setService_same z)).symm

/-- The arbiter as a restart leaves it, and a block in which nothing runs. -/
structure Fresh (b : State) : Prop where
  idle : ∀ z, b.service z = .idle
  claim : b.sar.claim = .none
  answers : b.sar.answers = []
  further : b.sar.further = []
  sun : b.slc.state ≠ .run
  calm : ∀ n r x, (b.slot n).state ≠ .running r x

/-- The arbiter with the services of raised demands WAITING. -/
structure Raised (b : State) (raised : Zone → Bool) (v : State) : Prop where
  service : ∀ z, v.service z = if raised z then .waiting else .idle
  claim : v.sar.claim = .none
  answers : v.sar.answers = []
  slots : ∀ n, v.slot n = b.slot n
  olu : v.olu = b.olu

theorem applyZoneNotice_fresh {b : State} (h : Fresh b) (c : PerZone ZoneChange) :
    Raised b (fun z => (c.get z).raised) (applyEvent (.zoneNotice c) b) := by
  have event : applyEvent (.zoneNotice c) b =
      ((b.setService .top (if c.top.raised then .waiting else .idle)).setService .mid
        (if c.mid.raised then .waiting else .idle)).setService .low (if c.low.raised then .waiting else .idle) := by
    unfold applyEvent
    dsimp only
    rw [applyZoneChange_idle (h.idle .top) h.sun]
    generalize (if c.top.raised then Service.waiting else .idle) = top
    have mid : (b.setService .top top).service .mid = .idle := h.idle .mid
    rw [applyZoneChange_idle mid h.sun]
    have low : ((b.setService .top top).setService .mid (if c.mid.raised then .waiting else .idle)).service .low = .idle :=
      h.idle .low
    rw [applyZoneChange_idle low h.sun]
  rw [event]
  exact ⟨fun z => by cases z <;> rfl, h.claim, h.answers, fun _ => rfl, rfl⟩

theorem evaluate_zoneNotice_fresh {b : State} (h : Fresh b) (c : PerZone ZoneChange) :
    ∃ v, Raised b (fun z => (c.get z).raised) v ∧ Granting v (evaluate (.zoneNotice c) b) := by
  have raised := applyZoneNotice_fresh h c
  refine ⟨_, raised, ?_⟩
  have calm (n : SlotId) (r : Nat) (x : Option Holder) : ((applyEvent (.zoneNotice c) b).slot n).state ≠ .running r x := by
    rw [raised.slots]; exact h.calm n r x
  unfold evaluate evaluateOne
  rw [State.settled_of_further h.further]
  dsimp only
  rw [if_neg (by rw [raised.claim]; simp)]
  exact (((Granting.refl _).selectGrant calm .top).selectGrant calm .mid).selectGrant calm .low

/-- The three zones evaluated together: judged, and their notice taken when something changed (R71 to R75). -/
theorem evaluateAllZones_eq (b : State) :
    let change (z : Zone) := zoneChange (none == some z) (b.zone z) ((judgeZones allZones b).zone z)
    evaluateAllZones b =
      if allZones.all fun z => (change z).isEmpty then judgeZones allZones b
      else evaluate (.zoneNotice ⟨change .top, change .mid, change .low⟩) (judgeZones allZones b) := rfl

/-- Every zone evaluated from cleared flags: the services of the raised demands wait, and are granted slots (R78). -/
theorem evaluateAllZones_fresh {b : State} (h : Fresh b) (cleared : ∀ z, (b.zone z).demand = false) :
    ∃ v, Raised b (fun z => ((b.zone z).judge (b.zoneMinimum z)).demand) v ∧ Granting v (evaluateAllZones b) := by
  have zone (z : Zone) : (judgeZones allZones b).zone z = (b.zone z).judge (b.zoneMinimum z) := by
    rw [judgeZones_zone (by decide), if_pos (mem_allZones z)]
  have raised (z : Zone) : (zoneChange (none == some z) (b.zone z) ((judgeZones allZones b).zone z)).raised =
      ((b.zone z).judge (b.zoneMinimum z)).demand := by simp [zoneChange, zone, cleared]
  have fresh : Fresh (judgeZones allZones b) := ⟨h.idle, h.claim, h.answers, h.further, h.sun, h.calm⟩
  rw [evaluateAllZones_eq]
  dsimp only
  split
  next quiet =>
    refine ⟨judgeZones allZones b, ⟨fun z => ?_, h.claim, h.answers, fun _ => rfl, rfl⟩, .refl _⟩
    have unmoved := List.all_eq_true.1 quiet z (mem_allZones z)
    have still : ((b.zone z).judge (b.zoneMinimum z)).demand = false := by
      rw [← raised]
      simp only [ZoneChange.isEmpty, Bool.and_eq_true, Bool.not_eq_true'] at unmoved
      exact unmoved.1.1.1.1.1
    rw [still]
    exact h.idle z
  next =>
    obtain ⟨v, raise, grant⟩ := evaluate_zoneNotice_fresh fresh _
    refine ⟨v, ⟨fun z => (raise.service z).trans ?_, raise.claim, raise.answers, raise.slots, raise.olu⟩, grant⟩
    rw [← raised]
    cases z <;> rfl

/-! ### The warm restart (R196, R78, R108, R127, R175) -/

/-- A line as a restart leaves it, whose contact rests when `rests` holds (R175). -/
def Line.restarted (rests : Bool) (l : Line) : Line :=
  { l with mode := .auto, auto := 0, output := 0, deferred := false, recovery := if rests then some l.recoveryTime else none }

theorem Line.atRestart_eq (relay : Bool) (l : Line) :
    l.atRestart relay = l.restarted (relay && decide (l.recoveryTime ≠ 0)) := by
  unfold Line.atRestart Line.startRecovery Line.restarted
  cases relay <;> by_cases h : l.recoveryTime = 0 <;> simp [h]

/-- Asking off a line that is off changes nothing. -/
theorem Line.restarted_drive_off (relay rests : Bool) (l : Line) :
    (l.restarted rests).drive relay (l.restarted rests).mode 0 = l.restarted rests := by
  simp [Line.restarted, Line.drive, Line.follow, Line.target]

/-- The line asked on, which waits for the end of its rest. -/
theorem Line.restarted_drive_on (relay : Bool) (l : Line) :
    let rests := relay && decide (l.recoveryTime ≠ 0)
    (l.restarted rests).drive relay (l.restarted rests).mode 100 =
      { l.restarted rests with auto := 100, output := if rests then 0 else 100, deferred := rests } := by
  cases relay <;> by_cases h : l.recoveryTime = 0 <;> simp [Line.restarted, Line.drive, Line.follow, Line.target, h]

/-- The lines after a warm restart: off, but for the alert relay's (R175). -/
theorem oluWarmRestart_line (s : State) (i : Fin 8) :
    let rests := isRelay i && decide (s.olu[i].recoveryTime ≠ 0)
    (s.olu[i].function ≠ .alertRelay ∨ s.flt.relayCondition = false → (oluWarmRestart s).olu[i] = s.olu[i].restarted rests) ∧
      (s.flt.relayCondition = true → s.carrier .alertRelay = some i → (oluWarmRestart s).olu[i] =
        { s.olu[i].restarted rests with auto := 100, output := if rests then 0 else 100, deferred := rests }) := by
  intro rests
  set t : State := { s with olu := tabulate fun i => s.olu[i].atRestart (isRelay i) } with ht
  have line (j : Fin 8) : t.olu[j] = s.olu[j].restarted (isRelay j && decide (s.olu[j].recoveryTime ≠ 0)) := by
    rw [ht, tabulate_get, Line.atRestart_eq]
  have carrier : t.carrier .alertRelay = s.carrier .alertRelay := by
    simp only [State.carrier, line, Line.restarted]
  have asked : oluWarmRestart s = askLine .alertRelay (onOff s.flt.relayCondition) t := rfl
  rw [asked]
  refine ⟨fun off => ?_, fun on carries => ?_⟩
  · unfold askLine
    split
    next => exact line i
    next j carries =>
      rw [State.olu_setLine]
      split
      next here =>
        have function : s.olu[i].function = .alertRelay := here ▸ carrier_function (carrier ▸ carries)
        rcases off with other | quiet
        · exact absurd function other
        · rw [quiet, here, line]
          exact Line.restarted_drive_off ..
      next => exact line i
  · unfold askLine
    rw [carrier, carries]
    dsimp only
    rw [State.olu_setLine, if_pos rfl, on, line]
    exact Line.restarted_drive_on ..

/-- The blocks after their own parts of a warm restart, the lines and the zones still to come (R196). -/
def State.blocksRestarted (s : State) : State :=
  { s with
    clm := s.clm.warmRestart
    fmu := s.fmu.warmRestart
    scu := s.scu.warmRestart
    sar := s.sar.warmRestart
    slc := s.slc.warmRestart
    ths := s.ths.warmRestart
    mpt := s.mpt.dropAll.loadSupervision }

/-- The block as a warm restart has it before the zones are evaluated (R78, R108, R127, R175). -/
def State.restarted (s : State) : State :=
  let t := oluWarmRestart s.blocksRestarted
  let reset (z : ZoneRec) : ZoneRec := { z with demand := false, urgent := false, boost := none }
  { t with zdu := { t.zdu with zones := ⟨reset t.zdu.zones.top, reset t.zdu.zones.mid, reset t.zdu.zones.low⟩ } }

theorem warmRestart_eq (s : State) : warmRestart s = evaluateAllZones s.restarted := rfl

theorem oluWarmRestart_governed (s : State) :
    Governed { s with olu := tabulate fun i => s.olu[i].atRestart (isRelay i) } (oluWarmRestart s) := askLine_governed ..

theorem State.restarted_slot (s : State) (n : SlotId) : s.restarted.slot n = (s.slot n).warmRestart := by
  refine (askLine_slot .alertRelay (onOff s.flt.relayCondition) _ n).trans ?_
  cases n <;> rfl

theorem State.restarted_zone (s : State) (z : Zone) :
    s.restarted.zone z = { s.zone z with demand := false, urgent := false, boost := none } := by
  have kept : (oluWarmRestart s.blocksRestarted).zdu = s.zdu := (oluWarmRestart_governed _).zdu
  cases z <;> simp only [State.restarted, State.zone, PerZone.get, kept]

theorem oluWarmRestart_kept (s : State) (i : Fin 8) :
    (oluWarmRestart s).olu[i].function = s.olu[i].function ∧ (oluWarmRestart s).olu[i].recoveryTime = s.olu[i].recoveryTime ∧
      (oluWarmRestart s).olu[i].mode = .auto := by
  obtain ⟨function, mode, recovery⟩ := (oluWarmRestart_governed s).lines i
  simp only [tabulate_get, Line.atRestart_function, Line.atRestart_mode, Line.atRestart_recoveryTime] at function mode recovery
  exact ⟨function, recovery, mode⟩

theorem oluWarmRestart_sar (s : State) : (oluWarmRestart s).sar = s.sar := askLine_sar ..

theorem State.restarted_fresh (s : State) : Fresh s.restarted := by
  have lines := oluWarmRestart_governed s.blocksRestarted
  have sar : s.restarted.sar = s.sar.warmRestart := oluWarmRestart_sar s.blocksRestarted
  have slc : s.restarted.slc = s.slc.warmRestart := lines.slc
  refine ⟨fun z => ?_, by rw [sar]; rfl, by rw [sar]; rfl, by rw [sar]; rfl, ?_, fun n r x => ?_⟩
  · have service : s.restarted.service z = s.sar.warmRestart.services.get z := congrArg (fun a : Sar => a.services.get z) sar
    rw [service]
    cases z <;> rfl
  · rw [slc]
    unfold Slc.warmRestart
    dsimp only
    split <;> simp
  · rw [State.restarted_slot]
    unfold Slot.warmRestart
    cases state : (s.slot n).state with
    | overrun r o p => cases p <;> simp
    | _ => simp

/-- A slot that may be granted after a warm restart stood COLD or WARM before it. -/
theorem Slot.warmRestart_rested {x : Slot} (h : x.warmRestart.state = .cold ∨ ∃ w, x.warmRestart.state = .warm w) :
    x.state = .cold ∨ ∃ w, x.state = .warm w := by
  unfold Slot.warmRestart at h
  cases state : x.state with
  | overrun r o p => cases p <;> simp [state] at h
  | _ => simp_all

theorem judge_cleared (m : Option Int) (x : ZoneRec) :
    ZoneRec.judge m { x with demand := false, urgent := false, boost := none } =
      { x with
        boost := none
        demand := m.any fun m => decide (x.target ≠ 0 ∧ m < x.target - x.hysteresis)
        urgent := m.any fun m => decide (0 < x.target ∧ m < x.target - x.hysteresis - x.urgentMargin) } := by
  cases m with
  | none => simp [ZoneRec.judge]
  | some m => by_cases h : x.target = 0 <;> simp [ZoneRec.judge, h, Bool.decide_and]

/-- Settles O25. -/
theorem warmRestartKeepsWhatItMust : Obligations.WarmRestartKeepsWhatItMust := by
  intro s r reply due
  have run : exec .replySent s = .next (warmRestart s) := by
    show execReplySent s = _
    unfold execReplySent
    rw [reply, due]
  have lines := oluWarmRestart_governed s.blocksRestarted
  have quiet : Quiet s.restarted (warmRestart s) := evaluateAllZones_quiet s.restarted
  have minimum (z : Zone) : s.restarted.zoneMinimum z = s.zoneMinimum z := by
    have clm : s.restarted.clm = s.clm.warmRestart := lines.clm
    simp only [State.zoneMinimum, clm]
    rfl
  have zone (z : Zone) : (warmRestart s).zone z = (s.restarted.zone z).judge (s.restarted.zoneMinimum z) := by
    rw [warmRestart_eq, evaluateAllZones, evaluateZones_zone (by decide), if_pos (mem_allZones z)]
  obtain ⟨v, raised, grant⟩ := evaluateAllZones_fresh s.restarted_fresh fun z => by rw [State.restarted_zone]
  rw [← warmRestart_eq] at grant
  have slots (n : SlotId) (free : ∀ z, (warmRestart s).service z ≠ .serving n) :
      (warmRestart s).slot n = (s.slot n).warmRestart :=
    (grant.slots n free).trans ((raised.slots n).trans (s.restarted_slot n))
  have scu : (warmRestart s).scu = { s.scu with surplus := 0, surplusTimer := none, slots := (warmRestart s).scu.slots } := by
    refine quiet.scu.trans ?_
    have scu : s.restarted.scu = { s.scu.warmRestart with slots := s.restarted.scu.slots } := lines.scu
    rw [scu]
    rfl
  have settings := warmRestart_settings s
  refine ⟨warmRestart s, run, settings, quiet.pending.trans lines.pending, quiet.mpt.trans lines.mpt, quiet.clm.trans lines.clm,
    quiet.pfe.trans lines.pfe, quiet.fmu.trans lines.fmu, fun z => ?_, fun z => ?_, ⟨?_, ?_⟩, fun n free => ?_, scu,
    quiet.slc.trans (lines.slc.trans ?_), quiet.ths.trans lines.ths, quiet.flt.trans lines.flt, quiet.pins.trans lines.pins, fun i => ?_⟩
  · rw [zone, minimum, State.restarted_zone, judge_cleared]
  · have demand : ((s.restarted.zone z).judge (s.restarted.zoneMinimum z)).demand = ((warmRestart s).zone z).demand := by rw [zone]
    have before := raised.service z
    rw [demand] at before
    obtain same | ⟨waited, n, serves, heating, rested⟩ := grant.services z
    · split
      next on => exact .inl (by rw [same, before, if_pos on])
      next off => rw [same, before, if_neg off]
    · split
      next on =>
        rw [raised.slots, State.restarted_slot] at heating rested
        exact .inr ⟨n, serves, heating, Slot.warmRestart_rested rested⟩
      next off => rw [before, if_neg off] at waited; cases waited
  · exact grant.claim.trans raised.claim
  · exact grant.answers.trans raised.answers
  · rw [slots n free]
    unfold Slot.warmRestart
    cases state : (s.slot n).state with
    | overrun r o p => cases p <;> rfl
    | _ => rfl
  · rfl
  · have olu : v.olu = (oluWarmRestart s.blocksRestarted).olu := raised.olu
    have functions : v.olu[i].function = s.olu[i].function := by
      rw [olu]
      exact (oluWarmRestart_kept s.blocksRestarted i).1
    have kept (free : ∀ n, s.olu[i].function = .sourceCall n ∨ s.olu[i].function = .sourcePump n →
        ∀ z, (warmRestart s).service z ≠ .serving n) : (warmRestart s).olu[i] = (oluWarmRestart s.blocksRestarted).olu[i] := by
      refine (grant.lines i (by rw [functions]; exact free)).trans ?_
      rw [olu]
    obtain ⟨off, on⟩ := oluWarmRestart_line s.blocksRestarted i
    refine ⟨⟨?_, ?_, ?_⟩, ?_⟩
    · exact (grant.governed.lines i).1.trans functions
    · refine (grant.governed.lines i).2.2.trans ?_
      rw [olu]
      exact (oluWarmRestart_kept s.blocksRestarted i).2.1
    · exact (quiet.modes i).trans (oluWarmRestart_kept s.blocksRestarted i).2.2
    · have own {f : LineFunction} (function : s.olu[i].function = f) (other : f ≠ .alertRelay) :=
        off (.inl (function.trans_ne other))
      cases function : s.olu[i].function with
      | sourceCall n =>
        rw [function] at kept
        exact fun free => (kept fun m carries => by obtain h | h := carries <;> cases h; exact free).trans (own function nofun)
      | sourcePump n =>
        rw [function] at kept
        exact fun free => (kept fun m carries => by obtain h | h := carries <;> cases h; exact free).trans (own function nofun)
      | alertRelay =>
        rw [function] at kept
        have kept := kept (by rintro m (⟨⟨⟩⟩ | ⟨⟨⟩⟩))
        exact ⟨fun quiet => kept.trans (off (.inr quiet)), fun set carries => kept.trans ((on set carries).trans (by rw [← function]; rfl))⟩
      | _ =>
        rw [function] at kept
        exact (kept (by rintro m (⟨⟨⟩⟩ | ⟨⟨⟩⟩))).trans (own function nofun)

/-! ### The cold restart (R196, R109, R175, R177) -/

theorem rejudge_unrelayed {s : State} (h : s.carrier .alertRelay = none) (f : Flt) :
    rejudge f s = { s with flt := f, pins := { s.pins with alertLow := f.pinCondition } } := by
  rw [rejudge_eq, rejudge_olu]
  have asked : askLine .alertRelay (onOff f.relayCondition) s = s := by simp only [askLine, h]
  rw [asked, ite_self]

/-- A report with no line on the alert relay moves the fault monitor and the pin (R178, R181). -/
theorem report_unrelayed {s : State} (h : s.carrier .alertRelay = none) (k : FaultKind) (x : Subject) :
    report k x s = { s with flt := (report k x s).flt, pins := (report k x s).pins } := by
  cases masked : (s.flt.kindRec k).masked with
  | true => rw [report_of_masked x masked]
  | false =>
    rw [report_of_unmasked x masked, rejudge_unrelayed h]

/-- A report of an unmasked kind sets the pin by the condition (R180). -/
theorem report_pins {k : FaultKind} {s : State} (x : Subject) (h : (s.flt.kindRec k).masked = false) :
    (report k x s).pins = { s.pins with alertLow := (report k x s).flt.pinCondition } := by
  rw [report_of_unmasked x h, rejudge_pins, rejudge_flt]

/-- The latch set while every slot is DISABLED stops none (R106). -/
theorem setLatch_still {s : State} (h : ∀ n, (s.slot n).state = .disabled) (c : Latch) (k : FaultKind) (x : Subject) :
    setLatch c k x s = (report k x { s with scu := { s.scu with latch := c } }, []) := by
  unfold setLatch
  dsimp only
  set r := report k x { s with scu := { s.scu with latch := c } } with hr
  have disabled (n : SlotId) : (r.slot n).state = .disabled := by
    have kept : r.slot n = s.slot n := report_slot ..
    rw [kept]; exact h n
  have unstopped (n : SlotId) : latchStop n r = (r, []) := by
    unfold latchStop
    dsimp only
    rw [disabled]
  have undiverted (n : SlotId) : evaluateDiverter n r = r := evaluateDiverter_still fun _ => disabled n
  simp [allSlots, Sent.andThen, unstopped, evaluateDiverters, undiverted]

/-- The blocks as a cold restart leaves them, with the fault policy still to be judged (R196). -/
def State.coldBlocks (s : State) : State :=
  rewriteAnchors <| oluColdRestart
    { s with
      clm := s.clm.coldRestart
      pfe := s.pfe.coldRestart
      fmu := State.reset.fmu
      zdu := State.reset.zdu
      scu := scuColdRestart s.mpt.lock s.pins.confirm s.scu
      sar := State.reset.sar
      slc := slcColdRestart s.mpt.lock s.slc
      ths := thsColdRestart s.mpt.lock s.ths
      mpt := { s.mpt.dropAll with interval := 0, supervision := none } }

theorem State.coldBlocks_line (s : State) (i : Fin 8) : s.coldBlocks.olu[i] = Line.powerOn (isRelay i) := by
  have line : (tabulate fun i => Line.powerOn (isRelay i))[i] = Line.powerOn (isRelay i) := tabulate_get ..
  exact line

theorem State.coldBlocks_unrelayed (s : State) : s.coldBlocks.carrier .alertRelay = none := by
  unfold State.carrier
  simp only [State.coldBlocks_line]
  decide +revert

theorem defaultMap_anchorAt (k : Fin 16) : ProbeMap.default.anchorAt k = State.reset.clm.layers[k].anchor := by
  revert k; decide +kernel

theorem State.coldBlocks_layer (s : State) (i : Fin 16) :
    s.coldBlocks.clm.layers[i] = { s.clm.layers[i] with residue := 0, anchor := State.reset.clm.layers[i].anchor } := by
  have anchored : s.coldBlocks.clm.layers[i] =
      { s.clm.coldRestart.layers[i] with anchor := ProbeMap.default.anchorAt i } := tabulate_get ..
  have unseeded : s.clm.coldRestart.layers[i] = { s.clm.layers[i] with residue := 0 } := tabulate_get ..
  rw [anchored, unseeded, defaultMap_anchorAt]

/-- The fault policy at its defaults (R177). -/
theorem Flt.defaultPolicy_kindRec (f : Flt) (k : FaultKind) :
    f.defaultPolicy.kindRec k =
      { f.kindRec k with
        masked := false
        trip := decide (k = .topProbeLost ∨ k = .cylinderOvertemp ∨ k = .sourceTripped) } := by
  have trip : defaultTrip (k.index.val + 1) = decide (k = .topProbeLost ∨ k = .cylinderOvertemp ∨ k = .sourceTripped) := by
    cases k <;> rfl
  rw [← trip]
  exact tabulate_get ..

/-- The FAULTED channel of the default TOP_LIMIT (R47). -/
def State.coldLost (s : State) : Bool := s.pfe.channels[2].isFaulted

/-- The fault monitor after a cold restart (R177, R179, R180). -/
structure ColdFlt (s : State) (f : Flt) : Prop where
  kinds : ∀ k, f.kindRec k =
    { s.flt.kindRec k with
      masked := false
      trip := decide (k = .topProbeLost ∨ k = .cylinderOvertemp ∨ k = .sourceTripped)
      status := (s.flt.kindRec k).status || (s.coldLost && decide (k = .topProbeLost))
      count :=
        if s.coldLost = true ∧ k = .topProbeLost then min 255 ((s.flt.kindRec k).count + 1) else (s.flt.kindRec k).count
      lastSubject := if s.coldLost = true ∧ k = .topProbeLost then .channel 2 else (s.flt.kindRec k).lastSubject }
  first : f.first =
    if s.coldLost = true ∧ s.flt.first = none then some ⟨.topProbeLost, .channel 2, s.flt.uptime⟩ else s.flt.first
  uptime : f.uptime = s.flt.uptime

/-- A cold restart: the blocks, the latch by the indication of the default map, and the fault monitor. -/
theorem coldRestart_eq (s : State) : ∃ f, ColdFlt s f ∧ coldRestart s =
    { s.coldBlocks with
      scu := { s.coldBlocks.scu with latch := if s.coldLost then .probeLost else .clear }
      flt := f
      pins := { s.pins with alertLow := f.pinCondition } } := by
  set d := rejudge s.flt.defaultPolicy s.coldBlocks with hd
  have judged : d = { s.coldBlocks with flt := s.flt.defaultPolicy, pins := { s.pins with alertLow := s.flt.defaultPolicy.pinCondition } } :=
    rejudge_unrelayed s.coldBlocks_unrelayed _
  have restart : coldRestart s = if d.pfe.topProbeLost then (topProbeIsLost d).notify else d := rfl
  have lost : d.pfe.topProbeLost = s.coldLost := by
    have channel : s.pfe.coldRestart.channels[(2 : Fin 12)] = { s.pfe.channels[(2 : Fin 12)] with trim := 0 } := tabulate_get ..
    rw [judged]
    exact (congrArg Channel.isFaulted channel :)
  rw [restart, lost]
  cases faulted : s.coldLost with
  | false =>
    refine ⟨s.flt.defaultPolicy, ⟨fun k => ?_, by simp [faulted, Flt.defaultPolicy], rfl⟩, judged⟩
    rw [Flt.defaultPolicy_kindRec]
    simp [faulted]
  | true =>
    set l : State := { d with scu := { d.scu with latch := .probeLost } } with hl
    have disabled (n : SlotId) : (d.slot n).state = .disabled := by rw [judged]; cases n <;> rfl
    have latch : d.scu.latch = .clear := by rw [judged]; rfl
    have told : (topProbeIsLost d).notify = report .topProbeLost (.channel 2) l := by
      have subject : d.pfe.topSubject = .channel 2 := by rw [judged]; rfl
      unfold topProbeIsLost
      rw [latch, subject]
      exact congrArg Sent.notify (setLatch_still disabled ..)
    have flt : l.flt = s.flt.defaultPolicy := congrArg State.flt judged
    have unmasked : (l.flt.kindRec .topProbeLost).masked = false := by rw [flt, Flt.defaultPolicy_kindRec]
    have unrelayed : l.carrier .alertRelay = none := by
      have lines : l.olu = s.coldBlocks.olu := (congrArg State.olu judged :)
      have carrier : l.carrier .alertRelay = s.coldBlocks.carrier .alertRelay := by simp only [State.carrier, lines]
      rw [carrier, State.coldBlocks_unrelayed]
    have whole := report_unrelayed unrelayed .topProbeLost (.channel 2)
    have pins : (report .topProbeLost (.channel 2) l).pins =
        { s.pins with alertLow := (report .topProbeLost (.channel 2) l).flt.pinCondition } := by
      have outside : l.pins.confirm = s.pins.confirm := (congrArg (fun t : State => t.pins.confirm) judged :)
      refine (report_pins _ unmasked).trans ?_
      generalize Flt.pinCondition _ = low
      exact congrArg (Pins.mk · low) outside
    refine ⟨(report .topProbeLost (.channel 2) l).flt, ⟨fun k => ?_, ?_, ?_⟩, ?_⟩
    · rw [report_kindRec, flt, Flt.defaultPolicy_kindRec, Flt.defaultPolicy_kindRec]
      by_cases top : k = .topProbeLost <;> simp [top, faulted, KindRec.report]
    · have first : l.flt.first = s.flt.first := (congrArg Flt.first flt :)
      have uptime : l.flt.uptime = s.flt.uptime := (congrArg Flt.uptime flt :)
      rw [report_first, unmasked, first, uptime]
      cases s.flt.first <;> simp [faulted]
    · rw [report_uptime, flt]; rfl
    · rw [if_pos rfl, told, whole, pins, hl, judged]
      rfl

/-- Settles O26. -/
theorem coldRestartKeepsWhatItMust : Obligations.ColdRestartKeepsWhatItMust := by
  intro s r reply due lost
  have run : exec .replySent s = .next (coldRestart s) := by
    show execReplySent s = _
    unfold execReplySent
    rw [reply, due]
  obtain ⟨f, flt, restarted⟩ := coldRestart_eq s
  rw [restarted] at run
  refine ⟨_, run, rfl, rfl, rfl, s.coldBlocks_layer, ⟨rfl, rfl, fun c => tabulate_get ..⟩, rfl, rfl, rfl, rfl, ?_, ?_, fun i => ?_,
    flt.kinds, flt.first, flt.uptime, rfl, rfl⟩
  · show slcColdRestart s.mpt.lock s.slc = _
    cases s.mpt.lock <;> rfl
  · show thsColdRestart s.mpt.lock s.ths = _
    cases s.mpt.lock <;> rfl
  · refine (s.coldBlocks_line i).trans ?_
    simp [Line.powerOn, isRelay]

end Sys2Proof.Machine
end

section
/-! PROOFS. The layer table: energy, mixing and counting (chapter 1), and what an update that completes leaves. -/

namespace Sys2Proof.Machine

/-! ### Energy, mixing and counting (R16 to R18, R28, R29, R31) -/

/-- Energy in a layer whose temperature stays in its range (R16). -/
theorem Layer.applyEnergy_within {u e : Int} {l : Layer} (low : 0 ≤ l.temp + (l.residue + e) / u)
    (high : l.temp + (l.residue + e) / u ≤ 1000) :
    l.applyEnergy u e =
      ({ l with temp := l.temp + (l.residue + e) / u, residue := l.residue + e - (l.residue + e) / u * u }, 0) := by
  unfold Layer.applyEnergy
  dsimp only
  rw [if_neg (by omega), if_neg (by omega)]

/-- Energy that a layer at 1000 dd hands back (R17). -/
theorem Layer.applyEnergy_above {u e : Int} {l : Layer} (h : 1000 < l.temp + (l.residue + e) / u) :
    l.applyEnergy u e =
      ({ l with temp := 1000, residue := 0 },
        (l.temp + (l.residue + e) / u - 1000) * u + (l.residue + e - (l.residue + e) / u * u)) := by
  unfold Layer.applyEnergy
  dsimp only
  rw [if_pos (by omega)]

/-- Energy taken from a layer that has no more (R18). -/
theorem Layer.applyEnergy_below {u e : Int} {l : Layer} (h : l.temp + (l.residue + e) / u < 0) :
    l.applyEnergy u e = ({ l with temp := 0, residue := 0 }, 0) := by
  unfold Layer.applyEnergy
  dsimp only
  rw [if_neg (by omega), if_pos (by omega)]

/-- A counter counts modulo its width (R31). -/
theorem EnergyCounter.add_total (c : EnergyCounter) (j : Int) :
    (c.add j).remainder < 1000 ∧
      1000 * (c.add j).kilojoules.toNat + (c.add j).remainder =
        (1000 * c.kilojoules.toNat + c.remainder + j.toNat) % (1000 * 2 ^ 32) := by
  have width := c.kilojoules.isLt
  simp only [EnergyCounter.add, BitVec.toNat_add, BitVec.toNat_ofNat]
  omega

theorem Layer.applyEnergy_conserves {u : Int} (e : Int) (l : Layer) (pos : 0 < u) :
    let x := l.applyEnergy u e
    (0 ≤ x.1.temp ∧ x.1.temp ≤ 1000) ∧ (0 ≤ x.1.residue ∧ x.1.residue < u) ∧ 0 ≤ x.2 ∧
      (0 ≤ l.temp * u + l.residue + e → x.1.temp * u + x.1.residue + x.2 = l.temp * u + l.residue + e) ∧
      (l.temp * u + l.residue + e < 0 → x.1.temp = 0 ∧ x.1.residue = 0 ∧ x.2 = 0) ∧
      x.1.anchor = l.anchor ∧ x.1.hotDwell = l.hotDwell ∧ x.1.holdAge = l.holdAge := by
  intro x
  have rest := Int.mul_ediv_add_emod (l.residue + e) u
  have least := Int.emod_nonneg (l.residue + e) pos.ne'
  have most := Int.emod_lt_of_pos (l.residue + e) pos
  obtain below | within | above : l.temp + (l.residue + e) / u < 0 ∨
      (0 ≤ l.temp + (l.residue + e) / u ∧ l.temp + (l.residue + e) / u ≤ 1000) ∨ 1000 < l.temp + (l.residue + e) / u := by
    omega
  · have applied : x = _ := Layer.applyEnergy_below below
    have short : l.temp * u + l.residue + e < 0 := by nlinarith
    rw [applied]
    exact ⟨⟨le_refl 0, by norm_num⟩, ⟨le_refl 0, pos⟩, le_refl 0, fun enough => absurd short (not_lt.2 enough),
      fun _ => ⟨rfl, rfl, rfl⟩, rfl, rfl, rfl⟩
  · have applied : x = _ := Layer.applyEnergy_within within.1 within.2
    have enough : 0 ≤ l.temp * u + l.residue + e := by nlinarith
    rw [applied]
    refine ⟨within, ⟨by linarith, by linarith⟩, le_refl 0, fun _ => by ring, fun short => absurd short (not_lt.2 enough), rfl, rfl, rfl⟩
  · have applied : x = _ := Layer.applyEnergy_above above
    have enough : 0 ≤ l.temp * u + l.residue + e := by nlinarith
    rw [applied]
    refine ⟨⟨by norm_num, le_refl _⟩, ⟨le_refl 0, pos⟩, ?_, fun _ => by ring, fun short => absurd short (not_lt.2 enough), rfl, rfl, rfl⟩
    dsimp only
    nlinarith

theorem blend_sum (l : List Int) : (blend l).sum = l.sum := by
  cases l with
  | nil => rfl
  | cons t l => exact (blendFrom_sum l t).trans (List.sum_cons).symm

/-- Settles O52. -/
theorem heatInTheTableIsAccountedFor : Obligations.HeatInTheTableIsAccountedFor := by
  refine ⟨fun u e l pos _ _ _ _ => ?_, fun a b l => rfl, fun l => ?_, fun c j _ => EnergyCounter.add_total c j⟩
  · exact ⟨Layer.applyEnergy_within, Layer.applyEnergy_above, Layer.applyEnergy_below, Layer.applyEnergy_conserves e l pos⟩
  · exact ⟨(order_perm _).sum_eq.trans (blend_sum l), (order_length _).trans (blend_length l), order_pairwise _, order_perm l⟩

/-! ### What a completed update leaves (R7) -/

/-- All that follows the derived values leaves the table, the counters and the fault monitor. -/
theorem finishUpdate_quiet (s : State) : Quiet (deriveValues s) (finishUpdate s) :=
  ((evaluateAllZones_quiet _).trans (scuUpdateCompleted_quiet _)).trans (Sent.notify_governed _).quiet

/-- The model after a completed update: the table mixed and put in order, and the three derived values (R7, R28 to R30). -/
theorem completeUpdate_clm (s : State) :
    (completeUpdate s).clm =
      { s.clm with
        layers := withTemperatures s.clm.layers (order (blend (temperatures s.clm.layers)))
        zoneMin := (completeUpdate s).clm.zoneMin
        usable := (completeUpdate s).clm.usable
        storedKj := (completeUpdate s).clm.storedKj } := by
  have clm := (finishUpdate_quiet (s.setLayers (withTemperatures s.clm.layers (order (blend (temperatures s.clm.layers)))))).clm
  have whole : (completeUpdate s).clm = _ := clm
  rw [whole]
  rfl

theorem completeUpdate_flt (s : State) : (completeUpdate s).flt = s.flt := (finishUpdate_quiet _).flt

theorem completeUpdate_layer (s : State) (i : Fin 16) :
    (completeUpdate s).clm.layers[i] =
      { s.clm.layers[i] with temp := (order (blend (temperatures s.clm.layers))).getD i.val 0 } := by
  have layers : (completeUpdate s).clm.layers = withTemperatures s.clm.layers (order (blend (temperatures s.clm.layers))) :=
    congrArg Clm.layers (completeUpdate_clm s)
  rw [layers]
  exact tabulate_get ..

theorem takeHeating_kindRec (h : Heating) (s : State) (k : FaultKind) :
    (takeHeating h s).flt.kindRec k =
      match h.first with
      | some i => if k = .modelClipped then s.reported .modelClipped (.layer i) else s.flt.kindRec k
      | none => s.flt.kindRec k := by
  unfold takeHeating
  cases h.first with
  | none => rfl
  | some i => exact (report_kindRec ..).trans (by rfl)

/-- Energy taken into the table of `u`, and the update completed: the table, the counters and the report (R7, R17). -/
structure Heated (h : Heating) (u t : State) : Prop where
  layers : ∀ i : Fin 16, t.clm.layers[i] = { h.layers[i] with temp := (order (blend (temperatures h.layers))).getD i.val 0 }
  clipped : t.clm.clipped = u.clm.clipped.add h.clipped
  model : t.clm.model = u.clm.model
  period : t.clm.period = u.clm.period
  loss : t.clm.loss = u.clm.loss
  injected : t.clm.injected = u.clm.injected
  delivered : t.clm.delivered = u.clm.delivered
  solarYield : t.clm.solarYield = u.clm.solarYield
  kinds : ∀ k, t.flt.kindRec k = (takeHeating h u).flt.kindRec k

theorem completeUpdate_heated (h : Heating) (u : State) : Heated h u (completeUpdate (takeHeating h u)) := by
  have taken := takeHeating_clm h u
  have clm := completeUpdate_clm (takeHeating h u)
  have flt := completeUpdate_flt (takeHeating h u)
  have layer := completeUpdate_layer (takeHeating h u)
  have layers : (takeHeating h u).clm.layers = h.layers := congrArg Clm.layers taken
  rw [layers] at layer
  exact ⟨layer, (congrArg Clm.clipped clm :).trans (congrArg Clm.clipped taken :), (congrArg Clm.model clm :).trans (congrArg Clm.model taken :),
    (congrArg Clm.period clm :).trans (congrArg Clm.period taken :), (congrArg Clm.loss clm :).trans (congrArg Clm.loss taken :),
    (congrArg Clm.injected clm :).trans (congrArg Clm.injected taken :), (congrArg Clm.delivered clm :).trans (congrArg Clm.delivered taken :),
    (congrArg Clm.solarYield clm :).trans (congrArg Clm.solarYield taken :), fun k => by rw [flt]⟩

theorem Inner.untouched {s t : State} (h : Inner s t) : Untouched s t := ⟨h.pending, h.pfe, h.mpt, h.confirm, h.settings⟩

/-! ### Energy over the table (R17, R19, R21, R22) -/

/-- Energy given layer by layer, to each layer of a list once. -/
theorem Heating.foldl_apply (u : Int) (f : Fin 16 → Int) (l : List (Fin 16)) (once : l.Nodup) (h : Heating) :
    (∀ i : Fin 16, (l.foldl (fun g i => g.apply u i (f i)) h).layers[i] =
        if i ∈ l then (h.layers[i].applyEnergy u (f i)).1 else h.layers[i]) ∧
      (l.foldl (fun g i => g.apply u i (f i)) h).clipped =
        h.clipped + (l.map fun i => (h.layers[i].applyEnergy u (f i)).2).sum := by
  induction l generalizing h with
  | nil => simp
  | cons j l ih =>
    obtain ⟨fresh, once⟩ := List.nodup_cons.1 once
    obtain ⟨layers, clipped⟩ := ih once (h.apply u j (f j))
    have applied (i : Fin 16) : (h.apply u j (f j)).layers[i] =
        if j = i then (h.layers[j].applyEnergy u (f j)).1 else h.layers[i] := Vector_set_get ..
    rw [List.foldl_cons]
    refine ⟨fun i => ?_, ?_⟩
    · rw [layers, applied]
      by_cases here : j = i
      · subst here; simp [fresh]
      · simp [here, Ne.symm here]
    · have others : l.map (fun i => ((h.apply u j (f j)).layers[i].applyEnergy u (f i)).2) =
          l.map fun i => (h.layers[i].applyEnergy u (f i)).2 := List.map_congr_left fun i later => by
        rw [applied, if_neg (by rintro rfl; exact fresh later)]
      rw [clipped, others, List.map_cons, List.sum_cons]
      exact add_assoc ..

theorem sum_map_filter_ite {α : Type} (p : α → Bool) (f : α → Int) (l : List α) :
    ((l.filter p).map f).sum = (l.map fun i => if p i then f i else 0).sum := by
  induction l with
  | nil => rfl
  | cons a l ih => cases h : p a <;> simp [h, ih]

theorem Heating.apply_first (u e : Int) (h : Heating) (i : Fin 16) :
    (h.apply u i e).first =
      if h.first = none ∧ 1000 < h.layers[i].temp + (h.layers[i].residue + e) / u then some i else h.first := by
  unfold Heating.apply
  cases h.first <;> simp

theorem countPeriod_injected (c : Clm) (loss : Int) (e : SlotId → Int) (n : SlotId) :
    (c.countPeriod loss e).injected.get n = (c.injected.get n).add (e n) := by cases n <;> rfl

/-- Settles O51. -/
theorem modelPeriodAppliesLossAndInjection : Obligations.ModelPeriodAppliesLossAndInjection := by
  refine ⟨fun s => ⟨fun unseeded => ?_, fun seeded => ?_⟩, fun u ua amb h => ?_, fun u e h lo hi _ => ?_, Heating.apply_first, fun s h => ?_⟩
  · show execModelPeriodExpiry s = _
    unfold execModelPeriodExpiry
    simp [unseeded, ModelState.seeded]
    rfl
  · intro h
    set c := s.clm.countPeriod (countedLoss s.clm.uaTenths s.tAmb s.clm.layers) s.periodEnergy with hc
    set u : State := { s with clm := { c with period := 10 } } with hu
    have run : exec .modelPeriodExpiry s = .next (completeUpdate (takeHeating h u)) := by
      have open_ : s.clm.model.seeded = true := by cases model : s.clm.model <;> simp_all [ModelState.seeded]
      show execModelPeriodExpiry s = _
      unfold execModelPeriodExpiry
      dsimp only
      rw [if_pos open_]
      rfl
    obtain ⟨layers, clipped, model, period, loss, injected, delivered, solarYield, kinds⟩ := completeUpdate_heated h u
    refine ⟨_, run, period, model, layers, clipped, ?_, loss, fun n => ?_, delivered, solarYield,
      (execModelPeriodExpiry_inner run).untouched⟩
    · refine (kinds _).trans ((takeHeating_kindRec h u _).trans ?_)
      cases h.first <;> rfl
    · rw [injected]
      refine (countPeriod_injected s.clm (countedLoss s.clm.uaTenths s.tAmb s.clm.layers) s.periodEnergy n).trans ?_
      unfold State.periodEnergy
      cases (s.slot n).state <;> simp
  · intro lost
    have whole := Heating.foldl_apply u (fun i => -(layerLoss ua amb h.layers[i].temp)) (List.finRange 16) (List.nodup_finRange 16) h
    exact ⟨fun i => (whole.1 i).trans (if_pos (List.mem_finRange i)), whole.2⟩
  · intro n given inRange
    have whole := Heating.foldl_apply u (fun i => e / n + (if i = hi then e - n * (e / n) else 0)) (coilLayers lo hi)
      ((List.nodup_finRange 16).filter _) h
    refine ⟨fun i => (whole.1 i).trans ?_, whole.2.trans (congrArg _ (sum_map_filter_ite ..))⟩
    simp [coilLayers, inRange, given]
  · intro give
    have each (n : SlotId) (h : Heating) :
        (if (s.slot n).state.heats then
          h.split s.clm.unitEnergy (s.slot n).settings.coilLow (s.slot n).settings.coilHigh (s.periodEnergy n)
        else h) = give n h := by
      simp only [give, State.periodEnergy]
      cases (s.slot n).state <;> simp [SlotState.heats]
    simp only [State.inject, allSlots, List.foldl_cons, List.foldl_nil, each]

/-! ### Reports on a condition, and the end of a gate (R53) -/

/-- A report on a condition: the fault monitor and its two signals, and nothing else. -/
theorem reportIf_eq (b : Prop) [Decidable b] (k : FaultKind) (x : Subject) (s : State) :
    ∃ f p o, (if b then report k x s else s) = { s with flt := f, pins := p, olu := o } ∧
      ∀ j, f.kindRec j = if b ∧ j = k then s.reported k x else s.flt.kindRec j := by
  by_cases h : b
  · rw [if_pos h]
    exact ⟨_, _, _, report_eq k x s, fun j => (report_kindRec k j x s).trans (by simp only [h, true_and]; rfl)⟩
  · exact ⟨s.flt, s.pins, s.olu, if_neg h, fun j => by simp [h]⟩

/-- The common end of a gate: the meter's record, and the report of a saturated one (R53). -/
theorem endGate_eq (m : Meter) (s : State) :
    ∃ f p o, endGate m s = { s.setMeter m (s.meter m).endGate with flt := f, pins := p, olu := o } ∧
      ∀ j, f.kindRec j = if (0 < (s.meter m).mlPerPulse ∧ (s.meter m).saturated = true) ∧ j = .meterSaturated then
        s.reported .meterSaturated (.meter m) else s.flt.kindRec j := by
  obtain ⟨f, p, o, ended, kinds⟩ := reportIf_eq ((s.meter m).present && (s.meter m).saturated) .meterSaturated (.meter m)
    (s.setMeter m (s.meter m).endGate)
  refine ⟨f, p, o, ended, fun j => (kinds j).trans ?_⟩
  have flt : (s.setMeter m (s.meter m).endGate).flt = s.flt := by cases m <;> rfl
  simp only [State.reported, flt, MeterRec.present, Bool.and_eq_true, decide_eq_true_eq, gt_iff_lt]

/-- A gate adds its volume in whole litres and keeps the rest (R51). -/
theorem endGate_total (r : MeterRec) :
    1000 * (r.endGate.total - r.total).toNat + r.endGate.remainder =
      1000 * ((r.remainder + r.count * r.mlPerPulse) / 1000 % 2 ^ 32) + (r.remainder + r.count * r.mlPerPulse) % 1000 := by
  have added : r.endGate.total - r.total = BitVec.ofNat 32 ((r.remainder + r.gateVolume) / 1000) := by
    simp only [MeterRec.endGate]
    rw [add_sub_cancel_left]
  rw [added, BitVec.toNat_ofNat]
  rfl

/-! ### Draw-off slices (R23, R24, R54 to R56) -/

theorem temperatures_eq (l : Vector Layer 16) : temperatures l = List.ofFn fun i : Fin 16 => l[i].temp := by
  refine List.ext_getElem (by simp [temperatures_length]) fun i _ _ => ?_
  simp only [temperatures, List.getElem_map, Vector.getElem_toList, List.getElem_ofFn]
  rfl

/-- One slice, temperature by temperature (R23). -/
def sliced (mains : Int) (old : Fin 16 → Int) (i : Fin 16) : Int :=
  (7 * old i + (if i = 0 then mains else old (i - 1)) + 4) / 8

theorem sliceFrom_getElem (l : List Int) (b : Int) (i : Nat) (h : i < (sliceFrom b l).length) (k : i < l.length) :
    (sliceFrom b l)[i] = (7 * l[i] + (if i = 0 then b else l[i - 1]) + 4) / 8 := by
  induction l generalizing b i with
  | nil => simp at k
  | cons t l ih =>
    cases i with
    | zero => rfl
    | succ i =>
      refine (ih t i _ (Nat.lt_of_succ_lt_succ k)).trans ?_
      cases i <;> rfl

theorem sliceFrom_ofFn (b : Int) (f : Fin 16 → Int) : sliceFrom b (List.ofFn f) = List.ofFn (sliced b f) := by
  refine List.ext_getElem (by simp [sliceFrom_length]) fun i h k => ?_
  rw [sliceFrom_getElem _ _ _ h (by simpa [sliceFrom_length] using h)]
  simp only [List.getElem_ofFn, sliced]
  have short : i < 16 := by simpa using k
  by_cases bottom : i = 0
  · subst bottom; rfl
  · have above : (⟨i, short⟩ : Fin 16) ≠ 0 := fun h => bottom (congrArg Fin.val h)
    have below : (⟨i, short⟩ : Fin 16) - 1 = ⟨i - 1, by omega⟩ := Fin.ext (Fin.val_sub_one_of_ne_zero above)
    rw [if_neg bottom, if_neg above, below]

/-- Slices one after another (R23, R24). -/
theorem drawSlices_eq (u mains : Int) (k : Nat) (f : Fin 16 → Int) (d : Int) :
    drawSlices u mains k (List.ofFn f, d) =
      (List.ofFn ((sliced mains)^[k] f),
        d + ((List.range k).map fun j => max 0 (u * ((sliced mains)^[j] f 15 - mains) / 8)).sum) := by
  induction k generalizing f d with
  | zero => simp [drawSlices]
  | succ k ih =>
    have last : (List.ofFn f).getLastD 0 = f 15 := rfl
    rw [drawSlices, sliceFrom_ofFn, ih, last, List.range_succ_eq_map, List.map_cons, List.sum_cons, List.map_map]
    simp only [Function.comp_def, Function.iterate_succ_apply, Function.iterate_zero, id]
    rw [add_assoc]

theorem temperatures_withTemperatures (l : Vector Layer 16) (f : Fin 16 → Int) :
    temperatures (withTemperatures l (List.ofFn f)) = List.ofFn f := by
  rw [temperatures_eq]
  refine congrArg List.ofFn (funext fun i => ?_)
  rw [withTemperatures_temp, List.getD_eq_getElem _ _ (by simp)]
  simp only [List.getElem_ofFn]

/-- The model after a draw request of at least one slice while seeded (R23, R24): the table, the counters, the rest. -/
structure Drawn (k : Nat) (s t : State) : Prop where
  layers : ∀ i : Fin 16, t.clm.layers[i] =
    { s.clm.layers[i] with temp := (order (blend (List.ofFn ((sliced s.tMains)^[k] s.temp)))).getD i.val 0 }
  delivered : t.clm.delivered = s.clm.delivered.add
    ((List.range k).map fun j => max 0 (s.clm.unitEnergy * ((sliced s.tMains)^[j] s.temp 15 - s.tMains) / 8)).sum
  model : t.clm.model = s.clm.model
  solarYield : t.clm.solarYield = s.clm.solarYield
  injected : t.clm.injected = s.clm.injected
  loss : t.clm.loss = s.clm.loss
  clipped : t.clm.clipped = s.clm.clipped

theorem drawRequest_drawn {s : State} (k : Nat) (seeded : s.clm.model.seeded = true) : Drawn k s (drawRequest k s) := by
  have slices := drawSlices_eq s.clm.unitEnergy s.tMains k s.temp 0
  have temps : temperatures s.clm.layers = List.ofFn s.temp := temperatures_eq s.clm.layers
  unfold drawRequest
  rw [if_pos seeded]
  dsimp only
  rw [temps, slices, zero_add]
  set gone := ((List.range k).map fun j => max 0 (s.clm.unitEnergy * ((sliced s.tMains)^[j] s.temp 15 - s.tMains) / 8)).sum
  set u : State :=
    { s with
      clm :=
        { s.clm with
          layers := withTemperatures s.clm.layers (List.ofFn ((sliced s.tMains)^[k] s.temp))
          delivered := s.clm.delivered.add gone } } with hu
  have clm := completeUpdate_clm u
  have layer := completeUpdate_layer u
  have mixed : temperatures u.clm.layers = List.ofFn ((sliced s.tMains)^[k] s.temp) := temperatures_withTemperatures ..
  have drawn (i : Fin 16) : u.clm.layers[i] =
      { s.clm.layers[i] with temp := (List.ofFn ((sliced s.tMains)^[k] s.temp)).getD i.val 0 } := tabulate_get ..
  rw [mixed] at layer
  exact ⟨fun i => by rw [layer, drawn], (congrArg Clm.delivered clm :), (congrArg Clm.model clm :), (congrArg Clm.solarYield clm :),
    (congrArg Clm.injected clm :), (congrArg Clm.loss clm :), (congrArg Clm.clipped clm :)⟩

theorem drawRequest_flt_fmu (k : Nat) (s : State) : (drawRequest k s).flt = s.flt ∧ (drawRequest k s).fmu = s.fmu := by
  unfold drawRequest
  split
  · exact ⟨(finishUpdate_quiet _).flt, (finishUpdate_quiet _).fmu⟩
  · exact ⟨rfl, rfl⟩

/-- Tmains (R3): the clamped value of its channel, or the default. -/
theorem tMains_eq (s : State) :
    s.tMains =
      match s.pfe.map.channelOf .mains with
      | none => s.clm.mainsDefault
      | some c =>
        match s.pfe.channels[c].status with
        | .ok _ (some v) => max 0 (min 1000 v)
        | .ok _ none | .faulted _ _ => s.clm.mainsDefault := by
  unfold State.tMains Pfe.roleValue
  cases s.pfe.map.channelOf .mains with
  | none => rfl
  | some c =>
    dsimp only [Channel.value]
    cases s.pfe.channels[c].status with
    | ok bad v => cases v <;> rfl
    | faulted kind good => rfl

/-- The overrun of a gate: more than 128 slices of volume stand (R56). -/
theorem overrun_iff {slice : Nat} (pending : Nat) (pos : 0 < slice) :
    pending - min 128 (pending / slice) * slice ≥ slice ↔ 129 * slice ≤ pending := by
  have whole := Nat.div_mul_le_self pending slice
  have rest := Nat.lt_div_mul_add pos (a := pending)
  by_cases few : pending / slice ≤ 128
  · rw [Nat.min_eq_right few]
    have : pending < 129 * slice := rest.trans_le (by nlinarith)
    omega
  · have many : 129 * slice ≤ pending := le_trans (Nat.mul_le_mul_right slice (by omega)) whole
    rw [Nat.min_eq_left (by omega)]
    omega

theorem pending_mod {slice pending : Nat} : (pending - min 128 (pending / slice) * slice) % slice = pending % slice := by
  have whole := Nat.div_mul_le_self pending slice
  have fits : min 128 (pending / slice) * slice ≤ pending := le_trans (Nat.mul_le_mul_right slice (Nat.min_le_right ..)) whole
  conv_rhs => rw [← Nat.sub_add_cancel fits]
  rw [Nat.add_mul_mod_self_right]

theorem execDrawGateExpiry_untouched {s t : State} (h : execDrawGateExpiry s = .next t) : Untouched s t := by
  have inner := execDrawGateExpiry_inner h
  exact ⟨inner.pending, inner.pfe, inner.mpt, inner.confirm, inner.settings⟩

theorem seeded_iff (m : ModelState) : m.seeded = true ↔ m ≠ .unseeded := by cases m <;> simp [ModelState.seeded]

/-- What a gate's volume brings of a present DRAW meter: pending volume, overrun and draw request (R54 to R56). -/
def takeDraw (pending slice : Nat) (e : State) : State :=
  let slices := min Config.sliceCap (pending / slice)
  let v := { e with fmu := { e.fmu with pendingVolume := (pending - slices * slice) % slice } }
  let w := if decide (pending - slices * slice ≥ slice) then report .drawOverrun .none v else v
  if slices > 0 then drawRequest slices w else w

theorem execDrawGateExpiry_eq (s : State) :
    let e := endGate .draw s
    execDrawGateExpiry s = .next
      (if s.fmu.draw.present then takeDraw (e.fmu.pendingVolume + s.fmu.draw.gateVolume) e.clm.sliceVolume e else e) := rfl

/-- The expiry of the gate of an absent DRAW meter (R53). -/
theorem drawGate_absent {s : State} (absent : ¬ 0 < s.fmu.draw.mlPerPulse) :
    execDrawGateExpiry s = .next (endGate .draw s) := by
  exact (execDrawGateExpiry_eq s).trans (congrArg _ (if_neg (by simpa [MeterRec.present] using absent)))

/-- The expiry of the gate of a present DRAW meter (R53 to R56): the state before the draw request, and the request. -/
theorem drawGate_present {s : State} (pos : 0 < s.clm.sliceVolume) (present : 0 < s.fmu.draw.mlPerPulse) :
    let pending := s.fmu.pendingVolume + s.fmu.draw.gateVolume
    let slices := min 128 (pending / s.clm.sliceVolume)
    ∃ f p o,
      let w : State :=
        { s with
          fmu := { s.fmu with draw := s.fmu.draw.endGate, pendingVolume := pending % s.clm.sliceVolume }
          flt := f, pins := p, olu := o }
      execDrawGateExpiry s = .next (if slices > 0 then drawRequest slices w else w) ∧
        ∀ j, f.kindRec j =
          if j = .meterSaturated ∧ s.fmu.draw.saturated = true then s.reported .meterSaturated (.meter .draw)
          else if j = .drawOverrun ∧ 129 * s.clm.sliceVolume ≤ pending then s.reported .drawOverrun .none
          else s.flt.kindRec j := by
  intro pending slices
  obtain ⟨f, p, o, ended, kinds⟩ := endGate_eq .draw s
  set v : State :=
    { s with
      fmu := { s.fmu with draw := s.fmu.draw.endGate, pendingVolume := pending % s.clm.sliceVolume }
      flt := f, pins := p, olu := o } with hv
  obtain ⟨g, q, r, reported, kinds'⟩ := reportIf_eq (129 * s.clm.sliceVolume ≤ pending) .drawOverrun .none v
  refine ⟨g, q, r, ?_, fun j => ?_⟩
  · have overran : decide (pending - slices * s.clm.sliceVolume ≥ s.clm.sliceVolume) = true ↔ 129 * s.clm.sliceVolume ≤ pending :=
      decide_eq_true_iff.trans (overrun_iff pending pos)
    have taken : takeDraw pending s.clm.sliceVolume (endGate .draw s) =
        let w := if 129 * s.clm.sliceVolume ≤ pending then report .drawOverrun .none v else v
        if slices > 0 then drawRequest slices w else w := by
      have waiting : v = { endGate .draw s with fmu := { (endGate .draw s).fmu with
          pendingVolume := (pending - slices * s.clm.sliceVolume) % s.clm.sliceVolume } } := by
        rw [ended, pending_mod]; rfl
      rw [waiting]
      exact congrArg (fun w => if slices > 0 then drawRequest slices w else w) (if_congr overran rfl rfl)
    have clm : (endGate .draw s).clm = s.clm := by rw [ended]; rfl
    have volume : (endGate .draw s).fmu.pendingVolume = s.fmu.pendingVolume := by rw [ended]; rfl
    refine (execDrawGateExpiry_eq s).trans ?_
    rw [if_pos (by simpa [MeterRec.present] using present), clm, volume]
    exact congrArg _ (taken.trans (by rw [reported]))
  · rw [kinds']
    have same (k : FaultKind) (x : Subject) (other : k ≠ .meterSaturated) : v.reported k x = s.reported k x := by
      have kept : v.flt.kindRec k = s.flt.kindRec k := by rw [hv]; exact (kinds k).trans (if_neg fun h => other h.2)
      simp only [State.reported, kept]
    have before : v.flt.kindRec j = _ := kinds j
    rw [same .drawOverrun .none (by simp), before]
    by_cases overran : j = .drawOverrun
    · subst overran; simp
    · simp [overran, State.meter, present, and_comm]

/-- Settles O49. -/
theorem drawGateFormsSlices : Obligations.DrawGateFormsSlices := by
  refine ⟨fun s => ⟨rfl, rfl⟩, fun s pos => ?_⟩
  intro present volume pending slices mains slice after
  have mains_eq : s.tMains = mains := tMains_eq s
  have untouched {t : State} (run : exec .drawGateExpiry s = .next t) := execDrawGateExpiry_untouched run
  by_cases meter : present
  · obtain ⟨f, p, o, run, kinds⟩ := drawGate_present pos meter
    set w : State :=
      { s with
        fmu := { s.fmu with draw := s.fmu.draw.endGate, pendingVolume := pending % s.clm.sliceVolume }
        flt := f, pins := p, olu := o } with hw
    obtain ⟨t, same, flt, fmu, none_drawn, drawn⟩ : ∃ t, t = (if slices > 0 then drawRequest slices w else w) ∧ t.flt = f ∧
        t.fmu = w.fmu ∧ (slices = 0 ∨ s.clm.model = .unseeded → t.clm = s.clm) ∧
        (s.clm.model ≠ .unseeded → 0 < slices → Drawn slices w t) := by
      by_cases some_slice : slices > 0
      · obtain ⟨flt, fmu⟩ := drawRequest_flt_fmu slices w
        refine ⟨_, (if_pos some_slice).symm, flt, fmu, ?_, fun seeded _ => drawRequest_drawn slices ((seeded_iff _).2 seeded)⟩
        rintro (none | unseeded)
        · omega
        · have dropped : drawRequest slices w = w := if_neg (by simp [hw, unseeded, ModelState.seeded])
          rw [dropped]
      · exact ⟨w, (if_neg some_slice).symm, rfl, rfl, fun _ => rfl, fun _ h => absurd h some_slice⟩
    have run : exec .drawGateExpiry s = .next t := by rw [same]; exact run
    have kind (j : FaultKind) := (congrArg (fun f : Flt => f.kindRec j) flt).trans (kinds j)
    refine ⟨t, run, by rw [fmu]; rfl, by rw [fmu]; rfl, by rw [fmu]; exact ⟨rfl, rfl⟩, by rw [fmu], ?_, ?_, ?_, ?_, ?_, ?_, ?_, untouched run⟩
    · rw [fmu]; exact endGate_total s.fmu.draw
    · rw [fmu, if_neg (Nat.pos_iff_ne_zero.1 meter)]
    · rw [kind]; simp [meter]
    · rw [kind]; simp [meter]; rfl
    · intro k a b; rw [kind]; simp [a, b]
    · rintro (absent | none | unseeded)
      · exact absurd meter absent
      · exact none_drawn (.inl none)
      · exact none_drawn (.inr unseeded)
    · intro _ seeded some_slice
      obtain ⟨layers, delivered, model, solarYield, injected, loss, clipped⟩ := drawn seeded some_slice
      have mains_w : w.tMains = mains := mains_eq
      rw [mains_w] at layers delivered
      exact ⟨layers, delivered, model, solarYield, injected, loss, clipped⟩
  · obtain ⟨f, p, o, ended, kinds⟩ := endGate_eq .draw s
    have run : exec .drawGateExpiry s = .next (endGate .draw s) := drawGate_absent meter
    have kind (j : FaultKind) : (endGate .draw s).flt.kindRec j = s.flt.kindRec j := by
      rw [ended]
      exact (kinds j).trans (if_neg fun h => meter h.1.1)
    have clm : (endGate .draw s).clm = s.clm := by rw [ended]; rfl
    have fmu : (endGate .draw s).fmu = { s.fmu with draw := s.fmu.draw.endGate } := by rw [ended]; rfl
    refine ⟨_, run, by rw [fmu]; rfl, by rw [fmu]; rfl, by rw [fmu]; exact ⟨rfl, rfl⟩, by rw [fmu], ?_, ?_, ?_, ?_,
      fun k _ _ => kind k, fun _ => clm, fun h => absurd h meter, untouched run⟩
    · rw [fmu]; exact endGate_total s.fmu.draw
    · rw [fmu, if_pos (Nat.eq_zero_of_not_pos meter)]
    · rw [kind, if_neg fun h => meter h.1]
    · rw [kind, if_neg fun h => meter h.1]

end Sys2Proof.Machine
end

section
/-! PROOFS. The LOOP gate (R53, R57 to R60) and the solar gate injection (R25, R26). -/

namespace Sys2Proof.Machine

/-- A role's value (R46): that of its channel while OK. -/
theorem roleValue_eq (f : Pfe) (r : Role) :
    f.roleValue r =
      match f.map.channelOf r with
      | none => none
      | some c =>
        match f.channels[c].status with
        | .ok _ v => v
        | .faulted _ _ => none := by
  unfold Pfe.roleValue
  cases f.map.channelOf r with
  | none => rfl
  | some c => rfl

/-- The pump speed of a nominal loop volume (R57). -/
theorem pumpSpeed_eq (s : State) :
    s.pumpSpeed =
      match s.carrier .solarPump with
      | none => 0
      | some i => if 6 ≤ i.val then s.olu[i].output else if s.olu[i].auto = 0 then 0 else 100 := by
  unfold State.pumpSpeed
  cases s.carrier .solarPump with
  | none => rfl
  | some i =>
    have relay_iff : isRelay i = true ↔ i.val < 6 := decide_eq_true_iff
    dsimp only
    by_cases relay : i.val < 6
    · have low : ¬ 6 ≤ i.val := by omega
      rw [if_pos (relay_iff.2 relay), if_neg low]
      by_cases off : s.olu[i].auto = 0
      · rw [off]; rfl
      · rw [if_pos (Nat.pos_of_ne_zero off), if_neg off]
    · have high : 6 ≤ i.val := by omega
      rw [if_neg fun h => relay (relay_iff.1 h), if_pos high]

/-- The solar states in which the loop circulates. -/
theorem circulates_iff (x : SolarState) : x.circulates = true ↔ x = .run ∨ x = .frost ∨ x = .cooldown := by
  cases x <;> simp [SolarState.circulates]

/-- The state of a LOOP gate's expiry before its energy reaches the table (R53, R58 to R60). -/
theorem loopGate_eq (s : State) : ∃ f p o,
    let w : State :=
      { s with
        fmu :=
          { s.fmu with
            loop := s.fmu.loop.endGate
            heatRate := if s.slc.state.circulates then s.gateEnergy / (s.fmu.loop.gateLength : Int) else 0
            zeroGates := s.zeroGatesAfter }
        flt := f, pins := p, olu := o }
    execLoopGateExpiry s = .next (solarInjection s.gateEnergy w) ∧
      ∀ j, f.kindRec j =
        if j = .meterSaturated ∧ 0 < s.fmu.loop.mlPerPulse ∧ s.fmu.loop.saturated = true then
          s.reported .meterSaturated (.meter .loop)
        else if j = .loopNoFlow ∧ s.fmu.zeroGates < 3 ∧ s.zeroGatesAfter = 3 then s.reported .loopNoFlow .none
        else s.flt.kindRec j := by
  obtain ⟨f, p, o, ended, kinds⟩ := endGate_eq .loop s
  set v : State :=
    { s with
      fmu :=
        { s.fmu with
          loop := s.fmu.loop.endGate
          heatRate := if s.slc.state.circulates then s.gateEnergy / (s.fmu.loop.gateLength : Int) else 0
          zeroGates := s.zeroGatesAfter }
      flt := f, pins := p, olu := o } with hv
  obtain ⟨g, q, r, reported, kinds'⟩ := reportIf_eq (decide (s.zeroGatesAfter = 3) && decide (s.fmu.zeroGates < 3)) .loopNoFlow .none v
  refine ⟨g, q, r, ?_, fun j => ?_⟩
  · have formed : v = { endGate .loop s with fmu := { (endGate .loop s).fmu with
        heatRate := if s.slc.state.circulates then s.gateEnergy / (s.fmu.loop.gateLength : Int) else 0
        zeroGates := s.zeroGatesAfter } } := by rw [ended]; rfl
    rw [formed] at reported
    exact congrArg (fun w => Host.Outcome.next (solarInjection s.gateEnergy w)) (reported.trans (by rw [ended]; rfl))
  · have same : v.reported .loopNoFlow .none = s.reported .loopNoFlow .none := by
      have kept : v.flt.kindRec .loopNoFlow = s.flt.kindRec .loopNoFlow := (kinds .loopNoFlow).trans (if_neg (by simp))
      simp only [State.reported, kept]
    have before : v.flt.kindRec j = _ := kinds j
    rw [kinds', same, before]
    by_cases dry : j = .loopNoFlow
    · subst dry; simp [and_comm]
    · simp [dry, State.meter, and_comm]

theorem EnergyCounter.add_max (c : EnergyCounter) (e : Int) : c.add (max 0 e) = c.add e := by
  have same : (max 0 e).toNat = e.toNat := by omega
  simp only [EnergyCounter.add, same]

/-- The gate's energy, from its volume and the difference of flow and return (R25, R57, R58). -/
theorem gateEnergy_eq (s : State) :
    s.gateEnergy =
      match s.pfe.roleValue .loopFlow, s.pfe.roleValue .collector with
      | some flow, _ => (s.loopVolume : Int) * (flow - (s.pfe.roleValue .loopReturn).getD (s.temp s.scu.coil0Low)) * 418 / 1000
      | none, some flow => (s.loopVolume : Int) * (flow - (s.pfe.roleValue .loopReturn).getD (s.temp s.scu.coil0Low)) * 418 / 1000
      | none, none => 0 := by
  unfold State.gateEnergy
  cases s.pfe.roleValue .loopFlow <;> cases s.pfe.roleValue .collector <;> rfl

theorem loopVolume_eq (s : State) :
    s.loopVolume =
      if s.fmu.loop.mlPerPulse = 0 then s.fmu.nominalFlow * s.pumpSpeed * s.fmu.loop.gateLength / 6000
      else s.fmu.loop.count * s.fmu.loop.mlPerPulse := by
  unfold State.loopVolume MeterRec.present
  by_cases absent : s.fmu.loop.mlPerPulse = 0
  · rw [if_neg (by simp [absent]), if_pos absent]
  · rw [if_pos (by simpa using Nat.pos_of_ne_zero absent), if_neg absent]
    rfl

theorem zeroGatesAfter_eq (s : State) :
    s.zeroGatesAfter =
      if 0 < s.fmu.loop.mlPerPulse ∧ (s.slc.state = .run ∨ s.slc.state = .frost ∨ s.slc.state = .cooldown) then
        (if 0 < s.fmu.loop.count then 0 else min 3 (s.fmu.zeroGates + 1))
      else s.fmu.zeroGates :=
  if_congr (by simp [MeterRec.present, circulates_iff]) rfl rfl

/-- The energy handed to the model (R9, R26): dropped, or into the coil range and counted. -/
theorem solarInjection_of_not {e : Int} {s : State} (h : s.clm.model = .unseeded ∨ ¬ s.slc.state.circulates = true) :
    solarInjection e s = s := by
  refine if_neg fun both => ?_
  simp only [Bool.and_eq_true, seeded_iff] at both
  exact h.elim both.1 fun still => still both.2

theorem solarInjection_of {e : Int} {s : State} (seeded : s.clm.model ≠ .unseeded) (circulates : s.slc.state.circulates = true) :
    Heated (Heating.split s.clm.unitEnergy ⟨s.clm.layers, 0, none⟩ s.scu.coil0Low s.scu.coil0High e)
      { s with clm := { s.clm with solarYield := s.clm.solarYield.add e } } (solarInjection e s) := by
  have opens : (s.clm.model.seeded && s.slc.state.circulates) = true := by
    simpa only [Bool.and_eq_true, seeded_iff] using ⟨seeded, circulates⟩
  have injected : solarInjection e s = _ := if_pos opens
  rw [injected]
  exact completeUpdate_heated ..

theorem solarInjection_fmu (e : Int) (s : State) : (solarInjection e s).fmu = s.fmu := by
  unfold solarInjection
  split
  · refine (finishUpdate_quiet _).fmu.trans ?_
    unfold takeHeating
    dsimp only [deriveValues, State.setLayers]
    split
    · exact report_fmu ..
    · rfl
  · rfl

/-- Settles O50. -/
theorem loopGateFormsTheHeatRate : Obligations.LoopGateFormsTheHeatRate := by
  refine ⟨fun s f => ⟨fun i carries => carrier_function carries, fun unmapped i carries => ?_⟩, fun s => ?_⟩
  · have unmapped := List.find?_eq_none.1 unmapped i (List.mem_finRange i)
    exact unmapped (decide_eq_true carries)
  intro m present value speed measured volume back energy circulates zeroGates h
  have value_eq (r : Role) : s.pfe.roleValue r = value r := roleValue_eq s.pfe r
  have speed_eq : s.pumpSpeed = speed := pumpSpeed_eq s
  have volume_eq : s.loopVolume = volume := by rw [loopVolume_eq, speed_eq]
  have energy_eq : s.gateEnergy = energy := by
    have formed := gateEnergy_eq s
    rw [volume_eq, value_eq, value_eq, value_eq] at formed
    exact formed
  have zeroGates_eq : s.zeroGatesAfter = zeroGates := zeroGatesAfter_eq s
  have circulates_eq : s.slc.state.circulates = true ↔ circulates := circulates_iff _
  obtain ⟨f, p, o, run, kinds⟩ := loopGate_eq s
  have untouched := (execLoopGateExpiry_inner run).untouched
  rw [energy_eq] at run untouched
  rw [zeroGates_eq] at run untouched kinds
  set w : State :=
    { s with
      fmu :=
        { s.fmu with
          loop := s.fmu.loop.endGate
          heatRate := if s.slc.state.circulates then energy / (s.fmu.loop.gateLength : Int) else 0
          zeroGates := zeroGates }
      flt := f, pins := p, olu := o } with hw
  have fmu : (solarInjection energy w).fmu = w.fmu := solarInjection_fmu ..
  have idle (still : s.clm.model = .unseeded ∨ ¬ circulates) : solarInjection energy w = w :=
    solarInjection_of_not (still.imp_right fun not => fun h => not (circulates_eq.1 h))
  have heated (seeded : s.clm.model ≠ .unseeded) (flows : circulates) :
      Heated h { w with clm := { w.clm with solarYield := w.clm.solarYield.add energy } } (solarInjection energy w) :=
    solarInjection_of (s := w) seeded (circulates_eq.2 flows)
  have other (k : FaultKind) (unclipped : k ≠ .modelClipped) : (solarInjection energy w).flt.kindRec k = f.kindRec k := by
    by_cases still : s.clm.model = .unseeded ∨ ¬ circulates
    · rw [idle still]
    · obtain ⟨seeded, flows⟩ := not_or.1 still
      refine ((heated seeded (not_not.1 flows)).kinds k).trans ((takeHeating_kindRec ..).trans ?_)
      cases h.first with
      | none => rfl
      | some i => exact if_neg unclipped
  have clipped : f.kindRec .modelClipped = s.flt.kindRec .modelClipped := (kinds _).trans (by simp)
  generalize solarInjection energy w = t at run untouched fmu idle heated other
  refine ⟨t, run, by rw [fmu]; rfl, by rw [fmu]; rfl, by rw [fmu]; exact ⟨rfl, rfl⟩, by rw [fmu], by rw [fmu]; exact ⟨rfl, rfl⟩,
    ?_, by rw [fmu], ?_, ?_, fun k a b c => ?_, fun still => ?_, fun seeded flows => ?_, untouched⟩
  · rw [fmu]
    exact if_congr circulates_eq rfl rfl
  · rw [other _ (by simp), kinds]
    simp only [true_and, reduceCtorEq, false_and, if_false]
    rfl
  · rw [other _ (by simp), kinds]
    simp
  · rw [other k c, kinds]
    simp [a, b]
  · rw [idle still]
    exact ⟨rfl, clipped⟩
  · obtain ⟨layers, clip, model, period, loss, injected, delivered, solarYield, kind⟩ := heated seeded flows
    refine ⟨layers, clip, ?_, solarYield.trans (EnergyCounter.add_max ..).symm, injected, model, delivered, loss⟩
    refine (kind _).trans ((takeHeating_kindRec ..).trans ?_)
    have same (i : Fin 16) : ({ w with clm := { w.clm with solarYield := w.clm.solarYield.add energy } } : State).reported .modelClipped
        (.layer i) = s.reported .modelClipped (.layer i) := by
      have kept : ({ w with clm := { w.clm with solarYield := w.clm.solarYield.add energy } } : State).flt.kindRec .modelClipped =
          s.flt.kindRec .modelClipped := clipped
      simp only [State.reported, kept]
    cases h.first with
    | none => exact clipped
    | some i => exact (if_pos rfl).trans (same i)

end Sys2Proof.Machine
end

section
/-! PROOFS. A conversion (chapter 2): the reading, the model's part of it, and the consumers of its role. -/

namespace Sys2Proof.Machine

/-! ### The reading (R34 to R39) -/

/-- A reading in the range of its channel. -/
def goodReading (c : Fin 12) (v : Int) : Prop := -400 ≤ v ∧ v ≤ if c.val < 2 then 2500 else 1500

/-- What a reading out of range says (R34). -/
def badKind (c : Fin 12) (v : Int) : ProbeFault := if v < -400 ↔ c.val < 2 then .shortCircuit else .openCircuit

theorem highRange_eq (c : Fin 12) : highRange c = decide (c.val < 2) := rfl

/-- A reading in range is good (R34). -/
theorem classify_good {c : Fin 12} {v : Int} (h : goodReading c v) : classify c v = none := by
  obtain ⟨low, high⟩ := h
  unfold classify
  simp only [highRange_eq, decide_eq_true_eq]
  rw [if_neg (by omega), if_neg (by omega)]

/-- A reading out of range is a short or an open circuit by the side and the range of the channel (R34). -/
theorem classify_bad {c : Fin 12} {v : Int} (h : ¬ goodReading c v) : classify c v = some (badKind c v) := by
  unfold classify badKind
  simp only [highRange_eq, decide_eq_true_eq]
  by_cases low : v < -400
  · simp only [low, if_true, true_iff]
  · have above : v > if c.val < 2 then 2500 else 1500 := by
      by_contra within
      exact h ⟨by omega, by omega⟩
    rw [if_neg low, if_pos above]
    by_cases range : c.val < 2 <;> simp [low, range]

/-- The conversion's own part: the record, the scan and the report of a fault (R34 to R39). -/
theorem pfeConvert_frame (c : Fin 12) (raw : Int) (s : State) : ∃ f p o,
    pfeConvert c raw s = { s with pfe := s.converted c raw, flt := f, pins := p, olu := o } ∧
      (∀ k, s.faultAt c raw = some k → f.kindRec k.report = s.reported k.report (.channel c)) ∧
      ∀ j, (∀ k, s.faultAt c raw = some k → j ≠ k.report) → f.kindRec j = s.flt.kindRec j := by
  rw [pfeConvert_eq]
  cases s.faultAt c raw with
  | none => exact ⟨s.flt, s.pins, s.olu, rfl, nofun, fun _ _ => rfl⟩
  | some k =>
    refine ⟨_, _, _, report_eq k.report (.channel c) { s with pfe := s.converted c raw }, ?_, fun j other => ?_⟩
    · rintro k ⟨⟩
      exact report_status ..
    · exact (report_kindRec ..).trans (if_neg (other k rfl))

/-! ### The model's part (R10 to R14) -/

/-- What the model's part of a conversion leaves. -/
structure Handed (s t : State) : Prop where
  pfe : t.pfe = s.pfe
  slc : t.slc = s.slc
  scu : t.scu = { s.scu with slots := t.scu.slots }
  kinds : ∀ k, k ≠ .anchorsLost → t.flt.kindRec k = s.flt.kindRec k

theorem Quiet.handed {s t : State} (h : Quiet s t) : Handed s t := ⟨h.pfe, h.slc, h.scu, fun k _ => by rw [h.flt]⟩

theorem Handed.trans {s t u : State} (h : Handed s t) (k : Handed t u) : Handed s u :=
  ⟨k.pfe.trans h.pfe, k.slc.trans h.slc, by rw [k.scu, h.scu], fun j a => (k.kinds j a).trans (h.kinds j a)⟩

theorem Handed.setClm (s : State) (c : Clm) : Handed s { s with clm := c } := ⟨rfl, rfl, rfl, fun _ _ => rfl⟩

theorem report_anchorsLost_handed (s : State) : Handed s (report .anchorsLost .none s) :=
  ⟨report_pfe .., report_slc .., by rw [report_eq], fun _ a => (report_kindRec ..).trans (if_neg a)⟩

/-- The table a seeding makes (R11, R12). -/
def State.seededTable (s : State) : State :=
  { s with
    clm :=
      { s.clm with
        layers := tabulate fun i : Fin 16 =>
          { s.clm.layers[i] with
            temp := (order ((List.finRange 16).map s.seedTemp)).getD i.val 0, residue := 0, hotDwell := 0, holdAge := 65535 }
        model := if (List.finRange 16).any fun k => (s.anchorValue k).isSome then .tracking else .freeRunning } }

theorem seed_eq (s : State) :
    seed s = finishUpdate (if (List.finRange 16).any fun k => (s.anchorValue k).isSome then s.seededTable
      else report .anchorsLost .none s.seededTable) := rfl

theorem seed_handed (s : State) : Handed s (seed s) := by
  have table : Handed s s.seededTable := .setClm ..
  have derived (x : State) : Handed x (finishUpdate x) := (Handed.setClm x (deriveValues x).clm).trans (finishUpdate_quiet x).handed
  rw [seed_eq]
  split
  · exact table.trans (derived _)
  · exact (table.trans (report_anchorsLost_handed _)).trans (derived _)

/-- Some layer has an anchor's value. -/
theorem anyAnchor_iff (s : State) : ((List.finRange 16).any fun k => (s.anchorValue k).isSome) = true ↔ ∃ k, s.anchorValue k ≠ none := by
  simp [Option.isSome_iff_ne_none]

/-- Seeding (R11, R12): the table, the derived values, the model state and the report. -/
theorem seed_clm (s : State) :
    (seed s).clm =
        { s.clm with
          layers := (seed s).clm.layers, model := (seed s).clm.model, zoneMin := (seed s).clm.zoneMin
          usable := (seed s).clm.usable, storedKj := (seed s).clm.storedKj } ∧
      (seed s).clm.layers = s.seededTable.clm.layers ∧ (seed s).clm.model = s.seededTable.clm.model ∧
      (∀ z, (seed s).clm.zoneMin.get z = some (s.seededTable.temp (s.zdu.lowestLayer z))) ∧
      (seed s).flt.kindRec .anchorsLost =
        if (List.finRange 16).any fun k => (s.anchorValue k).isSome then s.flt.kindRec .anchorsLost
        else s.reported .anchorsLost .none := by
  obtain ⟨x, made, clm, zdu, kind⟩ : ∃ x, seed s = finishUpdate x ∧ x.clm = s.seededTable.clm ∧ x.zdu = s.zdu ∧
      x.flt.kindRec .anchorsLost =
        if (List.finRange 16).any fun k => (s.anchorValue k).isSome then s.flt.kindRec .anchorsLost
        else s.reported .anchorsLost .none := by
    refine ⟨_, seed_eq s, ?_, ?_, ?_⟩
    · split
      · rfl
      · rw [report_eq]
    · split
      · rfl
      · rw [report_eq]; rfl
    · split
      · rfl
      · exact report_status ..
  have quiet := finishUpdate_quiet x
  rw [← made] at quiet
  generalize seed s = t at quiet ⊢
  have derived : t.clm = (deriveValues x).clm := quiet.clm
  have whole : t.clm = { s.seededTable.clm with zoneMin := t.clm.zoneMin, usable := t.clm.usable, storedKj := t.clm.storedKj } := by
    rw [derived]
    show _ = _
    rw [← clm]
    rfl
  refine ⟨?_, (congrArg Clm.layers whole :), (congrArg Clm.model whole :), fun z => ?_,
    (congrArg (fun f : Flt => f.kindRec .anchorsLost) quiet.flt).trans kind⟩
  · rw [whole]; rfl
  · have least : t.clm.zoneMin.get z = some (x.temp (x.zdu.lowestLayer z)) := by rw [derived]; cases z <;> rfl
    rw [least, zdu]
    exact congrArg some (congrArg (fun c : Clm => c.layers[s.zdu.lowestLayer z].temp) clm)

theorem examineAnchors_handed (b : Bool) (s : State) : Handed s (examineAnchors b s) := by
  unfold examineAnchors
  split
  · split
    · exact .setClm s s.clm
    · exact (Handed.setClm s _).trans (report_anchorsLost_handed _)
  · split
    · exact .setClm s _
    · exact .setClm s s.clm
  · exact .setClm s s.clm

theorem clmReceive_handed (c : Fin 12) (b : Bool) (s : State) : Handed s (clmReceive c b s) := by
  unfold clmReceive
  split
  · exact examineAnchors_handed b s
  · dsimp only
    split
    · exact (Handed.setClm s _).trans (seed_handed _)
    · exact .setClm s _

/-! ### The cylinder limit latch (R105 to R107) -/

/-- The latch stands at `l`, with a report of `k0` when `told`; the slots and the zones may have moved. -/
structure LatchMoved (l : Latch) (k0 : FaultKind) (x : Subject) (told : Bool) (s t : State) : Prop where
  scu : t.scu = { s.scu with latch := l, slots := t.scu.slots }
  clm : t.clm = s.clm
  pfe : t.pfe = s.pfe
  slc : t.slc = s.slc
  kinds : ∀ k, t.flt.kindRec k = if told = true ∧ k = k0 then s.reported k0 x else s.flt.kindRec k

theorem LatchMoved.silent {l : Latch} {k0 : FaultKind} {x : Subject} {s t : State}
    (h : Quiet { s with scu := { s.scu with latch := l } } t) : LatchMoved l k0 x false s t :=
  ⟨h.scu, h.clm, h.pfe, h.slc, fun k => by rw [h.flt]; simp⟩

theorem LatchMoved.loud {l : Latch} {k0 : FaultKind} {x : Subject} {s t : State}
    (h : Quiet (report k0 x { s with scu := { s.scu with latch := l } }) t) : LatchMoved l k0 x true s t := by
  refine ⟨h.scu.trans ?_, h.clm.trans ?_, h.pfe.trans (report_pfe ..), h.slc.trans (report_slc ..), fun k => ?_⟩
  · rw [report_eq]
  · rw [report_eq]
  · rw [h.flt, report_kindRec]
    simp only [true_and]
    rfl

theorem setLatch_loud (l : Latch) (k0 : FaultKind) (x : Subject) (s : State) : LatchMoved l k0 x true s (setLatch l k0 x s).notify :=
  .loud ((setLatch_quiet l k0 x s).trans (Sent.notify_governed _).quiet)

theorem clearLatch_silent (k0 : FaultKind) (x : Subject) (s : State) : LatchMoved .clear k0 x false s (clearLatch s).notify :=
  .silent ((evaluateDiverters_quiet _).trans (Sent.notify_governed (clearLatch s)).quiet)

/-- A top-probe-lost indication (R105). -/
theorem topProbeIsLost_moved (s : State) :
    LatchMoved .probeLost .topProbeLost s.pfe.topSubject (decide (s.scu.latch ≠ .probeLost)) s (topProbeIsLost s).notify := by
  unfold topProbeIsLost
  split
  next clear => rw [clear]; exact setLatch_loud ..
  next hot => rw [hot]; exact .loud (.refl _)
  next lost => rw [lost]; exact .silent (by rw [← lost]; exact .refl s)

/-- Where a TOP_LIMIT conversion with a value leaves the latch (R105, R107). -/
def latchAfter (s : State) (v : Int) : Latch :=
  if s.scu.latch = .clear then (if s.scu.hardMax ≤ v then .overtemp else .clear)
  else if v < s.scu.hardMax - 50 then .clear else .overtemp

/-- A TOP_LIMIT conversion with a value (R105, R107). -/
theorem topLimitValue_moved (v : Int) (s : State) :
    LatchMoved (latchAfter s v) .cylinderOvertemp .none (decide (s.scu.hardMax ≤ v ∧ s.scu.latch ≠ .overtemp)) s
      (topLimitValue v s).notify := by
  have stays (l : Latch) (h : s.scu.latch = l) (x : FaultKind) (j : Subject) : LatchMoved l x j false s s :=
    .silent (by rw [← h]; exact .refl s)
  unfold topLimitValue latchAfter
  dsimp only
  cases latch : s.scu.latch with
  | clear =>
    simp only [if_true, ne_eq, reduceCtorEq, not_false_eq_true, and_true, ge_iff_le]
    split
    next hot => rw [decide_eq_true hot]; exact setLatch_loud ..
    next cool => rw [decide_eq_false cool]; exact stays _ latch _ _
  | overtemp =>
    simp only [reduceCtorEq, if_false, ne_eq, not_true_eq_false, and_false, decide_false]
    split
    · exact clearLatch_silent ..
    · exact stays _ latch _ _
  | probeLost =>
    simp only [reduceCtorEq, if_false, ne_eq, not_false_eq_true, and_true]
    split
    next cool => rw [decide_eq_false (by omega)]; exact clearLatch_silent ..
    next warm =>
      split
      next below => rw [decide_eq_false (by omega)]; exact .silent (.refl _)
      next above => rw [decide_eq_true (by omega)]; exact .loud (.refl _)

/-! ### The consumers (R45 to R48) -/

/-- What the latch's and the solar loop's parts of a conversion leave. -/
structure Consumed (s t : State) : Prop where
  clm : t.clm = s.clm
  pfe : t.pfe = s.pfe
  kinds : ∀ k, k ≠ .topProbeLost → k ≠ .cylinderOvertemp → k ≠ .collectorOverheat → t.flt.kindRec k = s.flt.kindRec k

theorem Consumed.refl (s : State) : Consumed s s := ⟨rfl, rfl, fun _ _ _ _ => rfl⟩

theorem Consumed.trans {s t u : State} (h : Consumed s t) (k : Consumed t u) : Consumed s u :=
  ⟨k.clm.trans h.clm, k.pfe.trans h.pfe, fun j a b c => (k.kinds j a b c).trans (h.kinds j a b c)⟩

theorem LatchMoved.consumed {l : Latch} {k0 : FaultKind} {x : Subject} {told : Bool} {s t : State} (h : LatchMoved l k0 x told s t)
    (own : k0 = .topProbeLost ∨ k0 = .cylinderOvertemp) : Consumed s t :=
  ⟨h.clm, h.pfe, fun k a b _ => (h.kinds k).trans (if_neg fun e => by rcases own with rfl | rfl; exacts [a e.2, b e.2])⟩

/-- The state and speed of one evaluation (R133 to R141). -/
def State.solarStep (s : State) (v : Option Int) : SolarState × Int := solarSteps s.slc.settings s.solarInputs v s.slc.state

/-- The loop's record after one evaluation (R134 to R141). -/
def State.solarRecord (s : State) (v : Option Int) : Slc :=
  { s.slc with
    state := (s.solarStep v).1, speed := (s.solarStep v).2, collector := v, reference := some s.solarInputs.reference
    top := some s.solarInputs.top, bottom := some s.solarInputs.bottom }

/-- One evaluation of the solar loop that is not DISABLED (R133 to R143). -/
theorem solarEvaluate_eq {s : State} (on : s.slc.state ≠ .disabled) (v : Option Int) :
    solarEvaluate v s =
      tellSolarChange s.slc (if (s.solarStep v).1 = .stagnant ∧ s.slc.state ≠ .stagnant
        then report .collectorOverheat .none { s with slc := s.solarRecord v } else { s with slc := s.solarRecord v }) := if_neg on

/-- What one evaluation leaves: the record, the report of an overheat, and all else but the FMU's count, slots and lines. -/
theorem solarEvaluate_frame {s : State} (on : s.slc.state ≠ .disabled) (v : Option Int) :
    (solarEvaluate v s).slc = s.solarRecord v ∧ (solarEvaluate v s).clm = s.clm ∧ (solarEvaluate v s).pfe = s.pfe ∧
      (solarEvaluate v s).scu = { s.scu with slots := (solarEvaluate v s).scu.slots } ∧
      ∀ k, (solarEvaluate v s).flt.kindRec k =
        if ((s.solarStep v).1 = .stagnant ∧ s.slc.state ≠ .stagnant) ∧ k = .collectorOverheat then s.reported .collectorOverheat .none
        else s.flt.kindRec k := by
  obtain ⟨f, p, o, reported, kinds⟩ := reportIf_eq ((s.solarStep v).1 = .stagnant ∧ s.slc.state ≠ .stagnant) .collectorOverheat .none
    { s with slc := s.solarRecord v }
  rw [solarEvaluate_eq on, reported]
  obtain ⟨u, told⟩ := tellSolarChange_governed s.slc { s with slc := s.solarRecord v, flt := f, pins := p, olu := o }
  exact ⟨told.slc, told.clm, told.pfe, told.scu, fun k => by rw [told.flt]; exact kinds k⟩

theorem solarEvaluate_consumed (v : Option Int) (s : State) : Consumed s (solarEvaluate v s) := by
  by_cases off : s.slc.state = .disabled
  · have still : solarEvaluate v s = s := if_pos off
    rw [still]; exact .refl s
  · obtain ⟨-, clm, pfe, -, kinds⟩ := solarEvaluate_frame off v
    exact ⟨clm, pfe, fun k _ _ c => (kinds k).trans (if_neg fun e => c e.2)⟩

theorem deliverNoCollector_consumed (c : Fin 12) (s : State) : Consumed s (deliverNoCollector c s) := by
  unfold deliverNoCollector
  split
  · exact solarEvaluate_consumed ..
  · exact .refl s

theorem deliverTopLimit_consumed (c : Fin 12) (b : Bool) (s : State) : Consumed s (deliverTopLimit c b s) := by
  have lost (s : State) : Consumed s (topProbeIsLost s).notify := (topProbeIsLost_moved s).consumed (.inl rfl)
  have first : Consumed s (if b then (topProbeIsLost s).notify else s) := by
    split
    · exact lost s
    · exact .refl s
  unfold deliverTopLimit
  dsimp only
  generalize (if b then (topProbeIsLost s).notify else s) = t at first ⊢
  split
  · exact first.trans (lost t)
  · split
    · exact first.trans ((topLimitValue_moved ..).consumed (.inr rfl))
    · exact first

/-- The consumers of a conversion that brings no anchoring update leave the model (R45 to R48). -/
theorem deliverRole_consumed {c : Fin 12} {seeded faulted : Bool} {s : State}
    (h : seeded = false ∨ (∀ a, s.pfe.map.roleOf c ≠ some (.anchor a)) ∨ s.pfe.channels[c].value = none) :
    Consumed s (deliverRole c seeded faulted s) := by
  unfold deliverRole
  split
  next a role =>
    split
    next before =>
      rcases h with h | h | h
      · rw [h] at before; cases before
      · exact absurd role (h a)
      · rw [h]; exact .refl s
    next => exact .refl s
  next => exact solarEvaluate_consumed ..
  next => exact deliverTopLimit_consumed ..
  next => exact .refl s

/-! ### A conversion in its turn (R32, R44) -/

/-- The model's part of a conversion, after the reading (R44). -/
def State.received (s : State) (c : Fin 12) (raw : Int) : State :=
  clmReceive c ((pfeConvert c raw s).deliversAnchor c) (pfeConvert c raw s)

/-- The reading made the channel FAULTED (R37). -/
def State.faults (s : State) (c : Fin 12) (raw : Int) : Bool :=
  (pfeConvert c raw s).pfe.channels[c].isFaulted && !s.pfe.channels[c].isFaulted

theorem exec_conversion {s : State} {c : Fin 12} (raw : Int) (turn : s.pfe.scanNext = c) :
    exec (.conversion c raw) s =
      .next (deliverNoCollector c (deliverRole c s.clm.model.seeded (s.faults c raw) (s.received c raw))) := by
  show execConversion c raw s = _
  unfold execConversion
  rw [if_pos turn.symm]
  rfl

/-- What stands when the consumer of the role is told (R44). -/
theorem received_frame (s : State) (c : Fin 12) (raw : Int) :
    (s.received c raw).pfe = s.converted c raw ∧ (s.received c raw).slc = s.slc ∧
      (s.received c raw).scu = { s.scu with slots := (s.received c raw).scu.slots } ∧
      (s.received c raw).settings = s.settings ∧
      (∀ k, k ≠ .probeOpen → k ≠ .probeShort → k ≠ .anchorsLost → (s.received c raw).flt.kindRec k = s.flt.kindRec k) ∧
      ∀ f : ProbeFault, (s.received c raw).flt.kindRec f.report = (pfeConvert c raw s).flt.kindRec f.report := by
  obtain ⟨f, p, o, read, -, others⟩ := pfeConvert_frame c raw s
  have handed : Handed (pfeConvert c raw s) (s.received c raw) := clmReceive_handed ..
  have settings : (s.received c raw).settings = (pfeConvert c raw s).settings := (clmReceive_inner ..).settings
  refine ⟨?_, ?_, ?_, settings.trans (pfeConvert_kept c raw s).2, fun k a b c => ?_,
    fun g => handed.kinds _ (by cases g <;> simp [ProbeFault.report])⟩
  · rw [handed.pfe, read]
  · rw [handed.slc, read]
  · refine handed.scu.trans ?_
    rw [read]
  · rw [handed.kinds k c, read]
    exact others k fun g _ => by cases g <;> assumption

theorem deliverNoCollector_frame (c : Fin 12) (s : State) :
    (deliverNoCollector c s).scu = { s.scu with slots := (deliverNoCollector c s).scu.slots } ∧
      ∀ k, k ≠ .collectorOverheat → (deliverNoCollector c s).flt.kindRec k = s.flt.kindRec k := by
  unfold deliverNoCollector
  split
  · by_cases off : s.slc.state = .disabled
    · have still : solarEvaluate none s = s := if_pos off
      rw [still]; exact ⟨rfl, fun _ _ => rfl⟩
    · obtain ⟨-, -, -, scu, kinds⟩ := solarEvaluate_frame off none
      exact ⟨scu, fun k a => (kinds k).trans (if_neg fun e => a e.2)⟩
  · exact ⟨rfl, fun _ _ => rfl⟩

theorem roleOf_some {m : ProbeMap} {c : Fin 12} {r : Role} (h : m.roleOf c = some r) : m.channelOf r = some c := by
  simpa using List.find?_some h

/-- The status of the converted channel (R36 to R39). -/
theorem converted_status (s : State) (c : Fin 12) (raw : Int) :
    (s.converted c raw).channels[c].status =
      (s.pfe.channels[c].status.debounce (raw + s.pfe.channels[c].trim) (classify c (raw + s.pfe.channels[c].trim))).1 := by
  rw [State.converted_channel, if_pos rfl]

theorem debounce_ok {c : Fin 12} {x : ChannelStatus} {bad : Nat} {old : Option Int} (v : Int) (h : x = .ok bad old) :
    (goodReading c v → x.debounce v (classify c v) = (.ok 0 (some v), none)) ∧
      (¬ goodReading c v → bad < 2 → x.debounce v (classify c v) = (.ok (bad + 1) old, none)) ∧
      (¬ goodReading c v → 2 ≤ bad → x.debounce v (classify c v) = (.faulted (badKind c v) 0, some (badKind c v))) := by
  subst h
  refine ⟨fun good => by rw [classify_good good]; rfl, fun out few => ?_, fun out many => ?_⟩
  · rw [classify_bad out]
    exact if_pos (by omega)
  · rw [classify_bad out]
    exact if_neg (by omega)

theorem debounce_faulted {c : Fin 12} {x : ChannelStatus} {k : ProbeFault} {n : Nat} (v : Int) (h : x = .faulted k n) :
    (goodReading c v → n < 2 → x.debounce v (classify c v) = (.faulted k (n + 1), none)) ∧
      (goodReading c v → 2 ≤ n → x.debounce v (classify c v) = (.ok 0 (some v), none)) ∧
      (¬ goodReading c v → x.debounce v (classify c v) =
        (.faulted (badKind c v) 0, if badKind c v = k then none else some (badKind c v))) := by
  subst h
  refine ⟨fun good few => ?_, fun good many => ?_, fun out => by rw [classify_bad out]; rfl⟩
  · rw [classify_good good]
    exact if_pos (by omega)
  · rw [classify_good good]
    exact if_neg (by omega)

/-! ### TOP_LIMIT (R47, R105 to R107) -/

/-- A TOP_LIMIT channel that is FAULTED, at this conversion or before (R47, R105). -/
theorem deliverTopLimit_faulted {c : Fin 12} {s : State} (b : Bool) (h : s.pfe.channels[c].isFaulted = true) :
    deliverTopLimit c b s = (topProbeIsLost s).notify := by
  unfold deliverTopLimit
  dsimp only
  cases b with
  | false => exact if_pos h
  | true =>
    have moved := topProbeIsLost_moved s
    rw [if_pos rfl, moved.pfe, if_pos h]
    exact lost_again (by rw [moved.scu])

/-- A TOP_LIMIT channel that is OK (R105): its value, if it has one. -/
theorem deliverTopLimit_ok {c : Fin 12} {s : State} {bad : Nat} {v : Option Int} (h : s.pfe.channels[c].status = .ok bad v) :
    deliverTopLimit c false s = v.elim s fun v => (topLimitValue v s).notify := by
  have sound : s.pfe.channels[c].isFaulted = false := by unfold Channel.isFaulted; rw [h]
  have value : s.pfe.channels[c].value = v := by unfold Channel.value; rw [h]
  unfold deliverTopLimit
  simp only [Bool.false_eq_true, if_false, sound, value]
  cases v <;> rfl

/-- Settles O46. -/
theorem topLimitSetsAndClearsTheLatch : Obligations.TopLimitSetsAndClearsTheLatch := by
  intro s c raw turn role sound
  have run := exec_conversion raw turn
  obtain ⟨kept, settings⟩ := execConversion_kept c raw run
  obtain ⟨pfe, -, scu, -, kinds, -⟩ := received_frame s c raw
  have delivered : deliverRole c s.clm.model.seeded (s.faults c raw) (s.received c raw) =
      deliverTopLimit c (s.faults c raw) (s.received c raw) := by
    unfold deliverRole
    rw [pfe, State.converted_map, role]
  have faults : s.faults c raw = ((s.converted c raw).channels[c].isFaulted && !s.pfe.channels[c].isFaulted) := by
    obtain ⟨f, p, o, read, -⟩ := pfeConvert_frame c raw s
    unfold State.faults
    rw [read]
  rw [delivered] at run kept settings
  set u := s.received c raw with hu
  set v := deliverTopLimit c (s.faults c raw) u with hv
  obtain ⟨scu', kinds'⟩ := deliverNoCollector_frame c v
  have status : (deliverNoCollector c v).pfe.channels[c].status = (s.converted c raw).channels[c].status := by
    rw [(deliverNoCollector_consumed c v).pfe, (deliverTopLimit_consumed c (s.faults c raw) u).pfe, pfe]
  generalize deliverNoCollector c v = t at run kept settings scu' kinds' status
  have latch : t.scu.latch = v.scu.latch := by rw [scu']
  have latch_u : u.scu.latch = s.scu.latch := by rw [scu]
  have hard_u : u.scu.hardMax = s.scu.hardMax := by rw [scu]
  have kind (k : FaultKind) (a : k ≠ .collectorOverheat) (b : k ≠ .probeOpen) (d : k ≠ .probeShort) (e : k ≠ .anchorsLost)
      {l : Latch} {k0 : FaultKind} {x : Subject} {told : Bool} (moved : LatchMoved l k0 x told u v) :
      t.flt.kindRec k = if told = true ∧ k = k0 then s.reported k x else s.flt.kindRec k := by
    rw [kinds' k a, moved.kinds k]
    split
    next h =>
      obtain ⟨-, rfl⟩ := h
      simp only [State.reported, kinds k b d e]
    next => exact kinds k b d e
  have still (h : v = u) (l : Latch) (k0 : FaultKind) (x : Subject) (same : s.scu.latch = l) : LatchMoved l k0 x false u v := by
    rw [h]
    exact .silent (by rw [← same, ← latch_u]; exact .refl u)
  have sound_of {bad : Nat} {w : Option Int} (h : t.pfe.channels[c].status = .ok bad w) :
      v = w.elim u fun w => (topLimitValue w u).notify := by
    have here : u.pfe.channels[c].status = .ok bad w := by rw [pfe, ← status, h]
    have unfaulted : s.faults c raw = false := by
      have ok : (s.converted c raw).channels[c].isFaulted = false := by unfold Channel.isFaulted; rw [← status, h]
      rw [faults, ok, Bool.false_and]
    rw [hv, unfaulted]
    exact deliverTopLimit_ok here
  refine ⟨t, run, congrArg Prod.fst (State.limits_of_settings settings), fun bad old h => ⟨fun good => ?_, fun out few => ?_⟩,
    fun bad w h => ?_, fun bad h => ?_, fun k n h => ?_, fun set n => (kept.slots sound n).2.2.2 set⟩
  · rw [status, converted_status, (debounce_ok _ h).1 good]
  · rw [status, converted_status, (debounce_ok _ h).2.1 out few]
  · have moved := topLimitValue_moved w u
    rw [← show v = (topLimitValue w u).notify from sound_of h] at moved
    have goes : t.scu.latch = latchAfter u w := latch.trans (by rw [moved.scu])
    rw [latchAfter, latch_u, hard_u] at goes
    refine ⟨fun clear low => ?_, fun clear high => ?_, fun set low => ?_, fun set high => ?_, ?_, ?_⟩
    · rw [goes, if_pos clear, if_neg (by omega)]
    · rw [goes, if_pos clear, if_pos high]
    · rw [goes, if_neg set, if_pos low]
    · rw [goes, if_neg set, if_neg (by omega)]
    · rw [kind _ (by simp) (by simp) (by simp) (by simp) moved, latch_u, hard_u]
      simp
    · rw [kind _ (by simp) (by simp) (by simp) (by simp) moved, if_neg (by simp)]
  · have moved := still (sound_of h) _ .cylinderOvertemp .none rfl
    refine ⟨latch.trans (by rw [moved.scu]), ?_, ?_⟩
    · rw [kind _ (by simp) (by simp) (by simp) (by simp) moved, if_neg (by simp)]
    · rw [kind _ (by simp) (by simp) (by simp) (by simp) moved, if_neg (by simp)]
  · have faulted : u.pfe.channels[c].isFaulted = true := by
      unfold Channel.isFaulted
      rw [pfe, ← status, h]
    have moved := topProbeIsLost_moved u
    have subject : u.pfe.topSubject = .channel c := by
      have mapped : u.pfe.map.channelOf .topLimit = some c := by
        rw [pfe, State.converted_map]
        exact roleOf_some role
      unfold Pfe.topSubject
      rw [mapped]
    rw [← deliverTopLimit_faulted (s.faults c raw) faulted, ← hv, subject] at moved
    refine ⟨latch.trans (by rw [moved.scu]), ?_, ?_⟩
    · rw [kind _ (by simp) (by simp) (by simp) (by simp) moved, latch_u]
      by_cases lost : s.scu.latch = .probeLost <;> simp [lost]
    · rw [kind _ (by simp) (by simp) (by simp) (by simp) moved, if_neg (by simp)]

end Sys2Proof.Machine
end

section
/-! PROOFS. A COLLECTOR conversion and the solar loop (chapter 7). -/

namespace Sys2Proof.Machine

/-! ### The steps of an evaluation (R135 to R141) -/

/-- At or above the threshold of STAGNANT, which holds until 100 dd below (R135, R136). -/
abbrev solarHot (x : SolarSettings) (v : Int) (w : SolarState) : Prop :=
  (if w = .stagnant then x.collectorMax - 100 else x.collectorMax) ≤ v

/-- In the limit band (R137). -/
abbrev solarBand (x : SolarSettings) (i : SolarInputs) (w : SolarState) : Prop :=
  i.latched = true ∨ (if w = .limit ∨ w = .cooldown then x.solarMax - 30 else x.solarMax) ≤ i.top

/-- The collector is cold enough to cool the cylinder (R138). -/
abbrev solarCools (x : SolarSettings) (i : SolarInputs) (v more : Int) : Prop :=
  x.cooldownEnable = true ∧ x.solarMax - 100 < i.top ∧ v ≤ i.top - x.cooldownDiff + more

/-- COOLDOWN is held or entered (R138). -/
abbrev solarCooling (x : SolarSettings) (i : SolarInputs) (v : Int) (w : SolarState) : Prop :=
  w = .cooldown ∧ solarCools x i v 30 ∨ w = .limit ∧ solarBand x i w ∧ solarCools x i v 0

/-- Frost with a warm bottom (R139). -/
abbrev solarIcy (x : SolarSettings) (i : SolarInputs) (v : Int) (w : SolarState) : Prop :=
  150 ≤ i.bottom ∧ (if w = .frost then v < x.frost + 30 else v ≤ x.frost)

/-- The difference to the coil carries the loop (R140). -/
abbrev solarCarries (x : SolarSettings) (i : SolarInputs) (v : Int) (w : SolarState) : Prop :=
  if w = .run then x.offDiff < v - i.reference else x.onDiff ≤ v - i.reference

theorem frostStep_eq (x : SolarSettings) (i : SolarInputs) (v : Int) (w : SolarState) :
    frostStep x i v w =
      if solarIcy x i v w then (.frost, x.minSpeed)
      else if solarCarries x i v w then (.run, runSpeed x (v - i.reference)) else (.off, 0) := by
  unfold frostStep differentialStep
  cases w <;> simp [solarIcy, solarCarries, and_comm]

/-- A state that holds neither FROST nor RUN is judged for them as OFF is. -/
theorem frostStep_off {w : SolarState} (frost : w ≠ .frost) (run : w ≠ .run) (x : SolarSettings) (i : SolarInputs) (v : Int) :
    frostStep x i v .off = frostStep x i v w := by
  simp [frostStep_eq, solarIcy, solarCarries, frost, run]

theorem limitTest_eq (x : SolarSettings) (i : SolarInputs) (v : Int) :
    limitTest x i v =
      if solarBand x i .limit then if solarCools x i v 0 then (.cooldown, x.minSpeed) else (.limit, 0) else frostStep x i v .off := by
  simp [limitTest, solarBand, solarCools]

theorem limitStep_eq (x : SolarSettings) (i : SolarInputs) (v : Int) (w : SolarState) :
    limitStep x i v w =
      if solarCooling x i v w then (.cooldown, x.minSpeed)
      else if solarBand x i w then (.limit, 0) else frostStep x i v w := by
  have less : solarCools x i v 0 → solarCools x i v 30 := fun ⟨on, warm, cold⟩ => ⟨on, warm, by omega⟩
  have limit : limitStep x i v .limit = limitTest x i v := rfl
  have cooldown : limitStep x i v .cooldown =
    if solarCools x i v 30 then (.cooldown, x.minSpeed) else limitTest x i v := rfl
  cases w
  case limit =>
    rw [limit, limitTest_eq, frostStep_off (w := .limit) nofun nofun]
    by_cases band : solarBand x i .limit <;> by_cases cools : solarCools x i v 0 <;> simp [solarCooling, band, cools]
  case cooldown =>
    rw [cooldown, limitTest_eq, frostStep_off (w := .cooldown) nofun nofun]
    by_cases cools : solarCools x i v 30
    · rw [if_pos cools, if_pos (.inl ⟨rfl, cools⟩)]
    · have none : ¬ solarCools x i v 0 := fun h => cools (less h)
      simp only [solarCooling, reduceCtorEq, true_and, false_and, or_false, if_neg cools, if_neg none]
      rfl
  all_goals simp [limitStep, solarCooling, solarBand]

/-- The steps of an evaluation in one chain (R135 to R140). -/
theorem solarSteps_eq (x : SolarSettings) (i : SolarInputs) (v : Int) (w : SolarState) :
    solarSteps x i (some v) w =
      if solarHot x v w then (.stagnant, 0)
      else if solarCooling x i v w then (.cooldown, x.minSpeed)
      else if solarBand x i w then (.limit, 0)
      else if solarIcy x i v w then (.frost, x.minSpeed)
      else if solarCarries x i v w then (.run, runSpeed x (v - i.reference)) else (.off, 0) := by
  unfold solarSteps
  cases w <;> simp [solarHot, limitStep_eq, frostStep_eq, solarCooling, solarBand, solarIcy, solarCarries]

/-- The state and speed that a chain of conditions gives, read off one by one. -/
theorem solarChain {hot cooling band icy carries : Prop} [Decidable hot] [Decidable cooling] [Decidable band] [Decidable icy]
    [Decidable carries] {slowest running : Int} {r : SolarState × Int}
    (h : r =
      if hot then (.stagnant, 0) else if cooling then (.cooldown, slowest) else if band then (.limit, 0)
      else if icy then (.frost, slowest) else if carries then (.run, running) else (.off, 0)) :
    if hot then r.1 = .stagnant ∧ r.2 = 0
    else if cooling then r.1 = .cooldown ∧ r.2 = slowest
    else if band then r.1 = .limit ∧ r.2 = 0
    else if icy then r.1 = .frost ∧ r.2 = slowest
    else if carries then r.1 = .run ∧ r.2 = running else r.1 = .off ∧ r.2 = 0 := by
  subst h
  split_ifs <;> exact ⟨rfl, rfl⟩

/-! ### The pump line (R142) -/

theorem carrier_of_settings {s t : State} (h : t.settings = s.settings) (f : LineFunction) : t.carrier f = s.carrier f := by
  obtain ⟨-, -, -, -, -, -, -, lines, -⟩ := State.figures_of_settings h
  have functions (i : Fin 8) : t.olu[i].function = s.olu[i].function := congrArg Prod.fst (congrFun lines i)
  simp only [State.carrier, functions]

theorem evaluate_pumpLine (e : SarEvent) {s : State} {i : Fin 8} (pump : s.olu[i].function = .solarPump) :
    (evaluate e s).olu[i] = s.olu[i] :=
  (evaluate_awake e s).lines i fun n => by rw [pump]; exact ⟨nofun, nofun⟩

/-- The pump line after a change of state or speed (R142). -/
theorem tellSolarChange_pump {b : Slc} {s : State} {i : Fin 8} (carries : s.carrier .solarPump = some i)
    (moved : s.slc.state ≠ b.state ∨ s.slc.speed ≠ b.speed) :
    (tellSolarChange b s).olu[i].auto = if 6 ≤ i.val then s.slc.speed.toNat else if 0 < s.slc.speed then 100 else 0 := by
  have asked : askSolarPump s.slc.speed s =
      askLine .solarPump (if isRelay i then onOff (decide (0 < s.slc.speed)) else s.slc.speed.toNat) s := by
    unfold askSolarPump
    rw [carries]
  have auto : (askSolarPump s.slc.speed s).olu[i].auto = if 6 ≤ i.val then s.slc.speed.toNat else if 0 < s.slc.speed then 100 else 0 := by
    rw [asked]
    unfold askLine
    rw [carries]
    refine (congrArg Line.auto (State.olu_setLine ..)).trans ((congrArg Line.auto (if_pos rfl)).trans ((Line.drive_auto ..).trans ?_))
    by_cases relay : i.val < 6
    · simp [isRelay, onOff, relay, Nat.not_le.2 relay]
    · simp [isRelay, relay, Nat.not_lt.1 relay]
  have function : (askSolarPump s.slc.speed s).olu[i].function = .solarPump := by
    rw [asked]
    exact carrier_function ((askLine_carrier ..).trans carries)
  have told : tellSolarChange b s = if s.slc.state = b.state then askSolarPump s.slc.speed s
      else evaluate (.solarChange b.state s.slc.state) (fmuSolarChange s.slc.state (askSolarPump s.slc.speed s)) := by
    unfold tellSolarChange
    dsimp only
    rw [if_neg (c := s.slc.state = b.state ∧ s.slc.speed = b.speed) fun h => moved.elim (· h.1) (· h.2)]
  rw [told]
  split
  · exact auto
  · have olu : (fmuSolarChange s.slc.state (askSolarPump s.slc.speed s)).olu = (askSolarPump s.slc.speed s).olu := by
      rw [fmuSolarChange_eq]
    rw [evaluate_pumpLine _ (by rw [olu]; exact function), olu]
    exact auto

/-- The pump line after one evaluation of the solar loop (R142). -/
theorem solarEvaluate_pump {s : State} (on : s.slc.state ≠ .disabled) (v : Option Int) {i : Fin 8}
    (carries : s.carrier .solarPump = some i)
    (moved : (s.solarStep v).1 ≠ s.slc.state ∨ (s.solarStep v).2 ≠ s.slc.speed) :
    (solarEvaluate v s).olu[i].auto =
      if 6 ≤ i.val then (s.solarStep v).2.toNat else if 0 < (s.solarStep v).2 then 100 else 0 := by
  rw [solarEvaluate_eq on]
  split
  · have carries : (report .collectorOverheat .none { s with slc := s.solarRecord v }).carrier .solarPump = some i :=
      (carrier_of_settings (s := { s with slc := s.solarRecord v }) (report_inner ..).settings _).trans carries
    have slc : (report .collectorOverheat .none { s with slc := s.solarRecord v }).slc = s.solarRecord v := report_slc ..
    have pump := tellSolarChange_pump (b := s.slc) carries (by rw [slc]; exact moved)
    rw [slc] at pump
    exact pump
  · exact tellSolarChange_pump (s := { s with slc := s.solarRecord v }) carries moved

/-- What the loop reads of the cylinder (R134). -/
theorem State.solarInputs_reference (s : State) :
    s.solarInputs.reference =
      if s.clm.model ≠ .unseeded then s.temp s.scu.coil0Low
      else
        match s.pfe.roleValue (.anchor 5) with
        | some v => max 0 (min 1000 v)
        | none => s.clm.mainsDefault := by
  unfold State.solarInputs
  simp only [seeded_iff]
  rfl

/-- Settles O47. -/
theorem solarLoopFollowsTheCollector : Obligations.SolarLoopFollowsTheCollector := by
  intro s c raw turn role reading good x was
  have run := exec_conversion raw turn
  obtain ⟨-, settings⟩ := execConversion_kept c raw run
  obtain ⟨pfe, slc, scu, same, kinds, -⟩ := received_frame s c raw
  have delivered : deliverNoCollector c (deliverRole c s.clm.model.seeded (s.faults c raw) (s.received c raw)) =
      solarEvaluate (s.received c raw).pfe.channels[c].value (s.received c raw) := by
    unfold deliverRole
    rw [pfe, State.converted_map, role]
    dsimp only
    unfold deliverNoCollector
    rw [(solarEvaluate_consumed ..).pfe, pfe, State.converted_map, roleOf_some role]
    exact if_neg fun h => Option.some_ne_none c h.1
  rw [delivered] at run settings
  generalize s.received c raw = u at *
  obtain ⟨-, -, -, -, -, unmoved, -⟩ := State.figures_of_settings settings
  refine ⟨_, run, unmoved, fun off => ?_, fun on => ?_⟩
  · have still : solarEvaluate u.pfe.channels[c].value u = u := if_pos (by rw [slc]; exact off)
    rw [still, slc]
  have on' : u.slc.state ≠ .disabled := by rw [slc]; exact on
  have value : (solarEvaluate u.pfe.channels[c].value u).pfe.channels[c].value = u.pfe.channels[c].value := by
    rw [(solarEvaluate_consumed ..).pfe]
  have status : (u.pfe.channels[c]).status = _ := pfe ▸ converted_status s c raw
  have carrier : u.carrier .solarPump = s.carrier .solarPump := carrier_of_settings same _
  have overheat : u.flt.kindRec .collectorOverheat = s.flt.kindRec .collectorOverheat := kinds _ nofun nofun nofun
  have pump (i : Fin 8) := solarEvaluate_pump on' u.pfe.channels[c].value (i := i)
  obtain ⟨slc', clm', pfe', -, kinds'⟩ := solarEvaluate_frame on' u.pfe.channels[c].value
  have reference : u.solarInputs.reference =
      if u.clm.model ≠ .unseeded then u.temp s.scu.coil0Low
      else
        match u.pfe.roleValue (.anchor 5) with
        | some v => max 0 (min 1000 v)
        | none => s.clm.mainsDefault := by
    have low : u.scu.coil0Low = s.scu.coil0Low := by rw [scu]
    have mains : u.clm.mainsDefault = s.clm.mainsDefault := by
      obtain ⟨figures, -⟩ := State.figures_of_settings same
      exact congrArg (·.2.2.1) figures
    rw [State.solarInputs_reference, low, mains]
  generalize solarEvaluate u.pfe.channels[c].value u = t at *
  have steps : u.solarStep u.pfe.channels[c].value = solarSteps x u.solarInputs u.pfe.channels[c].value was := by
    unfold State.solarStep
    rw [slc]
  have latched : u.solarInputs.latched = decide (s.scu.latch ≠ .clear) := by
    unfold State.solarInputs
    rw [scu]
  have chain (v : Int) (h : u.pfe.channels[c].value = some v) := steps.trans (h ▸ solarSteps_eq x u.solarInputs v was)
  have state : t.slc.state = (u.solarStep u.pfe.channels[c].value).1 := by rw [slc']; rfl
  have speed : t.slc.speed = (u.solarStep u.pfe.channels[c].value).2 := by rw [slc']; rfl
  have collector : t.slc.collector = u.pfe.channels[c].value := by rw [slc']; rfl
  have temp (i : Fin 16) : t.temp i = u.temp i := by unfold State.temp; rw [clm']
  have absent (h : u.pfe.channels[c].value = none) : t.slc.state = .fault ∧ t.slc.speed = 0 := by
    rw [state, speed, steps, h]; exact ⟨rfl, rfl⟩
  have referred : t.slc.reference = some u.solarInputs.reference := by rw [slc']; rfl
  have reads : u.clm = t.clm ∧ u.pfe = t.pfe := ⟨clm'.symm, pfe'.symm⟩
  have reference_t := reference
  rw [reads.1, reads.2, ← temp] at reference_t
  refine ⟨fun kind n faulted out => ?_, fun bad old ok good => ?_, ?_⟩
  · have none : u.pfe.channels[c].value = none := by
      unfold Channel.value
      rw [status, (debounce_faulted _ faulted).2.2 out]
    exact ⟨(absent none).1, (absent none).2, collector.trans none⟩
  · rw [collector]
    unfold Channel.value
    rw [status, (debounce_ok _ ok).1 good]
  intro ref top bottom
  have ref_eq : u.solarInputs.reference = ref := reference_t
  have top_eq : u.solarInputs.top = top := (temp 15).symm
  have bottom_eq : u.solarInputs.bottom = bottom := (temp 0).symm
  clear_value ref top bottom
  refine ⟨collector.trans value.symm, ?_, ?_, ?_, fun h => absent (value.symm.trans h), fun v some_v => ?_, ?_, fun i carries moved => ?_⟩
  · rw [referred, ref_eq]
  · rw [slc', ← top_eq]; rfl
  · rw [slc', ← bottom_eq]; rfl
  · have chain := solarChain (chain v (value.symm.trans some_v))
    rw [state, speed]
    simp only [solarHot, solarCooling, solarBand, solarCools, solarIcy, solarCarries, latched, decide_eq_true_eq, ref_eq, top_eq,
      bottom_eq, runSpeed, Int.add_zero] at chain ⊢
    exact chain
  · have reported : u.reported .collectorOverheat .none = s.reported .collectorOverheat .none := by
      simp only [State.reported, overheat]
    rw [kinds', state, slc, overheat, reported]
    simp only [and_true]
    rfl
  · have carries' := carrier.trans carries
    rw [speed]
    exact pump i carries' (by rw [← state, ← speed, slc]; exact moved)

end Sys2Proof.Machine
end

section
/-! PROOFS. What a conversion does to its channel, to the scan and to the layer table (chapters 1 and 2). -/

namespace Sys2Proof.Machine

/-! ### The nearest anchors (R11) -/

/-- The first of a sorted list's members to have an image. -/
theorem findSome?_of_first {α β : Type} {r : α → α → Prop} {l : List α} (sorted : l.Pairwise r) {f : α → Option β} {a : α} {y : β}
    (mem : a ∈ l) (image : f a = some y) (first : ∀ x ∈ l, r x a → f x = none) : l.findSome? f = some y := by
  obtain ⟨l₁, l₂, rfl⟩ := List.append_of_mem mem
  have before : ∀ x ∈ l₁, f x = none := fun x hx =>
    first x (List.mem_append_left _ hx) ((List.pairwise_append.1 sorted).2.2 x hx a (by simp))
  exact List.findSome?_eq_some_iff.2 ⟨l₁, a, l₂, rfl, image, before⟩

theorem anchorBelow_some {s : State} {j a : Fin 16} {v : Int} (h : a ≤ j) (value : s.anchorValue a = some v)
    (nearest : ∀ k, a < k → k ≤ j → s.anchorValue k = none) : s.anchorBelow j = some (a, v) := by
  refine findSome?_of_first (r := (· > ·)) ?_ (a := a) (by simpa using h) (by rw [value]; rfl) fun k mem above => ?_
  · exact List.pairwise_reverse.2 ((List.pairwise_lt_finRange 16).filter _)
  · rw [nearest k above (by simpa using mem)]; rfl

theorem anchorBelow_none {s : State} {j : Fin 16} (h : ∀ k, k ≤ j → s.anchorValue k = none) : s.anchorBelow j = none := by
  refine List.findSome?_eq_none_iff.2 fun k mem => ?_
  rw [h k (by simpa using mem)]; rfl

theorem anchorAbove_some {s : State} {j b : Fin 16} {v : Int} (h : j ≤ b) (value : s.anchorValue b = some v)
    (nearest : ∀ k, j ≤ k → k < b → s.anchorValue k = none) : s.anchorAbove j = some (b, v) := by
  refine findSome?_of_first (r := (· < ·)) ((List.pairwise_lt_finRange 16).filter _) (a := b) (by simpa using h)
    (by rw [value]; rfl) fun k mem below => ?_
  rw [nearest k (by simpa using mem) below]; rfl

theorem anchorAbove_none {s : State} {j : Fin 16} (h : ∀ k, j ≤ k → s.anchorValue k = none) : s.anchorAbove j = none := by
  refine List.findSome?_eq_none_iff.2 fun k mem => ?_
  rw [h k (by simpa using mem)]; rfl

/-- The seeded temperature by the nearest anchors (R11). -/
theorem seedTemp_of {s : State} {j : Fin 16} {below above : Option (Fin 16 × Int)} (lower : s.anchorBelow j = below)
    (upper : s.anchorAbove j = above) :
    (∀ v, below = some (j, v) → above = some (j, v) → s.seedTemp j = v) ∧
    (∀ a b ta tb, a ≠ b → below = some (a, ta) → above = some (b, tb) →
      s.seedTemp j = ta + ((tb - ta) * ((j.val : Int) - a.val)).tdiv ((b.val : Int) - a.val)) ∧
    (∀ b tb, below = none → above = some (b, tb) → s.seedTemp j = tb) ∧
    (∀ a ta, below = some (a, ta) → above = none → s.seedTemp j = ta) ∧
    (below = none → above = none → s.seedTemp j = s.tMains) := by
  unfold State.seedTemp
  rw [lower, upper]
  refine ⟨?_, ?_, ?_, ?_, ?_⟩
  · rintro v rfl rfl; exact if_pos rfl
  · rintro a b ta tb apart rfl rfl; exact if_neg apart
  · rintro b tb rfl rfl; rfl
  · rintro a ta rfl rfl; rfl
  · rintro rfl rfl; rfl

/-- The value of an anchored layer (R5, R11). -/
theorem anchorValue_of {u : State} {j : Fin 16} {a : Fin 6} (ok : u.pfe.map.ok) (layer : u.pfe.map.layer[a] = j)
    (channel : u.pfe.map.channelOf (.anchor a) ≠ none) :
    u.anchorValue j = (u.pfe.roleValue (.anchor a)).map fun v => max 0 (min 1000 v) := by
  unfold State.anchorValue
  rw [(anchorAt_iff ok j a).2 ⟨channel, layer⟩]
  rfl

/-! ### The anchoring update (R27) -/

/-- Rounding half away from zero, by the sign of the figure (R27). -/
theorem roundDiv_eq (x : Int) (d : Nat) :
    roundDiv x d = if 0 ≤ x then (2 * x + d) / (2 * d) else -((d - 2 * x) / (2 * d)) := by
  unfold roundDiv
  by_cases low : x < 0
  · rw [if_pos low, if_neg (by omega), show 2 * x + -(d : Int) = -(d - 2 * x) by ring, Int.neg_tdiv, Int.tdiv_eq_ediv_of_nonneg (by omega)]
  · rw [if_neg low, if_pos (by omega), Int.tdiv_eq_ediv_of_nonneg (by omega)]

theorem temperatures_set (l : Vector Layer 16) (k : Fin 16) (x : Layer) :
    temperatures (l.set k x) = (temperatures l).set k.val x.temp := by
  unfold temperatures
  rw [Vector.toList_set, List.map_set]

/-- A table whose temperatures are all replaced does not remember one of them. -/
theorem retempered (l : Vector Layer 16) (k i : Fin 16) (a b : Int) :
    ({ (l.set k { l[k] with temp := a })[i] with temp := b } : Layer) = { l[i] with temp := b } := by
  by_cases h : k = i
  · subst h
    simp
  · have other : (l.set k { l[k] with temp := a })[i] = l[i] := Vector.getElem_set_ne _ _ fun e => h (Fin.ext e)
    rw [other]

/-- An anchoring update: the layer's temperature corrected, the table mixed and put in order (R7, R27). -/
theorem anchorUpdate_moved (k : Fin 16) (v : Int) (s : State) :
    (anchorUpdate k v s).clm.model = s.clm.model ∧ (anchorUpdate k v s).flt = s.flt ∧
      ∀ i : Fin 16, (anchorUpdate k v s).clm.layers[i] =
        { s.clm.layers[i] with
          temp := (order (blend ((temperatures s.clm.layers).set k.val
            (max 0 (min 1000 (s.temp k + roundDiv (v - s.temp k) (2 ^ s.clm.anchorWeight))))))).getD i.val 0 } := by
  refine ⟨(congrArg Clm.model (completeUpdate_clm _) :), completeUpdate_flt _, fun i => (completeUpdate_layer _ i).trans ?_⟩
  show ({ (s.clm.layers.set k { s.clm.layers[k] with temp := _ })[i] with
    temp := (order (blend (temperatures (s.clm.layers.set k { s.clm.layers[k] with temp := _ })))).getD i.val 0 } : Layer) = _
  rw [temperatures_set]
  exact retempered ..

/-! ### The model's part of a conversion (R10, R13, R14) -/

/-- While UNSEEDED the channel joins the scan record, and a whole record seeds the table (R10). -/
theorem clmReceive_unseeded {s : State} (h : s.clm.model = .unseeded) (c : Fin 12) (b : Bool) :
    let scanned := s.clm.scanned.set c true
    ((∃ d : Fin 12, scanned[d] = false) → clmReceive c b s = { s with clm := { s.clm with scanned := scanned } }) ∧
      ((∀ d : Fin 12, scanned[d] = true) → clmReceive c b s = seed { s with clm := { s.clm with scanned := scanned } }) := by
  have all (v : Vector Bool 12) : v.toList.all id = true ↔ ∀ d : Fin 12, v[d] = true := by
    simp only [List.all_eq_true, Vector.mem_toList_iff, Vector.mem_iff_getElem]
    exact ⟨fun h d => h _ ⟨d.val, d.isLt, rfl⟩, fun h x ⟨i, lt, e⟩ => e ▸ h ⟨i, lt⟩⟩
  have joins : clmReceive c b s =
      if (s.clm.scanned.set c true).toList.all id then seed { s with clm := { s.clm with scanned := s.clm.scanned.set c true } }
      else { s with clm := { s.clm with scanned := s.clm.scanned.set c true } } := by
    unfold clmReceive
    rw [h]
    rfl
  refine ⟨fun ⟨d, missing⟩ => ?_, fun whole => ?_⟩
  · rw [joins, if_neg fun h => ?_]
    exact Bool.false_ne_true (missing.symm.trans ((all _).1 h d))
  · rw [joins, if_pos ((all _).2 whole)]

/-- While seeded only the model state may change: FREE_RUNNING with a report when no anchor has a value, TRACKING when one
delivers (R13, R14). -/
theorem examineAnchors_cases (b : Bool) (s : State) :
    (s.clm.model = .tracking → s.pfe.anyAnchorValue = true → examineAnchors b s = s) ∧
    (s.clm.model = .tracking → s.pfe.anyAnchorValue = false →
      examineAnchors b s = report .anchorsLost .none { s with clm := { s.clm with model := .freeRunning } }) ∧
    (s.clm.model = .freeRunning →
      examineAnchors b s = if b then { s with clm := { s.clm with model := .tracking } } else s) := by
  unfold examineAnchors
  refine ⟨fun m any => ?_, fun m any => ?_, fun m => ?_⟩
  · rw [m, any]; rfl
  · rw [m, any]; rfl
  · rw [m]

theorem anyAnchorValue_iff (p : Pfe) : p.anyAnchorValue = true ↔ ∃ a : Fin 6, p.roleValue (.anchor a) ≠ none := by
  simp [Pfe.anyAnchorValue, Option.isSome_iff_ne_none]

/-- The reading is reported: out of range, and it makes the channel FAULTED or changes its kind (R37, R39). -/
def State.blames (s : State) (c : Fin 12) (raw : Int) : Prop :=
  ¬ goodReading c (raw + s.pfe.channels[c].trim) ∧
    match s.pfe.channels[c].status with
    | .ok bad _ => 2 ≤ bad
    | .faulted k _ => k ≠ badKind c (raw + s.pfe.channels[c].trim)

theorem faultAt_iff (s : State) (c : Fin 12) (raw : Int) (k : ProbeFault) :
    s.faultAt c raw = some k ↔ s.blames c raw ∧ k = badKind c (raw + s.pfe.channels[c].trim) := by
  show (s.pfe.channels[c].status.debounce _ (classify c _)).2 = some k ↔ _
  unfold State.blames
  generalize raw + s.pfe.channels[c].trim = v
  generalize s.pfe.channels[c].status = x
  by_cases good : goodReading c v
  · cases x with
    | ok bad old => simp [(debounce_ok _ rfl).1 good, good]
    | faulted l n =>
      by_cases few : n < 2
      · simp [(debounce_faulted _ rfl).1 good few, good]
      · simp [(debounce_faulted (n := n) _ rfl).2.1 good (by omega), good]
  · cases x with
    | ok bad old =>
      by_cases few : bad < 2
      · simp [(debounce_ok _ rfl).2.1 good few, few]
      · simp [(debounce_ok (bad := bad) _ rfl).2.2 good (by omega), good, Nat.not_lt.1 few, eq_comm]
    | faulted l n =>
      by_cases same : badKind c v = l
      · simp [(debounce_faulted _ rfl).2.2 good, same]
      · simp [(debounce_faulted _ rfl).2.2 good, good, same, eq_comm, Ne.symm same]

theorem deliverRole_kinds (c : Fin 12) (seeded faulted : Bool) (s : State) {k : FaultKind} (a : k ≠ .topProbeLost)
    (b : k ≠ .cylinderOvertemp) (d : k ≠ .collectorOverheat) : (deliverRole c seeded faulted s).flt.kindRec k = s.flt.kindRec k := by
  unfold deliverRole
  split
  · split
    · unfold deliverAnchor
      split
      · split
        · rw [(anchorUpdate_moved ..).2.1]
        · rfl
      · rfl
    · rfl
  · exact (solarEvaluate_consumed ..).kinds k a b d
  · exact (deliverTopLimit_consumed ..).kinds k a b d
  · rfl

theorem anchorValue_congr {s t : State} (pfe : t.pfe = s.pfe) : t.anchorValue = s.anchorValue := by
  funext k
  unfold State.anchorValue
  rw [pfe]

theorem seedTemp_congr {s t : State} (pfe : t.pfe = s.pfe) (mains : t.clm.mainsDefault = s.clm.mainsDefault) :
    t.seedTemp = s.seedTemp := by
  funext j
  unfold State.seedTemp State.anchorBelow State.anchorAbove State.tMains
  rw [anchorValue_congr pfe, pfe, mains]

/-- A conversion while UNSEEDED (R10 to R12). -/
theorem received_unseeded {s : State} (h : s.clm.model = .unseeded) (c : Fin 12) (raw : Int) :
    let scanned := s.clm.scanned.set c true
    ((∃ d : Fin 12, scanned[d] = false) →
      (s.received c raw).clm = { s.clm with scanned := scanned } ∧
        (s.received c raw).flt.kindRec .anchorsLost = s.flt.kindRec .anchorsLost) ∧
    ((∀ d : Fin 12, scanned[d] = true) → ∃ w, s.received c raw = seed w ∧ w.clm = { s.clm with scanned := scanned } ∧
      w.pfe = s.converted c raw ∧ w.zdu = s.zdu ∧ w.flt.kindRec .anchorsLost = s.flt.kindRec .anchorsLost) := by
  obtain ⟨f, p, o, read, -, others⟩ := pfeConvert_frame c raw s
  have before : f.kindRec .anchorsLost = s.flt.kindRec .anchorsLost := others _ fun k _ => by cases k <;> exact nofun
  have clm : (pfeConvert c raw s).clm = s.clm := by rw [read]
  have flt : (pfeConvert c raw s).flt = f := by rw [read]
  obtain ⟨joins, seeds⟩ := clmReceive_unseeded (by rw [clm]; exact h) c ((pfeConvert c raw s).deliversAnchor c)
  rw [clm] at joins seeds
  refine ⟨fun missing => ?_, fun whole => ⟨_, seeds whole, rfl, ?_, ?_, ?_⟩⟩
  · have joined : s.received c raw = _ := joins missing
    rw [joined]
    exact ⟨rfl, by rw [← before, ← flt]⟩
  · rw [read]
  · rw [read]
  · rw [← before, ← flt]

/-- A conversion while seeded: the model's examination of the anchors (R13, R14). -/
theorem received_seeded {s : State} (h : s.clm.model ≠ .unseeded) (c : Fin 12) (raw : Int) :
    (∀ a v, s.pfe.map.roleOf c = some (.anchor a) → (s.converted c raw).channels[c].value = some v →
      (s.received c raw).clm = { s.clm with model := .tracking } ∧
        (s.received c raw).flt.kindRec .anchorsLost = s.flt.kindRec .anchorsLost) ∧
    ((∀ a, s.pfe.map.roleOf c ≠ some (.anchor a)) ∨ (s.converted c raw).channels[c].value = none →
      let lost := s.clm.model = .tracking ∧ ∀ a : Fin 6, (s.converted c raw).roleValue (.anchor a) = none
      (lost → (s.received c raw).clm = { s.clm with model := .freeRunning } ∧
        (s.received c raw).flt.kindRec .anchorsLost = s.reported .anchorsLost .none) ∧
      (¬ lost → (s.received c raw).clm = s.clm ∧
        (s.received c raw).flt.kindRec .anchorsLost = s.flt.kindRec .anchorsLost)) := by
  obtain ⟨f, p, o, read, -, others⟩ := pfeConvert_frame c raw s
  have before : f.kindRec .anchorsLost = s.flt.kindRec .anchorsLost := others _ fun k _ => by cases k <;> exact nofun
  have delivers : (pfeConvert c raw s).deliversAnchor c =
      match s.pfe.map.roleOf c with
      | some (.anchor _) => (s.converted c raw).channels[c].value.isSome
      | _ => false := by
    rw [read]; rfl
  have received : s.received c raw = examineAnchors ((pfeConvert c raw s).deliversAnchor c) (pfeConvert c raw s) := by
    refine if_pos ((seeded_iff _).2 ?_)
    rw [read]; exact h
  rw [received]
  generalize (pfeConvert c raw s).deliversAnchor c = b at delivers
  have model : s.clm.model = .tracking ∨ s.clm.model = .freeRunning := by
    cases e : s.clm.model
    · exact absurd e h
    · exact .inl rfl
    · exact .inr rfl
  rw [read]
  generalize hu : ({ s with pfe := s.converted c raw, flt := f, pins := p, olu := o } : State) = u
  have clm : u.clm = s.clm := by rw [← hu]
  have pfe : u.pfe = s.converted c raw := by rw [← hu]
  have flt : u.flt.kindRec .anchorsLost = s.flt.kindRec .anchorsLost := by rw [← hu]; exact before
  obtain ⟨keeps, loses, gains⟩ := examineAnchors_cases b u
  rw [clm] at keeps loses gains
  have any := anyAnchorValue_iff u.pfe
  rw [pfe] at any keeps loses
  refine ⟨fun a v role value => ?_, fun silent => ⟨fun ⟨tracking, absent⟩ => ?_, fun kept => ?_⟩⟩
  · rcases model with m | m
    · have some_anchor : (s.converted c raw).roleValue (.anchor a) ≠ none := by
        have mapped : (s.converted c raw).map.channelOf (.anchor a) = some c := roleOf_some role
        unfold Pfe.roleValue
        rw [mapped]
        exact fun none => Option.some_ne_none v (value.symm.trans none)
      rw [keeps m (any.2 ⟨a, some_anchor⟩), clm, ← m]
      exact ⟨rfl, flt⟩
    · rw [role, value] at delivers
      rw [gains m, delivers]
      exact ⟨rfl, flt⟩
  · have nobody : (s.converted c raw).anyAnchorValue = false := by
      refine Bool.eq_false_iff.2 fun h => ?_
      obtain ⟨a, some_value⟩ := any.1 h
      exact some_value (absent a)
    rw [loses tracking nobody]
    refine ⟨report_clm .., (report_status ..).trans ?_⟩
    simp only [State.reported, flt]
  · rcases model with m | m
    · have someone : (s.converted c raw).anyAnchorValue = true := by
        refine any.2 (by_contra fun none => kept ⟨m, fun a => ?_⟩)
        by_contra some_value
        exact none ⟨a, some_value⟩
      rw [keeps m someone]
      exact ⟨clm, flt⟩
    · have mute : b = false := by
        rw [delivers]
        split
        next a role =>
          rcases silent with silent | silent
          · exact absurd role (silent a)
          · rw [silent]; rfl
        next => rfl
      rw [gains m, mute]
      exact ⟨clm, flt⟩

/-- Settles O45. -/
theorem conversionIsDebounced : Obligations.ConversionIsDebounced := by
  refine ⟨fun s c raw turn => ?_, fun s c raw turn => ?_, fun u j => ?_⟩
  · exact congrArg Host.Outcome.next (if_neg fun h => turn h.symm)
  · obtain ⟨f, p, o, read, blamed, others⟩ := pfeConvert_frame c raw s
    have run := exec_conversion raw turn
    obtain ⟨kept, settings⟩ := execConversion_kept c raw run
    have inner : Inner (pfeConvert c raw s)
        (deliverNoCollector c (deliverRole c s.clm.model.seeded (s.faults c raw) (s.received c raw))) :=
      convertChannel_inner c raw s
    obtain ⟨pfe, -, -, same, kinds, probes⟩ := received_frame s c raw
    have last := deliverNoCollector_consumed c (deliverRole c s.clm.model.seeded (s.faults c raw) (s.received c raw))
    have kinds' {k : FaultKind} (a : k ≠ .topProbeLost) (b : k ≠ .cylinderOvertemp) (d : k ≠ .collectorOverheat) :=
      (last.kinds k a b d).trans (deliverRole_kinds c s.clm.model.seeded (s.faults c raw) (s.received c raw) a b d)
    have consumed (h : s.clm.model.seeded = false ∨ (∀ a, s.pfe.map.roleOf c ≠ some (.anchor a)) ∨
        (s.converted c raw).channels[c].value = none) :
        (deliverNoCollector c (deliverRole c s.clm.model.seeded (s.faults c raw) (s.received c raw))).clm = (s.received c raw).clm := by
      refine last.clm.trans (deliverRole_consumed ?_).clm
      rw [pfe]; exact h
    have anchored (a : Fin 6) (v : Int) (seeded : s.clm.model ≠ .unseeded) (role : s.pfe.map.roleOf c = some (.anchor a))
        (value : (s.converted c raw).channels[c].value = some v) :
        (deliverNoCollector c (deliverRole c s.clm.model.seeded (s.faults c raw) (s.received c raw))).clm =
          (anchorUpdate s.pfe.map.layer[a] v (s.received c raw)).clm := by
      have seeded : (s.received c raw).clm.model.seeded = true := by
        rw [((received_seeded seeded c raw).1 a v role value).1]; rfl
      have before : s.clm.model.seeded = true := (seeded_iff _).2 ‹_›
      refine last.clm.trans (congrArg State.clm ?_)
      unfold deliverRole deliverAnchor
      rw [pfe, State.converted_map, role, before]
      dsimp only
      rw [if_pos rfl, value]
      exact if_pos seeded
    generalize deliverNoCollector c (deliverRole c s.clm.model.seeded (s.faults c raw) (s.received c raw)) = t at *
    have record : t.pfe = s.converted c raw := by rw [inner.pfe, read]
    have status : t.pfe.channels[c].status = _ := record ▸ converted_status s c raw
    refine ⟨t, run, by rw [record]; rfl, fun d other => ?_, by rw [record]; rfl, ?_, kept.pending, ?_, settings, ?_, ?_, ?_⟩
    · rw [record, State.converted_channel, if_neg (Ne.symm other)]
    · rw [record, State.converted_channel, if_pos rfl]
    · rw [inner.mpt, read]
    · have blames := faultAt_iff s c raw
      have told (f : ProbeFault) := (kinds' (k := f.report) (by cases f <;> exact nofun) (by cases f <;> exact nofun)
        (by cases f <;> exact nofun)).trans (probes f)
      rw [read] at told
      refine ⟨fun bad old ok => ?_, fun k n faulted => ?_, fun reports => ?_, fun g silent => ?_⟩
      · obtain ⟨good, few, many⟩ := debounce_ok (raw + s.pfe.channels[c].trim) ok
        rw [status]
        exact ⟨fun h => congrArg Prod.fst (good h), fun h k => congrArg Prod.fst (few h k), fun h k => congrArg Prod.fst (many h k)⟩
      · obtain ⟨few, many, bad⟩ := debounce_faulted (raw + s.pfe.channels[c].trim) faulted
        rw [status]
        exact ⟨fun h k => congrArg Prod.fst (few h k), fun h k => congrArg Prod.fst (many h k), fun h => congrArg Prod.fst (bad h)⟩
      · exact (told _).trans (blamed _ ((blames _).2 ⟨reports, rfl⟩))
      · refine (told g).trans (others _ fun k fault => ?_)
        obtain ⟨reports, rfl⟩ := (blames k).1 fault
        have other : g ≠ badKind c (raw + s.pfe.channels[c].trim) := silent.resolve_left (not_not_intro reports)
        exact fun e => other (by revert e; generalize badKind c _ = k; cases g <;> cases k <;> simp [ProbeFault.report])
    · intro unseeded scanned
      obtain ⟨joins, seeds⟩ := received_unseeded unseeded c raw
      have clm := consumed (.inl (by rw [unseeded]; rfl))
      have kind : t.flt.kindRec .anchorsLost = _ := kinds' nofun nofun nofun
      rw [clm, kind]
      refine ⟨joins, fun whole => ?_⟩
      obtain ⟨w, made, clm_w, pfe_w, zdu_w, kind_w⟩ := seeds whole
      obtain ⟨frame, layers, model, zoneMin, lost⟩ := seed_clm w
      rw [← made] at frame layers model zoneMin lost
      have lowest : t.zdu.lowestLayer = w.zdu.lowestLayer := by
        obtain ⟨-, -, zones, -⟩ := State.figures_of_settings settings
        have b1 : t.zdu.b1 = s.zdu.b1 := congrArg (·.1) zones
        have b2 : t.zdu.b2 = s.zdu.b2 := congrArg (·.2.1) zones
        funext z
        cases z <;> simp only [Zdu.lowestLayer, b1, b2, zdu_w]
      have mains : t.clm.mainsDefault = w.clm.mainsDefault := by rw [clm, frame]
      have seeds_eq : t.seedTemp = w.seedTemp := seedTemp_congr (record.trans pfe_w.symm) mains
      have anchors_eq : t.anchorValue = w.anchorValue := anchorValue_congr (record.trans pfe_w.symm)
      have any := anyAnchor_iff w
      have fresh (i : Fin 16) : w.seededTable.clm.layers[i] =
          { s.clm.layers[i] with
            temp := (order ((List.finRange 16).map w.seedTemp)).getD i.val 0, residue := 0, hotDwell := 0, holdAge := 65535 } := by
        have old : w.clm.layers = s.clm.layers := by rw [clm_w]
        rw [← old]
        exact tabulate_get ..
      have temp (i : Fin 16) : t.temp i = w.seededTable.temp i := by
        unfold State.temp
        rw [clm, layers]
      rw [anchors_eq, seeds_eq, lowest]
      refine ⟨?_, fun i => ?_, fun z => ?_, fun some_anchor => ?_, fun no_anchor => ?_⟩
      · rw [clm_w] at frame
        exact frame
      · rw [layers, fresh]
      · rw [zoneMin, temp]
      · have found := any.2 some_anchor
        rw [model, lost, if_pos found, kind_w]
        exact ⟨if_pos found, rfl⟩
      · have missing : ¬ ((List.finRange 16).any fun k => (w.anchorValue k).isSome) = true := fun h =>
          (any.1 h).elim fun k h => h (no_anchor k)
        rw [model, lost, if_neg missing]
        refine ⟨if_neg missing, ?_⟩
        simp only [State.reported, kind_w]
    · intro seeded
      obtain ⟨delivers, silent⟩ := received_seeded seeded c raw
      have kind : t.flt.kindRec .anchorsLost = _ := kinds' nofun nofun nofun
      rw [record]
      refine ⟨fun a v role value => ?_, fun quiet => ?_⟩
      · obtain ⟨clm, flt⟩ := delivers a v role value
        obtain ⟨model, -, layer⟩ := anchorUpdate_moved s.pfe.map.layer[a] v (s.received c raw)
        have temp (i : Fin 16) : (s.received c raw).temp i = s.temp i := by unfold State.temp; rw [clm]
        rw [anchored a v seeded role value, kind, flt]
        refine ⟨by rw [model, clm], fun i => ?_, rfl⟩
        rw [layer, clm, temp, roundDiv_eq]
        push_cast
        rfl
      · rw [consumed (.inr quiet), kind]
        exact silent quiet
  · refine ⟨fun a ok layer channel => anchorValue_of ok layer channel, fun v value => ?_, fun a b ta tb below above va vb between => ?_,
      fun b tb above vb none => ?_, fun a ta below va none => ?_, fun none => ?_⟩
    · refine (seedTemp_of (anchorBelow_some le_rfl value ?_) (anchorAbove_some le_rfl value ?_)).1 v rfl rfl
      · exact fun k a b => absurd (lt_of_lt_of_le a b) (lt_irrefl _)
      · exact fun k a b => absurd (lt_of_le_of_lt a b) (lt_irrefl _)
    · refine (seedTemp_of (anchorBelow_some below.le va ?_) (anchorAbove_some above.le vb ?_)).2.1 a b ta tb
        (below.trans above).ne rfl rfl
      · exact fun k x y => between k x (lt_of_le_of_lt y above)
      · exact fun k x y => between k (lt_of_lt_of_le below x) y
    · refine (seedTemp_of (anchorBelow_none ?_) (anchorAbove_some above.le vb ?_)).2.2.1 b tb rfl rfl
      · exact fun k x => none k (lt_of_le_of_lt x above)
      · exact fun k _ y => none k y
    · refine (seedTemp_of (anchorBelow_some below.le va ?_) (anchorAbove_none ?_)).2.2.2.1 a ta rfl rfl
      · exact fun k x _ => none k x
      · exact fun k x => none k (lt_of_lt_of_le below x)
    · exact (seedTemp_of (anchorBelow_none fun k _ => none k) (anchorAbove_none fun k _ => none k)).2.2.2.2 rfl rfl

end Sys2Proof.Machine
end

section
/-! PROOFS. Starts, stops and rests of the source slots (chapter 5): the obligations of the slot events. -/

namespace Sys2Proof.Machine

/-! ### What the arbiter's evaluations leave of a slot that works for nobody (R113)

A slot that is neither free nor lent stands, and no service begins to be served by it. -/

theorem lendable_of_free {x : SlotState} (h : x.free = true) : x.lendable = true :=
  match x, h with
  | .warm _, _ | .cold, _ | .running _ none, _ => rfl

/-- No service is newly SERVING slot `n`. -/
structure Unserving (n : SlotId) (s t : State) : Prop where
  serving : ∀ y, t.service y = .serving n → s.service y = .serving n

theorem Unserving.refl (n : SlotId) (s : State) : Unserving n s s := ⟨fun _ => id⟩

theorem Unserving.trans {n : SlotId} {s t u : State} (h : Unserving n s t) (k : Unserving n t u) : Unserving n s u :=
  ⟨fun y e => h.serving y (k.serving y e)⟩

theorem Unserving.of_services {n : SlotId} {s t : State} (h : t.sar.services = s.sar.services) : Unserving n s t :=
  ⟨fun y e => by unfold State.service at e ⊢; rwa [← h]⟩

theorem Unserving.setService {n : SlotId} {x : Service} (h : x ≠ .serving n) (z : Zone) (s : State) :
    Unserving n s (s.setService z x) := by
  refine ⟨fun y e => ?_⟩
  rw [State.service_setService] at e
  split at e
  · exact absurd e h
  · exact e

theorem waitingOrIdle_bare (s : State) (z : Zone) (n : SlotId) : s.waitingOrIdle z ≠ .serving n := by
  unfold State.waitingOrIdle
  split <;> exact nofun

theorem takeForHold_sar {n : SlotId} {s : State} {x : Sent} (h : takeForHold n s = some x) : x.1.sar = s.sar := by
  unfold takeForHold at h
  split at h
  · split at h
    · cases h; exact (startSlot_oneSlot ..).sar
    · cases h; exact (startSlot_oneSlot ..).sar
    · cases h; rfl
    · cases h; rfl
    · cases h
  · cases h

theorem recordTake_unserving (n m : SlotId) (b : SlotState) (s : State) : Unserving n s (recordTake m b s) := by
  unfold recordTake
  dsimp only
  split
  · exact (Unserving.setService (x := .suspended m) nofun _ (s.setClaim _)).trans (.of_services rfl)
  · exact .of_services rfl

theorem scanEntries_unserving (n : SlotId) (low : Fin 16) (l : List SlotId) (s : State) : Unserving n s (scanEntries low l s) := by
  induction l with
  | nil => exact .of_services rfl
  | cons m l ih =>
    rw [scanEntries]
    split
    · split
      next x taken =>
        exact ((Unserving.of_services (congrArg Sar.services (takeForHold_sar taken))).trans (recordTake_unserving ..)).trans
          (.of_services rfl)
      next => exact ih
    · exact ih

theorem holdScan_unserving (n : SlotId) (s : State) : Unserving n s (holdScan s) := by
  unfold holdScan
  split
  · split
    · exact scanEntries_unserving ..
    · exact scanEntries_unserving ..
    · exact (Unserving.of_services (s := s) (t := s.useFree) rfl).trans (scanEntries_unserving ..)
  · exact .of_services rfl

theorem grantEntries_unserving {n : SlotId} (z : Zone) (l : List SlotId) {s : State} (rests : (s.slot n).state.lendable = false) :
    Unserving n s (grantEntries z l s) := by
  induction l with
  | nil => exact .refl n s
  | cons m l ih =>
    rw [grantEntries]
    split
    next candidate =>
      split
      next x granted =>
        have free : (s.slot m).state.free = true := by
          simp only [State.candidate, Bool.and_eq_true] at candidate
          exact candidate.1.1
        have other : m ≠ n := by
          rintro rfl
          rw [lendable_of_free free] at rests
          cases rests
        refine ((Unserving.of_services (t := x.1) ?_).trans (.setService (fun e => other (by cases e; rfl)) z _)).trans (.of_services rfl)
        rw [(grantSlot_oneSlot granted).1.sar]
      next => exact ih
    next => exact ih

theorem selectGrant_unserving {n : SlotId} (z : Zone) {s : State} (rests : (s.slot n).state.lendable = false) :
    Unserving n s (selectGrant z s) := by
  unfold selectGrant
  split
  · exact grantEntries_unserving z _ rests
  · exact .refl n s

/-- A slot that rests goes on resting through what the arbiter does. -/
theorem Governed.lendable {n : SlotId} {s t : State} (h : Governed s t) (rests : (s.slot n).state.lendable = false) :
    (t.slot n).state.lendable = false := by
  rw [h.rests n rests]; exact rests

/-- The scan and the grants of an evaluation whose event has been applied. -/
theorem afterEvent_unserving {n : SlotId} {s : State} (rests : (s.slot n).state.lendable = false) :
    Unserving n s (selectGrant .low (selectGrant .mid (selectGrant .top (if s.sar.claim = .seeking then holdScan s else s)))) := by
  have scanned : Unserving n s (if s.sar.claim = .seeking then holdScan s else s) ∧
      Governed s (if s.sar.claim = .seeking then holdScan s else s) := by
    split
    · exact ⟨holdScan_unserving n s, holdScan_governed s⟩
    · exact ⟨.refl n s, .refl s⟩
  obtain ⟨unserving, governed⟩ := scanned
  generalize (if s.sar.claim = .seeking then holdScan s else s) = t at *
  have r := governed.lendable rests
  have r' := (selectGrant_governed .top t).lendable r
  have r'' := (selectGrant_governed .mid _).lendable r'
  exact ((unserving.trans (selectGrant_unserving .top r)).trans (selectGrant_unserving .mid r')).trans (selectGrant_unserving .low r'')

/-- A left-service notice ends the service of its zone (R119), and the slot that rests is not granted again at once. -/
theorem evaluate_leftService (n : SlotId) (h : Holder) (cause : LeaveCause) {s : State} (rests : (s.slot n).state.lendable = false)
    {z : Zone} (here : h = .zone z) : (evaluate (.scuNotice (.leftService n h cause)) s).service z ≠ .serving n := by
  subst here
  have r : (s.settled.slot n).state.lendable = false := (settle_governed _ s).lendable rests
  intro serves
  have event := (afterEvent_unserving ((applyEvent_governed (.scuNotice (.leftService n (.zone z) cause)) s.settled).lendable r)).serving z serves
  have left : applyEvent (.scuNotice (.leftService n (.zone z) cause)) s.settled = applyLeftService n (.zone z) s.settled := rfl
  rw [left] at event
  unfold applyLeftService at event
  split at event
  next z' e =>
    cases e
    split at event
    · rw [State.service_setService, if_pos rfl] at event
      exact waitingOrIdle_bare _ _ _ event
    · exact absurd event ‹_›
  next e => cases e

/-- With nothing to grant an available notice moves no more than an answer to the stepper (R113, R122). -/
theorem evaluate_available {s : State} (h : s.noGrant) (n : SlotId) :
    ∃ a, evaluate (.scuNotice (.available n)) s = { s with sar := { s.sar with answers := a } } := by
  obtain ⟨further, closed⟩ := h
  by_cases seeks : s.sar.claim = .seeking
  · have shut : s.grantsOpen = false := closed.resolve_right fun h => h.1 seeks
    have scan : holdScan s = s.answer .noneEligible := by
      unfold holdScan
      rw [shut]
      rfl
    have shut' : (s.answer .noneEligible).grantsOpen = false := shut
    refine ⟨s.sar.answers ++ [.noneEligible], ?_⟩
    unfold evaluate evaluateOne
    rw [State.settled_of_further further]
    dsimp only [applyEvent]
    rw [if_pos seeks, scan, selectGrant_none (.inl shut'), selectGrant_none (.inl shut'), selectGrant_none (.inl shut')]
    rfl
  · refine ⟨s.sar.answers, ?_⟩
    exact evaluate_event (e := .scuNotice (.available n)) further seeks (closed.imp_right (·.2))

/-- Whether anything can be granted is a matter of the arbiter, the model and the latch. -/
theorem State.noGrant_congr {s t : State} (h : s.noGrant) (sar : t.sar = s.sar) (clm : t.clm = s.clm)
    (latch : t.scu.latch = s.scu.latch) : t.noGrant := by
  unfold State.noGrant State.grantsOpen State.service at *
  rwa [sar, clm, latch]

/-! ### Stops (R98) -/

/-- What a stop leaves of its slot. -/
theorem stopSlot_stopped (n : SlotId) (off : Nat) (s : State) :
    (stopSlot n off s).slot n = { s.slot n with state := s.stopped n off } := by
  rw [stopSlot_slot, if_pos rfl]
  simp only [State.stopped, Bool.and_eq_true, decide_eq_true_eq, gt_iff_lt]

theorem stopped_lendable (s : State) (n : SlotId) (off : Nat) : (s.stopped n off).lendable = false := by
  unfold State.stopped
  split <;> rfl

/-- Whether a stop runs the pump on is a matter of the slot's settings and the lines' functions. -/
theorem stopped_congr {s t : State} {n : SlotId} (functions : ∀ i : Fin 8, t.olu[i].function = s.olu[i].function)
    (settings : (t.slot n).settings = (s.slot n).settings) (off : Nat) : t.stopped n off = s.stopped n off := by
  simp only [State.stopped, State.hasPumpLine, State.carrier, functions, settings]
  rfl

/-- A slot that has come to rest tells the arbiter: it stands, and its zone's service ends. -/
theorem notify_leave {n : SlotId} {u : State} (rests : (u.slot n).state.lendable = false) (h : Option Holder) (cause : LeaveCause) :
    (Sent.notify (u, leave n h cause)).slot n = u.slot n ∧
      (∀ z, h = some (.zone z) → (Sent.notify (u, leave n h cause)).service z ≠ .serving n) ∧
      Quiet u (Sent.notify (u, leave n h cause)) := by
  refine ⟨notify_rests rests, ?_, (Sent.notify_governed (u, leave n h cause)).quiet⟩
  rintro z rfl
  exact evaluate_leftService n (.zone z) cause rests rfl

theorem Quiet.untouched {s t : State} (h : Quiet s t) (settings : t.settings = s.settings) : Untouched s t :=
  ⟨h.pending, h.pfe, h.mpt, by rw [h.pins], settings⟩

/-! ### The completion of a minimum run (R95, R97) -/

/-- Slot `n` RUNNING for `h` with its minimum run complete and its failures cleared. -/
def State.completed (s : State) (n : SlotId) (h : Holder) : State :=
  s.setSlot n { s.slot n with state := .running 0 (some h), failures := 0 }

theorem State.completed_slot (s : State) (n : SlotId) (h : Holder) :
    (s.completed n h).slot n = { s.slot n with state := .running 0 (some h), failures := 0 } := by
  simp [State.completed]

theorem enterRunning_runs {n : SlotId} {s : State} (h : Holder) (long : 0 < (s.slot n).settings.minRun) :
    enterRunning n h s = (s.setSlotState n (.running (s.slot n).settings.minRun (some h)), []) := if_neg (Nat.ne_of_gt long)

theorem enterRunning_completes {n : SlotId} {s : State} (h : Holder) (none : (s.slot n).settings.minRun = 0) :
    enterRunning n h s = ceilingTest n (s.completed n h) := by
  unfold enterRunning
  dsimp only
  rw [if_pos none]
  unfold completeRun
  simp only [State.slot_setSlotState, if_true]
  rw [State.setSlotState, State.setSlot_setSlot]
  rfl

theorem completeRun_held {n : SlotId} {s : State} {r : Nat} {h : Holder} (runs : (s.slot n).state = .running r (some h)) :
    completeRun n s = ceilingTest n (s.completed n h) := by
  unfold completeRun
  dsimp only
  rw [runs]
  rfl

/-- Below its ceiling a slot that is run complete goes on (R97). -/
theorem ceilingTest_below {n : SlotId} {s : State} (h : Holder) (below : s.temp (s.slot n).settings.coilHigh < (s.slot n).settings.ceiling) :
    ceilingTest n (s.completed n h) = (s.completed n h, []) := by
  unfold ceilingTest
  rw [State.completed_slot]
  dsimp only
  refine if_neg fun hot => ?_
  simp only [Bool.and_eq_true, decide_eq_true_eq] at hot
  exact absurd hot.2 (not_le.2 below)

/-- At its ceiling it stops and leaves its service (R97, R98, R119). -/
theorem ceilingTest_at {n : SlotId} {s : State} (h : Holder) (hot : (s.slot n).settings.ceiling ≤ s.temp (s.slot n).settings.coilHigh)
    (heating : (s.slot n).cls.heating = true) :
    let t := (ceilingTest n (s.completed n h)).notify
    t.slot n = { s.slot n with failures := 0, state := s.stopped n (s.slot n).settings.minOff } ∧
      (∀ z, h = .zone z → t.service z ≠ .serving n) ∧ Quiet s t := by
  have stops : ceilingTest n (s.completed n h) =
      (stopSlot n (s.slot n).settings.minOff (s.completed n h), leave n (some h) .ceiling) := by
    unfold ceilingTest
    rw [State.completed_slot]
    dsimp only
    refine if_pos ?_
    simp only [Bool.and_eq_true, decide_eq_true_eq]
    exact ⟨heating, hot⟩
  have rested := stopSlot_stopped n (s.slot n).settings.minOff (s.completed n h)
  rw [State.completed_slot, stopped_congr (s := s) (t := s.completed n h) (fun _ => rfl) (by rw [State.completed_slot])] at rested
  obtain ⟨stands, left, quiet⟩ := notify_leave (n := n) (u := stopSlot n (s.slot n).settings.minOff (s.completed n h))
    (by rw [rested]; exact stopped_lendable ..) (some h) .ceiling
  rw [stops]
  exact ⟨stands.trans rested, fun z here => left z (congrArg some here),
    ((Quiet.setSlot s n _).trans (stopSlot_quiet ..)).trans quiet⟩

/-! ### DWELL_END and CONFIRM_INPUT_CHANGE (R88, R89, R91) -/

theorem slotNaming_none {s : State} {i : Fin 4} (h : ∀ m, (s.slot m).settings.confirm ≠ some i) : s.slotNaming i = none :=
  List.find?_eq_none.2 fun m _ named => h m (of_decide_eq_true named)

theorem slotNaming_only {s : State} {i : Fin 4} {n : SlotId} (h : ∀ m, (s.slot m).settings.confirm = some i ↔ m = n) :
    s.slotNaming i = some n := by
  cases found : s.slotNaming i with
  | none => exact absurd (decide_eq_true ((h n).2 rfl)) (List.find?_eq_none.1 found n (mem_allSlots n))
  | some m => rw [(h m).1 (of_decide_eq_true (List.find?_some found :))]

/-- A confirm input's level kept. -/
def State.confirmAt (s : State) (i : Fin 4) (a : Bool) : State :=
  { s with
    scu := { s.scu with confirmLevel := s.scu.confirmLevel.set i a }
    pins := { s.pins with confirm := s.pins.confirm.set i a } }

theorem exec_confirm {s : State} {i : Fin 4} {a : Bool} {n : SlotId} (change : s.scu.confirmLevel[i] ≠ a)
    (named : ∀ m, (s.slot m).settings.confirm = some i ↔ m = n) :
    exec (.confirmInputChange i a) s = .next (confirmChanged n a (s.confirmAt i a)).notify := by
  show execConfirmInputChange i a s = _
  have naming : (s.confirmAt i a).slotNaming i = some n := slotNaming_only named
  unfold execConfirmInputChange
  dsimp only
  rw [if_neg change]
  unfold State.confirmAt at naming ⊢
  rw [naming]

/-- Settles O54. -/
theorem startsFollowTheDwellAndTheConfirm : Obligations.StartsFollowTheDwellAndTheConfirm := by
  intro s n o r h i a x levels
  refine ⟨fun dwells => ?_, fun still => ?_, fun change named => ?_⟩
  · have run : exec (.dwellEnd n) s = .next (endDwell n s).notify := rfl
    have dwell : endDwell n s =
        if s.confirmActive n = some false then (s.setSlotState n (.starting o .confirm x.settings.confirmWindow h), [])
        else enterRunning n h s := by
      unfold endDwell
      rw [dwells]
    refine ⟨fun waits => ?_, fun goes long => ?_, fun goes none below => ?_, fun goes none hot heating => ?_⟩
    · rw [run, dwell, if_pos waits]; rfl
    · rw [run, dwell, if_neg goes, enterRunning_runs h long]; rfl
    · rw [run, dwell, if_neg goes, enterRunning_completes h none, ceilingTest_below h below]; rfl
    · have settings := exec_settings (c := .dwellEnd n) rfl run
      rw [dwell, if_neg goes, enterRunning_completes h none] at run settings
      obtain ⟨slot, left, quiet⟩ := ceilingTest_at h hot heating
      exact ⟨_, run, slot, left, quiet.clm, quiet.flt, quiet.untouched settings⟩
  · show execConfirmInputChange i a s = _
    unfold execConfirmInputChange
    dsimp only
    split
    · rfl
    next change =>
      have unnamed : levels.slotNaming i = none := slotNaming_none (still.resolve_left change)
      rw [unnamed]
  · intro reload rests
    have run := exec_confirm change named
    have slot : levels.slot n = x := rfl
    have rests_of {st : SlotState} (sends : confirmChanged n a levels = (levels.setSlotState n st, [.available n]))
        (calm : s.noGrant) : rests st := by
      obtain ⟨b, told⟩ := evaluate_available (State.noGrant_congr (t := levels.setSlotState n st) calm rfl rfl rfl) n
      have told : (confirmChanged n a levels).notify = _ := (congrArg Sent.notify sends).trans told
      have own (y : Slot) : (levels.setSlot n y).slot n = y := (State.slot_setSlot ..).trans (if_pos rfl)
      have other (y : Slot) (m : SlotId) (k : m ≠ n) : (levels.setSlot n y).slot m = s.slot m := (State.slot_setSlot ..).trans (if_neg k)
      exact ⟨_, run.trans (congrArg _ told), own _, other _, rfl, rfl, rfl, rfl, rfl, rfl⟩
    have warmed (warm : x.state = .warm r) : confirmChanged n a levels =
        if reload = 0 then (levels.setSlotState n .cold, [.available n]) else (levels.setSlotState n (.warm reload), []) := by
      unfold confirmChanged reloadActivity
      rw [slot, warm]
    have cooled (cold : x.state = .cold) : confirmChanged n a levels =
        if reload = 0 then (levels, []) else (levels.setSlotState n (.warm reload), [.available n]) := by
      unfold confirmChanged reloadActivity
      rw [slot, cold]
    refine ⟨fun active waits long => ?_, fun warm some_time => ?_, fun warm none calm => ?_, fun cold some_time calm => ?_, fun cold none => ?_⟩
    · have starts : confirmChanged n a levels = enterRunning n h levels := by
        unfold confirmChanged
        rw [slot, waits]
        exact if_pos active
      exact run.trans (congrArg _ ((congrArg Sent.notify (starts.trans (enterRunning_runs h long)))))
    · exact run.trans (congrArg _ (congrArg Sent.notify ((warmed warm).trans (if_neg (Nat.ne_of_gt some_time)))))
    · exact rests_of ((warmed warm).trans (if_pos none)) calm
    · exact rests_of ((cooled cold).trans (if_neg (Nat.ne_of_gt some_time))) calm
    · exact run.trans (congrArg _ (congrArg Sent.notify ((cooled cold).trans (if_pos none))))

/-! ### Failures (R92, R100, R101) -/

/-- The third failure of a slot trips it and is reported (R101). -/
theorem report_tripped (n : SlotId) (s : State) :
    ((report .sourceTripped (.slot n) s).flt.kindRec .sourceTripped).status = true ∧
      ∀ k, k ≠ .sourceTripped → (report .sourceTripped (.slot n) s).flt.kindRec k = s.flt.kindRec k :=
  ⟨by rw [report_kindRec, if_pos rfl]; rfl, fun k other => (report_kindRec ..).trans (if_neg other)⟩

/-- What a failure reported as `k` makes of slot `n`, which comes to rest in `rest` unless it trips. -/
structure Failed (n : SlotId) (k : FaultKind) (rest : SlotState) (s t : State) : Prop where
  slot : t.slot n =
    { s.slot n with failures := (s.slot n).failures + 1, state := if (s.slot n).failures = 2 then .tripped else rest }
  kind : t.flt.kindRec k = s.reported k (.slot n)
  tripped : (s.slot n).failures = 2 → (t.flt.kindRec .sourceTripped).status = true
  clm : t.clm = s.clm
  pending : t.pending = s.pending
  pfe : t.pfe = s.pfe
  mpt : t.mpt = s.mpt
  confirm : t.pins.confirm = s.pins.confirm

/-- A failed slot that tells the arbiter. -/
theorem Failed.notify {n : SlotId} {k : FaultKind} {rest : SlotState} {s u : State} (h : Failed n k rest s u)
    (still : rest.lendable = false) (o : Option Holder) (cause : LeaveCause) :
    Failed n k rest s (Sent.notify (u, leave n o cause)) := by
  have rests : (u.slot n).state.lendable = false := by
    rw [h.slot]
    dsimp only
    split
    · rfl
    · exact still
  obtain ⟨stands, -, quiet⟩ := notify_leave rests o cause
  exact ⟨stands.trans h.slot, by rw [quiet.flt]; exact h.kind, fun last => by rw [quiet.flt]; exact h.tripped last,
    quiet.clm.trans h.clm, quiet.pending.trans h.pending, quiet.pfe.trans h.pfe, quiet.mpt.trans h.mpt, by rw [quiet.pins, h.confirm]⟩

/-- The failure of slot `n` counted and reported as `k`. -/
structure Counted (n : SlotId) (k : FaultKind) (s u : State) : Prop where
  slot : u.slot n = { s.slot n with failures := (s.slot n).failures + 1 }
  kind : u.flt.kindRec k = s.reported k (.slot n)
  clm : u.clm = s.clm
  pending : u.pending = s.pending
  pfe : u.pfe = s.pfe
  mpt : u.mpt = s.mpt
  confirm : u.pins.confirm = s.pins.confirm
  functions : ∀ i : Fin 8, u.olu[i].function = s.olu[i].function

theorem counted_of {n : SlotId} {s b : State} (k : FaultKind) (moved : OneSlot n s b) :
    Counted n k s ((report k (.slot n) b).setSlot n { s.slot n with failures := (s.slot n).failures + 1 }) where
  slot := by simp
  kind := by
    refine (report_status k (.slot n) b).trans ?_
    simp only [State.reported, moved.quiet.flt]
  clm := (report_clm ..).trans moved.quiet.clm
  pending := (report_pending ..).trans moved.quiet.pending
  pfe := (report_pfe ..).trans moved.quiet.pfe
  mpt := (report_mpt ..).trans moved.quiet.mpt
  confirm := (report_confirm ..).trans (by rw [moved.quiet.pins])
  functions i := by
    obtain ⟨-, -, -, -, -, -, -, lines, -⟩ := State.figures_of_settings (report_inner k (.slot n) b).settings
    exact (congrArg Prod.fst (congrFun lines i)).trans (moved.functions i)

theorem Counted.linesOff {n : SlotId} {k : FaultKind} {s u : State} (h : Counted n k s u) : Counted n k s (linesOff n u) := by
  have moved := linesOff_oneSlot n u
  have slot : (Machine.linesOff n u).slot n = u.slot n := (askLine_slot ..).trans (askLine_slot ..)
  exact ⟨slot.trans h.slot, by rw [moved.quiet.flt]; exact h.kind, moved.quiet.clm.trans h.clm, moved.quiet.pending.trans h.pending,
    moved.quiet.pfe.trans h.pfe, moved.quiet.mpt.trans h.mpt, by rw [moved.quiet.pins, h.confirm],
    fun i => (moved.functions i).trans (h.functions i)⟩

/-- The third failure: the slot trips, with a report of its own (R92, R101). -/
theorem Counted.trips {n : SlotId} {k : FaultKind} {s u : State} (h : Counted n k s u) (own : k ≠ .sourceTripped)
    (third : (s.slot n).failures = 2) (rest : SlotState) :
    Failed n k rest s (report .sourceTripped (.slot n) (u.setSlotState n .tripped)) := by
  obtain ⟨status, kinds⟩ := report_tripped n (u.setSlotState n .tripped)
  refine ⟨(report_slot ..).trans ?_, (kinds k own).trans h.kind, fun _ => status, (report_clm ..).trans h.clm,
    (report_pending ..).trans h.pending, (report_pfe ..).trans h.pfe, (report_mpt ..).trans h.mpt, (report_confirm ..).trans h.confirm⟩
  rw [if_pos third]
  simp [h.slot]

/-- A failure that is not the third: the slot comes to rest. -/
theorem Counted.rests {n : SlotId} {k : FaultKind} {rest : SlotState} {s u v : State} (h : Counted n k s u)
    (early : (s.slot n).failures ≠ 2) (quiet : Quiet u v) (slot : v.slot n = { u.slot n with state := rest }) :
    Failed n k rest s v := by
  refine ⟨?_, by rw [quiet.flt]; exact h.kind, fun third => absurd third early, quiet.clm.trans h.clm, quiet.pending.trans h.pending,
    quiet.pfe.trans h.pfe, quiet.mpt.trans h.mpt, by rw [quiet.pins, h.confirm]⟩
  rw [slot, h.slot, if_neg early]

/-- A start failure (R92). -/
theorem startFailure_failed {s : State} {n : SlotId} {o : StartOrigin} {r : Nat} {h : Holder} (few : (s.slot n).failures ≤ 2)
    (waits : (s.slot n).state = .starting o .confirm r h) :
    Failed n .startFailure (.hold (s.slot n).settings.minOff) s (startFailure n s).notify := by
  have slot : (linesOff n s).slot n = s.slot n := (askLine_slot ..).trans (askLine_slot ..)
  have counted := counted_of .startFailure (linesOff_oneSlot n s)
  have fails : startFailure n s =
      let u := (report .startFailure (.slot n) (linesOff n s)).setSlot n { s.slot n with failures := (s.slot n).failures + 1 }
      if (s.slot n).failures + 1 ≥ 3 then
        (report .sourceTripped (.slot n) (u.setSlotState n .tripped), leave n (some h) .tripped)
      else (u.setSlotState n (.hold (s.slot n).settings.minOff), leave n (some h) .startFailure) := by
    unfold startFailure
    rw [waits]
    dsimp only
    rw [slot, report_setSlot]
    simp only [State.slot_setSlot, if_true]
  rw [fails]
  generalize (report .startFailure (.slot n) (linesOff n s)).setSlot n { s.slot n with failures := (s.slot n).failures + 1 } = u at counted
  dsimp only
  split
  next third => exact (counted.trips nofun (by omega) _).notify rfl ..
  next early => exact (counted.rests (by omega) (.setSlotState ..) (by simp)).notify rfl ..

/-- A confirm lost (R98 to R100). -/
theorem loseConfirm_failed {s : State} {n : SlotId} {r : Nat} {h : Option Holder} (few : (s.slot n).failures ≤ 2)
    (runs : (s.slot n).state = .running r h) :
    Failed n .confirmLost (s.stopped n (offTimeWithPenalty r (s.slot n).settings.minOff)) s (loseConfirm n s).notify := by
  have counted := counted_of .confirmLost (.refl n s)
  have fails : loseConfirm n s =
      let u := (report .confirmLost (.slot n) s).setSlot n { s.slot n with failures := (s.slot n).failures + 1 }
      if (s.slot n).failures + 1 ≥ 3 then
        (report .sourceTripped (.slot n) ((linesOff n u).setSlotState n .tripped), leave n h .tripped)
      else (stopSlot n (offTimeWithPenalty r (s.slot n).settings.minOff) u, leave n h .confirmLost) := by
    unfold loseConfirm
    rw [runs]
    dsimp only
    rw [report_slot]
    simp only [State.slot_setSlot, if_true]
  rw [fails]
  generalize (report .confirmLost (.slot n) s).setSlot n { s.slot n with failures := (s.slot n).failures + 1 } = u at counted
  have stopped := stopSlot_stopped n (offTimeWithPenalty r (s.slot n).settings.minOff) u
  rw [stopped_congr (s := s) counted.functions (by rw [counted.slot])] at stopped
  dsimp only
  split
  next third => exact (counted.linesOff.trips nofun (by omega) _).notify (stopped_lendable ..) ..
  next early => exact (counted.rests (by omega) (stopSlot_quiet ..) stopped).notify (stopped_lendable ..) ..

/-- Settles O55. -/
theorem failuresCountToThree : Obligations.FailuresCountToThree := by
  intro s n few x last
  refine ⟨fun o r h waits => ?_, fun r h i runs named active => ?_⟩
  · have run : exec (.confirmWindowExpiry n) s = .next (startFailure n s).notify := rfl
    have failed := startFailure_failed few waits
    exact ⟨_, run, failed.slot, failed.kind, failed.tripped, failed.clm, failed.pending, failed.pfe, failed.mpt, failed.confirm,
      exec_settings (c := .confirmWindowExpiry n) rfl run⟩
  · intro off
    have run := exec_confirm (a := false) (by rw [active]; exact nofun) named
    have settings := exec_settings (c := .confirmInputChange i false) rfl run
    have lost : confirmChanged n false (s.confirmAt i false) = loseConfirm n (s.confirmAt i false) := by
      unfold confirmChanged
      have runs : ((s.confirmAt i false).slot n).state = .running r h := runs
      rw [runs]
      rfl
    rw [lost] at run settings
    have failed := loseConfirm_failed (s := s.confirmAt i false) few runs
    exact ⟨_, run, failed.slot, failed.kind, failed.tripped, failed.clm, failed.mpt, settings⟩

/-! ### The ends of runs and rests (R88, R95, R98) -/

/-- A resting slot that becomes free tells the arbiter, which can grant nothing (R85, R88). -/
theorem freed_notify {s : State} (calm : s.noGrant) (n : SlotId) (st : SlotState) :
    let t := Sent.notify (s.setSlotState n st, [.available n])
    t.slot n = { s.slot n with state := st } ∧ (∀ m, m ≠ n → t.slot m = s.slot m) ∧ t.olu = s.olu ∧ Quiet s t := by
  obtain ⟨a, told⟩ := evaluate_available (State.noGrant_congr (t := s.setSlotState n st) calm rfl rfl rfl) n
  have told : Sent.notify (s.setSlotState n st, [.available n]) = _ := told
  rw [told]
  exact ⟨(State.slot_setSlotState ..).trans (if_pos rfl), fun m other => (State.slot_setSlotState ..).trans (if_neg other), rfl,
    (Quiet.setSlotState s n st).trans ⟨rfl, rfl, rfl, rfl, rfl, rfl, rfl, rfl, rfl, rfl, fun _ => rfl⟩⟩

/-- Settles O56. -/
theorem runsAndRestsEnd : Obligations.RunsAndRestsEnd := by
  intro s n r x
  refine ⟨fun runsOn => ?_, fun h held => ?_, fun d p pumps => ?_, fun calm => ⟨fun holds => ?_, fun warm => ?_⟩⟩
  · have run : exec (.minimumRunCompletion n) s = .next (stopSlot n x.settings.minOff (s.setSlot n { x with failures := 0 })) := by
      show execMinimumRunCompletion n s = _
      unfold execMinimumRunCompletion completeRun
      dsimp only
      rw [show (s.slot n).state = .running (r + 1) none from runsOn]
      rfl
    have own : (s.setSlot n { x with failures := 0 }).slot n = { x with failures := 0 } := by simp
    have moved := (OneSlot.setSlot n { x with failures := 0 } s).trans (stopSlot_oneSlot n x.settings.minOff _)
    have slot := stopSlot_stopped n x.settings.minOff (s.setSlot n { x with failures := 0 })
    rw [own, stopped_congr (s := s) (t := s.setSlot n { x with failures := 0 }) (fun _ => rfl) (by rw [own])] at slot
    exact ⟨_, run, slot, moved.others, moved.quiet.clm, moved.sar, moved.quiet.flt,
      moved.quiet.untouched (exec_settings (c := .minimumRunCompletion n) rfl run)⟩
  · have run : exec (.minimumRunCompletion n) s = .next (ceilingTest n (s.completed n h)).notify := by
      refine Eq.trans ?_ (congrArg (fun y => Host.Outcome.next (Sent.notify y)) (completeRun_held held))
      show execMinimumRunCompletion n s = _
      unfold execMinimumRunCompletion
      rw [show (s.slot n).state = .running (r + 1) (some h) from held]
    refine ⟨fun below => ?_, fun hot heating => ?_⟩
    · rw [run, ceilingTest_below h below]; rfl
    · obtain ⟨slot, left, quiet⟩ := ceilingTest_at h hot heating
      exact ⟨_, run, slot, left, quiet.clm, quiet.flt, quiet.untouched (exec_settings (c := .minimumRunCompletion n) rfl run)⟩
  · have run : exec (.overrunExpiry n) s = .next ((askPump n false s).setSlotState n (if p then .disabled else .hold d)) := by
      show execOverrunExpiry n s = _
      unfold execOverrunExpiry expireOverrun
      rw [show (s.slot n).state = .overrun r d p from pumps]
    have moved := (askPump_oneSlot n false s).trans (.setSlotState n (if p then .disabled else .hold d) _)
    refine ⟨_, run, ?_, moved.others, moved.quiet.clm, moved.sar, moved.quiet.flt,
      moved.quiet.untouched (exec_settings (c := .overrunExpiry n) rfl run)⟩
    exact (State.slot_setSlotState ..).trans ((if_pos rfl).trans (by rw [show (askPump n false s).slot n = x from askLine_slot ..]))
  · have run : exec (.holdExpiry n) s = .next (Sent.notify (s.setSlotState n
        (if x.settings.warmTime = 0 then .cold else .warm (x.settings.warmTime * 60)), [.available n])) := by
      show execHoldExpiry n s = _
      unfold execHoldExpiry expireHold
      rw [show (s.slot n).state = .hold r from holds]
      simp only [Nat.mul_eq_zero, OfNat.ofNat_ne_zero, or_false]
      rfl
    obtain ⟨slot, others, olu, quiet⟩ := freed_notify calm n (if x.settings.warmTime = 0 then .cold else .warm (x.settings.warmTime * 60))
    exact ⟨_, run, slot, others, quiet.clm, olu, quiet.flt, quiet.untouched (exec_settings (c := .holdExpiry n) rfl run)⟩
  · have run : exec (.warmExpiry n) s = .next (Sent.notify (s.setSlotState n .cold, [.available n])) := by
      show execWarmExpiry n s = _
      unfold execWarmExpiry expireWarm
      rw [show (s.slot n).state = .warm r from warm]
    obtain ⟨slot, others, olu, quiet⟩ := freed_notify calm n .cold
    exact ⟨_, run, slot, others, quiet.clm, olu, quiet.flt, quiet.untouched (exec_settings (c := .warmExpiry n) rfl run)⟩

end Sys2Proof.Machine
end

section
/-! PROOFS. The service arbiter (chapter 6): the evaluations that can be followed to their end. -/

namespace Sys2Proof.Machine

theorem State.deferNotices_nil (s : State) : s.deferNotices [] = s := by
  unfold State.deferNotices
  rw [List.append_nil]

/-! ### A zone's notice (R75, R114, R118) -/

/-- No change is listed for a zone. -/
def quietChange : ZoneChange := ⟨false, false, false, false, false, false⟩

/-- The notice that lists a change of one zone. -/
def noticeOf (z : Zone) (c : ZoneChange) : SarEvent := .zoneNotice ((⟨quietChange, quietChange, quietChange⟩ : PerZone ZoneChange).set z c)

theorem applyZoneChange_unlisted (z : Zone) (s : State) : applyZoneChange z quietChange s = s := by
  unfold applyZoneChange
  cases s.service z <;> rfl

theorem applyEvent_noticeOf (z : Zone) (c : ZoneChange) (s : State) : applyEvent (noticeOf z c) s = applyZoneChange z c s := by
  have all (c : PerZone ZoneChange) : applyEvent (.zoneNotice c) s =
    applyZoneChange .low c.low (applyZoneChange .mid c.mid (applyZoneChange .top c.top s)) := rfl
  rw [noticeOf, all]
  cases z <;> simp only [PerZone.set, applyZoneChange_unlisted]

/-- Solar priority as the settings and records give it (R114). -/
theorem solarPriority_iff (s : State) (z : Zone) :
    s.solarPriority z = true ↔ s.slc.state = .run ∧ (s.sar.threshold : Int) ≤ s.fmu.heatRate ∧ (s.zone z).urgent = false ∧
      (s.zone z).boost = none ∧ 0 < s.sar.holdoffTime := by
  simp [State.solarPriority, and_assoc]

/-! ### A grant (R90, R116) -/

/-- A start whose dwell does not end in the same event (R90). -/
theorem startSlot_dwells {n : SlotId} {o : StartOrigin} {s : State} (h : Holder) {dwell : Nat}
    (time : (s.slot n).settings.startDwell + (if o = .cold then (s.slot n).settings.coldExtra else 0) = dwell) (long : 0 < dwell) :
    startSlot n o h s = (askPump n true (askCall n true (s.setSlotState n (.starting o .dwell dwell h))), []) := by
  subst time
  exact if_neg (Nat.ne_of_gt long)

/-- A free slot whose start, if it needs one, goes on after the event. -/
theorem grantSlot_later {n : SlotId} {z : Zone} {s : State} (opens : s.grantsOpen = true) (heating : (s.slot n).cls.heating = true)
    (later : (s.slot n).startsLater) : ∃ st, (s.slot n).granted z = some st ∧ grantSlot n z s =
      some (if (s.slot n).state.isRunning then s.setSlotState n st else askPump n true (askCall n true (s.setSlotState n st)), []) := by
  unfold Slot.startsLater at later
  unfold Slot.granted grantSlot
  rw [opens, heating]
  cases state : (s.slot n).state with
  | cold =>
    rw [state] at later
    exact ⟨_, rfl, congrArg some (startSlot_dwells (.zone z) rfl later)⟩
  | warm r =>
    rw [state] at later
    exact ⟨_, rfl, congrArg some (startSlot_dwells (.zone z) (by simp) later)⟩
  | running r h =>
    rw [state] at later
    cases h with
    | none => exact ⟨_, rfl, rfl⟩
    | some h => exact later.elim
  | _ => rw [state] at later; exact later.elim

theorem free_of_startsLater {x : Slot} (h : x.startsLater) : x.state.free = true := by
  unfold Slot.startsLater at h
  split at h
  next e => rw [e]; rfl
  next e => rw [e]; rfl
  next e => rw [e]; rfl
  next => exact h.elim

/-- The lines after a start do not depend on the arbiter's records. -/
theorem started_olu {s t : State} (h : t.olu = s.olu) (n : SlotId) :
    (askPump n true (askCall n true t)).olu = (askPump n true (askCall n true s)).olu :=
  askLine_olu_congr _ _ (askLine_olu_congr _ _ h)

/-- What a waiting zone is granted when the first slot of its ranking is free (R116). -/
theorem selectGrant_granted {s : State} {z : Zone} {n : SlotId} {others : List SlotId} (opens : s.grantsOpen = true)
    (waits : s.service z = .waiting) (claim : s.sar.claim = .none) (unnamed : ∀ y, (s.service y).names n = false)
    (ranked : (s.zone z).ranking = n :: others) (heating : (s.slot n).cls.heating = true) (later : (s.slot n).startsLater) :
    Granted s (selectGrant z s) z n := by
  obtain ⟨st, granted, made⟩ := grantSlot_later (z := z) opens heating later
  have candidate : s.candidate n = true := by
    simp [State.candidate, free_of_startsLater later, unnamed, claim, Claim.holds]
  have served : selectGrant z s = (if (s.slot n).state.isRunning then s.setSlotState n st
      else askPump n true (askCall n true (s.setSlotState n st))).setService z (.serving n) := by
    unfold selectGrant
    rw [if_pos ⟨waits, opens⟩, ranked, grantEntries, if_pos candidate, made]
    exact State.deferNotices_nil _
  have moved : OneSlot n s (if (s.slot n).state.isRunning then s.setSlotState n st
      else askPump n true (askCall n true (s.setSlotState n st))) := by
    split
    · exact .setSlotState ..
    · exact (OneSlot.setSlotState ..).trans ((askCall_oneSlot ..).trans (askPump_oneSlot ..))
  have whole : (if (s.slot n).state.isRunning then s.setSlotState n st
      else askPump n true (askCall n true (s.setSlotState n st))) =
        { s with
          scu := (s.setSlotState n st).scu
          olu := if (s.slot n).state.isRunning then s.olu else (askPump n true (askCall n true s)).olu } := by
    split
    · rfl
    · have call : askCall n true (s.setSlotState n st) = (askCall n true s).setSlot n { s.slot n with state := st } := askLine_setSlot ..
      have asked : askPump n true (askCall n true s) = { s with olu := (askPump n true (askCall n true s)).olu } := by
        refine (askLine_eq ..).trans ?_
        rw [show askCall n true s = { s with olu := (askCall n true s).olu } from askLine_eq ..]
        rfl
      rw [call, show askPump n true ((askCall n true s).setSlot n { s.slot n with state := st }) = _ from askLine_setSlot ..]
      exact congrArg (fun u : State => u.setSlot n { s.slot n with state := st }) asked
  have own : ({ s with scu := (s.setSlotState n st).scu } : State).slot n = { s.slot n with state := st } :=
    (State.slot_setSlotState ..).trans (if_pos rfl)
  rw [served]
  rw [whole] at moved ⊢
  exact ⟨(State.service_setService ..).trans (if_pos rfl), fun y other => (State.service_setService ..).trans (if_neg other),
    ⟨st, granted, own⟩, moved.others, rfl, rfl, rfl, rfl⟩

/-- Grant selection when one zone alone may wait (R113, R116). -/
theorem selectGrants_only {s : State} {z : Zone} (only : ∀ y, y ≠ z → s.service y ≠ .waiting)
    (after : ∀ y, y ≠ z → (selectGrant z s).service y ≠ .waiting) :
    selectGrant .low (selectGrant .mid (selectGrant .top s)) = selectGrant z s := by
  have before {y : Zone} (h : y ≠ z) : selectGrant y s = s := selectGrant_none (.inr (only y h))
  have done {y : Zone} (h : y ≠ z) : selectGrant y (selectGrant z s) = selectGrant z s := selectGrant_none (.inr (after y h))
  cases z with
  | top => rw [done (y := .mid) nofun, done (y := .low) nofun]
  | mid => rw [before (y := .top) nofun, done (y := .low) nofun]
  | low => rw [before (y := .top) nofun, before (y := .mid) nofun]

/-- An evaluation whose event leaves one zone waiting for a free first-ranked slot (R113, R116). -/
theorem evaluateOne_granted {e : SarEvent} {s : State} {z : Zone} {n : SlotId} {others : List SlotId}
    (event : applyEvent e s = s.setService z .waiting) (opens : s.grantsOpen = true) (claim : s.sar.claim = .none)
    (only : ∀ y, y ≠ z → s.service y ≠ .waiting) (unnamed : ∀ y, (s.service y).names n = false)
    (ranked : (s.zone z).ranking = n :: others) (heating : (s.slot n).cls.heating = true) (later : (s.slot n).startsLater) :
    Granted s (evaluateOne e s) z n := by
  have service (y : Zone) : (s.setService z .waiting).service y = if y = z then .waiting else s.service y := State.service_setService ..
  have unnamed' (y : Zone) : ((s.setService z .waiting).service y).names n = false := by
    rw [service]
    split
    · rfl
    · exact unnamed y
  have granted := selectGrant_granted (s := s.setService z .waiting) opens ((service z).trans (if_pos rfl)) claim unnamed' ranked heating later
  obtain ⟨serves, stand, slot, slots, olu, sar, scu, whole⟩ := granted
  have stand (y : Zone) (h : y ≠ z) := (stand y h).trans ((service y).trans (if_neg h))
  have seeks : ¬ (s.setService z .waiting).sar.claim = .seeking := by
    rw [State.setService_claim, claim]; exact nofun
  have selected : evaluateOne e s = selectGrant z (s.setService z .waiting) := by
    unfold evaluateOne
    dsimp only
    rw [event, if_neg seeks]
    refine selectGrants_only (fun y h => ?_) fun y h => ?_
    · rw [service, if_neg h]; exact only y h
    · rw [stand y h]; exact only y h
  rw [started_olu (s := s) (t := s.setService z .waiting) rfl] at olu
  rw [selected]
  exact ⟨serves, stand, slot, slots, olu, sar, scu, whole⟩

/-! ### A release (R93, R96) -/

/-- What a release of slot `n` makes of it (R93, R96, R98). -/
theorem releaseSlot_cases (n : SlotId) (s : State) :
    (∀ o p r h, (s.slot n).state = .starting o p r h →
      (releaseSlot n s).deferred = (linesOff n s).setSlotState n (.hold (s.slot n).settings.minOff)) ∧
    (∀ r h, (s.slot n).state = .running (r + 1) (some h) →
      (releaseSlot n s).deferred = (s.setSlotState n (.running (r + 1) none)).deferNotices [.available n]) ∧
    (∀ h, (s.slot n).state = .running 0 (some h) → (releaseSlot n s).deferred = stopSlot n (s.slot n).settings.minOff s) := by
  unfold releaseSlot
  refine ⟨fun o p r h e => ?_, fun r h e => ?_, fun h e => ?_⟩
  · rw [e]; exact State.deferNotices_nil _
  · rw [e]; rfl
  · rw [e]; exact State.deferNotices_nil _

/-- A stop inside an evaluation leaves the arbiter's other records. -/
theorem applyZoneChange_cleared {z : Zone} {c : ZoneChange} {s : State} {n : SlotId} (cleared : c.cleared = true)
    (serves : s.service z = .serving n) : applyZoneChange z c s = (releaseSlot n (s.setService z .idle)).deferred := by
  unfold applyZoneChange
  rw [serves]
  exact if_pos cleared

/-- Settles O57. -/
theorem arbiterServesWaitingDemand : Obligations.ArbiterServesWaitingDemand := by
  intro s z n m r rest others cause ch popped quiet notice solarFirst
  have expiry (held : s.service z = .holdoff r) (none : s.sar.further = []) :
      exec (.holdoffTimerExpiry z) s = .next (evaluateOne (.holdoffExpired z) s) := by
    show execHoldoffTimerExpiry z s = _
    unfold execHoldoffTimerExpiry
    rw [held]
    unfold evaluate
    rw [State.settled_of_further none]
  have ends (held : s.service z = .holdoff r) : applyEvent (.holdoffExpired z) s = s.setService z .waiting := by
    show endHoldoff z s = _
    unfold endHoldoff
    rw [held]
  have further {x : ScuNotice} (e : s.sar.further = x :: rest) :
      exec .furtherEvaluation s = .next (evaluateOne (.scuNotice x) popped) := by
    show execFurtherEvaluation s = _
    unfold execFurtherEvaluation takeFurther
    rw [e]
  have noticed : applyEvent notice s = applyZoneChange z ch s := applyEvent_noticeOf z ch s
  have first_iff : s.solarPriority z = true ↔ solarFirst := solarPriority_iff s z
  have raises (idle : s.service z = .idle) (raised : ch.raised = true) :
      applyZoneChange z ch s = s.setService z (if s.solarPriority z then .holdoff (s.sar.holdoffTime * 60) else .waiting) := by
    unfold applyZoneChange
    rw [idle]
    exact if_pos raised
  have settles {t : State} (none : s.sar.further = []) (event : applyZoneChange z ch s = t) (unsought : t.sar.claim ≠ .seeking)
      (calm : t.grantsOpen = false ∨ ∀ y, t.service y ≠ .waiting) : evaluate notice s = t := by
    have event := noticed.trans event
    exact (evaluate_event none (by rw [event]; exact unsought) (by rw [event]; exact calm)).trans event
  have calm {x : Service} (bare : x ≠ .waiting) (only : ∀ y, y ≠ z → s.service y ≠ .waiting) (y : Zone) :
      (s.setService z x).service y ≠ .waiting := by
    rw [State.service_setService]
    split
    · exact bare
    · exact only y ‹_›
  refine ⟨fun shut unsought => ⟨fun held none => ?_, fun e => ?_, fun e serves => ?_⟩,
    fun opens claim only unnamed ranked heating later => ⟨fun held none => ?_, fun waits e => ?_, fun idle none raised unheld => ?_⟩,
    fun none unsought only => ⟨fun idle raised => ⟨fun first => ?_, fun unheld shut => ?_⟩, fun held still pressed shut => ?_, fun cleared => ?_⟩⟩
  · rw [expiry held none, evaluateOne_event (by rw [ends held]; exact unsought) (.inl (by rw [ends held]; exact shut)), ends held]
  · rw [further e]
    exact congrArg _ (evaluateOne_event (e := .scuNotice (.available m)) (s := popped) unsought (.inl shut))
  · have left : applyEvent (.scuNotice (.leftService n (.zone z) cause)) popped =
        popped.setService z (if (s.zone z).demand then .waiting else .idle) := if_pos serves
    rw [further e, evaluateOne_event (by rw [left]; exact unsought) (.inl (by rw [left]; exact shut)), left]
  · exact ⟨_, expiry held none, evaluateOne_granted (ends held) opens claim only unnamed ranked heating later⟩
  · have event : applyEvent (.scuNotice (.available m)) popped = popped.setService z .waiting :=
      ((congrArg (popped.setService z) waits.symm).trans (popped.setService_same z)).symm
    exact ⟨_, further e, evaluateOne_granted event opens claim only unnamed ranked heating later⟩
  · have event : applyEvent notice s = s.setService z .waiting := by
      rw [noticed, raises idle raised, if_neg fun h => unheld (first_iff.1 h)]
    have granted := evaluateOne_granted event opens claim only unnamed ranked heating later
    unfold evaluate
    rw [State.settled_of_further none]
    exact granted
  · refine settles none ((raises idle raised).trans ?_) unsought (.inr (calm nofun only))
    rw [if_pos (first_iff.2 first)]
  · refine settles none ((raises idle raised).trans ?_) unsought (.inl shut)
    rw [if_neg fun h => unheld (first_iff.1 h)]
  · refine settles none ?_ unsought (.inl shut)
    unfold applyZoneChange
    rw [held]
    dsimp only
    rw [if_neg (by rw [still]; exact nofun), if_pos (by simpa using pressed)]
  · intro left
    have idled : left.sar.claim ≠ .seeking ∧ ∀ y, left.service y ≠ .waiting := ⟨unsought, calm nofun only⟩
    refine ⟨fun rests => ?_, fun serves => ?_⟩
    · refine settles none ?_ idled.1 (.inr idled.2)
      unfold applyZoneChange
      rcases rests with waits | held
      · rw [waits]; exact if_pos cleared
      · rw [held]; exact if_pos cleared
    · obtain ⟨starting, running, complete⟩ := releaseSlot_cases n left
      have released := applyZoneChange_cleared cleared serves
      refine ⟨fun o p h starts => ?_, fun h runs => ?_, fun h runs => ?_⟩
      · have off := linesOff_oneSlot n left
        have sar : ((linesOff n left).setSlotState n (.hold (s.slot n).settings.minOff)).sar = left.sar := off.sar
        exact settles none (released.trans (starting o p r h starts)) (by rw [sar]; exact idled.1)
          (.inr fun y => by unfold State.service; rw [sar]; exact idled.2 y)
      · exact settles none (released.trans (running r h runs)) idled.1 (.inr idled.2)
      · have moved := stopSlot_oneSlot n (s.slot n).settings.minOff left
        have stops : evaluate notice s = stopSlot n (s.slot n).settings.minOff left :=
          settles none (released.trans (complete h runs)) (by rw [moved.sar]; exact idled.1)
            (.inr fun y => by unfold State.service; rw [moved.sar]; exact idled.2 y)
        have inner : Inner s (evaluate notice s) := evaluate_inner notice s
        refine ⟨?_, ?_, ?_, inner.untouched⟩
        · rw [stops, stopSlot_stopped, stopped_congr (s := s) (t := left) (fun _ => rfl) rfl]
          rfl
        · rw [stops]; exact moved.others
        · rw [stops]; exact moved.sar

end Sys2Proof.Machine
end

section
/-! PROOFS. The lending of a source to a hold step (section 6.4). -/

namespace Sys2Proof.Machine

/-- With no zone waiting, or no grant open, grant selection does nothing (R116). -/
theorem selectGrants_none {s : State} (h : s.grantsOpen = false ∨ ∀ y, s.service y ≠ .waiting) :
    selectGrant .low (selectGrant .mid (selectGrant .top s)) = s := by
  have each (y : Zone) : selectGrant y s = s := selectGrant_none (h.imp_right (· y))
  rw [each, each, each]

/-- An evaluation that leaves the claim SEEKING goes on with the hold scan (R113, R122). -/
theorem evaluate_scan {e : SarEvent} {s t : State} (further : s.sar.further = []) (seeks : (applyEvent e s).sar.claim = .seeking)
    (scan : holdScan (applyEvent e s) = t) (calm : t.grantsOpen = false ∨ ∀ y, t.service y ≠ .waiting) : evaluate e s = t := by
  unfold evaluate evaluateOne
  rw [State.settled_of_further further]
  dsimp only
  rw [if_pos seeks, scan, selectGrants_none calm]

/-- The scan of an open block takes the first ranked slot when that is eligible (R122, R123). -/
theorem holdScan_first {s : State} {q : StepRec} {n : SlotId} {others : List SlotId} {v : State} (opens : s.grantsOpen = true)
    (seeks : s.ths.step = .seeking q) (ranked : s.ths.settings.ranking = n :: others) (eligible : s.eligible q.low n = true)
    (taken : takeForHold n s = some (v, [])) : holdScan s = recordTake n (s.slot n).state v := by
  unfold holdScan
  rw [if_pos opens, seeks, ranked]
  dsimp only
  rw [scanEntries, if_pos eligible, taken]
  exact State.deferNotices_nil _

theorem takeForHold_running {s : State} {n : SlotId} {r : Nat} {h : Option Holder} (opens : s.grantsOpen = true)
    (heating : (s.slot n).cls.heating = true) (runs : (s.slot n).state = .running r h) :
    takeForHold n s = some (s.setSlotState n (.running r (some .holdStep)), []) := by
  unfold takeForHold
  rw [opens, heating, runs]
  rfl

theorem takeForHold_starting {s : State} {n : SlotId} {o : StartOrigin} {p : StartPhase} {r : Nat} {h : Holder}
    (opens : s.grantsOpen = true) (heating : (s.slot n).cls.heating = true) (starts : (s.slot n).state = .starting o p r h) :
    takeForHold n s = some (s.setSlotState n (.starting o p r .holdStep), []) := by
  unfold takeForHold
  rw [opens, heating, starts]
  rfl

/-- No zone waits after a service is set to anything but WAITING. -/
theorem setService_calm {s : State} {z : Zone} {x : Service} (calm : ∀ y, s.service y ≠ .waiting) (bare : x ≠ .waiting) (y : Zone) :
    (s.setService z x).service y ≠ .waiting := by
  rw [State.service_setService]
  split
  · exact bare
  · exact calm y

/-- A hold request of an arbiter without a claim begins the scan (R121). -/
theorem applyHoldRequest_none {u : State} (none : u.sar.claim = .none) : applyEvent .holdRequest u = u.setClaim .seeking := by
  show applyHoldRequest u = _
  unfold applyHoldRequest
  rw [none]

/-- A hold request while no grant is open (R121, R122). -/
theorem evaluate_holdRequest_shut {u : State} (further : u.sar.further = []) (none : u.sar.claim = .none) (shut : u.grantsOpen = false) :
    evaluate .holdRequest u = (u.setClaim .seeking).answer .noneEligible := by
  have begins := applyHoldRequest_none none
  have closed : (u.setClaim .seeking).grantsOpen = false := shut
  refine evaluate_scan further (by rw [begins]; rfl) ?_ (.inl shut)
  rw [begins]
  exact if_neg (by rw [closed]; exact nofun)

/-- A hold request while a slot is held (R121). -/
theorem evaluate_holdRequest_holding {u : State} {n : SlotId} {o : Option Zone} (further : u.sar.further = [])
    (calm : ∀ y, u.service y ≠ .waiting) (holding : u.sar.claim = .holding n o) : evaluate .holdRequest u = u.answer (.taken n) := by
  have answered : applyEvent .holdRequest u = u.answer (.taken n) := by
    show applyHoldRequest u = _
    unfold applyHoldRequest
    rw [holding]
  have claim : (u.answer (.taken n)).sar.claim = .holding n o := holding
  exact (evaluate_event further (by rw [answered, claim]; exact nofun) (by rw [answered]; exact .inr calm)).trans answered

/-- A hold request that takes the first ranked slot (R121 to R123). -/
theorem evaluate_holdRequest_takes {u : State} {q : StepRec} {n : SlotId} {others : List SlotId} {st : SlotState}
    (further : u.sar.further = []) (calm : ∀ y, u.service y ≠ .waiting) (none : u.sar.claim = .none) (opens : u.grantsOpen = true)
    (seeks : u.ths.step = .seeking q) (ranked : u.ths.settings.ranking = n :: others) (heating : (u.slot n).cls.heating = true)
    (low : (u.slot n).settings.coilLow ≤ q.low) (warm : u.ths.settings.temp + 50 ≤ (u.slot n).settings.ceiling)
    (lends : (u.slot n).state.lendable = true)
    (taken : takeForHold n (u.setClaim .seeking) = some ((u.setClaim .seeking).setSlotState n st, [])) :
    evaluate .holdRequest u = recordTake n (u.slot n).state ((u.setClaim .seeking).setSlotState n st) := by
  have begins := applyHoldRequest_none none
  have eligible : u.eligible q.low n = true := by
    simp only [State.eligible, heating, lends, decide_eq_true low, decide_eq_true (p := _ ≥ _) warm, Bool.and_self]
  refine evaluate_scan further (by rw [begins]; rfl) ?_ (.inr ?_)
  · rw [begins]
    exact holdScan_first (s := u.setClaim .seeking) opens seeks ranked eligible taken
  · unfold recordTake
    dsimp only
    split
    · exact setService_calm (s := ((u.setClaim .seeking).setSlotState n st).setClaim _) calm nofun
    · exact calm

/-- A step end with its event applied (R126). -/
theorem evaluate_stepEnd {u v : State} (further : u.sar.further = []) (event : applyStepEnd u = v) (claim : v.sar.claim ≠ .seeking)
    (calm : v.grantsOpen = false ∨ ∀ y, v.service y ≠ .waiting) : evaluate .stepEnd u = v := by
  have event : applyEvent .stepEnd u = v := event
  exact (evaluate_event further (by rw [event]; exact claim) (by rw [event]; exact calm)).trans event

/-- A step end that releases slot `n`, the arbiter's records being settled in `b` (R93, R96, R126). -/
theorem evaluate_stepEnd_releases {u b : State} {n : SlotId} (further : u.sar.further = [])
    (event : applyStepEnd u = (releaseSlot n b).deferred) (claim : b.sar.claim ≠ .seeking) (calm : ∀ y, b.service y ≠ .waiting) :
    (∀ o p r h, (b.slot n).state = .starting o p r h →
      evaluate .stepEnd u = (linesOff n b).setSlotState n (.hold (b.slot n).settings.minOff)) ∧
    (∀ r h, (b.slot n).state = .running (r + 1) (some h) →
      evaluate .stepEnd u = (b.setSlotState n (.running (r + 1) none)).deferNotices [.available n]) ∧
    (∀ h, (b.slot n).state = .running 0 (some h) → evaluate .stepEnd u = stopSlot n (b.slot n).settings.minOff b) := by
  obtain ⟨starting, running, complete⟩ := releaseSlot_cases n b
  have settled {v : State} (event : applyStepEnd u = v) (sar : v.sar = b.sar) : evaluate .stepEnd u = v :=
    evaluate_stepEnd further event (by rw [sar]; exact claim) (.inr fun y => by unfold State.service; rw [sar]; exact calm y)
  refine ⟨fun o p r h starts => ?_, fun r h runs => ?_, fun h runs => ?_⟩
  · exact settled (event.trans (starting o p r h starts)) (linesOff_oneSlot n b).sar
  · exact evaluate_stepEnd further (event.trans (running r h runs)) claim (.inr calm)
  · exact settled (event.trans (complete h runs)) (stopSlot_oneSlot n _ b).sar

theorem returnToZone_running {s : State} {n : SlotId} {r : Nat} {h : Option Holder} (runs : (s.slot n).state = .running r h) (z : Zone) :
    returnToZone n z s = some (s.setSlotState n (.running r (some (.zone z))), []) := by
  unfold returnToZone
  rw [runs]

theorem returnToZone_starting {s : State} {n : SlotId} {o : StartOrigin} {p : StartPhase} {r : Nat} {h : Holder}
    (starts : (s.slot n).state = .starting o p r h) (z : Zone) :
    returnToZone n z s = some (s.setSlotState n (.starting o p r (.zone z)), []) := by
  unfold returnToZone
  rw [starts]

theorem returnToZone_hold {s : State} {n : SlotId} {r : Nat} (rests : (s.slot n).state = .hold r) (z : Zone) :
    returnToZone n z s = none := by
  unfold returnToZone
  rw [rests]

/-- Settles O58. -/
theorem holdStepsBorrowAndReturnSlots : Obligations.HoldStepsBorrowAndReturnSlots := by
  intro s n z r h q o origin phase rest others further calm u
  have further_u : u.sar.further = [] := further
  have calm_u (y : Zone) : u.service y ≠ .waiting := calm y
  have slot_u : u.slot n = s.slot n := rfl
  refine ⟨fun message => ?_, fun message => ?_⟩
  · have run : exec .holdRequest s = .next (evaluate .holdRequest u) := by
      show execHoldRequest s = _
      unfold execHoldRequest
      rw [message]
    rw [run]
    refine ⟨fun none shut => congrArg _ (evaluate_holdRequest_shut further_u none shut),
      fun holding => congrArg _ (evaluate_holdRequest_holding further_u calm_u holding), fun none opens seeks ranked heating low warm => ?_⟩
    have takes {st : SlotState} := evaluate_holdRequest_takes (st := st) further_u calm_u none opens seeks ranked heating low warm
    rw [slot_u] at takes
    refine ⟨fun runs => congrArg _ ?_, fun starts => congrArg _ ?_, fun idle => congrArg _ ?_⟩
    · rw [takes (by rw [runs]; rfl) (takeForHold_running opens heating runs), runs]
      rfl
    · rw [takes (by rw [starts]; rfl) (takeForHold_starting opens heating starts), starts]
      rfl
    · rw [takes (by rw [idle]; rfl) (takeForHold_running opens heating idle), idle]
      rfl
  · have run : exec .stepEnd s = .next (evaluate .stepEnd u) := by
      show execStepEnd s = _
      unfold execStepEnd
      rw [message]
    intro ended released
    have suspended (holding : s.sar.claim = .holding n (some z)) : applyStepEnd u =
        if (s.zone z).demand then
          match returnToZone n z ended with
          | some x => (x.1.setService z (.serving n)).deferNotices x.2
          | none => ended.setService z .waiting
        else (releaseSlot n (ended.setService z .idle)).deferred := by
      unfold applyStepEnd
      rw [show u.sar.claim = .holding n (some z) from holding]
      rfl
    have gives {b : State} (event : applyStepEnd u = (releaseSlot n b).deferred) (claim : b.sar.claim ≠ .seeking)
        (calm : ∀ y, b.service y ≠ .waiting) (same : b = { u with sar := b.sar }) : released b := by
      have slots (m : SlotId) : b.slot m = s.slot m := by rw [same]; rfl
      obtain ⟨starting, running, complete⟩ := evaluate_stepEnd_releases further_u event claim calm
      rw [slots] at starting running complete
      refine ⟨fun runs => run.trans (congrArg _ (running r h runs)), fun runs => ?_,
        fun starts => run.trans (congrArg _ (starting origin phase r h starts))⟩
      have stops := run.trans (congrArg _ (complete h runs))
      have moved := stopSlot_oneSlot n (s.slot n).settings.minOff b
      have stopped := stopSlot_stopped n (s.slot n).settings.minOff b
      rw [stopped_congr (s := s) (t := b) (fun i => by rw [same]) (by rw [slots]), slots] at stopped
      refine ⟨_, stops, stopped, fun m other => (moved.others m other).trans (slots m), moved.sar, ?_, ?_, ?_, ?_, ?_, ?_, ?_,
        exec_settings (c := .stepEnd) rfl stops⟩
      · rw [moved.quiet.ths, same]
      · rw [moved.quiet.clm, same]
      · rw [moved.quiet.flt, same]
      · rw [moved.quiet.pending, same]
      · rw [moved.quiet.pfe, same]
      · rw [moved.quiet.mpt, same]
      · rw [moved.quiet.pins, same]
    refine ⟨fun none => ?_, fun seeks => ?_, fun holding raised => ⟨fun runs => ?_, fun starts => ?_, fun rests shut => ?_⟩,
      fun holding clear => ?_, fun holding => ?_⟩
    · have event : applyStepEnd u = u := by
        unfold applyStepEnd
        rw [show u.sar.claim = .none from none]
      have claim : u.sar.claim = .none := none
      rw [run, evaluate_stepEnd further_u event (by rw [claim]; exact nofun) (.inr calm_u)]
    · have event : applyStepEnd u = ended := by
        unfold applyStepEnd
        rw [show u.sar.claim = .seeking from seeks]
      rw [run, evaluate_stepEnd further_u event nofun (.inr calm_u)]
    · have event := (suspended holding).trans ((if_pos raised).trans (by rw [returnToZone_running (s := ended) runs]))
      rw [run, evaluate_stepEnd further_u (event.trans (State.deferNotices_nil _)) nofun (.inr (setService_calm calm_u nofun))]
      rfl
    · have event := (suspended holding).trans ((if_pos raised).trans (by rw [returnToZone_starting (s := ended) starts]))
      rw [run, evaluate_stepEnd further_u (event.trans (State.deferNotices_nil _)) nofun (.inr (setService_calm calm_u nofun))]
      rfl
    · have event : applyStepEnd u = ended.setService z .waiting :=
        (suspended holding).trans ((if_pos raised).trans (by rw [returnToZone_hold (s := ended) rests]))
      rw [run, evaluate_stepEnd further_u event nofun (.inl shut)]
    · exact gives ((suspended holding).trans (if_neg (by rw [clear]; exact nofun))) nofun (setService_calm (s := ended) calm_u nofun) rfl
    · have event : applyStepEnd u = (releaseSlot n ended).deferred := by
        unfold applyStepEnd
        rw [show u.sar.claim = .holding n none from holding]
      exact gives event nofun calm_u rfl

end Sys2Proof.Machine
end

section
/-! PROOFS. The thermal hold stepper (chapter 8): its answers, its interval and the minute event. -/

namespace Sys2Proof.Machine

/-! ### Answers and the interval (R151, R153 to R155) -/

/-- A running step with its record. -/
theorem running_record {x : HoldStep} {q : StepRec} (h : x = .seeking q ∨ ∃ m, x = .heating q m) : x.record? = some q := by
  rcases h with rfl | ⟨m, rfl⟩ <;> rfl

/-- An answer of the kind that arrives reaches the stepper (R155). -/
theorem takeAnswer_oldest {arrives : HoldAnswer → Bool} {s : State} {a : HoldAnswer} {rest : List HoldAnswer}
    (oldest : s.sar.answers = a :: rest) (arrive : arrives a = true) :
    takeAnswer arrives s =
      { s with sar := { s.sar with answers := rest }, ths := { s.ths with step := s.ths.step.answered a } } := by
  unfold takeAnswer
  rw [oldest]
  exact if_pos arrive

/-- What an answer makes of a step (R155). -/
theorem answered_eq (a : HoldAnswer) (x : HoldStep) :
    (x = .idle → x.answered a = x) ∧
    (∀ q n, (x = .seeking q ∨ ∃ m, x = .heating q m) → x.answered (.taken n) = .heating q n) ∧
    (∀ q, (x = .seeking q ∨ ∃ m, x = .heating q m) → x.answered .noneEligible = .seeking q ∧ x.answered .lost = .seeking q) := by
  refine ⟨?_, ?_, ?_⟩
  · rintro rfl; rfl
  · rintro q n (rfl | ⟨m, rfl⟩) <;> rfl
  · rintro q (rfl | ⟨m, rfl⟩) <;> exact ⟨rfl, rfl⟩

/-- Settles O59. -/
theorem answersAndTheIntervalMoveTheStep : Obligations.AnswersAndTheIntervalMoveTheStep := by
  intro s n q rest u stepped
  have answer (a : HoldAnswer) := answered_eq a s.ths.step
  refine ⟨fun oldest => ⟨fun runs => ?_, fun idle => ?_⟩, fun oldest => ⟨fun runs => ?_, fun idle => ?_⟩,
    fun oldest => ⟨fun runs => ?_, fun idle => ?_⟩, fun timed => ?_⟩
  · refine congrArg _ ((takeAnswer_oldest oldest rfl).trans ?_)
    rw [(answer .lost).2.1 q n runs]
  · refine congrArg _ ((takeAnswer_oldest oldest rfl).trans ?_)
    rw [(answer _).1 idle]
  · refine congrArg _ ((takeAnswer_oldest oldest rfl).trans ?_)
    rw [((answer .lost).2.2 q runs).1]
  · refine congrArg _ ((takeAnswer_oldest oldest rfl).trans ?_)
    rw [(answer _).1 idle]
  · refine congrArg _ ((takeAnswer_oldest oldest rfl).trans ?_)
    rw [((answer .lost).2.2 q runs).2]
  · refine congrArg _ ((takeAnswer_oldest oldest rfl).trans ?_)
    rw [(answer _).1 idle]
  · intro loaded
    have run : exec .intervalExpiry s = .next (expireInterval s) := by
      show execIntervalExpiry s = _
      unfold execIntervalExpiry
      cases interval : s.ths.interval with
      | none => exact absurd interval timed
      | some m => rfl
    have expires : expireInterval s =
        match s.ths.step with
        | .idle => startStep chainBound (s.setThs loaded)
        | _ => s.setThs { loaded with pendingFlag := true } := rfl
    refine ⟨fun runs => ?_, fun idle ⟨i, base, reach, top, old, cold⟩ => ?_⟩
    · rw [run, expires]
      split
      · contradiction
      · rfl
    · have low : s.ths.newStep.low ≤ i := by
        rw [Fin.le_def] at base ⊢
        show max s.ths.settings.base.val (s.ths.pointer.val + 1 - s.ths.settings.width.layers) ≤ i.val
        omega
      have seeks := startStep_seeks (s := s.setThs loaded) (i := i) 19 (mem_section.2 ⟨low, top⟩) old cold
      rw [idle] at expires
      rw [run, expires]
      refine ⟨{ s.ths.newStep with done := s.heldLayers s.ths.newStep }, rfl, rfl, rfl, rfl, rfl, fun j => ?_, ?_⟩
      · show j ∈ s.heldLayers s.ths.newStep ↔ _
        simp only [State.heldLayers, List.mem_filter, mem_section, decide_eq_true_eq, and_assoc]
      · exact congrArg _ seeks

/-! ### The bookkeeping of a minute (R149, R150) -/

/-- Part 1 of a minute event. -/
structure Booked (s b : State) : Prop where
  ths : b.ths = { s.ths with hourCount := if s.ths.hourWraps then 0 else s.ths.hourCount + 1 }
  flt : b.flt = s.flt
  unseeded : s.clm.model = .unseeded → b.clm = s.clm
  dwell : s.clm.model ≠ .unseeded → ∀ i : Fin 16, b.clm.layers[i].hotDwell = s.clm.layers[i].dwellAfter s.ths.settings
  age : s.clm.model ≠ .unseeded → ∀ i : Fin 16, b.clm.layers[i].holdAge =
    if s.clm.layers[i].completesDwell s.ths.settings then 0 else s.clm.layers[i].ageAfter s.ths.hourWraps

theorem bookkeeping_booked (s : State) : Booked s (bookkeeping s) := by
  set t := s.setThs { s.ths with hourCount := if s.ths.hourWraps then 0 else s.ths.hourCount + 1 } with ht
  set v := t.setLayers (tabulate fun i => (s.clm.layers[i]).book s.ths.settings s.ths.hourWraps) with hv
  have books : bookkeeping s = if s.clm.model.seeded then completeUpdate v else t := rfl
  by_cases seeded : s.clm.model = .unseeded
  · have still : bookkeeping s = t := by
      rw [books, seeded]; rfl
    rw [still]
    exact ⟨rfl, rfl, fun _ => rfl, fun h => absurd seeded h, fun h => absurd seeded h⟩
  · have updated : bookkeeping s = completeUpdate v := by
      rw [books, if_pos ((seeded_iff _).2 seeded)]
    have quiet := finishUpdate_quiet (v.setLayers (withTemperatures v.clm.layers (order (blend (temperatures v.clm.layers)))))
    have layer (i : Fin 16) := completeUpdate_layer v i
    have booked (i : Fin 16) : v.clm.layers[i] = (s.clm.layers[i]).book s.ths.settings s.ths.hourWraps := tabulate_get ..
    rw [updated]
    refine ⟨quiet.ths, quiet.flt, fun h => absurd h seeded, fun _ i => ?_, fun _ i => ?_⟩
    · rw [layer, booked]; rfl
    · rw [layer, booked]; rfl

/-! ### What the parts of a minute event leave (R149) -/

/-- From `s` to `t` the stepper has moved on, its settings, its hour, its minute and its count of failures apart. -/
structure Moved (s t : State) : Prop where
  whole : t = s.setThs t.ths
  settings : t.ths.settings = s.ths.settings
  hour : t.ths.hourCount = s.ths.hourCount
  minute : t.ths.minuteLeft = s.ths.minuteLeft
  failed : t.ths.failedSteps = s.ths.failedSteps

theorem Moved.refl (s : State) : Moved s s := ⟨rfl, rfl, rfl, rfl, rfl⟩

theorem Moved.trans {s t u : State} (h : Moved s t) (k : Moved t u) : Moved s u :=
  ⟨by rw [k.whole, h.whole]; rfl, k.settings.trans h.settings, k.hour.trans h.hour, k.minute.trans h.minute, k.failed.trans h.failed⟩

theorem Moved.clm {s t : State} (h : Moved s t) : t.clm = s.clm := by rw [h.whole]; rfl
theorem Moved.flt {s t : State} (h : Moved s t) : t.flt = s.flt := by rw [h.whole]; rfl

theorem finishStep_moved (r : StepRec) (s : State) : Moved s (finishStep r s) := by
  unfold finishStep
  dsimp only
  split <;> exact ⟨rfl, rfl, rfl, rfl, rfl⟩

theorem nextStep_moved {start : State → State} (h : ∀ s, Moved s (start s)) (s : State) : Moved s (nextStep start s) := by
  unfold nextStep
  split
  · split
    · exact (show Moved s (s.setThs { s.ths with pendingFlag := false }) from ⟨rfl, rfl, rfl, rfl, rfl⟩).trans (h _)
    · exact .refl s
  · exact ⟨rfl, rfl, rfl, rfl, rfl⟩

theorem startStep_moved (k : Nat) (s : State) : Moved s (startStep k s) := by
  induction k generalizing s with
  | zero => exact .refl s
  | succ k ih =>
    unfold startStep
    dsimp only
    split
    · exact (finishStep_moved ..).trans (nextStep_moved ih _)
    · exact ⟨rfl, rfl, rfl, rfl, rfl⟩

theorem completeStep_moved (r : StepRec) (s : State) : Moved s (completeStep r s) :=
  (finishStep_moved ..).trans (nextStep_moved (startStep_moved _) _)

theorem stepProgress_moved (l : List (Fin 16)) (s : State) : Moved s (stepProgress l s) := by
  have own (x : HoldStep) : Moved s (s.setThs { s.ths with step := x }) := ⟨rfl, rfl, rfl, rfl, rfl⟩
  unfold stepProgress
  split
  · exact .refl s
  · dsimp only
    split
    · exact (own _).trans (completeStep_moved ..)
    · exact own _

theorem countInterval_moved (s : State) : Moved s (countInterval s) := by
  have loaded (i : Option Nat) : Moved s (s.setThs { s.ths with interval := i }) := ⟨rfl, rfl, rfl, rfl, rfl⟩
  unfold countInterval
  split
  · split
    · unfold expireInterval
      dsimp only
      split
      · exact (loaded _).trans (startStep_moved ..)
      · exact ⟨rfl, rfl, rfl, rfl, rfl⟩
    · exact loaded _
  · exact .refl s

/-- A step times out (R159). -/
structure TimedOut (r : StepRec) (s t : State) : Prop where
  clm : t.clm = s.clm
  settings : t.ths.settings = s.ths.settings
  hour : t.ths.hourCount = s.ths.hourCount
  minute : t.ths.minuteLeft = s.ths.minuteLeft
  failed : t.ths.failedSteps = min 65535 (s.ths.failedSteps + 1)
  reported : t.flt.kindRec .holdIncomplete = s.reported .holdIncomplete (.layer r.top)

theorem timeOut_eq (r : StepRec) (s : State) :
    timeOut r s =
      let u := (report .holdIncomplete (.layer r.top) s).setThs
        { s.ths with
          failedSteps := min 65535 (s.ths.failedSteps + 1), messages := s.ths.messages ++ [.stepEnd], fullPass := false, step := .idle }
      if s.ths.settings.enable && s.ths.pendingFlag then startStep chainBound (u.setThs { u.ths with pendingFlag := false })
      else u.setThs { u.ths with pendingFlag := false } := by
  have ths : (report .holdIncomplete (.layer r.top) s).ths = s.ths := report_ths ..
  unfold timeOut State.tellArbiter
  dsimp only [State.setThs]
  rw [ths]

theorem timeOut_timedOut (r : StepRec) (s : State) : TimedOut r s (timeOut r s) := by
  rw [timeOut_eq]
  dsimp only
  generalize hu : (report .holdIncomplete (.layer r.top) s).setThs
    { s.ths with
      failedSteps := min 65535 (s.ths.failedSteps + 1), messages := s.ths.messages ++ [.stepEnd], fullPass := false, step := .idle } = u
  have clm : u.clm = s.clm := by rw [← hu]; exact report_clm ..
  have flt : u.flt.kindRec .holdIncomplete = s.reported .holdIncomplete (.layer r.top) := by rw [← hu]; exact report_status ..
  have ths : u.ths = { s.ths with
    failedSteps := min 65535 (s.ths.failedSteps + 1), messages := s.ths.messages ++ [.stepEnd], fullPass := false, step := .idle } := by
    rw [← hu]; rfl
  have flag : Moved u (u.setThs { u.ths with pendingFlag := false }) := ⟨rfl, rfl, rfl, rfl, rfl⟩
  have moved : Moved u (if s.ths.settings.enable && s.ths.pendingFlag then startStep chainBound (u.setThs { u.ths with pendingFlag := false })
      else u.setThs { u.ths with pendingFlag := false }) := by
    split
    · exact flag.trans (startStep_moved ..)
    · exact flag
  exact ⟨moved.clm.trans clm, by rw [moved.settings, ths], by rw [moved.hour, ths], by rw [moved.minute, ths], by rw [moved.failed, ths],
    by rw [moved.flt]; exact flt⟩

theorem countElapsed_running {s : State} {q : StepRec} (runs : s.ths.step.record? = some q) :
    countElapsed s =
      let r := { q with elapsed := q.elapsed + 1 }
      let t := s.setThs { s.ths with step := s.ths.step.withRecord r }
      if s.ths.settings.timeout ≤ q.elapsed + 1 then timeOut r t else t := by
  unfold countElapsed
  rw [runs]

theorem countElapsed_idle {s : State} (idle : s.ths.step = .idle) : countElapsed s = s := by
  unfold countElapsed
  rw [idle]
  rfl

/-- What the first four parts of a minute event leave in every case. -/
structure Ticked (s t : State) : Prop where
  clm : t.clm = s.clm
  settings : t.ths.settings = s.ths.settings
  hour : t.ths.hourCount = s.ths.hourCount
  minute : t.ths.minuteLeft = s.ths.minuteLeft

theorem Moved.ticked {s t : State} (h : Moved s t) : Ticked s t := ⟨h.clm, h.settings, h.hour, h.minute⟩

theorem Ticked.trans {s t u : State} (h : Ticked s t) (k : Ticked t u) : Ticked s u :=
  ⟨k.clm.trans h.clm, k.settings.trans h.settings, k.hour.trans h.hour, k.minute.trans h.minute⟩

theorem countElapsed_ticked (s : State) : Ticked s (countElapsed s) := by
  cases h : s.ths.step.record? with
  | none =>
    have still : countElapsed s = s := by unfold countElapsed; rw [h]
    rw [still]
    exact (Moved.refl s).ticked
  | some q =>
    rw [countElapsed_running h]
    dsimp only
    split
    · have out := timeOut_timedOut { q with elapsed := q.elapsed + 1 }
        (s.setThs { s.ths with step := s.ths.step.withRecord { q with elapsed := q.elapsed + 1 } })
      exact ⟨out.clm, out.settings, out.hour, out.minute⟩
    · exact ⟨rfl, rfl, rfl, rfl⟩

theorem countInterval_running {s : State} (runs : s.ths.step ≠ .idle) :
    (countInterval s).ths.step = s.ths.step ∧ (countInterval s).ths.pointer = s.ths.pointer ∧
      (countInterval s).ths.passes = s.ths.passes ∧ (countInterval s).ths.messages = s.ths.messages := by
  unfold countInterval
  split
  · split
    · unfold expireInterval
      dsimp only
      split
      next idle => exact absurd idle runs
      next => exact ⟨rfl, rfl, rfl, rfl⟩
    · exact ⟨rfl, rfl, rfl, rfl⟩
  · exact ⟨rfl, rfl, rfl, rfl⟩

/-- An interval that does not expire now. -/
theorem countInterval_later {s : State} (later : ∀ m, s.ths.interval = some m → 1 < m) :
    ∃ i, countInterval s = s.setThs { s.ths with interval := i } := by
  unfold countInterval
  split
  next m enabled timed => exact ⟨_, if_neg (not_le.2 (later m timed))⟩
  next => exact ⟨s.ths.interval, rfl⟩

/-! ### The overdue test (R162) -/

/-- What the overdue test leaves. -/
structure Judged (s t : State) : Prop where
  clm : t.clm = s.clm
  ths : t.ths = { s.ths with overdue := t.ths.overdue }
  kinds : ∀ k, k ≠ .holdOverdue → t.flt.kindRec k = s.flt.kindRec k

theorem Judged.refl (s : State) : Judged s s := ⟨rfl, rfl, fun _ _ => rfl⟩

theorem overdueTest_judged (s : State) : Judged s (overdueTest s) := by
  unfold overdueTest
  split
  · split
    · refine ⟨report_clm .., ?_, fun k other => (report_kindRec ..).trans (if_neg other)⟩
      rw [report_ths]
      rfl
    · exact .refl s
  · exact .refl s

theorem find?_of_first {α : Type} {r : α → α → Prop} {l : List α} (sorted : l.Pairwise r) {p : α → Bool} {a : α} (mem : a ∈ l)
    (holds : p a = true) (first : ∀ x ∈ l, r x a → p x = false) : l.find? p = some a := by
  obtain ⟨l₁, l₂, rfl⟩ := List.append_of_mem mem
  refine List.find?_eq_some_iff_append.2 ⟨holds, l₁, l₂, rfl, fun x hx => ?_⟩
  rw [first x (List.mem_append_left _ hx) ((List.pairwise_append.1 sorted).2.2 x hx a (by simp))]
  rfl

/-- The highest overdue layer. -/
theorem overdueLayer_highest {s : State} {i : Fin 16} (base : s.ths.settings.base ≤ i)
    (old : s.ths.settings.period + 24 ≤ s.clm.layers[i].holdAge)
    (highest : ∀ j, i < j → ¬ (s.ths.settings.base ≤ j ∧ s.ths.settings.period + 24 ≤ s.clm.layers[j].holdAge)) :
    s.overdueLayer = some i := by
  have top (j : Fin 16) : j ≤ 15 := Fin.le_last j
  refine find?_of_first (r := (· > ·)) ?_ ?_ (decide_eq_true old) fun j mem above => ?_
  · exact List.pairwise_reverse.2 ((List.pairwise_lt_finRange 16).filter _)
  · simpa [coilLayers, top] using base
  · have mem : s.ths.settings.base ≤ j := by simpa [coilLayers, top] using mem
    exact decide_eq_false fun old => highest j above ⟨mem, old⟩

theorem overdueLayer_none {s : State}
    (young : ∀ j, ¬ (s.ths.settings.base ≤ j ∧ s.ths.settings.period + 24 ≤ s.clm.layers[j].holdAge)) : s.overdueLayer = none := by
  refine List.find?_eq_none.2 fun j mem old => young j ⟨?_, of_decide_eq_true old⟩
  have mem : s.ths.settings.base ≤ j ∧ j ≤ 15 := by simpa [coilLayers] using mem
  exact mem.1

/-- The overdue test of an enabled stepper without the flag (R162). -/
theorem overdueTest_finds {s : State} {i : Fin 16} (enabled : s.ths.settings.enable = true) (fresh : s.ths.overdue = false)
    (found : s.overdueLayer = some i) :
    (overdueTest s).ths.overdue = true ∧ (overdueTest s).flt.kindRec .holdOverdue = s.reported .holdOverdue (.layer i) := by
  have told : overdueTest s = report .holdOverdue (.layer i) (s.setThs { s.ths with overdue := true }) := by
    unfold overdueTest
    rw [enabled, fresh, found]
    rfl
  rw [told]
  exact ⟨congrArg Ths.overdue (report_ths ..), report_status ..⟩

theorem overdueTest_none {s : State} (h : s.ths.settings.enable = false ∨ s.ths.overdue = true ∨ s.overdueLayer = none) :
    overdueTest s = s := by
  unfold overdueTest
  split
  next tested =>
    rw [Bool.and_eq_true, Bool.not_eq_true'] at tested
    rcases h with h | h | h
    · exact absurd (tested.1.symm.trans h) nofun
    · exact absurd (tested.2.symm.trans h) nofun
    · rw [h]
  next => rfl

/-! ### The running step (R156, R158) -/

theorem withRecord_record {x : HoldStep} {q : StepRec} (runs : x.record? = some q) (r : StepRec) :
    (x.withRecord r).record? = some r ∧ (∀ r', (x.withRecord r).withRecord r' = x.withRecord r') ∧ x.withRecord r ≠ .idle := by
  cases x with
  | idle => cases runs
  | seeking => exact ⟨rfl, fun _ => rfl, nofun⟩
  | heating => exact ⟨rfl, fun _ => rfl, nofun⟩

/-- The record of a step with the layers that completed a dwell (R156). -/
def StepRec.gain (q : StepRec) (completed : List (Fin 16)) : StepRec :=
  { q with done := q.section.filter fun i => q.done.contains i || completed.contains i }

theorem mem_gain {q : StepRec} {completed : List (Fin 16)} {i : Fin 16} :
    i ∈ (q.gain completed).done ↔ (q.low ≤ i ∧ i ≤ q.top) ∧ (i ∈ q.done ∨ i ∈ completed) := by
  simp [StepRec.gain, mem_section]

theorem gain_filled {q : StepRec} {completed : List (Fin 16)} :
    (q.gain completed).filled = true ↔ ∀ i, (q.low ≤ i ∧ i ≤ q.top) → i ∈ q.done ∨ i ∈ completed := by
  have each : (q.gain completed).filled = true ↔ ∀ i, i ∈ q.section → i ∈ (q.gain completed).done := by
    unfold StepRec.filled
    rw [List.all_eq_true]
    exact forall_congr' fun i => imp_congr_right fun _ => List.contains_iff_mem
  rw [each]
  exact forall_congr' fun i => by rw [mem_section, mem_gain]; tauto

theorem stepProgress_running {s : State} {q : StepRec} (runs : s.ths.step.record? = some q) (completed : List (Fin 16)) :
    stepProgress completed s =
      let t := s.setThs { s.ths with step := s.ths.step.withRecord (q.gain completed) }
      if (q.gain completed).filled then completeStep (q.gain completed) t else t := by
  unfold stepProgress
  rw [runs]
  rfl

theorem stepProgress_idle {s : State} (idle : s.ths.step = .idle) (completed : List (Fin 16)) : stepProgress completed s = s := by
  unfold stepProgress
  rw [idle]
  rfl

/-- A step that completes with nothing pending is the last (R158). -/
theorem completeStep_last {s : State} (r : StepRec) (pending : s.ths.pendingFlag = false) (pass : s.ths.fullPass = false) :
    completeStep r s = finishStep r s := by
  have flags : (finishStep r s).ths.pendingFlag = false ∧ (finishStep r s).ths.fullPass = false := by
    unfold finishStep
    dsimp only
    split
    · exact ⟨pending, rfl⟩
    · exact ⟨pending, pass⟩
  unfold completeStep nextStep
  generalize finishStep r s = t at flags
  obtain ⟨pending, pass⟩ := flags
  rw [pending, pass]
  split
  · rfl
  · show t.setThs { t.ths with pendingFlag := false, fullPass := false } = t
    have same (x : Ths) (flag : x.pendingFlag = false) (pass : x.fullPass = false) :
        { x with pendingFlag := false, fullPass := false } = x := by
      obtain ⟨⟩ := x
      subst flag pass
      rfl
    rw [same _ pending pass]
    rfl

/-- The pointer after a completed step, and the pass below the base (R158). -/
theorem finishStep_ths (r : StepRec) (s : State) :
    let p : Int := if s.ths.pointer = r.top then (r.top.val : Int) - r.width.layers else s.ths.pointer.val
    let t := finishStep r s
    t.ths.step = .idle ∧ t.ths.messages = s.ths.messages ++ [.stepEnd] ∧ t.ths.interval = s.ths.interval ∧
      if p < s.ths.settings.base.val then t.ths.pointer = 15 ∧ t.ths.passes = s.ths.passes + 1 ∧ t.ths.overdue = false
      else t.ths.pointer.val = p ∧ t.ths.passes = s.ths.passes := by
  intro p t
  have after : s.ths.pointerAfter r = p := rfl
  have finish : t =
      if p < s.ths.settings.base.val then
        s.setThs { s.ths with
          messages := s.ths.messages ++ [.stepEnd], pointer := 15, passes := s.ths.passes + 1, fullPass := false, overdue := false
          step := .idle }
      else s.setThs { s.ths with messages := s.ths.messages ++ [.stepEnd], pointer := Fin.ofNat 16 p.toNat, step := .idle } := rfl
  rw [finish]
  by_cases below : p < s.ths.settings.base.val
  · simp only [if_pos below]
    exact ⟨rfl, rfl, rfl, rfl, rfl, rfl⟩
  · simp only [if_neg below]
    refine ⟨rfl, rfl, rfl, ?_, rfl⟩
    have high : p ≤ 15 := by
      have := r.top.isLt
      have := s.ths.pointer.isLt
      show (if s.ths.pointer = r.top then (r.top.val : Int) - r.width.layers else s.ths.pointer.val) ≤ 15
      split <;> omega
    show ((p.toNat % 16 : Nat) : Int) = p
    omega

/-! ### The minute event (R149) -/

/-- The block after the bookkeeping of a minute. -/
def State.booked (s : State) : State := bookkeeping (s.setThs { s.ths with minuteLeft := Config.minuteSeconds })

/-- The block before the overdue test of a minute. -/
def State.ticked (s : State) : State := countInterval (countElapsed (stepProgress s.dwellsCompleted s.booked))

/-- Two records of the stepper that differ in the hour and the minute at most. -/
structure Ths.Alike (a b : Ths) : Prop where
  step : b.step = a.step
  pointer : b.pointer = a.pointer
  passes : b.passes = a.passes
  messages : b.messages = a.messages
  interval : b.interval = a.interval
  pending : b.pendingFlag = a.pendingFlag
  pass : b.fullPass = a.fullPass
  overdue : b.overdue = a.overdue
  settings : b.settings = a.settings
  failed : b.failedSteps = a.failedSteps

theorem State.booked_booked (s : State) : Booked (s.setThs { s.ths with minuteLeft := Config.minuteSeconds }) s.booked :=
  bookkeeping_booked _

theorem State.booked_alike (s : State) : s.ths.Alike s.booked.ths := by
  rw [s.booked_booked.ths]
  exact ⟨rfl, rfl, rfl, rfl, rfl, rfl, rfl, rfl, rfl, rfl⟩

theorem minuteEvent_eq (s : State) :
    minuteEvent s = if s.ths.hourWraps && s.clm.model.seeded then overdueTest s.ticked else s.ticked := rfl

theorem minuteEvent_judged (s : State) : Judged s.ticked (minuteEvent s) := by
  rw [minuteEvent_eq]
  split
  · exact overdueTest_judged _
  · exact .refl _

theorem State.ticked_ticked (s : State) : Ticked s.booked s.ticked :=
  ((stepProgress_moved ..).ticked.trans (countElapsed_ticked _)).trans (countInterval_moved _).ticked

theorem hourWraps_eq (t : Ths) : t.hourWraps = decide (59 ≤ t.hourCount) := decide_eq_decide.2 (by omega)

/-- What stands of the books after a minute event. -/
theorem minuteEvent_books (s : State) :
    (minuteEvent s).ths.hourCount = (if 59 ≤ s.ths.hourCount then 0 else s.ths.hourCount + 1) ∧ (minuteEvent s).ths.minuteLeft = 60 ∧
      (s.clm.model = .unseeded → (minuteEvent s).clm = s.clm) ∧
      (s.clm.model ≠ .unseeded → ∀ i : Fin 16,
        (minuteEvent s).clm.layers[i].hotDwell = s.clm.layers[i].dwellAfter s.ths.settings ∧
        (minuteEvent s).clm.layers[i].holdAge =
          if s.clm.layers[i].completesDwell s.ths.settings then 0 else s.clm.layers[i].ageAfter (decide (59 ≤ s.ths.hourCount))) := by
  have booked := bookkeeping_booked (s.setThs { s.ths with minuteLeft := Config.minuteSeconds })
  have ticked := s.ticked_ticked
  have judged := minuteEvent_judged s
  have clm : (minuteEvent s).clm = s.booked.clm := judged.clm.trans ticked.clm
  have wraps := hourWraps_eq s.ths
  have wraps' : ({ s.ths with minuteLeft := Config.minuteSeconds } : Ths).hourWraps = decide (59 ≤ s.ths.hourCount) := wraps
  refine ⟨?_, ?_, fun unseeded => ?_, fun seeded i => ⟨?_, ?_⟩⟩
  · rw [judged.ths]
    refine ticked.hour.trans ((congrArg Ths.hourCount booked.ths).trans ?_)
    exact if_congr ((Bool.eq_iff_iff.1 wraps').trans decide_eq_true_iff) rfl rfl
  · rw [judged.ths]
    exact ticked.minute.trans (congrArg Ths.minuteLeft booked.ths)
  · rw [clm]; exact booked.unseeded unseeded
  · rw [clm]; exact booked.dwell seeded i
  · rw [clm, ← wraps']; exact booked.age seeded i

theorem mem_dwellsCompleted {s : State} {i : Fin 16} :
    i ∈ s.dwellsCompleted ↔ s.clm.model ≠ .unseeded ∧ s.clm.layers[i].completesDwell s.ths.settings = true := by
  unfold State.dwellsCompleted
  by_cases seeded : s.clm.model = .unseeded
  · rw [seeded]; simp [ModelState.seeded]
  · rw [if_pos ((seeded_iff _).2 seeded)]
    simp [seeded]

/-- The block in which a running step has gained the layers that completed a dwell. -/
def State.gained (s : State) (q : StepRec) : State :=
  s.booked.setThs { s.booked.ths with step := s.booked.ths.step.withRecord (q.gain s.dwellsCompleted) }

/-- The running step's part of a minute, when its section is not done (R156, R159). -/
theorem ticked_open {s : State} {q : StepRec} (runs : s.ths.step.record? = some q)
    (open_ : (q.gain s.dwellsCompleted).filled ≠ true) :
    (s.gained q).ths.step.record? = some (q.gain s.dwellsCompleted) ∧ s.ticked = countInterval (countElapsed (s.gained q)) := by
  have runs_b : s.booked.ths.step.record? = some q := by rw [s.booked_alike.step]; exact runs
  refine ⟨(withRecord_record runs_b _).1, ?_⟩
  rw [State.ticked, stepProgress_running runs_b]
  exact congrArg (fun u => countInterval (countElapsed u)) (if_neg open_)

/-- A running step that goes on (R156, R159). -/
theorem ticked_goesOn {s : State} {q : StepRec} (runs : s.ths.step.record? = some q)
    (open_ : (q.gain s.dwellsCompleted).filled ≠ true) (early : q.elapsed + 1 < s.ths.settings.timeout) :
    s.ticked.ths.step = s.ths.step.withRecord { q.gain s.dwellsCompleted with elapsed := q.elapsed + 1 } ∧
      s.ticked.ths.pointer = s.ths.pointer ∧ s.ticked.ths.passes = s.ths.passes ∧ s.ticked.ths.messages = s.ths.messages := by
  have alike := s.booked_alike
  obtain ⟨record, ticked⟩ := ticked_open runs open_
  have early_u : ¬ (s.gained q).ths.settings.timeout ≤ (q.gain s.dwellsCompleted).elapsed + 1 := by
    have settings : (s.gained q).ths.settings = s.ths.settings := alike.settings
    rw [settings]; exact not_le.2 early
  have elapsed := (countElapsed_running record).trans (if_neg early_u)
  have busy : (countElapsed (s.gained q)).ths.step ≠ .idle := by
    rw [elapsed]; exact (withRecord_record record _).2.2
  obtain ⟨step, pointer, passes, messages⟩ := countInterval_running busy
  have again := (withRecord_record runs (q.gain s.dwellsCompleted)).2.1
  have gained : (s.gained q).ths.step = s.ths.step.withRecord (q.gain s.dwellsCompleted) :=
    congrArg (HoldStep.withRecord _) alike.step
  rw [ticked, step, pointer, passes, messages, elapsed]
  refine ⟨?_, alike.pointer, alike.passes, alike.messages⟩
  rw [← again, ← gained]
  rfl

/-- A running step that times out at this minute (R159). -/
theorem ticked_timesOut {s : State} {q : StepRec} (runs : s.ths.step.record? = some q)
    (open_ : (q.gain s.dwellsCompleted).filled ≠ true) (late : s.ths.settings.timeout ≤ q.elapsed + 1) :
    s.ticked.ths.failedSteps = min 65535 (s.ths.failedSteps + 1) ∧
      s.ticked.flt.kindRec .holdIncomplete = s.reported .holdIncomplete (.layer q.top) := by
  have alike := s.booked_alike
  have flt : s.booked.flt = s.flt := s.booked_booked.flt
  obtain ⟨record, ticked⟩ := ticked_open runs open_
  have late_u : (s.gained q).ths.settings.timeout ≤ (q.gain s.dwellsCompleted).elapsed + 1 := by
    have settings : (s.gained q).ths.settings = s.ths.settings := alike.settings
    rw [settings]; exact late
  have elapsed := (countElapsed_running record).trans (if_pos late_u)
  have moved := countInterval_moved (countElapsed (s.gained q))
  rw [← ticked] at moved
  rw [moved.failed, moved.flt, elapsed]
  have out := timeOut_timedOut { q.gain s.dwellsCompleted with elapsed := (q.gain s.dwellsCompleted).elapsed + 1 }
    ((s.gained q).setThs { (s.gained q).ths with
      step := (s.gained q).ths.step.withRecord
        { q.gain s.dwellsCompleted with elapsed := (q.gain s.dwellsCompleted).elapsed + 1 } })
  refine ⟨out.failed.trans ?_, out.reported.trans ?_⟩
  · exact congrArg (fun n => min 65535 (n + 1)) alike.failed
  · have same : (s.gained q).flt = s.flt := flt
    simp only [State.reported, State.setThs, same]
    rfl

/-- A running step that completes with nothing pending (R158). -/
theorem ticked_completes {s : State} {q : StepRec} (runs : s.ths.step.record? = some q)
    (full : (q.gain s.dwellsCompleted).filled = true) (pending : s.ths.pendingFlag = false) (pass : s.ths.fullPass = false)
    (later : ∀ m, s.ths.interval = some m → 1 < m) :
    let p : Int := if s.ths.pointer = q.top then (q.top.val : Int) - q.width.layers else s.ths.pointer.val
    s.ticked.ths.step = .idle ∧ s.ticked.ths.messages = s.ths.messages ++ [.stepEnd] ∧
      if p < s.ths.settings.base.val then
        s.ticked.ths.pointer = 15 ∧ s.ticked.ths.passes = s.ths.passes + 1 ∧ s.ticked.ths.overdue = false
      else s.ticked.ths.pointer.val = p ∧ s.ticked.ths.passes = s.ths.passes := by
  have alike := s.booked_alike
  have runs_b : s.booked.ths.step.record? = some q := by rw [alike.step]; exact runs
  have progress : stepProgress s.dwellsCompleted s.booked = finishStep (q.gain s.dwellsCompleted) (s.gained q) :=
    (stepProgress_running runs_b _).trans ((if_pos full).trans
      (completeStep_last _ (alike.pending.trans pending) (alike.pass.trans pass)))
  obtain ⟨step, messages, interval, moved⟩ := finishStep_ths (q.gain s.dwellsCompleted) (s.gained q)
  have later_b (m : Nat) (h : (finishStep (q.gain s.dwellsCompleted) (s.gained q)).ths.interval = some m) : 1 < m :=
    later m (alike.interval.symm.trans (interval.symm.trans h))
  obtain ⟨i, loads⟩ := countInterval_later later_b
  have ticked : s.ticked = countInterval (finishStep (q.gain s.dwellsCompleted) (s.gained q)) := by
    rw [State.ticked, progress, countElapsed_idle step]
  have pointer_g : (s.gained q).ths.pointer = s.ths.pointer := alike.pointer
  have passes_g : (s.gained q).ths.passes = s.ths.passes := alike.passes
  have settings_g : (s.gained q).ths.settings = s.ths.settings := alike.settings
  have messages_g : (s.gained q).ths.messages = s.ths.messages := alike.messages
  rw [pointer_g, passes_g, settings_g] at moved
  rw [messages_g] at messages
  rw [ticked, loads]
  exact ⟨step, messages, moved⟩

/-- With no step running and the interval not at its end, the stepper's records stand (R149). -/
theorem ticked_idle {s : State} (idle : s.ths.step = .idle) (later : ∀ m, s.ths.interval = some m → 1 < m) :
    s.ticked.ths.overdue = s.ths.overdue ∧ s.ticked.flt = s.flt := by
  have alike := s.booked_alike
  have idle_b : s.booked.ths.step = .idle := alike.step.trans idle
  obtain ⟨i, loads⟩ := countInterval_later (s := s.booked) (by rw [alike.interval]; exact later)
  have ticked : s.ticked = s.booked.setThs { s.booked.ths with interval := i } := by
    rw [State.ticked, stepProgress_idle idle_b, countElapsed_idle idle_b, loads]
  rw [ticked]
  exact ⟨alike.overdue, s.booked_booked.flt⟩

/-- The overdue test of a minute event in which no step runs (R162). -/
theorem minuteEvent_overdue {s : State} (idle : s.ths.step = .idle) (later : ∀ m, s.ths.interval = some m → 1 < m) :
    let old (i : Fin 16) : Nat := if s.clm.layers[i].completesDwell s.ths.settings then 0 else min 65535 (s.clm.layers[i].holdAge + 1)
    let due (i : Fin 16) : Prop := s.ths.settings.base ≤ i ∧ s.ths.settings.period + 24 ≤ old i
    let tested : Prop := 59 ≤ s.ths.hourCount ∧ s.clm.model ≠ .unseeded ∧ s.ths.settings.enable = true ∧ s.ths.overdue = false
    (∀ i, tested → due i → (∀ j, i < j → ¬ due j) →
      (minuteEvent s).ths.overdue = true ∧ (minuteEvent s).flt.kindRec .holdOverdue = s.reported .holdOverdue (.layer i)) ∧
    (¬ tested ∨ (∀ i, ¬ due i) →
      (minuteEvent s).ths.overdue = s.ths.overdue ∧
        (minuteEvent s).flt.kindRec .holdOverdue = s.flt.kindRec .holdOverdue) := by
  intro old due tested
  obtain ⟨overdue, flt⟩ := ticked_idle idle later
  have settings : s.ticked.ths.settings = s.ths.settings := s.ticked_ticked.settings.trans s.booked_alike.settings
  have advances : (s.ths.hourWraps && s.clm.model.seeded) = true ↔ 59 ≤ s.ths.hourCount ∧ s.clm.model ≠ .unseeded := by
    rw [Bool.and_eq_true, hourWraps_eq, decide_eq_true_iff, seeded_iff]
  have due_iff (hour : 59 ≤ s.ths.hourCount) (seeded : s.clm.model ≠ .unseeded) (i : Fin 16) :
      (s.ticked.ths.settings.base ≤ i ∧ s.ticked.ths.settings.period + 24 ≤ s.ticked.clm.layers[i].holdAge) ↔ due i := by
    have age : s.ticked.clm.layers[i].holdAge = old i := by
      rw [s.ticked_ticked.clm]
      refine (s.booked_booked.age seeded i).trans ?_
      have wraps : (s.setThs { s.ths with minuteLeft := Config.minuteSeconds }).ths.hourWraps = true :=
        (hourWraps_eq _).trans (decide_eq_true hour)
      rw [wraps]
      rfl
    rw [age, settings]
  rw [minuteEvent_eq]
  refine ⟨fun i test here highest => ?_, fun untold => ?_⟩
  · obtain ⟨hour, seeded, enabled, fresh⟩ := test
    have same := due_iff hour seeded
    obtain ⟨base, aged⟩ := (same i).2 here
    have found := overdueLayer_highest base aged fun j above h => highest j above ((same j).1 h)
    obtain ⟨set, told⟩ := overdueTest_finds (by rw [settings]; exact enabled) (overdue.trans fresh) found
    rw [if_pos (advances.2 ⟨hour, seeded⟩)]
    refine ⟨set, told.trans ?_⟩
    simp only [State.reported, flt]
  · have still : (if s.ths.hourWraps && s.clm.model.seeded then overdueTest s.ticked else s.ticked) = s.ticked := by
      split
      next advanced =>
        obtain ⟨hour, seeded⟩ := advances.1 advanced
        refine overdueTest_none ?_
        rw [settings, overdue]
        rcases untold with untested | young
        · by_cases enabled : s.ths.settings.enable = true
          · by_cases fresh : s.ths.overdue = false
            · exact absurd ⟨hour, seeded, enabled, fresh⟩ untested
            · exact .inr (.inl (by simpa using fresh))
          · exact .inl (by simpa using enabled)
        · exact .inr (.inr (overdueLayer_none fun j h => young j ((due_iff hour seeded j).1 h)))
      next => rfl
    rw [still, overdue, flt]
    exact ⟨rfl, rfl⟩

/-- Settles O60. -/
theorem minutesKeepTheBooksOfTheHold : Obligations.MinutesKeepTheBooksOfTheHold := by
  intro s dwell completes age
  have completes_iff (l : Layer) : l.completesDwell s.ths.settings = true ↔ completes l := by
    unfold Layer.completesDwell
    rw [Bool.and_eq_true, decide_eq_true_iff, decide_eq_true_iff]
    rfl
  have age_eq (hour : Bool) (l : Layer) :
      (if l.completesDwell s.ths.settings then 0 else l.ageAfter hour) = age hour l :=
    if_congr (completes_iff l) rfl rfl
  refine ⟨⟨minuteEvent s, rfl, ?_⟩, ⟨minuteEvent (s.setThs { s.ths with hourCount := 59 }), rfl, ?_⟩, rfl, fun q runs quiet => ?_⟩
  · obtain ⟨hour, minute, unseeded, seeded⟩ := minuteEvent_books s
    have judged := minuteEvent_judged s
    have ths := judged.ths
    refine ⟨hour, minute, unseeded, fun h i => ?_, (minuteEvent_inner s).untouched, fun q runs => ?_, fun idle later => ?_⟩
    · obtain ⟨hot, old⟩ := seeded h i
      exact ⟨hot, old.trans (age_eq ..)⟩
    · intro inside done
      have record := running_record runs
      have done_iff (i : Fin 16) : (i ∈ q.done ∨ i ∈ s.dwellsCompleted) ↔ done i :=
        or_congr_right (mem_dwellsCompleted.trans (and_congr_right fun _ => completes_iff _))
      have full_iff : (q.gain s.dwellsCompleted).filled = true ↔ ∀ i, inside i → done i :=
        gain_filled.trans (forall_congr' fun i => imp_congr_right fun _ => done_iff i)
      have open_of (h : ∃ i, inside i ∧ ¬ done i) : (q.gain s.dwellsCompleted).filled ≠ true := by
        obtain ⟨i, within, cold⟩ := h
        exact fun full => cold (full_iff.1 full i within)
      refine ⟨fun h early => ?_, fun h late => ?_, fun full pending pass later => ?_⟩
      · obtain ⟨step, pointer, passes, messages⟩ := ticked_goesOn record (open_of h) early
        rw [ths]
        exact ⟨⟨_, fun i => mem_gain.trans (and_congr_right fun _ => done_iff i), step⟩, pointer, passes, messages⟩
      · obtain ⟨failed, told⟩ := ticked_timesOut record (open_of h) late
        rw [ths, judged.kinds .holdIncomplete nofun]
        exact ⟨failed, told⟩
      · intro p
        obtain ⟨step, messages, moved⟩ := ticked_completes record (full_iff.2 full) pending pass later
        have calm (early : s.ths.hourCount < 59) : minuteEvent s = s.ticked := by
          refine if_neg fun advanced => ?_
          rw [Bool.and_eq_true, hourWraps_eq, decide_eq_true_iff] at advanced
          exact absurd advanced.1 (not_le.2 early)
        refine ⟨by rw [ths]; exact step, by rw [ths]; exact messages, ?_⟩
        by_cases below : p < s.ths.settings.base.val
        · rw [if_pos below] at moved ⊢
          obtain ⟨pointer, passes, overdue⟩ := moved
          exact ⟨by rw [ths]; exact pointer, by rw [ths]; exact passes, fun early => by rw [calm early]; exact overdue⟩
        · rw [if_neg below] at moved ⊢
          rw [ths]
          exact moved
    · have test := minuteEvent_overdue idle later
      simp only [if_congr (completes_iff _) rfl rfl] at test
      exact test
  · obtain ⟨hour, -, -, seeded⟩ := minuteEvent_books (s.setThs { s.ths with hourCount := 59 })
    refine ⟨hour, fun h i => ?_, (minuteEvent_inner (s.setThs { s.ths with hourCount := 59 })).untouched⟩
    obtain ⟨hot, old⟩ := seeded h i
    exact ⟨hot, old.trans (age_eq true _)⟩
  · have run : exec .stepTimeout s = .next (timeOut q s) := by
      show execStepTimeout s = _
      unfold execStepTimeout
      rw [running_record runs]
    have idle : ¬ (s.ths.settings.enable && s.ths.pendingFlag) = true := by
      rw [Bool.and_eq_true]
      rintro ⟨enabled, pending⟩
      rcases quiet with none | off
      · exact Bool.false_ne_true (none.symm.trans pending)
      · exact Bool.false_ne_true (off.symm.trans enabled)
    have out := timeOut_eq q s
    dsimp only at out
    rw [if_neg idle, report_eq] at out
    rw [out] at run
    exact ⟨_, run, rfl, report_status .holdIncomplete (.layer q.top) s, rfl⟩

end Sys2Proof.Machine
end
